-- ==== Sys2Proof/Word.lean ====
section
/-! DEFINITION. The words of the 3208: bytes, mesh station addresses, times, and the index types of its tables.
Only types stand here; every function over them stands under Machine/. -/

namespace Sys2Proof

/-- One byte on a port. -/
abbrev Byte := BitVec 8

/-- A 48-bit mesh station address, first byte most significant (scope, "Addresses"; R171). -/
abbrev Addr := BitVec 48

/-- A Timebase count: 32 bits of milliseconds, wrapping (R170). -/
abbrev Time := BitVec 32

/-- A radio, and the Radio Port that serves it (chapter 6). -/
abbrev Radio := Fin 3

/-- A link id (R1). -/
abbrev LinkId := Fin 32

/-- A destination index (R49). -/
abbrev DestId := Fin 128

/-- A candidate id in the pool (R54). -/
abbrev CandId := Fin 256

/-- A rate index (R29). -/
abbrev Rate := Fin 12

/-- An antenna sector (R1). -/
abbrev Sector := Fin 8

/-- A parameter number (R166). -/
abbrev ParamNo := Fin 22

end Sys2Proof
end

