-- ==== Sys2Proof/Syntax.lean ====
section
/-! DEFINITION. The commands of the 3208: one constructor per row of spec/opcode_table.json, each a whole and
indivisible event of the part (95_what_each_step_holds.md). A host command of the Control Port is carried out from the
command in hand (R149, R150), which holds its code and arguments, so the event that carries the command out has no
operand of its own. -/

namespace Sys2Proof

/-- The events of the part, in the order of spec/opcode_table.json. -/
inductive Instr where
  /-- A stretch of a frame (R149): whether CS is asserted at its start, and the bytes the host clocks in it. A whole frame
  up to its waiting phase is one such event, `commandTaken true (code :: length :: arguments)`. A frame that other events
  come between is given in several, the first of them with `true` (log entry 5). -/
  | commandTaken (begins : Bool) (bytes : List Byte)
  /-- CS is asserted for a frame begun while a command is in hand, or during a reset or initialisation (R152). -/
  | ignoredFrame
  /-- CS is withdrawn in the code, length or arguments phase (R151). -/
  | abortedFrame
  /-- The command in hand has a code that names no command, and is carried out (R153). -/
  | unknownCommand
  /-- READ IDENTITY is carried out (R155). -/
  | readIdentity
  /-- READ TIME is carried out (R156). -/
  | readTime
  /-- LOAD RATE PROFILE is carried out (R30). -/
  | loadRateProfile
  /-- SET PARAMETER is carried out (R166, R167). -/
  | setParameter
  /-- GET PARAMETER is carried out (R166). -/
  | getParameter
  /-- GO OPERATIONAL is carried out (R165). -/
  | goOperational
  /-- RESET PART is carried out (R168). -/
  | resetPart
  /-- ADD LINK is carried out (R3, R4). -/
  | addLink
  /-- UPDATE LINK is carried out (R17, R40, R157). -/
  | updateLink
  /-- RETIRE LINK is carried out (R21, R22). -/
  | retireLink
  /-- READ LINK is carried out (R2). -/
  | readLink
  /-- ADD DESTINATION is carried out (R52). -/
  | addDestination
  /-- FIND DESTINATION is carried out (R51). -/
  | findDestination
  /-- REMOVE DESTINATION is carried out (R67). -/
  | removeDestination
  /-- READ DESTINATION is carried out (R53). -/
  | readDestination
  /-- ADD CANDIDATE is carried out (R61). -/
  | addCandidate
  /-- UPDATE CANDIDATE is carried out (R63 to R65). -/
  | updateCandidate
  /-- REMOVE CANDIDATE is carried out (R66). -/
  | removeCandidate
  /-- READ CANDIDATE is carried out (R56). -/
  | readCandidate
  /-- SET CURSOR is carried out (R158). -/
  | setCursor
  /-- READ AT CURSOR is carried out (R159, R160). -/
  | readAtCursor
  /-- READ SUMMARY is carried out (R146). -/
  | readSummary
  /-- NEXT EVENT LINK is carried out (R141). -/
  | nextEventLink
  /-- READ LINK EVENTS is carried out (R140). -/
  | readLinkEvents
  /-- TAKE CHANGES is carried out (R143). -/
  | takeChanges
  /-- READ PORT STATUS is carried out (R118). -/
  | readPortStatus
  /-- FLUSH REPORTS is carried out (R117). -/
  | flushReports
  /-- READ JOB NOTICE is carried out (R134). -/
  | readJobNotice
  /-- START JOB is carried out (R122 to R124). -/
  | startJob
  /-- STOP JOB is carried out (R132). -/
  | stopJob
  /-- READ JOB STATE is carried out (R133). -/
  | readJobState
  /-- The frame switch offers a PATH QUERY with this tag and destination address (R95, R173). -/
  | pathQuery (tag : Byte) (dest : Addr)
  /-- The frame switch takes the PATH ANSWER held at the head (R101). -/
  | pathAnswer
  /-- A message of the wrong length passes on the query direction (R174). -/
  | malformedQuery (bytes : List Byte)
  /-- A radio offers a PARAM REQUEST naming this link id (R108, R109). -/
  | paramRequest (port : Radio) (link : Byte)
  /-- A radio takes the PARAM ANSWER held in its port's slot (R108). -/
  | paramAnswer (port : Radio)
  /-- A message of the wrong length passes on a port's request direction (R174). -/
  | malformedRequest (port : Radio) (bytes : List Byte)
  /-- A radio sends an OUTCOME REPORT, its fields as the bytes carry them (R112, R173). -/
  | outcomeReport (port : Radio) (link : Byte) (peer : Addr) (rate attempts acked : Byte)
  /-- A radio sends a HEARD REPORT, its fields as the bytes carry them (R112, R173). -/
  | heardReport (port : Radio) (peer : Addr) (snr sector beacon : Byte)
  /-- A radio sends a report whose kind byte or length is that of no report (R173). -/
  | unrecognisedReport (port : Radio) (bytes : List Byte)
  /-- The head report of a port's queue is taken (R113). -/
  | reportTake (port : Radio)
  /-- The Timebase count rises by one (R170). -/
  | millisecondTick
  /-- The silence deadline of a link expires (R13). -/
  | silenceDeadlineExpiry (link : LinkId)
  /-- A RETIRE LINKS job makes its next visit (R127). -/
  | retireLinksVisit
  /-- A RETUNE RADIO job makes its next visit (R128). -/
  | retuneRadioVisit
  /-- A PRUNE DESTINATIONS job makes its next visit (R129). -/
  | pruneDestinationsVisit
  /-- The soft reset armed by RESET PART takes effect (R168). -/
  | softReset
  /-- RESETN is asserted (R168). -/
  | powerOnReset
  /-- RESETN is withdrawn while the presence lines PRES0 to PRES2 read these levels (R107, R168). -/
  | powerOnResetEnd (pres0 pres1 pres2 : Bool)
  /-- Initialisation completes (R169). -/
  | initialisationEnd
  /-- CS is withdrawn in the waiting, answer or after-answer phase (R151). -/
  | csWithdrawn
  deriving DecidableEq, Repr

end Sys2Proof
end

