-- ==== Sys2Proof/Decode.lean ====
section
/-! DEFINITION. spec/opcode_table.json gives no row any bits (its rows are the part's events, not words of a program),
so no word spells a command. The byte codes of the host's commands (R171) are read by the Control Port when a
command is taken and carried out, in Machine/Operands.lean and Machine/ControlPort.lean. -/

namespace Sys2Proof

/-- The command that a word spells by the table's bits: none, since the table gives no bits. -/
def decodeTableWord (_nbits _w : Nat) : Option Instr := none

end Sys2Proof
end

