-- ==== Sys2Proof/Config.lean ====
section
/-! DEFINITION. The fixed figures of the 3208. The spec leaves no figure open to an implementation, so this file holds
no free value. -/

namespace Sys2Proof.Config

/-- The vendor code of READ IDENTITY (R155). -/
def vendorCode : Nat := 0x4C46

/-- The part code of READ IDENTITY (R155). -/
def partCode : Nat := 0x3208

/-- The silicon revision (R155). -/
def siliconRevision : Nat := 2

/-- The byte the Control Port returns outside an answer (R149, R171). -/
def filler : Byte := 0x00

/-- The byte that opens an answer on the Control Port (R149, R171). -/
def answerMarker : Byte := 0xA5

/-- The saturated cost: a rate, link or path with this cost is unusable (R37, R73). -/
def saturated : Nat := 65535

/-- The largest value of a saturating 16-bit count: the switch count (R78) and the dropped count (R112). -/
def countLimit : Nat := 65535

/-- The capacity of the query queue (R94). -/
def queryCapacity : Nat := 8

/-- The capacity of a report queue (R112). -/
def reportCapacity : Nat := 16

/-- The most candidates in one chain (R57). -/
def chainCapacity : Nat := 4

/-- The initial value of every delivery estimate (R27). -/
def initialEstimate : Nat := 512

/-- The delivery estimate below which a rate is unusable (R37). -/
def usableEstimate : Nat := 32

/-- The shortest good beacon gap in ms (R10). -/
def shortestGap : Nat := 10

/-- The longest good beacon gap in ms (R10). -/
def longestGap : Nat := 2000

/-- The number of good gaps in one measurement (R10). -/
def gapsPerMeasurement : Nat := 4

/-- The agreeing beacons that move a sector (R15). -/
def agreeToMove : Nat := 3

/-- The limit of the heard count (R8). -/
def heardLimit : Nat := 8

/-- The most indices one TAKE CHANGES returns (R143). -/
def changesPerTake : Nat := 8

end Sys2Proof.Config
end

