-- ==== Sys2Proof/Machine/Records.lean ====
section
/-! DEFINITION. The records the part's blocks keep: links, destinations, candidates, ports, jobs, the Control Port's
frame and cursor, and the answers that wait to be taken. Plain data only. -/

namespace Sys2Proof.Machine

/-- The six link event kinds (R26), in the bit order of R171. -/
inductive EventKind where
  | cameUp | degraded | recovered | wentDown | oneWay | sectorMoved
  deriving DecidableEq, Repr

/-- A set of link event kinds: one mark per kind, so no duplicates and no order (R26). -/
structure EventSet where
  cameUp : Bool := false
  degraded : Bool := false
  recovered : Bool := false
  wentDown : Bool := false
  oneWay : Bool := false
  sectorMoved : Bool := false
  deriving DecidableEq, Repr

/-- The state of a link record in use (R1, section 1.2). A Vacant record is the absent entry of the table. -/
inductive LinkState where
  | probation | up | degraded | down | retiring
  deriving DecidableEq, Repr

/-- Whether a link's sector tracks the peer's beacons (R1). -/
inductive SectorMode where
  | fixed | follow
  deriving DecidableEq, Repr

/-- The Link Estimator's four fields of a link record (R27). -/
structure Estimator where
  /-- S[0] to S[11], each 0 to 1024. -/
  delivery : Vector Nat 12
  /-- The SNR average in quarter-dB, absent or 0 to 252. -/
  snr : Option Nat
  /-- PARAM ANSWERs given since the last probe opportunity, 0 to 63. -/
  probe : Nat
  /-- The one-way condition. -/
  oneWay : Bool
  deriving DecidableEq, Repr

/-- A link record in use (R1) with the Link Estimator's fields (R27). -/
structure Link where
  state : LinkState
  radio : Radio
  peer : Addr
  sector : Sector
  mode : SectorMode
  /-- The follow candidate sector. -/
  followSector : Option Sector
  /-- The agree count. -/
  agree : Nat
  pinned : Option Rate
  /-- The heard count. -/
  heard : Nat
  lastHeard : Option Time
  lastBeacon : Option Time
  gapSum : Nat
  gapCount : Nat
  /-- The measured beacon interval in ms. -/
  interval : Option Nat
  /-- The silence deadline. -/
  deadline : Option Time
  /-- The reference count. -/
  refs : Nat
  /-- The pending link events. -/
  events : EventSet
  est : Estimator
  deriving DecidableEq, Repr

/-- One entry of the rate profile (R29): the reference airtime T in microseconds and the minimum SNR M in dB. -/
structure RateEntry where
  airtime : Nat
  minSnr : Nat
  deriving DecidableEq, Repr

/-- The state of a destination in use; by R50 it follows from the chain and the active candidate. -/
inductive DestState where
  | unresolved | resolved | unreachable
  deriving DecidableEq, Repr

/-- A destination record in use (R49). A Vacant record is the absent entry of the table. -/
structure Dest where
  address : Addr
  /-- The candidates, the host's first preference first. -/
  chain : List CandId
  active : Option CandId
  lastSwitch : Option Time
  switchCount : Nat
  deriving DecidableEq, Repr

/-- A candidate record in use (R54). A free record is the absent entry of the pool. -/
structure Cand where
  dest : DestId
  link : LinkId
  remainder : Nat
  lastCost : Nat
  deriving DecidableEq, Repr

/-- Where a candidate is placed in its chain (R59). -/
inductive Placement where
  | head | tail | after (c : CandId)
  deriving DecidableEq, Repr

/-- The result of a PATH ANSWER with the fields it carries (R101). -/
inductive PathResult where
  | ok (link : LinkId) (radio : Radio) (nextHop : Addr) (cost : Nat)
  | noPath
  | unknown
  | notReady
  deriving DecidableEq, Repr

/-- A PATH ANSWER (R101). -/
structure PathAnswer where
  tag : Byte
  result : PathResult
  deriving DecidableEq, Repr

/-- An entry of the query queue (R94): waiting while `answer` is absent, answer held once it is present. -/
structure Query where
  tag : Byte
  dest : Addr
  answer : Option PathAnswer
  deriving DecidableEq, Repr

/-- A PARAM ANSWER with the fields its result carries (R109). -/
inductive ParamAnswer where
  | ok (rate : Rate) (sector : Sector) (probe : Bool)
  | probation (sector : Sector)
  | unavailable
  | notReady
  deriving DecidableEq, Repr

/-- A report in a port's queue, its fields as the bytes carried them (R112, R173). -/
inductive Report where
  | outcome (link : Byte) (peer : Addr) (rate attempts acked : Byte)
  | heard (peer : Addr) (snr sector beacon : Byte)
  | unrecognised (bytes : List Byte)
  deriving DecidableEq, Repr

/-- What one Radio Port holds (chapter 6). -/
structure Port where
  /-- Presence as sampled at the end of the last power-on reset (R107). -/
  present : Bool
  /-- The report queue, oldest first (R112). -/
  reports : List Report
  /-- The dropped count (R116). -/
  dropped : Nat
  /-- The overflow flag (R116). -/
  overflow : Bool
  /-- The request slot: empty, or holding an answer (R108). -/
  slot : Option ParamAnswer
  deriving DecidableEq, Repr

/-- The three job kinds (R121). -/
inductive JobKind where
  | retireLinks | retuneRadio | pruneDestinations
  deriving DecidableEq, Repr

/-- A job's kind together with the selector of that kind (R123): masks as the bytes of R171 carry them. -/
inductive JobSelector where
  /-- Radio mask bits 0 to 2; state mask bit 0 Probation, 1 Up, 2 Degraded, 3 Down. -/
  | retireLinks (radios : BitVec 3) (states : BitVec 4)
  | retuneRadio (radio : Radio)
  /-- State mask bit 0 Unresolved, 1 Unreachable. -/
  | pruneDestinations (states : BitVec 2)
  deriving DecidableEq, Repr

/-- The job context (R121); the kind is the selector's. -/
structure JobContext where
  selector : JobSelector
  /-- The index the next visit will reach. -/
  next : Nat
  visited : Nat
  actedOn : Nat
  deriving DecidableEq, Repr

/-- How a job ended (R121). -/
inductive JobCode where
  | done | stopped
  deriving DecidableEq, Repr

/-- The job notice (R121). -/
structure JobNotice where
  kind : JobKind
  code : JobCode
  visited : Nat
  actedOn : Nat
  deriving DecidableEq, Repr

/-- The three conditions of the Job Engine (section 7.1). -/
inductive JobEngine where
  | idle
  | running (ctx : JobContext)
  | noticePending (notice : JobNotice)
  deriving DecidableEq, Repr

/-- The fourteen status codes (R154), in the order of that rule's table. -/
inductive Status where
  | ok | unknownCommand | badLength | badValue | wrongState | noRecord | duplicate | tableFull | poolEmpty | chainFull
  | noRadio | busy | noticeUnread | notRunning
  deriving DecidableEq, Repr

/-- An answer as the Control Port returns it after the answer marker (R149, R150). -/
structure Answer where
  status : Status
  results : List Byte
  deriving DecidableEq, Repr

/-- The command in hand: its code and its argument bytes (R149, R152). -/
structure Command where
  code : Byte
  args : List Byte
  deriving DecidableEq, Repr

/-- What the Control Port holds of the frame in progress: its phase, and what that phase has received or returned so far
(R149). From the waiting phase on, the code and the arguments are those of the command in hand. -/
inductive Frame where
  /-- CS is withdrawn. -/
  | closed
  /-- The code phase. -/
  | code
  /-- The length phase, with the command code received. -/
  | length (code : Byte)
  /-- The arguments phase, with the code, the argument length and the argument bytes received so far. -/
  | arguments (code : Byte) (length : Nat) (received : List Byte)
  /-- The waiting phase. -/
  | waiting
  /-- The answer phase, with the answer and the number of its bytes clocked out. -/
  | answering (answer : Answer) (sent : Nat)
  /-- The after-answer phase. -/
  | afterAnswer
  /-- A frame ignored whole (R152), or the rest of a frame that a power-on reset discarded (R168). -/
  | ignored
  deriving DecidableEq, Repr

/-- The cursor's table (R158). -/
inductive CursorTable where
  | links | destinations | candidates
  deriving DecidableEq, Repr

/-- The cursor (R158). -/
structure Cursor where
  table : CursorTable
  index : Nat
  autoAdvance : Bool
  deriving DecidableEq, Repr

/-- The part state (R164). -/
inductive PartState where
  | configuring | operational
  deriving DecidableEq, Repr

/-- Where the part stands in a reset: RESETN asserted, initialisation (R169), or running after it. -/
inductive Power where
  | inReset | initialising | running
  deriving DecidableEq, Repr

/-- A cause of the Notice Unit as READ SUMMARY names it (R146). -/
inductive Cause where
  | none | jobNotice | overflow (port : Radio) | linkEvents (link : LinkId) | changes
  deriving DecidableEq, Repr

end Sys2Proof.Machine
end

