-- ==== Sys2Proof/Machine/ResetValues.lean ====
section
/-! DEFINITION. The tables of fixed values: the parameters' numbers, ranges and reset values (R166), the reset rate
profile (R29), and the initial values of the Link Estimator (R27) and of a port (R120). -/

namespace Sys2Proof.Machine

/-- The parameters by name (R166). -/
def Param.deliveryDepth : ParamNo := 0
def Param.snrDepth : ParamNo := 1
def Param.probeInterval : ParamNo := 2
def Param.hysteresis : ParamNo := 3
def Param.holdDown : ParamNo := 4
def Param.lossLimit : ParamNo := 5
def Param.nominalBeacon : ParamNo := 6
def Param.probationHeard : ParamNo := 7
def Param.degradeThreshold : ParamNo := 8
def Param.recoverThreshold : ParamNo := 9
def Param.snrMargin : ParamNo := 10
def Param.defaultCeiling : ParamNo := 11
def Param.oneWaySnr : ParamNo := 12
def Param.enableCameUp : ParamNo := 13
def Param.enableDegraded : ParamNo := 14
def Param.enableRecovered : ParamNo := 15
def Param.enableWentDown : ParamNo := 16
def Param.enableOneWay : ParamNo := 17
def Param.enableSectorMoved : ParamNo := 18
def Param.enableChanges : ParamNo := 19
def Param.enableJobNotice : ParamNo := 20
def Param.enableOverflow : ParamNo := 21

/-- The lowest value of each parameter (R166). -/
def Param.lowest : Vector Nat 22 :=
  #v[1, 1, 8, 0, 0, 3, 10, 1, 2, 1, 0, 0, 10, 0, 0, 0, 0, 0, 0, 0, 0, 0]

/-- The highest value of each parameter (R166). -/
def Param.highest : Vector Nat 22 :=
  #v[8, 8, 64, 8, 10000, 15, 2000, 8, 64000, 63999, 7, 11, 40, 1, 1, 1, 1, 1, 1, 1, 1, 1]

/-- The reset value of each parameter (R166). -/
def Param.resetValues : Vector Nat 22 :=
  #v[4, 8, 16, 2, 2000, 6, 100, 3, 1200, 800, 2, 3, 24, 0, 0, 0, 0, 0, 0, 0, 0, 0]

/-- The rate profile after a reset (R29). -/
def resetProfile : Vector RateEntry 12 :=
  #v[⟨1600, 2⟩, ⟨820, 5⟩, ⟨560, 8⟩, ⟨430, 11⟩, ⟨300, 14⟩, ⟨230, 17⟩,
     ⟨200, 20⟩, ⟨180, 23⟩, ⟨150, 26⟩, ⟨135, 29⟩, ⟨120, 32⟩, ⟨108, 35⟩]

/-- The Link Estimator's fields at ADD LINK and after an estimate reset (R27, R28). -/
def Estimator.initial : Estimator :=
  { delivery := Vector.replicate 12 Config.initialEstimate, snr := none, probe := 0, oneWay := false }

/-- A port after a reset, with the presence given (R120). -/
def Port.afterReset (present : Bool) : Port :=
  { present := present, reports := [], dropped := 0, overflow := false, slot := none }

/-- The cursor after a reset (R158). -/
def Cursor.afterReset : Cursor := { table := .links, index := 0, autoAdvance := false }

end Sys2Proof.Machine
end

