-- ==== Sys2Proof/Machine/State.lean ====
section
/-! DEFINITION. The state of the part, the reasons a step can stop, and the state at reset. -/

namespace Sys2Proof.Machine

/-- The state of the 3208: what its blocks own (section "Blocks" of the scope), where it stands in a reset, and the
queue of events that wait. -/
structure State where
  /-- Where the part stands in a reset (R168, R169). -/
  power : Power
  /-- The part state (R164). -/
  part : PartState
  /-- The frame in progress on the Control Port (R149). -/
  frame : Frame
  /-- The command in hand (R152). -/
  hand : Option Command
  /-- A soft reset has been armed by RESET PART and has not taken effect (R168). -/
  armed : Bool
  /-- The cursor (R158). -/
  cursor : Cursor
  /-- The parameters and enables by number (R166). -/
  params : Vector Nat 22
  /-- The rate profile (R29). -/
  profile : Vector RateEntry 12
  /-- The Timebase count (R170). -/
  now : Time
  /-- The Link Table (R1); an absent entry is a Vacant record. -/
  links : Vector (Option Link) 32
  /-- The destination records of the Path Table (R49); an absent entry is a Vacant record. -/
  dests : Vector (Option Dest) 128
  /-- The candidate pool (R54); an absent entry is a free record. -/
  cands : Vector (Option Cand) 256
  /-- The query queue, oldest first (R94). -/
  queries : List Query
  /-- The three Radio Ports (chapter 6). -/
  ports : Vector Port 3
  /-- The Job Engine (R121). -/
  job : JobEngine
  /-- The changed-destination set, one mark per index (R142). -/
  changed : Vector Bool 128
  /-- The MODEL's own field: the events that wait to be taken, first in, first out. -/
  pending : List Instr
  deriving DecidableEq, Repr

/-- The faults: none. No rule of the spec stops the part, and every event has a next state. -/
inductive Fault where
  deriving DecidableEq, Repr

/-- The refusals. -/
inductive Refusal where
  /-- Raised by no arm and no meaning: every row of the opcode table has its meaning. It would be safe, since the model
  would stop where the part goes on. -/
  | notModelled (mnemonic : String)
  deriving DecidableEq, Repr

/-- The part as a power-on reset takes effect, RESETN asserted (the table of R168). Presence is sampled only when
RESETN is withdrawn (R107); until then every port is held absent. -/
def State.reset : State where
  power := .inReset
  part := .configuring
  frame := .closed
  hand := none
  armed := false
  cursor := Cursor.afterReset
  params := Param.resetValues
  profile := resetProfile
  now := 0
  links := Vector.replicate 32 none
  dests := Vector.replicate 128 none
  cands := Vector.replicate 256 none
  queries := []
  ports := #v[Port.afterReset false, Port.afterReset false, Port.afterReset false]
  job := .idle
  changed := Vector.replicate 128 false
  pending := []

end Sys2Proof.Machine
end

