-- ==== Sys2Proof/Machine/Operands.lean ====
section
/-! DEFINITION. Reading arguments and writing results: the encodings of R171, the record layouts' building blocks of
R172, the lengths that frame a command (R153), and the message layouts of R173. -/

namespace Sys2Proof.Machine

/-! ### Table access -/

/-- A table with entry `i` replaced. -/
def put {α : Type} {n : Nat} (v : Vector α n) (i : Fin n) (x : α) : Vector α n := v.set i.val x i.isLt

/-! ### Fields of arguments (R171) -/

/-- An id, index, rate, sector or port carried in one byte, when it lies below `n`. -/
def idOf (n : Nat) (b : Byte) : Option (Fin n) :=
  if h : b.toNat < n then some ⟨b.toNat, h⟩ else none

/-- A candidate id: every byte is one. -/
def candOf (b : Byte) : CandId := ⟨b.toNat, b.isLt⟩

/-- A two-byte value, most significant byte first. -/
def word16 (hi lo : Byte) : Nat := hi.toNat * 256 + lo.toNat

/-- A six-byte address, first byte first. -/
def addrOf (b0 b1 b2 b3 b4 b5 : Byte) : Addr := b0 ++ b1 ++ b2 ++ b3 ++ b4 ++ b5

/-- The address is a group address: the lowest bit of its first byte is 1 (scope, "Addresses"). -/
def isGroup (a : Addr) : Bool := a.getLsbD 40

/-- A presence byte, choice, mark or flag of an argument or report: 0 means no, any other value yes (R171). -/
def flagOf (b : Byte) : Bool := b != 0

/-- The sector mode codes (R171). -/
def sectorModeOf (b : Byte) : Option SectorMode :=
  if b = 0 then some .fixed else if b = 1 then some .follow else none

/-- The placement codes (R171), with the "after" candidate id, which only the third reads (section 9.3). -/
def placementOf (b after : Byte) : Option Placement :=
  if b = 0 then some .head else if b = 1 then some .tail else if b = 2 then some (.after (candOf after)) else none

/-- The cursor table codes (R171). -/
def cursorTableOf (b : Byte) : Option CursorTable :=
  if b = 0 then some .links else if b = 1 then some .destinations else if b = 2 then some .candidates else none

/-- The auto-advance codes (R171). -/
def autoAdvanceOf (b : Byte) : Option Bool :=
  if b = 0 then some false else if b = 1 then some true else none

/-- A mask byte that names at least one member and nothing beyond its `k` members (R123). -/
def maskOf (k : Nat) (b : Byte) : Option (BitVec k) :=
  if b = 0 then none else if b.toNat < 2 ^ k then some (BitVec.ofNat k b.toNat) else none

/-- The job kind codes (R171) with the selector's bytes, judged by the conditions of R123 other than presence. -/
def selectorOf (args : List Byte) : Option JobSelector :=
  match args with
  | [kind, a] =>
    if kind = 1 then (idOf 3 a).map .retuneRadio
    else if kind = 2 then (maskOf 2 a).map .pruneDestinations
    else none
  | [kind, a, b] =>
    if kind = 0 then
      match maskOf 3 a, maskOf 4 b with
      | some radios, some states => some (.retireLinks radios states)
      | _, _ => none
    else none
  | _ => none

/-! ### Fields of results (R171) -/

/-- A value in `k` bytes, most significant byte first. -/
def bytesOf (k v : Nat) : List Byte :=
  match k with
  | 0 => []
  | k + 1 => BitVec.ofNat 8 (v / 256 ^ k) :: bytesOf k v

/-- A one-byte field. -/
def byteOf (v : Nat) : Byte := BitVec.ofNat 8 v

/-- A two-valued field: 0 or 1. -/
def bitOf (b : Bool) : Byte := if b then 1 else 0

/-- An optional field in a result: a presence byte, then the value bytes, carried as 0 when absent. -/
def optionBytes (k : Nat) (o : Option Nat) : List Byte :=
  match o with
  | none => 0 :: bytesOf k 0
  | some v => 1 :: bytesOf k v

/-- The link state codes; 0 is Vacant. -/
def LinkState.code (s : LinkState) : Byte :=
  match s with
  | .probation => 1 | .up => 2 | .degraded => 3 | .down => 4 | .retiring => 5

/-- The destination state codes; 0 is Vacant. -/
def DestState.code (s : DestState) : Byte :=
  match s with
  | .unresolved => 1 | .resolved => 2 | .unreachable => 3

/-- The sector mode codes. -/
def SectorMode.code (m : SectorMode) : Byte :=
  match m with
  | .fixed => 0 | .follow => 1

/-- The cursor table codes. -/
def CursorTable.code (t : CursorTable) : Byte :=
  match t with
  | .links => 0 | .destinations => 1 | .candidates => 2

/-- The job kind codes. -/
def JobKind.code (k : JobKind) : Byte :=
  match k with
  | .retireLinks => 0 | .retuneRadio => 1 | .pruneDestinations => 2

/-- The job code's codes. -/
def JobCode.code (c : JobCode) : Byte :=
  match c with
  | .done => 0 | .stopped => 1

/-- The first cause's codes (R171). -/
def Cause.code (c : Cause) : Byte :=
  match c with
  | .none => 0 | .jobNotice => 1 | .overflow _ => 2 | .linkEvents _ => 3 | .changes => 4

/-- The member of the first cause: the port number or link id, otherwise 0 (R172). -/
def Cause.member (c : Cause) : Byte :=
  match c with
  | .overflow p => byteOf p
  | .linkEvents i => byteOf i
  | .none | .jobNotice | .changes => 0

/-- The status codes: 0 to 13 in the order of the table of R154. -/
def Status.code (s : Status) : Byte :=
  match s with
  | .ok => 0 | .unknownCommand => 1 | .badLength => 2 | .badValue => 3 | .wrongState => 4 | .noRecord => 5
  | .duplicate => 6 | .tableFull => 7 | .poolEmpty => 8 | .chainFull => 9 | .noRadio => 10 | .busy => 11
  | .noticeUnread => 12 | .notRunning => 13

/-! ### The framing of commands (R153, R171) -/

def Code.readIdentity : Byte := 0x01
def Code.readTime : Byte := 0x02
def Code.loadRateProfile : Byte := 0x03
def Code.setParameter : Byte := 0x04
def Code.getParameter : Byte := 0x05
def Code.goOperational : Byte := 0x06
def Code.resetPart : Byte := 0x07
def Code.addLink : Byte := 0x10
def Code.updateLink : Byte := 0x11
def Code.retireLink : Byte := 0x12
def Code.readLink : Byte := 0x13
def Code.addDestination : Byte := 0x20
def Code.findDestination : Byte := 0x21
def Code.removeDestination : Byte := 0x22
def Code.readDestination : Byte := 0x23
def Code.addCandidate : Byte := 0x30
def Code.updateCandidate : Byte := 0x31
def Code.removeCandidate : Byte := 0x32
def Code.readCandidate : Byte := 0x33
def Code.setCursor : Byte := 0x40
def Code.readAtCursor : Byte := 0x41
def Code.readSummary : Byte := 0x50
def Code.nextEventLink : Byte := 0x51
def Code.readLinkEvents : Byte := 0x52
def Code.takeChanges : Byte := 0x53
def Code.readPortStatus : Byte := 0x54
def Code.flushReports : Byte := 0x55
def Code.readJobNotice : Byte := 0x56
def Code.startJob : Byte := 0x60
def Code.stopJob : Byte := 0x61
def Code.readJobState : Byte := 0x62

/-- The one argument length of each command but START JOB; absent for a code that names no command (R171). -/
def argLength (code : Byte) : Option Nat :=
  match code.toNat with
  | 0x01 => some 0
  | 0x02 => some 0
  | 0x03 => some 36
  | 0x04 => some 3
  | 0x05 => some 1
  | 0x06 => some 0
  | 0x07 => some 0
  | 0x10 => some 9
  | 0x11 => some 6
  | 0x12 => some 2
  | 0x13 => some 1
  | 0x20 => some 6
  | 0x21 => some 6
  | 0x22 => some 1
  | 0x23 => some 1
  | 0x30 => some 6
  | 0x31 => some 6
  | 0x32 => some 1
  | 0x33 => some 1
  | 0x40 => some 3
  | 0x41 => some 0
  | 0x50 => some 0
  | 0x51 => some 0
  | 0x52 => some 1
  | 0x53 => some 0
  | 0x54 => some 1
  | 0x55 => some 1
  | 0x56 => some 0
  | 0x61 => some 0
  | 0x62 => some 0
  | _ => none

/-- The code names a command of the 3208 (R153, R171). -/
def namesCommand (code : Byte) : Bool := code == Code.startJob || (argLength code).isSome

/-- START JOB's length check: by the kind its first byte names; any length from 1 up for no kind (R153). -/
def startJobLengthFits (args : List Byte) : Bool :=
  match args with
  | [] => false
  | kind :: _ =>
    if kind = 0 then args.length == 3
    else if kind = 1 || kind = 2 then args.length == 2
    else true

/-- The argument length is the one the command takes (R153). -/
def lengthFits (code : Byte) (args : List Byte) : Bool :=
  if code = Code.startJob then startJobLengthFits args else argLength code == some args.length

/-! ### Message layouts (R173) -/

/-- The bytes of an address, first byte first. -/
def addrBytes (a : Addr) : List Byte := bytesOf 6 a.toNat

/-- The 12 bytes of a PATH ANSWER. -/
def PathAnswer.bytes (a : PathAnswer) : List Byte :=
  match a.result with
  | .ok link radio hop cost => [a.tag, 0, byteOf link, byteOf radio] ++ addrBytes hop ++ bytesOf 2 cost
  | .noPath => [a.tag, 1] ++ List.replicate 10 0
  | .unknown => [a.tag, 2] ++ List.replicate 10 0
  | .notReady => [a.tag, 3] ++ List.replicate 10 0

/-- The 4 bytes of a PARAM ANSWER. -/
def ParamAnswer.bytes (a : ParamAnswer) : List Byte :=
  match a with
  | .ok rate sector probe => [0, byteOf rate, byteOf sector, bitOf probe]
  | .probation sector => [1, 0, byteOf sector, 0]
  | .unavailable => [2, 0, 0, 0]
  | .notReady => [3, 0, 0, 0]

/-- The report that the bytes of a message on the report direction carry: by its kind byte and its length. -/
def Report.ofBytes (bytes : List Byte) : Report :=
  match bytes with
  | [kind, link, p0, p1, p2, p3, p4, p5, rate, attempts, acked] =>
    if kind = 0 then .outcome link (addrOf p0 p1 p2 p3 p4 p5) rate attempts acked else .unrecognised bytes
  | [kind, p0, p1, p2, p3, p4, p5, snr, sector, beacon] =>
    if kind = 1 then .heard (addrOf p0 p1 p2 p3 p4 p5) snr sector beacon else .unrecognised bytes
  | _ => .unrecognised bytes

/-- The bytes of an answer on the Control Port: the answer marker, the status, the result length, the results
(R149, R171). -/
def Answer.bytes (a : Answer) : List Byte :=
  Config.answerMarker :: a.status.code :: byteOf a.results.length :: a.results

end Sys2Proof.Machine
end

