-- ==== Sys2Proof/Machine/Flags.lean ====
section
/-! DEFINITION. Flags and lines: the pending link event sets, the notice enables, the causes of the Notice Unit, the
NOTICE line, the Control Port's data output, and the ready signals of the message links. -/

namespace Sys2Proof.Machine

/-! ### Link event sets (R26) -/

/-- The set with a kind added; a kind already held leaves the set as it was. -/
def EventSet.insert (e : EventSet) (k : EventKind) : EventSet :=
  match k with
  | .cameUp => { e with cameUp := true }
  | .degraded => { e with degraded := true }
  | .recovered => { e with recovered := true }
  | .wentDown => { e with wentDown := true }
  | .oneWay => { e with oneWay := true }
  | .sectorMoved => { e with sectorMoved := true }

/-- The set holds a kind. -/
def EventSet.holds (e : EventSet) (k : EventKind) : Bool :=
  match k with
  | .cameUp => e.cameUp
  | .degraded => e.degraded
  | .recovered => e.recovered
  | .wentDown => e.wentDown
  | .oneWay => e.oneWay
  | .sectorMoved => e.sectorMoved

/-- The set as one byte (R171): bit 0 CAME_UP, 1 DEGRADED, 2 RECOVERED, 3 WENT_DOWN, 4 ONE_WAY, 5 SECTOR_MOVED. -/
def EventSet.byte (e : EventSet) : Byte :=
  byteOf (e.cameUp.toNat + 2 * e.degraded.toNat + 4 * e.recovered.toNat + 8 * e.wentDown.toNat
    + 16 * e.oneWay.toNat + 32 * e.sectorMoved.toNat)

/-- The two sets share a kind. -/
def EventSet.meets (e f : EventSet) : Bool :=
  (e.cameUp && f.cameUp) || (e.degraded && f.degraded) || (e.recovered && f.recovered)
    || (e.wentDown && f.wentDown) || (e.oneWay && f.oneWay) || (e.sectorMoved && f.sectorMoved)

/-! ### Enables (R138, R166) -/

/-- The value a parameter holds. -/
def State.param (s : State) (p : ParamNo) : Nat := s.params.get p

/-- An enable is on. -/
def State.enabled (s : State) (p : ParamNo) : Bool := s.param p != 0

/-- The link event kinds whose enables are on. -/
def State.enabledEvents (s : State) : EventSet where
  cameUp := s.enabled Param.enableCameUp
  degraded := s.enabled Param.enableDegraded
  recovered := s.enabled Param.enableRecovered
  wentDown := s.enabled Param.enableWentDown
  oneWay := s.enabled Param.enableOneWay
  sectorMoved := s.enabled Param.enableSectorMoved

/-! ### Causes (R138 to R146) -/

/-- The link's pending set holds a kind whose enable is on (R141). -/
def State.hasEnabledEvent (s : State) (i : LinkId) : Bool :=
  match s.links.get i with
  | some l => l.events.meets s.enabledEvents
  | none => false

/-- The lowest link whose pending set holds an enabled kind (R141). -/
def State.eventLink (s : State) : Option LinkId := (List.finRange 32).find? s.hasEnabledEvent

/-- The members of the changed-destination set, in ascending order (R142). -/
def State.changedList (s : State) : List DestId := (List.finRange 128).filter (fun d => s.changed.get d)

/-- A job notice is pending (R134). -/
def State.jobNoticePending (s : State) : Bool :=
  match s.job with
  | .noticePending _ => true
  | .idle | .running _ => false

/-- The lowest port whose overflow flag is set (R146). -/
def State.overflowPort (s : State) : Option Radio := (List.finRange 3).find? (fun p => (s.ports.get p).overflow)

/-- The first enabled and pending cause, in the fixed order of R146. -/
def State.firstCause (s : State) : Cause :=
  if s.enabled Param.enableJobNotice && s.jobNoticePending then .jobNotice
  else
    match s.enabled Param.enableOverflow, s.overflowPort with
    | true, some p => .overflow p
    | _, _ =>
      match s.eventLink with
      | some i => .linkEvents i
      | none => if s.enabled Param.enableChanges && !s.changedList.isEmpty then .changes else .none

/-- The NOTICE line (R145): asserted while an enabled cause is pending; withdrawn throughout a reset and
initialisation. The line holds no memory of its own, so it is computed, not stored. -/
def State.notice (s : State) : Bool :=
  s.power == .running &&
    ((List.finRange 32).any s.hasEnabledEvent
      || (s.enabled Param.enableChanges && !s.changedList.isEmpty)
      || (s.enabled Param.enableJobNotice && s.jobNoticePending)
      || (s.enabled Param.enableOverflow && (List.finRange 3).any (fun p => (s.ports.get p).overflow)))

/-! ### The Control Port's data output -/

/-- The byte the part returns while the host clocks its next one (the table of R149): the answer's bytes in the answer
phase and filler in every other phase and in an ignored frame (R152). The output is at high impedance while CS is
withdrawn (R174). -/
def State.output (s : State) : Option Byte :=
  match s.frame with
  | .closed => none
  | .answering a sent => some (a.bytes.getD sent Config.filler)
  | .code | .length _ | .arguments _ _ _ | .waiting | .afterAnswer | .ignored => some Config.filler

/-! ### Ready signals -/

/-- The part's query ready (R95). -/
def State.queryReady (s : State) : Bool := s.power == .running && s.queries.length < Config.queryCapacity

/-- A port's request ready (R107, R108). -/
def State.requestReady (s : State) (p : Radio) : Bool :=
  s.power == .running && (s.ports.get p).present && (s.ports.get p).slot.isNone

/-- A port's report ready (R107, R112): given even while the queue is full. -/
def State.reportReady (s : State) (p : Radio) : Bool := s.power == .running && (s.ports.get p).present

end Sys2Proof.Machine
end

