-- ==== Sys2Proof/Machine/Estimator.lean ====
section
/-! DEFINITION. The Link Estimator's arithmetic on one link record (chapter 2): ceiling, rate costs, chosen rate, link
cost, the two filters, the evaluation, and the probe. Each function reads the parameters and the rate profile it is
given. -/

namespace Sys2Proof.Machine

/-- The figures held by the Control Port that the Link Estimator and the Link Table read: parameters and rate profile. -/
structure Tuning where
  params : Vector Nat 22
  profile : Vector RateEntry 12

/-- The figures as they stand. -/
def State.tuning (s : State) : Tuning := { params := s.params, profile := s.profile }

/-- A parameter's value. -/
def Tuning.get (t : Tuning) (p : ParamNo) : Nat := t.params.get p

/-- The default ceiling as a rate index (R36); its range is 0 to 11 (R166). -/
def Tuning.defaultCeiling (t : Tuning) : Rate := ⟨min (t.get Param.defaultCeiling) 11, by omega⟩

/-- The rate ceiling (R36): with an SNR average, the highest rate whose minimum SNR is at most
floor(average / 4) − margin, and 0 when no rate qualifies. -/
def rateCeiling (t : Tuning) (snr : Option Nat) : Rate :=
  match snr with
  | none => t.defaultCeiling
  | some avg =>
    (((List.finRange 12).filter (fun r => (t.profile.get r).minSnr + t.get Param.snrMargin ≤ avg / 4)).getLast?).getD 0

/-- The rate cost from a reference airtime and a delivery estimate (R37). -/
def rateCost (airtime estimate : Nat) : Nat :=
  if estimate < Config.usableEstimate then Config.saturated else (airtime * 1024 + estimate - 1) / estimate

/-- The rate cost of a link at a rate (R37). -/
def Link.rateCostAt (t : Tuning) (l : Link) (r : Rate) : Nat :=
  rateCost (t.profile.get r).airtime (l.est.delivery.get r)

/-- The rate of least cost in a rising list of rates; of several with the least cost, the highest (R38). -/
def leastCostRate (cost : Rate → Nat) (rates : List Rate) : Option Rate :=
  match rates with
  | [] => none
  | r :: rs =>
    match leastCostRate cost rs with
    | none => some r
    | some best => if cost best ≤ cost r then some best else some r

/-- The rates from 0 up to a ceiling, rising. -/
def ratesUpTo (ceiling : Rate) : List Rate := (List.finRange 12).filter (fun r => r ≤ ceiling)

/-- The rate ceiling of a link (R36). -/
def Link.ceiling (t : Tuning) (l : Link) : Rate := rateCeiling t l.est.snr

/-- The chosen rate (R38): the pinned rate, or the least-cost rate up to the ceiling. -/
def Link.chosenRate (t : Tuning) (l : Link) : Rate :=
  match l.pinned with
  | some r => r
  | none => (leastCostRate (l.rateCostAt t) (ratesUpTo (l.ceiling t))).getD 0

/-- The link cost (R39): the rate cost of the chosen rate. -/
def Link.cost (t : Tuning) (l : Link) : Nat := l.rateCostAt t (l.chosenRate t)

/-- A filter step: `v` moved toward `sample` by their difference divided by `depth`, the quotient truncated toward
zero (R33, R34). -/
def moveToward (v sample depth : Nat) : Nat := ((v : Int) + ((sample : Int) - (v : Int)).tdiv (depth : Int)).toNat

/-- The delivery sample (R32), from the clamped attempts. -/
def deliverySample (attempts : Nat) (acked : Bool) : Nat := if acked then 1024 / attempts else 0

/-- The attempts of a report, clamped to 1 to 8 (R114). -/
def clampAttempts (attempts : Nat) : Nat := max 1 (min attempts 8)

/-- One delivery estimate moved toward a sample (R33). -/
def Link.sampleDelivery (t : Tuning) (r : Rate) (sample : Nat) (l : Link) : Link :=
  { l with est := { l.est with
      delivery := put l.est.delivery r (moveToward (l.est.delivery.get r) sample (t.get Param.deliveryDepth)) } }

/-- The SNR average seeded with, or moved toward, a sample in quarter-dB (R34). -/
def Link.sampleSnr (t : Tuning) (sample : Nat) (l : Link) : Link :=
  { l with est := { l.est with
      snr := match l.est.snr with
        | none => some sample
        | some avg => some (moveToward avg sample (t.get Param.snrDepth)) } }

/-- The one-way condition with a link cost (R46). -/
def Link.oneWayHolds (t : Tuning) (cost : Nat) (l : Link) : Bool :=
  match l.est.snr with
  | none => false
  | some avg => decide (t.get Param.oneWaySnr ≤ avg / 4) && cost == Config.saturated

/-- The one-way flag judged with a link cost (R46); a Retiring link is never evaluated (R47). -/
def Link.judgeOneWay (t : Tuning) (cost : Nat) (l : Link) : Link :=
  if l.state = .retiring then l
  else
    { l with
      est := { l.est with oneWay := l.oneWayHolds t cost }
      events := if l.oneWayHolds t cost && !l.est.oneWay then l.events.insert .oneWay else l.events }

/-- The Up and Degraded rule with a link cost (R44). -/
def Link.judgeState (t : Tuning) (cost : Nat) (l : Link) : Link :=
  match l.state with
  | .up =>
    if t.get Param.degradeThreshold < cost then { l with state := .degraded, events := l.events.insert .degraded } else l
  | .degraded =>
    if cost < t.get Param.recoverThreshold then { l with state := .up, events := l.events.insert .recovered } else l
  | .probation | .down | .retiring => l

/-- An evaluation (R43): the link cost is computed once, and both judgments use it. -/
def Link.evaluate (t : Tuning) (l : Link) : Link :=
  let cost := l.cost t
  (l.judgeOneWay t cost).judgeState t cost

/-- An estimate reset (R28). -/
def Link.resetEstimates (l : Link) : Link := { l with est := Estimator.initial }

/-- The probe counter after one more OK answer, and whether this is a probe opportunity (R41, steps 1 and 2). -/
def Link.countProbe (t : Tuning) (l : Link) : Nat × Bool :=
  if t.get Param.probeInterval ≤ l.est.probe + 1 then (0, true) else (l.est.probe + 1, false)

/-- The rate and the probe mark of an OK answer (R41, steps 3 and 4). -/
def Link.answerRate (t : Tuning) (l : Link) : Rate × Bool :=
  if h : (l.countProbe t).2 = true ∧ l.pinned = none ∧ (l.chosenRate t).val < (l.ceiling t).val then
    (⟨(l.chosenRate t).val + 1, by have := (l.ceiling t).isLt; omega⟩, true)
  else (l.chosenRate t, false)

/-- The link with its probe counter moved by an OK answer (R41). -/
def Link.afterOkAnswer (t : Tuning) (l : Link) : Link :=
  { l with est := { l.est with probe := (l.countProbe t).1 } }

end Sys2Proof.Machine
end

