-- ==== Sys2Proof/Machine/LinkRecord.lean ====
section
/-! DEFINITION. The Link Table's own steps on one link record (chapter 1): a fresh record, beacon measurement, sector
follow, heard counting, the silence deadline, the retune reset, and UPDATE LINK's three writes. -/

namespace Sys2Proof.Machine

/-- Up and Degraded are the usable states (section 1.2). -/
def LinkState.isUsable (s : LinkState) : Bool := s == .up || s == .degraded

/-- The states in which a link may hold a silence deadline (R12). -/
def LinkState.mayHoldDeadline (s : LinkState) : Bool := s == .probation || s == .up || s == .degraded

/-- A record as ADD LINK starts it (R4). -/
def Link.fresh (radio : Radio) (peer : Addr) (sector : Sector) (mode : SectorMode) : Link where
  state := .probation
  radio := radio
  peer := peer
  sector := sector
  mode := mode
  followSector := none
  agree := 0
  pinned := none
  heard := 0
  lastHeard := none
  lastBeacon := none
  gapSum := 0
  gapCount := 0
  interval := none
  deadline := none
  refs := 0
  events := {}
  est := Estimator.initial

/-- A link event added to the record's pending set (R26). -/
def Link.addEvent (k : EventKind) (l : Link) : Link := { l with events := l.events.insert k }

/-- The beacon interval in force: measured when present, nominal otherwise (R12). -/
def Link.beaconInterval (t : Tuning) (l : Link) : Nat := l.interval.getD (t.get Param.nominalBeacon)

/-- The silence deadline computed afresh (R12). -/
def Link.computeDeadline (t : Tuning) (l : Link) : Link :=
  { l with
    deadline :=
      if l.state.mayHoldDeadline then
        l.lastHeard.map (fun heard => heard + BitVec.ofNat 32 (l.beaconInterval t * t.get Param.lossLimit))
      else none }

/-- The beacon measurement (R10). -/
def Link.measureBeacon (now : Time) (l : Link) : Link :=
  match l.lastBeacon with
  | none => { l with lastBeacon := some now }
  | some last =>
    let gap := (now - last).toNat
    if gap < Config.shortestGap || Config.longestGap < gap then
      { l with gapSum := 0, gapCount := 0, lastBeacon := some now }
    else if Config.gapsPerMeasurement ≤ l.gapCount + 1 then
      { l with
        interval := some ((l.gapSum + gap) / Config.gapsPerMeasurement)
        gapSum := 0
        gapCount := 0
        lastBeacon := some now }
    else { l with gapSum := l.gapSum + gap, gapCount := l.gapCount + 1, lastBeacon := some now }

/-- The follow candidate forgotten (R15 to R17, R25). -/
def Link.clearFollow (l : Link) : Link := { l with followSector := none, agree := 0 }

/-- A sector change with what it brings: the follow fields cleared, the estimates reset, an evaluation (R16, R17). -/
def Link.changeSector (t : Tuning) (sector : Sector) (l : Link) : Link :=
  ({ l with sector := sector }.clearFollow.resetEstimates).evaluate t

/-- Sector follow for a beacon heard on sector `h` (R15), with the sector move of R16. -/
def Link.followBeacon (t : Tuning) (h : Sector) (l : Link) : Link :=
  match l.mode with
  | .fixed => l
  | .follow =>
    if h = l.sector then l.clearFollow
    else
      let agree := if l.followSector = some h then l.agree + 1 else 1
      if Config.agreeToMove ≤ agree then (l.addEvent .sectorMoved).changeSector t h
      else { l with followSector := some h, agree := agree }

/-- Steps 1 to 4 of R6 for a matched HEARD REPORT: last heard time, beacon measurement, sector follow, SNR sample with
its evaluation. -/
def Link.hear (t : Tuning) (now : Time) (snr : Nat) (sector : Sector) (beacon : Bool) (l : Link) : Link :=
  let l1 := { l with lastHeard := some now }
  let l2 := if beacon then (l1.measureBeacon now).followBeacon t sector else l1
  (l2.sampleSnr t (snr * 4)).evaluate t

/-- A link comes Up when its heard count has reached the probation heard count (R8). -/
def Link.climb (t : Tuning) (l : Link) : Link :=
  if t.get Param.probationHeard ≤ l.heard then { l with state := .up }.addEvent .cameUp else l

/-- Heard counting, step 5 of R6: in Probation by R8, from Down by R9. -/
def Link.countHearing (t : Tuning) (l : Link) : Link :=
  match l.state with
  | .probation => { l with heard := min (l.heard + 1) Config.heardLimit }.climb t
  | .down => { l with state := .probation, heard := 1 }.climb t
  | .up | .degraded | .retiring => l

/-- Steps 1 to 4 of R31 for a validated OUTCOME REPORT. -/
def Link.takeOutcome (t : Tuning) (now : Time) (rate : Rate) (attempts : Nat) (acked : Bool) (l : Link) : Link :=
  let l1 := l.sampleDelivery t rate (deliverySample attempts acked)
  let l2 := if acked then { l1 with lastHeard := some now }.computeDeadline t else l1
  l2.evaluate t

/-- The record after its silence deadline expires (R13). -/
def Link.expire (l : Link) : Link := { l with state := .down, deadline := none }.addEvent .wentDown

/-- The record after RETIRE LINK without cascade while candidates name it (R21). -/
def Link.retire (l : Link) : Link := { l with state := .retiring, deadline := none }

/-- The record after a retune visit (R25). -/
def Link.retune (l : Link) : Link :=
  { l with
    state := .probation
    heard := 0
    lastHeard := none
    deadline := none
    lastBeacon := none
    gapSum := 0
    gapCount := 0 }.clearFollow.resetEstimates

/-- UPDATE LINK's sector write (R17): no SECTOR_MOVED is added. -/
def Link.writeSector (t : Tuning) (sector : Sector) (l : Link) : Link :=
  if sector = l.sector then l else l.changeSector t sector

/-- UPDATE LINK's sector-mode write (R17). -/
def Link.writeMode (mode : SectorMode) (l : Link) : Link :=
  if mode = l.mode then l else { l with mode := mode }.clearFollow

/-- UPDATE LINK's pinned-rate write (R40): an evaluation only when the pin changes. -/
def Link.writePin (t : Tuning) (pin : Option Rate) (l : Link) : Link :=
  if pin = l.pinned then l else { l with pinned := pin }.evaluate t

/-- A pinned rate as UPDATE LINK carries it: absent, or a rate taken as 11 above 11 (R17, R40). -/
def pinOf (presence rate : Byte) : Option Rate :=
  if flagOf presence then some ⟨min rate.toNat 11, by omega⟩ else none

end Sys2Proof.Machine
end

