-- ==== Sys2Proof/Machine/Ops.lean ====
section
/-! DEFINITION. The named operations over the state's tables, ports and queues, and the carrying out of the command in
hand with its answer. Every meaning is written over these. -/

namespace Sys2Proof.Machine

/-! ### Tables -/

/-- The link record of an id; absent when Vacant. -/
def State.link (s : State) (i : LinkId) : Option Link := s.links.get i

/-- The destination record of an index; absent when Vacant. -/
def State.dest (s : State) (d : DestId) : Option Dest := s.dests.get d

/-- The candidate record of an id; absent when free. -/
def State.cand (s : State) (c : CandId) : Option Cand := s.cands.get c

/-- A Radio Port. -/
def State.port (s : State) (p : Radio) : Port := s.ports.get p

/-- A link record written, or made Vacant. -/
def State.setLink (s : State) (i : LinkId) (l : Option Link) : State := { s with links := put s.links i l }

/-- A destination record written, or made Vacant. -/
def State.setDest (s : State) (d : DestId) (r : Option Dest) : State := { s with dests := put s.dests d r }

/-- A candidate record written, or freed. -/
def State.setCand (s : State) (c : CandId) (k : Option Cand) : State := { s with cands := put s.cands c k }

/-- A port written. -/
def State.setPort (s : State) (p : Radio) (q : Port) : State := { s with ports := put s.ports p q }

/-- An index added to, or removed from, the changed-destination set (R142). -/
def State.setChanged (s : State) (d : DestId) (b : Bool) : State := { s with changed := put s.changed d b }

/-- A link record in use changed in place. -/
def State.updateLink (s : State) (i : LinkId) (f : Link → Link) : State :=
  match s.link i with
  | some l => s.setLink i (some (f l))
  | none => s

/-- A destination record in use changed in place. -/
def State.updateDest (s : State) (d : DestId) (f : Dest → Dest) : State :=
  match s.dest d with
  | some r => s.setDest d (some (f r))
  | none => s

/-- A candidate record in use changed in place. -/
def State.updateCand (s : State) (c : CandId) (f : Cand → Cand) : State :=
  match s.cand c with
  | some k => s.setCand c (some (f k))
  | none => s

/-- The lowest Vacant link id (R4). -/
def State.vacantLink (s : State) : Option LinkId := (List.finRange 32).find? (fun i => (s.link i).isNone)

/-- The lowest Vacant destination index (R52). -/
def State.vacantDest (s : State) : Option DestId := (List.finRange 128).find? (fun d => (s.dest d).isNone)

/-- The lowest free candidate id (R55). -/
def State.freeCand (s : State) : Option CandId := (List.finRange 256).find? (fun c => (s.cand c).isNone)

/-- The link record of an id is in use with this radio and peer. -/
def State.linkMatches (s : State) (radio : Radio) (peer : Addr) (i : LinkId) : Bool :=
  match s.link i with
  | some l => l.radio == radio && l.peer == peer
  | none => false

/-- The link in use with this radio and peer; by R3 at most one is (R5). -/
def State.findLink (s : State) (radio : Radio) (peer : Addr) : Option LinkId :=
  (List.finRange 32).find? (s.linkMatches radio peer)

/-- The destination record of an index is in use with this address. -/
def State.destMatches (s : State) (a : Addr) (d : DestId) : Bool :=
  match s.dest d with
  | some r => r.address == a
  | none => false

/-- The destination in use with this address; a group address finds none (R51). -/
def State.findDest (s : State) (a : Addr) : Option DestId :=
  if isGroup a then none else (List.finRange 128).find? (s.destMatches a)

/-- The candidate is in use and names the link. -/
def State.candNames (s : State) (i : LinkId) (c : CandId) : Bool :=
  match s.cand c with
  | some k => k.link == i
  | none => false

/-- The state of a destination in use (R50). -/
def Dest.state (r : Dest) : DestState :=
  if r.chain.isEmpty then .unresolved
  else
    match r.active with
    | some _ => .resolved
    | none => .unreachable

/-- The state code of a destination: 0 when Vacant (R171). -/
def State.destCode (s : State) (d : DestId) : Byte :=
  match s.dest d with
  | some r => r.state.code
  | none => 0

/-- The state code of a link: 0 when Vacant (R171). -/
def State.linkCode (s : State) (i : LinkId) : Byte :=
  match s.link i with
  | some l => l.state.code
  | none => 0

/-! ### Report queues (R112, R117) -/

/-- A report arrives at a port: appended, or dropped and counted at a full queue (R112). -/
def Port.receive (p : Port) (r : Report) : Port :=
  if p.reports.length < Config.reportCapacity then { p with reports := p.reports ++ [r] }
  else { p with dropped := min (p.dropped + 1) Config.countLimit, overflow := true }

/-- A flush (R117): the queue emptied, the count 0, the flag clear; the request slot is not touched. -/
def Port.flush (p : Port) : Port := { p with reports := [], dropped := 0, overflow := false }

/-- A report offered on a port's report direction; it passes while the report ready is given. -/
def State.passReport (s : State) (p : Radio) (r : Report) : State :=
  if s.reportReady p then s.setPort p ((s.port p).receive r) else s

/-! ### Commands and answers (R149 to R154) -/

/-- What carrying a command out comes to: the state its effects leave, and its answer. -/
structure Reply where
  state : State
  status : Status
  results : List Byte

/-- An answer OK with results. -/
def State.ok (s : State) (results : List Byte) : Reply := { state := s, status := .ok, results := results }

/-- A refusal: nothing changes and no results (R150, R154). -/
def State.refuse (s : State) (status : Status) : Reply := { state := s, status := status, results := [] }

/-- The answer given: the command leaves the hand, and the answer enters the frame that carried the command, or is
lost when CS was withdrawn in the waiting phase (R150, R151). -/
def State.giveAnswer (s : State) (a : Answer) : State :=
  { s with hand := none, frame := if s.frame = .waiting then .answering a 0 else s.frame }

/-- The state after a command has been carried out and answered. -/
def Reply.finish (r : Reply) : State := r.state.giveAnswer { status := r.status, results := r.results }

/-- The command in hand is carried out as the command of this code: its framing is checked first (R153), then its own
rule. When no command of this code is in hand the event cannot take place, and nothing changes. -/
def carryOut (code : Byte) (rule : List Byte → State → Reply) (s : State) : Host.Outcome State Fault Refusal :=
  match s.hand with
  | none => .next s
  | some h =>
    if h.code = code then
      .next (if lengthFits code h.args then rule h.args s else s.refuse .badLength).finish
    else .next s

end Sys2Proof.Machine
end

