-- ==== Sys2Proof/Machine/Resolver.lean ====
section
/-! DEFINITION. The Path Resolver (chapter 4): path cost and usability, immediate selection, switch bookkeeping, the
switch test, full evaluation, and reselection on link notices. -/

namespace Sys2Proof.Machine

/-- The path cost from a link cost and a remainder, saturating (R73). -/
def pathCost (linkCost remainder : Nat) : Nat := min (linkCost + remainder) Config.saturated

/-- The path cost of a candidate as the records stand (R73). Every candidate in use names a link in use (R73). -/
def State.candCost (s : State) (c : CandId) : Nat :=
  match s.cand c with
  | some k =>
    match s.link k.link with
    | some l => pathCost (l.cost s.tuning) k.remainder
    | none => Config.saturated
  | none => Config.saturated

/-- The candidate is usable (R74). -/
def State.candUsable (s : State) (c : CandId) : Bool :=
  match s.cand c with
  | some k =>
    match s.link k.link with
    | some l =>
      l.state.isUsable && decide (l.cost s.tuning < Config.saturated)
        && decide (pathCost (l.cost s.tuning) k.remainder < Config.saturated)
    | none => false
  | none => false

/-- A candidate's path cost computed and written as its last path cost (R75). -/
def State.refreshCost (s : State) (c : CandId) : State :=
  s.updateCand c (fun k => { k with lastCost := s.candCost c })

/-- The path cost of every candidate of a list computed and written (R75). -/
def State.refreshCosts (s : State) (cs : List CandId) : State := cs.foldl State.refreshCost s

/-- The candidate of least cost; of several with the least cost, the one nearest the head (R76, R83). -/
def cheapest (cost : CandId → Nat) (cs : List CandId) : Option CandId :=
  match cs with
  | [] => none
  | c :: cs =>
    match cheapest cost cs with
    | none => some c
    | some best => if cost c ≤ cost best then some c else some best

/-- The destination's active candidate set; when it differs from the one held, the switch bookkeeping goes with it:
last switch time, switch count, and the entry in the changed-destination set (R78). -/
def State.setActive (s : State) (d : DestId) (a : Option CandId) : State :=
  match s.dest d with
  | none => s
  | some r =>
    if r.active = a then s
    else
      (s.setDest d (some { r with
        active := a
        lastSwitch := some s.now
        switchCount := min (r.switchCount + 1) Config.countLimit })).setChanged d true

/-- Immediate selection (R76). -/
def State.selectNow (s : State) (d : DestId) : State :=
  match s.dest d with
  | none => s
  | some r => (s.refreshCosts r.chain).setActive d (cheapest s.candCost (r.chain.filter s.candUsable))

/-- The chain-edit check (R60). -/
def State.chainEditCheck (s : State) (d : DestId) : State :=
  match s.dest d with
  | none => s
  | some r =>
    match r.active with
    | none => s.selectNow d
    | some a => if r.chain.contains a && s.candUsable a then s.refreshCost a else s.selectNow d

/-- The hold-down has elapsed (R82); the last switch time of a Resolved destination is always present (R72). -/
def State.holdDownElapsed (s : State) (r : Dest) : Bool :=
  match r.lastSwitch with
  | some t => s.param Param.holdDown ≤ (s.now - t).toNat
  | none => false

/-- The margin of the switch test (R81): challenger cost `b` against active cost `a`. -/
def marginPasses (hysteresis a b : Nat) : Bool := b * 16 < a * (16 - hysteresis)

/-- The challenger at a switch test (R83). -/
def State.challenger (s : State) (r : Dest) (a : CandId) : Option CandId :=
  cheapest s.candCost (r.chain.filter (fun c => s.candUsable c && c != a))

/-- The full evaluation of a Resolved destination whose active candidate is usable (R85). -/
def State.switchTest (s : State) (d : DestId) (r : Dest) (a : CandId) : State :=
  match s.challenger r a with
  | none => s.refreshCosts r.chain
  | some b =>
    if marginPasses (s.param Param.hysteresis) (s.candCost a) (s.candCost b) && s.holdDownElapsed r then
      (s.refreshCosts r.chain).setActive d (some b)
    else s.refreshCosts r.chain

/-- A full evaluation of a destination in use (R84). -/
def State.evaluateDest (s : State) (d : DestId) : State :=
  match s.dest d with
  | none => s
  | some r =>
    if r.chain.isEmpty then s
    else
      match r.active with
      | none => s.selectNow d
      | some a => if s.candUsable a then s.switchTest d r a else s.selectNow d

/-- What the Path Resolver hands the Forwarding Port for a destination found (R86, R98). -/
def State.pathResult (s : State) (d : DestId) : PathResult :=
  match s.dest d with
  | none => .unknown
  | some r =>
    match r.active with
    | none => .noPath
    | some a =>
      match s.cand a with
      | none => .noPath
      | some k =>
        match s.link k.link with
        | none => .noPath
        | some l => .ok k.link l.radio l.peer (s.candCost a)

/-- The destination is Resolved and its active candidate names the link (R88). -/
def State.activeOn (s : State) (i : LinkId) (d : DestId) : Bool :=
  match s.dest d with
  | some r =>
    match r.active with
    | some a => s.candNames i a
    | none => false
  | none => false

/-- The destination is Unreachable and has a candidate naming the link (R89). -/
def State.waitsOn (s : State) (i : LinkId) (d : DestId) : Bool :=
  match s.dest d with
  | some r => r.state == .unreachable && r.chain.any (s.candNames i)
  | none => false

/-- A usable-lost notice for a link, acted on (R18, R88). -/
def State.usableLost (s : State) (i : LinkId) : State :=
  (List.finRange 128).foldl (fun s d => if s.activeOn i d then s.selectNow d else s) s

/-- A usable-gained notice for a link, acted on (R19, R89). -/
def State.usableGained (s : State) (i : LinkId) : State :=
  (List.finRange 128).foldl (fun s d => if s.waitsOn i d then s.selectNow d else s) s

end Sys2Proof.Machine
end

