-- ==== Sys2Proof/Machine/PathTable.lean ====
section
/-! DEFINITION. The Path Table's operations on chains and records (chapter 3), and the retirement of a link with its
candidates (R22), which the RETIRE LINK command and the RETIRE LINKS job share. -/

namespace Sys2Proof.Machine

/-- A candidate placed immediately after a given member of a chain (R59). -/
def insertAfter (a c : CandId) (chain : List CandId) : List CandId :=
  match chain with
  | [] => [c]
  | x :: xs => if x = a then x :: c :: xs else x :: insertAfter a c xs

/-- A candidate placed in a chain that does not hold it (R59). -/
def placeIn (p : Placement) (c : CandId) (chain : List CandId) : List CandId :=
  match p with
  | .head => c :: chain
  | .tail => chain ++ [c]
  | .after a => insertAfter a c chain

/-- One candidate fewer names the link: its reference count falls, and a Retiring link whose count reaches 0 becomes
Vacant (R20, R23; step 3 of R66). -/
def State.dropReference (s : State) (i : LinkId) : State :=
  match s.link i with
  | none => s
  | some l =>
    if l.state = .retiring ∧ l.refs ≤ 1 then s.setLink i none
    else s.setLink i (some { l with refs := l.refs - 1 })

/-- Steps 1 to 3 of R66: the candidate leaves its chain, its record becomes free, its link's reference count falls. -/
def State.detach (s : State) (c : CandId) : State :=
  match s.cand c with
  | none => s
  | some k =>
    ((s.updateDest k.dest (fun r => { r with chain := r.chain.erase c })).setCand c none).dropReference k.link

/-- What follows a removal on a destination that stays in use (R66): Unresolved when the chain is empty, with the
bookkeeping of R58, and the chain-edit check otherwise. -/
def State.afterRemoval (s : State) (d : DestId) : State :=
  match s.dest d with
  | none => s
  | some r => if r.chain.isEmpty then s.setActive d none else s.chainEditCheck d

/-- A candidate removed from a destination that stays in use (R66). -/
def State.removeCand (s : State) (c : CandId) : State :=
  match s.cand c with
  | none => s
  | some k => (s.detach c).afterRemoval k.dest

/-- A destination removed (R67). -/
def State.removeDest (s : State) (d : DestId) : State :=
  match s.dest d with
  | none => s
  | some r =>
    let cleared := s.setDest d (some { r with active := none, lastSwitch := none, switchCount := 0 })
    ((r.chain.foldl State.detach cleared).setDest d none).setChanged d false

/-- Every candidate naming a link removed, one at a time, in ascending candidate id (R22). -/
def State.removeCandsOf (s : State) (i : LinkId) : State :=
  (List.finRange 256).foldl (fun s c => if s.candNames i c then s.removeCand c else s) s

/-- A link in use becomes Vacant (R24), with a usable-lost notice if it was Up or Degraded before (R18). -/
def State.vacateLink (s : State) (i : LinkId) (before : LinkState) : State :=
  if before.isUsable then (s.setLink i none).usableLost i else s.setLink i none

/-- A cascade retirement (R22). -/
def State.retireCascade (s : State) (i : LinkId) : State :=
  match s.link i with
  | none => s
  | some l => (s.removeCandsOf i).vacateLink i l.state

/-- RETIRE LINK without cascade (R21). -/
def State.retireAlone (s : State) (i : LinkId) : State :=
  match s.link i with
  | none => s
  | some l =>
    if l.state = .retiring then s
    else if l.refs = 0 then s.vacateLink i l.state
    else if l.state.isUsable then (s.setLink i (some l.retire)).usableLost i
    else s.setLink i (some l.retire)

end Sys2Proof.Machine
end

