-- ==== Sys2Proof/Machine/CandidateCommands.lean ====
section
/-! DEFINITION. The Candidates group of the command set: ADD, UPDATE, REMOVE and READ CANDIDATE. -/

namespace Sys2Proof.Machine

/-- The chain holds a candidate naming the link (R57). -/
def State.chainNames (s : State) (chain : List CandId) (i : LinkId) : Bool := chain.any (s.candNames i)

/-- The placement is after a candidate that is not a member of the chain. -/
def Placement.misses (p : Placement) (chain : List CandId) : Bool :=
  match p with
  | .after a => !chain.contains a
  | .head | .tail => false

/-- Steps 1 to 4 of an accepted ADD CANDIDATE (R61). -/
def State.enlist (s : State) (c : CandId) (d : DestId) (i : LinkId) (remainder : Nat) (p : Placement) : State :=
  (((s.setCand c (some { dest := d, link := i, remainder := remainder, lastCost := Config.saturated })).updateDest d
      (fun r => { r with chain := placeIn p c r.chain })).updateLink i
      (fun l => { l with refs := l.refs + 1 })).chainEditCheck d

/-- ADD CANDIDATE's rule (R61). -/
def addCandidate (args : List Byte) (s : State) : Reply :=
  match args with
  | [dest, link, hi, lo, placement, after] =>
    match idOf 128 dest, idOf 32 link, placementOf placement after with
    | some d, some i, some p =>
      match s.dest d with
      | none => s.refuse .noRecord
      | some r =>
        match s.link i with
        | none => s.refuse .noRecord
        | some l =>
          if l.state = .retiring then s.refuse .noRecord
          else if s.chainNames r.chain i then s.refuse .duplicate
          else if Config.chainCapacity ≤ r.chain.length then s.refuse .chainFull
          else if p.misses r.chain then s.refuse .noRecord
          else
            match s.freeCand with
            | none => s.refuse .poolEmpty
            | some c =>
              let t := s.enlist c d i (word16 hi lo) p
              t.ok [byteOf c, t.destCode d]
    | _, _, _ => s.refuse .badValue
  | _ => s.refuse .badLength

/-- ADD CANDIDATE (R61). -/
def execAddCandidate (s : State) : Host.Outcome State Fault Refusal := carryOut Code.addCandidate addCandidate s

/-- The position write of an UPDATE CANDIDATE: the candidate is taken from its place and placed again (R59, R65). -/
def State.moveCand (s : State) (c : CandId) (d : DestId) (p : Placement) : State :=
  s.updateDest d (fun r => { r with chain := placeIn p c (r.chain.erase c) })

/-- The remainder write of an UPDATE CANDIDATE, with the chain-edit check (R64). -/
def State.writeRemainder (s : State) (c : CandId) (d : DestId) (remainder : Nat) : State :=
  (s.updateCand c (fun k => { k with remainder := remainder })).chainEditCheck d

/-- The position is after the candidate itself. -/
def Placement.isAfter (p : Placement) (c : CandId) : Bool := p == .after c

/-- An accepted UPDATE CANDIDATE: position first, remainder cost second (R63, R65). -/
def State.rewriteCand (s : State) (c : CandId) (d : DestId) (mask : Byte) (remainder : Nat) (p : Option Placement) :
    State :=
  let moved := match mask.getLsbD 1, p with
    | true, some q => s.moveCand c d q
    | _, _ => s
  if mask.getLsbD 0 then moved.writeRemainder c d remainder else moved

/-- The chain of a candidate's destination. -/
def State.chainOf (s : State) (d : DestId) : List CandId :=
  match s.dest d with
  | some r => r.chain
  | none => []

/-- UPDATE CANDIDATE's rule (R63, R157). -/
def updateCandidate (args : List Byte) (s : State) : Reply :=
  match args with
  | [id, mask, hi, lo, position, after] =>
    let c := candOf id
    let p := placementOf position after
    if mask.getLsbD 1 && p.isNone then s.refuse .badValue
    else
      match s.cand c with
      | none => s.refuse .noRecord
      | some k =>
        if mask.getLsbD 1 && p.any (·.isAfter c) then s.refuse .badValue
        else if mask.getLsbD 1 && p.any (·.misses (s.chainOf k.dest)) then s.refuse .noRecord
        else
          let t := s.rewriteCand c k.dest mask (word16 hi lo) p
          t.ok [t.destCode k.dest]
  | _ => s.refuse .badLength

/-- UPDATE CANDIDATE (R63, R64, R65, R157). -/
def execUpdateCandidate (s : State) : Host.Outcome State Fault Refusal := carryOut Code.updateCandidate updateCandidate s

/-- REMOVE CANDIDATE's rule (R66). -/
def removeCandidate (args : List Byte) (s : State) : Reply :=
  match args with
  | [id] =>
    match s.cand (candOf id) with
    | none => s.refuse .noRecord
    | some k =>
      let t := s.removeCand (candOf id)
      t.ok [byteOf k.dest, t.destCode k.dest]
  | _ => s.refuse .badLength

/-- REMOVE CANDIDATE (R66). -/
def execRemoveCandidate (s : State) : Host.Outcome State Fault Refusal := carryOut Code.removeCandidate removeCandidate s

/-- A candidate's position in its chain, 1 to 4 counting from the head (R56). -/
def State.positionOf (s : State) (c : CandId) (d : DestId) : Nat := (s.chainOf d).idxOf c + 1

/-- The candidate is its destination's active candidate (R56). -/
def State.isActive (s : State) (c : CandId) (d : DestId) : Bool :=
  match s.dest d with
  | some r => r.active == some c
  | none => false

/-- A candidate record in an answer: one byte 0 when free, nine bytes in use (R56, R172). -/
def State.candBytes (s : State) (c : CandId) : List Byte :=
  match s.cand c with
  | none => [0]
  | some k =>
    [1, byteOf k.dest, byteOf k.link] ++ bytesOf 2 k.remainder ++ bytesOf 2 k.lastCost
      ++ [byteOf (s.positionOf c k.dest), bitOf (s.isActive c k.dest)]

/-- READ CANDIDATE's rule (R56). -/
def readCandidate (args : List Byte) (s : State) : Reply :=
  match args with
  | [id] => s.ok (s.candBytes (candOf id))
  | _ => s.refuse .badLength

/-- READ CANDIDATE (R56). -/
def execReadCandidate (s : State) : Host.Outcome State Fault Refusal := carryOut Code.readCandidate readCandidate s

end Sys2Proof.Machine
end

