-- ==== Sys2Proof/Machine/DestinationCommands.lean ====
section
/-! DEFINITION. The Destinations group of the command set: ADD, FIND, REMOVE and READ DESTINATION. -/

namespace Sys2Proof.Machine

/-- A record as ADD DESTINATION starts it (R52). -/
def Dest.fresh (a : Addr) : Dest :=
  { address := a, chain := [], active := none, lastSwitch := none, switchCount := 0 }

/-- ADD DESTINATION's rule (R52). -/
def addDestination (args : List Byte) (s : State) : Reply :=
  match args with
  | [a0, a1, a2, a3, a4, a5] =>
    let a := addrOf a0 a1 a2 a3 a4 a5
    if isGroup a then s.refuse .badValue
    else if (s.findDest a).isSome then s.refuse .duplicate
    else
      match s.vacantDest with
      | none => s.refuse .tableFull
      | some d => (s.setDest d (some (Dest.fresh a))).ok [byteOf d]
  | _ => s.refuse .badLength

/-- ADD DESTINATION (R52). -/
def execAddDestination (s : State) : Host.Outcome State Fault Refusal := carryOut Code.addDestination addDestination s

/-- FIND DESTINATION's rule (R51). -/
def findDestination (args : List Byte) (s : State) : Reply :=
  match args with
  | [a0, a1, a2, a3, a4, a5] =>
    let a := addrOf a0 a1 a2 a3 a4 a5
    if isGroup a then s.refuse .badValue
    else
      match s.findDest a with
      | none => s.refuse .noRecord
      | some d => s.ok [byteOf d, s.destCode d]
  | _ => s.refuse .badLength

/-- FIND DESTINATION (R51). -/
def execFindDestination (s : State) : Host.Outcome State Fault Refusal := carryOut Code.findDestination findDestination s

/-- REMOVE DESTINATION's rule (R67). -/
def removeDestination (args : List Byte) (s : State) : Reply :=
  match args with
  | [index] =>
    match idOf 128 index with
    | none => s.refuse .badValue
    | some d => if (s.dest d).isNone then s.refuse .noRecord else (s.removeDest d).ok []
  | _ => s.refuse .badLength

/-- REMOVE DESTINATION (R67). -/
def execRemoveDestination (s : State) : Host.Outcome State Fault Refusal :=
  carryOut Code.removeDestination removeDestination s

/-- The four chain slots of a destination's record, unused slots 0 (R172). -/
def chainSlots (chain : List CandId) : List Byte :=
  (chain.map (fun (c : CandId) => byteOf c.val) ++ List.replicate Config.chainCapacity 0).take Config.chainCapacity

/-- The 21 bytes of a destination in use, in the order of R172. -/
def Dest.bytes (r : Dest) : List Byte :=
  [r.state.code] ++ addrBytes r.address ++ [byteOf r.chain.length] ++ chainSlots r.chain
    ++ optionBytes 1 (r.active.map Fin.val) ++ optionBytes 4 (r.lastSwitch.map BitVec.toNat) ++ bytesOf 2 r.switchCount

/-- A destination record in an answer: one byte, the state, when Vacant (R53, R172). -/
def State.destBytes (s : State) (d : DestId) : List Byte :=
  match s.dest d with
  | none => [0]
  | some r => r.bytes

/-- READ DESTINATION's rule (R53). -/
def readDestination (args : List Byte) (s : State) : Reply :=
  match args with
  | [index] =>
    match idOf 128 index with
    | none => s.refuse .badValue
    | some d => s.ok (s.destBytes d)
  | _ => s.refuse .badLength

/-- READ DESTINATION (R53). -/
def execReadDestination (s : State) : Host.Outcome State Fault Refusal := carryOut Code.readDestination readDestination s

end Sys2Proof.Machine
end

