-- ==== Sys2Proof/Machine/LinkCommands.lean ====
section
/-! DEFINITION. The Links group of the command set (ADD LINK, UPDATE LINK, RETIRE LINK, READ LINK) and the expiry of a
silence deadline. -/

namespace Sys2Proof.Machine

/-- ADD LINK's rule (R3, R4). -/
def addLink (args : List Byte) (s : State) : Reply :=
  match args with
  | [radio, p0, p1, p2, p3, p4, p5, sector, mode] =>
    match idOf 3 radio, idOf 8 sector, sectorModeOf mode with
    | some r, some h, some m =>
      let peer := addrOf p0 p1 p2 p3 p4 p5
      if isGroup peer then s.refuse .badValue
      else if !(s.port r).present then s.refuse .noRadio
      else if (s.findLink r peer).isSome then s.refuse .duplicate
      else
        match s.vacantLink with
        | none => s.refuse .tableFull
        | some i => (s.setLink i (some (Link.fresh r peer h m))).ok [byteOf i]
    | _, _, _ => s.refuse .badValue
  | _ => s.refuse .badLength

/-- ADD LINK (R3, R4). -/
def execAddLink (s : State) : Host.Outcome State Fault Refusal := carryOut Code.addLink addLink s

/-- The writes of an UPDATE LINK, each when its mask bit names it: sector, then sector mode, then pinned rate (R157). -/
def Link.writeMasked (t : Tuning) (mask : Byte) (sector : Option Sector) (mode : Option SectorMode) (pin : Option Rate)
    (l : Link) : Link :=
  let l1 := match mask.getLsbD 0, sector with
    | true, some h => l.writeSector t h
    | _, _ => l
  let l2 := match mask.getLsbD 1, mode with
    | true, some m => l1.writeMode m
    | _, _ => l1
  if mask.getLsbD 2 then l2.writePin t pin else l2

/-- UPDATE LINK's rule (R17, R40, R157). -/
def updateLink (args : List Byte) (s : State) : Reply :=
  match args with
  | [id, mask, sector, mode, pinPresence, pinRate] =>
    match idOf 32 id with
    | none => s.refuse .badValue
    | some i =>
      if mask.getLsbD 0 && (idOf 8 sector).isNone then s.refuse .badValue
      else if mask.getLsbD 1 && (sectorModeOf mode).isNone then s.refuse .badValue
      else
        match s.link i with
        | none => s.refuse .noRecord
        | some l =>
          if l.state = .retiring then s.refuse .noRecord
          else
            (s.setLink i (some (l.writeMasked s.tuning mask (idOf 8 sector) (sectorModeOf mode)
              (pinOf pinPresence pinRate)))).ok []
  | _ => s.refuse .badLength

/-- UPDATE LINK (R17, R40, R157). -/
def execUpdateLink (s : State) : Host.Outcome State Fault Refusal := carryOut Code.updateLink updateLink s

/-- RETIRE LINK's rule (R21, R22): answered OK with the link's state after the command. -/
def retireLink (args : List Byte) (s : State) : Reply :=
  match args with
  | [id, cascade] =>
    match idOf 32 id with
    | none => s.refuse .badValue
    | some i =>
      if (s.link i).isNone then s.refuse .noRecord
      else
        let t := if flagOf cascade then s.retireCascade i else s.retireAlone i
        t.ok [t.linkCode i]
  | _ => s.refuse .badLength

/-- RETIRE LINK (R21, R22). -/
def execRetireLink (s : State) : Host.Outcome State Fault Refusal := carryOut Code.retireLink retireLink s

/-- The 71 bytes of a link in use, in the order of R172, with the three computed figures. -/
def Link.bytes (t : Tuning) (l : Link) : List Byte :=
  [l.state.code, byteOf l.radio] ++ addrBytes l.peer ++ [byteOf l.sector, l.mode.code]
    ++ optionBytes 1 (l.followSector.map Fin.val) ++ [byteOf l.agree] ++ optionBytes 1 (l.pinned.map Fin.val)
    ++ [byteOf l.heard] ++ optionBytes 4 (l.lastHeard.map BitVec.toNat) ++ optionBytes 4 (l.lastBeacon.map BitVec.toNat)
    ++ bytesOf 2 l.gapSum ++ [byteOf l.gapCount] ++ optionBytes 2 l.interval
    ++ optionBytes 4 (l.deadline.map BitVec.toNat) ++ [byteOf l.refs, l.events.byte]
    ++ (List.finRange 12).flatMap (fun r => bytesOf 2 (l.est.delivery.get r))
    ++ optionBytes 1 l.est.snr ++ [byteOf l.est.probe, bitOf l.est.oneWay]
    ++ [byteOf (l.ceiling t), byteOf (l.chosenRate t)] ++ bytesOf 2 (l.cost t)

/-- A link record in an answer: one byte, the state, when Vacant (R2, R172). -/
def State.linkBytes (s : State) (i : LinkId) : List Byte :=
  match s.link i with
  | none => [0]
  | some l => l.bytes s.tuning

/-- READ LINK's rule (R2). -/
def readLink (args : List Byte) (s : State) : Reply :=
  match args with
  | [id] =>
    match idOf 32 id with
    | none => s.refuse .badValue
    | some i => s.ok (s.linkBytes i)
  | _ => s.refuse .badLength

/-- READ LINK (R2). -/
def execReadLink (s : State) : Host.Outcome State Fault Refusal := carryOut Code.readLink readLink s

/-- The link holds a silence deadline, and it is the Timebase count (R13, R170). -/
def Link.due (now : Time) (l : Link) : Bool := l.deadline == some now

/-- The expiry of a link's silence deadline (R13), where it is due: taken in Operational, the link goes Down, with a
usable-lost notice if it was Up or Degraded. -/
def State.expireLink (s : State) (i : LinkId) : State :=
  match s.link i with
  | none => s
  | some l =>
    if s.part = .operational ∧ l.due s.now = true then
      if l.state.isUsable then (s.setLink i (some l.expire)).usableLost i else s.setLink i (some l.expire)
    else s

/-- The expiries of the links of a list that are due, one after the other. -/
def State.expireDue (s : State) (is : List LinkId) : State := is.foldl State.expireLink s

/-- SILENCE_DEADLINE_EXPIRY (R13): the expiry of one link as an event of its own, which may come after another event of its
millisecond (R14, log entry 7). -/
def execSilenceDeadlineExpiry (i : LinkId) (s : State) : Host.Outcome State Fault Refusal := .next (s.expireLink i)

end Sys2Proof.Machine
end

