-- ==== Sys2Proof/Machine/CursorCommands.lean ====
section
/-! DEFINITION. The Cursor group of the command set (section 9.5): SET CURSOR and READ AT CURSOR. -/

namespace Sys2Proof.Machine

/-- The number of records of a table, which is also its end position (R158). -/
def CursorTable.size (t : CursorTable) : Nat :=
  match t with
  | .links => 32 | .destinations => 128 | .candidates => 256

/-- SET CURSOR's rule (R158). -/
def setCursor (args : List Byte) (s : State) : Reply :=
  match args with
  | [table, index, auto] =>
    match cursorTableOf table, autoAdvanceOf auto with
    | some t, some a =>
      if index.toNat < t.size then { s with cursor := { table := t, index := index.toNat, autoAdvance := a } }.ok []
      else s.refuse .badValue
    | _, _ => s.refuse .badValue
  | _ => s.refuse .badLength

/-- SET CURSOR (R158). -/
def execSetCursor (s : State) : Host.Outcome State Fault Refusal := carryOut Code.setCursor setCursor s

/-- The record at an index of a table is in use. -/
def State.inUse (s : State) (t : CursorTable) (k : Nat) : Bool :=
  match t with
  | .links => if h : k < 32 then (s.link ⟨k, h⟩).isSome else false
  | .destinations => if h : k < 128 then (s.dest ⟨k, h⟩).isSome else false
  | .candidates => if h : k < 256 then (s.cand ⟨k, h⟩).isSome else false

/-- The record at an index of a table, in the form of the table's read command (R159). -/
def State.recordBytes (s : State) (t : CursorTable) (k : Nat) : List Byte :=
  match t with
  | .links => if h : k < 32 then s.linkBytes ⟨k, h⟩ else []
  | .destinations => if h : k < 128 then s.destBytes ⟨k, h⟩ else []
  | .candidates => if h : k < 256 then s.candBytes ⟨k, h⟩ else []

/-- The first record in use at or above an index of a table (R160). -/
def State.nextInUse (s : State) (t : CursorTable) (from_ : Nat) : Option Nat :=
  (List.range t.size).find? (fun k => decide (from_ ≤ k) && s.inUse t k)

/-- READ AT CURSOR's answer for a record (R172). -/
def State.cursorRecord (s : State) (t : CursorTable) (k : Nat) : List Byte :=
  [t.code, 0, byteOf k] ++ s.recordBytes t k

/-- READ AT CURSOR's end marker (R172). -/
def endMarker (t : CursorTable) : List Byte := [t.code, 1, 0]

/-- READ AT CURSOR's rule (R159, R160). R159 says that the end position never meets auto-advance off; there this answers
the end marker. -/
def readAtCursor (_args : List Byte) (s : State) : Reply :=
  let t := s.cursor.table
  if s.cursor.autoAdvance then
    match s.nextInUse t s.cursor.index with
    | some k => { s with cursor := { s.cursor with index := k + 1 } }.ok (s.cursorRecord t k)
    | none => { s with cursor := { s.cursor with index := t.size } }.ok (endMarker t)
  else if s.cursor.index < t.size then s.ok (s.cursorRecord t s.cursor.index)
  else s.ok (endMarker t)

/-- READ AT CURSOR (R159, R160). -/
def execReadAtCursor (s : State) : Host.Outcome State Fault Refusal := carryOut Code.readAtCursor readAtCursor s

end Sys2Proof.Machine
end

