-- ==== Sys2Proof/Machine/ForwardingPort.lean ====
section
/-! DEFINITION. The Forwarding Port (chapter 5): intake of queries, resolution of the head, and the taking of answers. -/

namespace Sys2Proof.Machine

/-- The answer a query forms when it reaches the head, with the tables as the evaluation leaves them (R97, R98,
R100). -/
def State.resolveQuery (s : State) (q : Query) : State × PathAnswer :=
  match s.part with
  | .configuring => (s, { tag := q.tag, result := .notReady })
  | .operational =>
    match s.findDest q.dest with
    | none => (s, { tag := q.tag, result := .unknown })
    | some d => (s.evaluateDest d, { tag := q.tag, result := (s.evaluateDest d).pathResult d })

/-- The head of the queue resolved, if it is still waiting (R97). -/
def State.resolveHead (s : State) : State :=
  match s.queries with
  | [] => s
  | q :: rest =>
    match q.answer with
    | some _ => s
    | none =>
      { (s.resolveQuery q).1 with queries := { q with answer := some (s.resolveQuery q).2 } :: rest }

/-- PATH_QUERY (R95, R97): appended at the tail, and resolved at once when it is taken into an empty queue. While the
query ready is withheld the query stays on the frame switch's side. -/
def execPathQuery (tag : Byte) (dest : Addr) (s : State) : Host.Outcome State Fault Refusal :=
  if s.queryReady then
    let taken := { s with queries := s.queries ++ [{ tag := tag, dest := dest, answer := none }] }
    .next (if s.queries.isEmpty then taken.resolveHead else taken)
  else .next s

/-- PATH_ANSWER (R101): the held answer passes, its entry leaves the queue, and the next entry is resolved within the
same event. -/
def execPathAnswer (s : State) : Host.Outcome State Fault Refusal :=
  match s.queries with
  | [] => .next s
  | q :: rest =>
    match q.answer with
    | none => .next s
    | some _ => .next { s with queries := rest }.resolveHead

/-- MALFORMED_QUERY (R174): discarded as it passes, with no entry and no answer. -/
def execMalformedQuery (_bytes : List Byte) (s : State) : Host.Outcome State Fault Refusal := .next s

end Sys2Proof.Machine
end

