-- ==== Sys2Proof/Machine/Jobs.lean ====
section
/-! DEFINITION. The Job Engine (chapter 7): START JOB, STOP JOB, READ JOB STATE, and the visits of the three kinds. -/

namespace Sys2Proof.Machine

/-- The kind a selector is of. -/
def JobSelector.kind (j : JobSelector) : JobKind :=
  match j with
  | .retireLinks _ _ => .retireLinks
  | .retuneRadio _ => .retuneRadio
  | .pruneDestinations _ => .pruneDestinations

/-- Every radio the selector names is present (R123). -/
def State.radiosPresent (s : State) (j : JobSelector) : Bool :=
  match j with
  | .retireLinks radios _ => (List.finRange 3).all (fun p => !radios.getLsbD p.val || (s.port p).present)
  | .retuneRadio p => (s.port p).present
  | .pruneDestinations _ => true

/-- The flush at the start of a job (R124): the port of a RETUNE RADIO job's radio. -/
def State.flushForJob (s : State) (j : JobSelector) : State :=
  match j with
  | .retuneRadio p => s.setPort p (s.port p).flush
  | .retireLinks _ _ | .pruneDestinations _ => s

/-- A job context as START JOB forms it (R124). -/
def JobContext.start (j : JobSelector) : JobContext := { selector := j, next := 0, visited := 0, actedOn := 0 }

/-- START JOB's rule (R122 to R124). -/
def startJob (args : List Byte) (s : State) : Reply :=
  match s.part with
  | .configuring => s.refuse .wrongState
  | .operational =>
    match s.job with
    | .running _ => s.refuse .busy
    | .noticePending _ => s.refuse .noticeUnread
    | .idle =>
      match selectorOf args with
      | none => s.refuse .badValue
      | some j =>
        if s.radiosPresent j then ({ s with job := .running (JobContext.start j) }.flushForJob j).ok []
        else s.refuse .noRadio

/-- START JOB (R122 to R124). -/
def execStartJob (s : State) : Host.Outcome State Fault Refusal := carryOut Code.startJob startJob s

/-- The notice a job leaves at its end, copied from its context (R121). -/
def JobContext.notice (c : JobContext) (code : JobCode) : JobNotice :=
  { kind := c.selector.kind, code := code, visited := c.visited, actedOn := c.actedOn }

/-- STOP JOB's rule (R132). -/
def stopJob (_args : List Byte) (s : State) : Reply :=
  match s.job with
  | .running c => { s with job := .noticePending (c.notice .stopped) }.ok []
  | .idle | .noticePending _ => s.refuse .notRunning

/-- STOP JOB (R132). -/
def execStopJob (s : State) : Host.Outcome State Fault Refusal := carryOut Code.stopJob stopJob s

/-- READ JOB STATE's rule (R133). -/
def readJobState (_args : List Byte) (s : State) : Reply :=
  match s.job with
  | .running c => s.ok [1, c.selector.kind.code, byteOf c.next]
  | .idle | .noticePending _ => s.ok [0, 0, 0]

/-- READ JOB STATE (R133). -/
def execReadJobState (s : State) : Host.Outcome State Fault Refusal := carryOut Code.readJobState readJobState s

/-! ### Visits (R125) -/

/-- The job moved on past a visited index of a table of `size` records: steps 3 and 4 of R125. -/
def State.moveOn (s : State) (c : JobContext) (size : Nat) (acted : Bool) : State :=
  let c' := { c with visited := c.visited + 1, actedOn := c.actedOn + acted.toNat }
  { s with
    job := if size ≤ c.next + 1 then .noticePending (c'.notice .done) else .running { c' with next := c.next + 1 } }

/-- The link state's bit in a RETIRE LINKS state mask (R171); Retiring has none. -/
def LinkState.maskBit (s : LinkState) : Option Nat :=
  match s with
  | .probation => some 0 | .up => some 1 | .degraded => some 2 | .down => some 3 | .retiring => none

/-- A RETIRE LINKS job matches a link (R127). -/
def Link.matchesRetire (radios : BitVec 3) (states : BitVec 4) (l : Link) : Bool :=
  radios.getLsbD l.radio.val && l.state.maskBit.any (fun b => states.getLsbD b)

/-- RETIRE_LINKS_VISIT (R125, R127). -/
def execRetireLinksVisit (s : State) : Host.Outcome State Fault Refusal :=
  match s.job with
  | .running c =>
    match c.selector with
    | .retireLinks radios states =>
      if h : c.next < 32 then
        if (s.link ⟨c.next, h⟩).any (Link.matchesRetire radios states) then
          .next ((s.retireCascade ⟨c.next, h⟩).moveOn c 32 true)
        else .next (s.moveOn c 32 false)
      else .next s
    | .retuneRadio _ | .pruneDestinations _ => .next s
  | .idle | .noticePending _ => .next s

/-- A RETUNE RADIO job matches a link (R128). -/
def Link.matchesRetune (radio : Radio) (l : Link) : Bool := l.radio == radio && l.state != .retiring

/-- A retune visit's action on a link (R25), with the usable-lost notice of a link that was Up or Degraded. -/
def State.retuneLink (s : State) (i : LinkId) : State :=
  match s.link i with
  | none => s
  | some l => if l.state.isUsable then (s.setLink i (some l.retune)).usableLost i else s.setLink i (some l.retune)

/-- RETUNE_RADIO_VISIT (R125, R128). -/
def execRetuneRadioVisit (s : State) : Host.Outcome State Fault Refusal :=
  match s.job with
  | .running c =>
    match c.selector with
    | .retuneRadio radio =>
      if h : c.next < 32 then
        if (s.link ⟨c.next, h⟩).any (Link.matchesRetune radio) then
          .next ((s.retuneLink ⟨c.next, h⟩).moveOn c 32 true)
        else .next (s.moveOn c 32 false)
      else .next s
    | .retireLinks _ _ | .pruneDestinations _ => .next s
  | .idle | .noticePending _ => .next s

/-- A PRUNE DESTINATIONS job matches a destination (R129). -/
def Dest.matchesPrune (states : BitVec 2) (r : Dest) : Bool :=
  match r.state with
  | .unresolved => states.getLsbD 0
  | .unreachable => states.getLsbD 1
  | .resolved => false

/-- PRUNE_DESTINATIONS_VISIT (R125, R129). -/
def execPruneDestinationsVisit (s : State) : Host.Outcome State Fault Refusal :=
  match s.job with
  | .running c =>
    match c.selector with
    | .pruneDestinations states =>
      if h : c.next < 128 then
        if (s.dest ⟨c.next, h⟩).any (Dest.matchesPrune states) then
          .next ((s.removeDest ⟨c.next, h⟩).moveOn c 128 true)
        else .next (s.moveOn c 128 false)
      else .next s
    | .retireLinks _ _ | .retuneRadio _ => .next s
  | .idle | .noticePending _ => .next s

end Sys2Proof.Machine
end

