-- ==== Sys2Proof/Machine/NoticeCommands.lean ====
section
/-! DEFINITION. The Notices group of the command set: READ SUMMARY, NEXT EVENT LINK, READ LINK EVENTS, TAKE CHANGES, READ
PORT STATUS, FLUSH REPORTS, READ JOB NOTICE. -/

namespace Sys2Proof.Machine

/-- The overflow flags, bits 0 to 2 for ports 0 to 2 (R172). -/
def State.overflowBits (s : State) : Byte :=
  byteOf ((s.port 0).overflow.toNat + 2 * (s.port 1).overflow.toNat + 4 * (s.port 2).overflow.toNat)

/-- The 8 bytes of READ SUMMARY (R146, R172). -/
def State.summaryBytes (s : State) : List Byte :=
  [bitOf s.jobNoticePending, s.overflowBits] ++ optionBytes 1 (s.eventLink.map Fin.val)
    ++ [byteOf s.changedList.length, s.firstCause.code, s.firstCause.member, bitOf s.notice]

/-- READ SUMMARY (R146). -/
def execReadSummary (s : State) : Host.Outcome State Fault Refusal :=
  carryOut Code.readSummary (fun _ s => s.ok s.summaryBytes) s

/-- NEXT EVENT LINK (R141). -/
def execNextEventLink (s : State) : Host.Outcome State Fault Refusal :=
  carryOut Code.nextEventLink (fun _ s => s.ok (optionBytes 1 (s.eventLink.map Fin.val))) s

/-- READ LINK EVENTS' rule (R140). -/
def readLinkEvents (args : List Byte) (s : State) : Reply :=
  match args with
  | [id] =>
    match idOf 32 id with
    | none => s.refuse .badValue
    | some i =>
      match s.link i with
      | none => s.refuse .noRecord
      | some l => (s.setLink i (some { l with events := {} })).ok [l.events.byte]
  | _ => s.refuse .badLength

/-- READ LINK EVENTS (R140). -/
def execReadLinkEvents (s : State) : Host.Outcome State Fault Refusal := carryOut Code.readLinkEvents readLinkEvents s

/-- The indices TAKE CHANGES returns: up to 8 of the lowest (R143). -/
def State.takenChanges (s : State) : List DestId := s.changedList.take Config.changesPerTake

/-- TAKE CHANGES' rule (R143). -/
def takeChanges (_args : List Byte) (s : State) : Reply :=
  let taken := s.takenChanges
  (taken.foldl (fun s d => s.setChanged d false) s).ok
    ([byteOf taken.length, byteOf (s.changedList.length - taken.length)]
      ++ taken.map (fun (d : DestId) => byteOf d.val))

/-- TAKE CHANGES (R143). -/
def execTakeChanges (s : State) : Host.Outcome State Fault Refusal := carryOut Code.takeChanges takeChanges s

/-- READ PORT STATUS' rule (R118). -/
def readPortStatus (args : List Byte) (s : State) : Reply :=
  match args with
  | [port] =>
    match idOf 3 port with
    | none => s.refuse .badValue
    | some p =>
      let q := s.port p
      (s.setPort p { q with overflow := false }).ok
        ([bitOf q.present, byteOf q.reports.length] ++ bytesOf 2 q.dropped ++ [bitOf q.overflow])
  | _ => s.refuse .badLength

/-- READ PORT STATUS (R118). -/
def execReadPortStatus (s : State) : Host.Outcome State Fault Refusal := carryOut Code.readPortStatus readPortStatus s

/-- FLUSH REPORTS' rule (R117). -/
def flushReports (args : List Byte) (s : State) : Reply :=
  match args with
  | [port] =>
    match idOf 3 port with
    | none => s.refuse .badValue
    | some p =>
      if (s.port p).present then (s.setPort p (s.port p).flush).ok [byteOf (s.port p).reports.length]
      else s.refuse .noRadio
  | _ => s.refuse .badLength

/-- FLUSH REPORTS (R117). -/
def execFlushReports (s : State) : Host.Outcome State Fault Refusal := carryOut Code.flushReports flushReports s

/-- READ JOB NOTICE's rule (R134). -/
def readJobNotice (_args : List Byte) (s : State) : Reply :=
  match s.job with
  | .noticePending n => { s with job := .idle }.ok [n.kind.code, n.code.code, byteOf n.visited, byteOf n.actedOn]
  | .idle | .running _ => s.refuse .notRunning

/-- READ JOB NOTICE (R134). -/
def execReadJobNotice (s : State) : Host.Outcome State Fault Refusal := carryOut Code.readJobNotice readJobNotice s

end Sys2Proof.Machine
end

