-- ==== Sys2Proof/Machine/RadioPorts.lean ====
section
/-! DEFINITION. The Radio Ports (chapter 6): the PARAM exchange, the passing of reports, and the take of a report with
all that it causes in the Link Table and the Link Estimator. -/

namespace Sys2Proof.Machine

/-! ### The PARAM exchange -/

/-- The link an id byte names when a request on this port finds it neither Vacant, Retiring nor Down, and on this
port's radio (row 2 of R109). -/
def State.askedLink (s : State) (p : Radio) (id : Byte) : Option (LinkId × Link) :=
  match idOf 32 id with
  | none => none
  | some i =>
    match s.link i with
    | none => none
    | some l => if l.state = .retiring ∨ l.state = .down ∨ l.radio ≠ p then none else some (i, l)

/-- A request slot filled with an answer (R108). -/
def State.holdAnswer (s : State) (p : Radio) (a : ParamAnswer) : State :=
  s.setPort p { s.port p with slot := some a }

/-- The answer to a PARAM REQUEST formed and held (R109); an OK answer moves the link's probe counter (R41). DESIGN CHOICE
(log entry 17): a link in Probation is answered PROBATION (row 3 of R109), a retuned one too (R111, R130), where R102 has
every link that is no longer Up or Degraded answered UNAVAILABLE. -/
def State.answerRequest (s : State) (p : Radio) (id : Byte) : State :=
  match s.part with
  | .configuring => s.holdAnswer p .notReady
  | .operational =>
    match s.askedLink p id with
    | none => s.holdAnswer p .unavailable
    | some (i, l) =>
      if l.state = .probation then s.holdAnswer p (.probation l.sector)
      else
        (s.setLink i (some (l.afterOkAnswer s.tuning))).holdAnswer p
          (.ok (l.answerRate s.tuning).1 l.sector (l.answerRate s.tuning).2)

/-- PARAM_REQUEST (R108, R109). While the request ready is withheld the request stays on the radio's side. -/
def execParamRequest (p : Radio) (id : Byte) (s : State) : Host.Outcome State Fault Refusal :=
  if s.requestReady p then .next (s.answerRequest p id) else .next s

/-- PARAM_ANSWER (R108): the answer passes and the slot becomes empty. -/
def execParamAnswer (p : Radio) (s : State) : Host.Outcome State Fault Refusal :=
  .next (s.setPort p { s.port p with slot := none })

/-- MALFORMED_REQUEST (R174): discarded as it passes, taking no slot and receiving no answer. -/
def execMalformedRequest (_p : Radio) (_bytes : List Byte) (s : State) : Host.Outcome State Fault Refusal := .next s

/-! ### Reports passing (R112) -/

/-- OUTCOME_REPORT (R112). -/
def execOutcomeReport (p : Radio) (link : Byte) (peer : Addr) (rate attempts acked : Byte) (s : State) :
    Host.Outcome State Fault Refusal :=
  .next (s.passReport p (.outcome link peer rate attempts acked))

/-- HEARD_REPORT (R112). -/
def execHeardReport (p : Radio) (peer : Addr) (snr sector beacon : Byte) (s : State) :
    Host.Outcome State Fault Refusal :=
  .next (s.passReport p (.heard peer snr sector beacon))

/-- UNRECOGNISED_REPORT (R173): it passes into the report queue like any other. -/
def execUnrecognisedReport (p : Radio) (bytes : List Byte) (s : State) : Host.Outcome State Fault Refusal :=
  .next (s.passReport p (Report.ofBytes bytes))

/-! ### The take of a report (R113) -/

/-- What the take goes on with once its link has come Up (R8, step 6 of R6): the usable-gained notice is acted on, then the
link is evaluated, then its deadline is computed. A query's evaluation that falls together with the notice (the second row
of R91's table) finds the link Up on either side of this: taken first, it comes between the link's coming Up and this;
otherwise after it. Both orders leave one and the same state and answer, so the one order of the events stands for
both (DEDUCED, log entry 16). -/
def State.finishRise (s : State) (i : LinkId) : State :=
  (s.usableGained i).updateLink i (fun l => (l.evaluate s.tuning).computeDeadline s.tuning)

/-- A validated HEARD REPORT handled against its link (R6). A link that comes Up in step 5 is written Up first (R8), and
what follows from that is done within the same take (R77, R90, R113). -/
def State.handleHeard (s : State) (i : LinkId) (snr : Nat) (sector : Sector) (beacon : Bool) : State :=
  match s.link i with
  | none => s
  | some l =>
    let heard := l.hear s.tuning s.now snr sector beacon
    let counted := heard.countHearing s.tuning
    if !heard.state.isUsable && counted.state.isUsable then (s.setLink i (some counted)).finishRise i
    else s.setLink i (some (counted.computeDeadline s.tuning))

/-- The take of a HEARD REPORT in Operational (R115): its SNR clamped, its sector checked, matched by radio and peer. -/
def State.takeHeard (s : State) (p : Radio) (peer : Addr) (snr sector beacon : Byte) : State :=
  match idOf 8 sector, s.findLink p peer with
  | some h, some i =>
    match s.link i with
    | some l => if l.state = .retiring then s else s.handleHeard i (min snr.toNat 63) h (flagOf beacon)
    | none => s
  | _, _ => s

/-- The take of an OUTCOME REPORT in Operational (R114, R31): its attempts clamped, its rate, link, radio and peer
checked. -/
def State.takeOutcome (s : State) (p : Radio) (id : Byte) (peer : Addr) (rate attempts acked : Byte) : State :=
  match idOf 12 rate, s.askedLink p id with
  | some r, some (i, l) =>
    if l.peer = peer then
      s.setLink i (some (l.takeOutcome s.tuning s.now r (clampAttempts attempts.toNat) (flagOf acked)))
    else s
  | _, _ => s

/-- A report taken in Operational is handed to its consumer; an unrecognised one is discarded (R113, R173). -/
def State.handleReport (s : State) (p : Radio) (r : Report) : State :=
  match r with
  | .outcome id peer rate attempts acked => s.takeOutcome p id peer rate attempts acked
  | .heard peer snr sector beacon => s.takeHeard p peer snr sector beacon
  | .unrecognised _ => s

/-- REPORT_TAKE (R113): the head report leaves the queue, and is discarded in Configuring or handled in Operational. -/
def execReportTake (p : Radio) (s : State) : Host.Outcome State Fault Refusal :=
  match (s.port p).reports with
  | [] => .next s
  | r :: rest =>
    let taken := s.setPort p { s.port p with reports := rest }
    match s.part with
    | .configuring => .next taken
    | .operational => .next (taken.handleReport p r)

end Sys2Proof.Machine
end

