-- ==== Sys2Proof/Machine/ControlPort.lean ====
section
/-! DEFINITION. The Control Port's frames (section 9.1) and the commands of its Configuration group: READ IDENTITY,
READ TIME, LOAD RATE PROFILE, SET PARAMETER, GET PARAMETER, GO OPERATIONAL, RESET PART, and the answer to an unknown
code. -/

namespace Sys2Proof.Machine

/-! ### Frames -/

/-- A frame begun now is received from its code phase, not ignored: the part runs, no command is in hand, and no soft
reset is due (R152, R168). -/
def State.receivesFrames (s : State) : Bool := s.power == .running && s.hand == none && !s.armed

/-- A frame reaches its waiting phase, and its command is taken (R149). -/
def State.takeCommand (s : State) (code : Byte) (args : List Byte) : State :=
  { s with frame := .waiting, hand := some { code := code, args := args } }

/-- CS is asserted: a frame begins, received from its code phase or ignored whole (R149, R152). -/
def State.beginFrame (s : State) : State :=
  if s.frame = .closed then { s with frame := if s.receivesFrames then .code else .ignored } else s

/-- A byte is clocked, the frame in each of its phases (the table of R149). -/
def State.clockByte (s : State) (b : Byte) : State :=
  match s.frame with
  | .code => { s with frame := .length b }
  | .length code =>
    if b = 0 then s.takeCommand code [] else { s with frame := .arguments code b.toNat [] }
  | .arguments code length received =>
    if length ≤ received.length + 1 then s.takeCommand code (received ++ [b])
    else { s with frame := .arguments code length (received ++ [b]) }
  | .answering a sent =>
    { s with frame := if a.bytes.length ≤ sent + 1 then .afterAnswer else .answering a (sent + 1) }
  | .closed | .waiting | .afterAnswer | .ignored => s

/-- COMMAND_TAKEN (R149): a stretch of a frame, each of its bytes taking the frame on through its phases. The byte that
brings it to the waiting phase takes the command. -/
def execCommandTaken (begins : Bool) (bytes : List Byte) (s : State) : Host.Outcome State Fault Refusal :=
  .next (bytes.foldl State.clockByte (if begins then s.beginFrame else s))

/-- IGNORED_FRAME (R152): the frame begun is ignored until CS is withdrawn, whatever becomes of the command in hand or of
the initialisation while it lasts. -/
def execIgnoredFrame (s : State) : Host.Outcome State Fault Refusal :=
  .next (if s.receivesFrames then s else s.beginFrame)

/-- The frame is in its code, length or arguments phase. -/
def Frame.isReceived (f : Frame) : Bool :=
  match f with
  | .code | .length _ | .arguments _ _ _ => true
  | .closed | .waiting | .answering _ _ | .afterAnswer | .ignored => false

/-- ABORTED_FRAME (R151): CS is withdrawn in one of the first three phases; the frame is discarded, no command is taken,
and nothing else changes. -/
def execAbortedFrame (s : State) : Host.Outcome State Fault Refusal :=
  .next (if s.frame.isReceived then { s with frame := .closed } else s)

/-- CS_WITHDRAWN (R151): the frame ends; the answer's bytes not yet clocked out are lost, and a command still in hand
stays in hand. -/
def execCsWithdrawn (s : State) : Host.Outcome State Fault Refusal := .next { s with frame := .closed }

/-- UNKNOWN_COMMAND (R153): a command in hand whose code names no command is answered so. -/
def execUnknownCommand (s : State) : Host.Outcome State Fault Refusal :=
  match s.hand with
  | none => .next s
  | some h => if namesCommand h.code then .next s else .next (s.refuse .unknownCommand).finish

/-! ### Identity and time -/

/-- READ IDENTITY (R155). -/
def execReadIdentity (s : State) : Host.Outcome State Fault Refusal :=
  carryOut Code.readIdentity (fun _ s =>
    s.ok (bytesOf 2 Config.vendorCode ++ bytesOf 2 Config.partCode ++ [byteOf Config.siliconRevision])) s

/-- READ TIME (R156). -/
def execReadTime (s : State) : Host.Outcome State Fault Refusal :=
  carryOut Code.readTime (fun _ s => s.ok (bytesOf 4 s.now.toNat)) s

/-! ### The rate profile -/

/-- The entries of LOAD RATE PROFILE: T in two bytes, then M in one (R171). -/
def profileEntries (args : List Byte) : List RateEntry :=
  match args with
  | hi :: lo :: m :: rest => { airtime := word16 hi lo, minSnr := m.toNat } :: profileEntries rest
  | _ => []

/-- The minimum SNRs do not decrease along the list (R29). -/
def snrsRise (es : List RateEntry) : Bool :=
  match es with
  | a :: b :: rest => decide (a.minSnr ≤ b.minSnr) && snrsRise (b :: rest)
  | _ => true

/-- Check 2 of R30: every T within 1 to 2,000, every M within 0 to 63, no M below the one before it. -/
def profileValid (es : List RateEntry) : Bool :=
  es.all (fun e => decide (1 ≤ e.airtime) && decide (e.airtime ≤ 2000) && decide (e.minSnr ≤ 63)) && snrsRise es

/-- Twelve entries as a profile. -/
def profileOf (es : List RateEntry) : Option (Vector RateEntry 12) :=
  if h : es.length = 12 then some ⟨es.toArray, by simpa using h⟩ else none

/-- LOAD RATE PROFILE's rule (R30). -/
def loadRateProfile (args : List Byte) (s : State) : Reply :=
  if s.part = .operational then s.refuse .wrongState
  else
    match profileOf (profileEntries args) with
    | some p => if profileValid (profileEntries args) then { s with profile := p }.ok [] else s.refuse .badValue
    | none => s.refuse .badLength

/-- LOAD RATE PROFILE (R30). -/
def execLoadRateProfile (s : State) : Host.Outcome State Fault Refusal :=
  carryOut Code.loadRateProfile loadRateProfile s

/-! ### Parameters -/

/-- The two filter depths take 1, 2, 4 or 8: another value takes the next lower of them, and 0 takes 1 (R166). -/
def clampDepth (v : Nat) : Nat := if v < 2 then 1 else if v < 4 then 2 else if v < 8 then 4 else 8

/-- A value brought into a parameter's range (R166). -/
def clampParam (p : ParamNo) (v : Nat) : Nat :=
  if p = Param.deliveryDepth ∨ p = Param.snrDepth then clampDepth v
  else max (Param.lowest.get p) (min v (Param.highest.get p))

/-- The write would leave the recover threshold at or above the degrade threshold (R167). -/
def crossesThresholds (s : State) (p : ParamNo) (v : Nat) : Bool :=
  (p == Param.degradeThreshold && decide (v ≤ s.param Param.recoverThreshold))
    || (p == Param.recoverThreshold && decide (s.param Param.degradeThreshold ≤ v))

/-- SET PARAMETER's rule (R166, R167). -/
def setParameter (args : List Byte) (s : State) : Reply :=
  match args with
  | [number, hi, lo] =>
    match idOf 22 number with
    | none => s.refuse .badValue
    | some p =>
      let v := clampParam p (word16 hi lo)
      if crossesThresholds s p v then s.refuse .badValue
      else { s with params := put s.params p v }.ok (bytesOf 2 v)
  | _ => s.refuse .badLength

/-- SET PARAMETER (R166, R167). -/
def execSetParameter (s : State) : Host.Outcome State Fault Refusal := carryOut Code.setParameter setParameter s

/-- GET PARAMETER's rule (R166). -/
def getParameter (args : List Byte) (s : State) : Reply :=
  match args with
  | [number] =>
    match idOf 22 number with
    | none => s.refuse .badValue
    | some p => s.ok (bytesOf 2 (s.param p))
  | _ => s.refuse .badLength

/-- GET PARAMETER (R166). -/
def execGetParameter (s : State) : Host.Outcome State Fault Refusal := carryOut Code.getParameter getParameter s

/-! ### Part state and reset -/

/-- GO OPERATIONAL's rule (R165). -/
def goOperational (_args : List Byte) (s : State) : Reply :=
  match s.part with
  | .configuring => { s with part := .operational }.ok []
  | .operational => s.refuse .wrongState

/-- GO OPERATIONAL (R165). -/
def execGoOperational (s : State) : Host.Outcome State Fault Refusal := carryOut Code.goOperational goOperational s

/-- The frame in progress as a reset takes effect: the rest of it is ignored (R152, R168). -/
def Frame.afterReset (f : Frame) : Frame := if f = .closed then .closed else .ignored

/-- The frame that carried a RESET PART has ended: CS is withdrawn, or the frame in progress is one begun since and
ignored (R152, R168). -/
def Frame.carrierEnded (f : Frame) : Bool := f == .closed || f == .ignored

/-- The state as a soft reset takes effect (the table of R168): every block at its reset state, presence kept, and
initialisation begun. -/
def State.softReset (s : State) : State :=
  { State.reset with
    power := .initialising
    frame := s.frame.afterReset
    ports := #v[Port.afterReset (s.port 0).present, Port.afterReset (s.port 1).present,
      Port.afterReset (s.port 2).present]
    pending := s.pending }

/-- RESET PART's rule (R168): answered OK, with a soft reset armed for the end of the frame; if CS was withdrawn in the
waiting phase, the reset takes effect as the command is carried out. -/
def resetPart (_args : List Byte) (s : State) : Reply :=
  if s.frame.carrierEnded then s.softReset.ok [] else { s with armed := true }.ok []

/-- RESET PART (R168). -/
def execResetPart (s : State) : Host.Outcome State Fault Refusal := carryOut Code.resetPart resetPart s

end Sys2Proof.Machine
end

