-- ==== Sys2Proof/Machine/Resets.lean ====
section
/-! DEFINITION. Resets and initialisation (section 10.3) and the Timebase's tick (R170). -/

namespace Sys2Proof.Machine

/-- SOFT_RESET (R168): takes effect once RESET PART has been carried out and CS has been withdrawn at the end of the frame
that carried it. -/
def execSoftReset (s : State) : Host.Outcome State Fault Refusal :=
  if s.armed && s.frame.carrierEnded then .next s.softReset else .next s

/-- POWER_ON_RESET (R168): every block takes its reset state, the command in hand is discarded, and the rest of a frame
in progress is ignored. -/
def execPowerOnReset (s : State) : Host.Outcome State Fault Refusal :=
  .next { State.reset with frame := s.frame.afterReset, pending := s.pending }

/-- POWER_ON_RESET_END (R107, R168): presence is sampled from the presence lines and initialisation begins. -/
def execPowerOnResetEnd (pres0 pres1 pres2 : Bool) (s : State) : Host.Outcome State Fault Refusal :=
  if s.power = .inReset then
    .next { s with
      power := .initialising
      ports := #v[Port.afterReset pres0, Port.afterReset pres1, Port.afterReset pres2] }
  else .next s

/-- INITIALISATION_END (R169): the ready signals are given and the Timebase begins to count. -/
def execInitialisationEnd (s : State) : Host.Outcome State Fault Refusal :=
  if s.power = .initialising then .next { s with power := .running } else .next s

/-- A link's expiry waits as an event of its own before the next rise of the count: it comes then, after the events before
it in the same millisecond (R14, log entry 7). -/
def State.expiresLater (s : State) (i : LinkId) : Bool :=
  (s.pending.takeWhile (· != .millisecondTick)).contains (.silenceDeadlineExpiry i)

/-- The links whose expiry at a rise of the count comes with the rise, in ascending id. -/
def State.expiresNow (s : State) : List LinkId := (List.finRange 32).filter (fun i => !s.expiresLater i)

/-- MILLISECOND_TICK (R170): the count rises by one, wrapping, and every silence deadline equal to the new count expires
(R13), but for one whose expiry comes later in the millisecond. Through a reset and initialisation the count holds 0. -/
def execMillisecondTick (s : State) : Host.Outcome State Fault Refusal :=
  if s.power = .running then .next ({ s with now := s.now + 1 }.expireDue s.expiresNow) else .next s

end Sys2Proof.Machine
end

