-- ==== Sys2Proof/Machine/Dispatch.lean ====
section
/-! DEFINITION. The effect of each event on everything but the queue of waiting events. -/

namespace Sys2Proof.Machine

/-- One arm per row of spec/opcode_table.json, in the table's order. -/
def exec (i : Instr) (s : State) : Host.Outcome State Fault Refusal :=
  match i with
  | .commandTaken begins bytes => Sys2Proof.Machine.execCommandTaken begins bytes s
  | .ignoredFrame => Sys2Proof.Machine.execIgnoredFrame s
  | .abortedFrame => Sys2Proof.Machine.execAbortedFrame s
  | .unknownCommand => Sys2Proof.Machine.execUnknownCommand s
  | .readIdentity => Sys2Proof.Machine.execReadIdentity s
  | .readTime => Sys2Proof.Machine.execReadTime s
  | .loadRateProfile => Sys2Proof.Machine.execLoadRateProfile s
  | .setParameter => Sys2Proof.Machine.execSetParameter s
  | .getParameter => Sys2Proof.Machine.execGetParameter s
  | .goOperational => Sys2Proof.Machine.execGoOperational s
  | .resetPart => Sys2Proof.Machine.execResetPart s
  | .addLink => Sys2Proof.Machine.execAddLink s
  | .updateLink => Sys2Proof.Machine.execUpdateLink s
  | .retireLink => Sys2Proof.Machine.execRetireLink s
  | .readLink => Sys2Proof.Machine.execReadLink s
  | .addDestination => Sys2Proof.Machine.execAddDestination s
  | .findDestination => Sys2Proof.Machine.execFindDestination s
  | .removeDestination => Sys2Proof.Machine.execRemoveDestination s
  | .readDestination => Sys2Proof.Machine.execReadDestination s
  | .addCandidate => Sys2Proof.Machine.execAddCandidate s
  | .updateCandidate => Sys2Proof.Machine.execUpdateCandidate s
  | .removeCandidate => Sys2Proof.Machine.execRemoveCandidate s
  | .readCandidate => Sys2Proof.Machine.execReadCandidate s
  | .setCursor => Sys2Proof.Machine.execSetCursor s
  | .readAtCursor => Sys2Proof.Machine.execReadAtCursor s
  | .readSummary => Sys2Proof.Machine.execReadSummary s
  | .nextEventLink => Sys2Proof.Machine.execNextEventLink s
  | .readLinkEvents => Sys2Proof.Machine.execReadLinkEvents s
  | .takeChanges => Sys2Proof.Machine.execTakeChanges s
  | .readPortStatus => Sys2Proof.Machine.execReadPortStatus s
  | .flushReports => Sys2Proof.Machine.execFlushReports s
  | .readJobNotice => Sys2Proof.Machine.execReadJobNotice s
  | .startJob => Sys2Proof.Machine.execStartJob s
  | .stopJob => Sys2Proof.Machine.execStopJob s
  | .readJobState => Sys2Proof.Machine.execReadJobState s
  | .pathQuery tag dest => Sys2Proof.Machine.execPathQuery tag dest s
  | .pathAnswer => Sys2Proof.Machine.execPathAnswer s
  | .malformedQuery bytes => Sys2Proof.Machine.execMalformedQuery bytes s
  | .paramRequest port link => Sys2Proof.Machine.execParamRequest port link s
  | .paramAnswer port => Sys2Proof.Machine.execParamAnswer port s
  | .malformedRequest port bytes => Sys2Proof.Machine.execMalformedRequest port bytes s
  | .outcomeReport port link peer rate attempts acked => Sys2Proof.Machine.execOutcomeReport port link peer rate attempts acked s
  | .heardReport port peer snr sector beacon => Sys2Proof.Machine.execHeardReport port peer snr sector beacon s
  | .unrecognisedReport port bytes => Sys2Proof.Machine.execUnrecognisedReport port bytes s
  | .reportTake port => Sys2Proof.Machine.execReportTake port s
  | .millisecondTick => Sys2Proof.Machine.execMillisecondTick s
  | .silenceDeadlineExpiry link => Sys2Proof.Machine.execSilenceDeadlineExpiry link s
  | .retireLinksVisit => Sys2Proof.Machine.execRetireLinksVisit s
  | .retuneRadioVisit => Sys2Proof.Machine.execRetuneRadioVisit s
  | .pruneDestinationsVisit => Sys2Proof.Machine.execPruneDestinationsVisit s
  | .softReset => Sys2Proof.Machine.execSoftReset s
  | .powerOnReset => Sys2Proof.Machine.execPowerOnReset s
  | .powerOnResetEnd pres0 pres1 pres2 => Sys2Proof.Machine.execPowerOnResetEnd pres0 pres1 pres2 s
  | .initialisationEnd => Sys2Proof.Machine.execInitialisationEnd s
  | .csWithdrawn => Sys2Proof.Machine.execCsWithdrawn s

end Sys2Proof.Machine
end

