-- ==== Sys2Proof/Safety.lean ====
section
/-! DEFINITION. What counts as a sound state of the part, in the terms the statements use: the laws that the spec says
always hold, the reset state of R168, and the command table of R171. -/

namespace Sys2Proof.Machine

/-! ### Frames -/

/-- Of the part, only destination records, candidate records and the changed-destination set differ. -/
def State.pathsOnly (s t : State) : Prop :=
  t = { s with dests := t.dests, cands := t.cands, changed := t.changed }

/-- Of the part, only link, destination and candidate records and the changed-destination set differ. -/
def State.tablesOnly (s t : State) : Prop :=
  t = { s with links := t.links, dests := t.dests, cands := t.cands, changed := t.changed }

/-- Two candidate records agree but for the last path cost, or both are free. -/
def sameButCost (k k' : Option Cand) : Prop :=
  match k, k' with
  | none, none => True
  | some k, some k' => k' = { k with lastCost := k'.lastCost }
  | _, _ => False

/-- A destination went from `s` to `t` with its address and chain unchanged, and any change of its other fields was a
switch with its bookkeeping (R78): the last switch time is the Timebase count, the index is in the changed-destination
set, and the switch count has risen unless it is saturated. -/
def State.bookKept (s t : State) (d : DestId) : Prop :=
  match s.dest d, t.dest d with
  | none, none => t.changed.get d = s.changed.get d
  | some r, some r' =>
    r'.address = r.address ∧ r'.chain = r.chain ∧
      ((r' = r ∧ t.changed.get d = s.changed.get d) ∨
        (r'.lastSwitch = some s.now ∧ t.changed.get d = true ∧ min (r.switchCount + 1) 65535 ≤ r'.switchCount))
  | _, _ => False

/-- From `s` to `t` destinations changed only by booked switches, and candidates only in their last path cost. -/
def State.pathsReselected (s t : State) : Prop :=
  (∀ d, s.bookKept t d) ∧ ∀ c, sameButCost (s.cand c) (t.cand c)

/-- A destination of `t` with its mark in the changed-destination set is as that of `s`. -/
def State.sameDest (s t : State) (d : DestId) : Prop := t.dest d = s.dest d ∧ t.changed.get d = s.changed.get d

/-- A destination of `t`, with its mark and the members of its chain, is as immediate selection on `u` leaves it (R76). -/
def State.selectedIn (u t : State) (d : DestId) : Prop :=
  (u.selectNow d).sameDest t d ∧ ∀ c ∈ u.chainOf d, t.cand c = (u.selectNow d).cand c

/-- What a usable-lost notice for a link leaves (R88), from `s` to `t`, where `u` is `s` with the link's new record: each
destination whose active candidate named the link is as immediate selection on `u` leaves it, every other destination is
as it was, and no active candidate names the link. -/
def State.lostReselected (s : State) (i : LinkId) (u t : State) : Prop :=
  ∀ d, (s.activeOn i d = true → u.selectedIn t d) ∧ (s.activeOn i d = false → s.sameDest t d) ∧ t.activeOn i d = false

/-- What a usable-gained notice for a link leaves (R89): each Unreachable destination with a candidate on the link is as
immediate selection on `u` leaves it, and every other destination is as it was. -/
def State.gainedReselected (s : State) (i : LinkId) (u t : State) : Prop :=
  ∀ d, (s.waitsOn i d = true → u.selectedIn t d) ∧ (s.waitsOn i d = false → s.sameDest t d)

/-- What a cascade retirement of a link leaves (R22): the link Vacant and no other link changed; every candidate that named
it free, and every other candidate as it was but for its last path cost; each chain without its candidate on the link, and
the destination of such a candidate as its removal leaves it (R66); every other destination as it was. -/
def State.cascadeRetired (s : State) (i : LinkId) (t : State) : Prop :=
  t.link i = none ∧ (∀ j, j ≠ i → t.link j = s.link j) ∧ (∀ c, s.candNames i c = true → t.cand c = none) ∧
    (∀ c, s.candNames i c = false → sameButCost (s.cand c) (t.cand c)) ∧
    (∀ d r, s.dest d = some r → ∃ r', t.dest d = some r' ∧ r'.address = r.address ∧
      r'.chain = r.chain.filter (fun c => !s.candNames i c)) ∧
    (∀ c k, s.cand c = some k → k.link = i → (s.removeCand c).sameDest t k.dest) ∧
    ∀ d, (∀ c ∈ s.chainOf d, s.candNames i c = false) → s.sameDest t d

/-- What the removal of a destination leaves of the links (R67): each link that candidates of its chain name, with its
reference count lowered, or Vacant if it was Retiring and they were its last; every other link as it was. -/
def State.referencesDropped (s : State) (r : Dest) (t : State) : Prop :=
  (∀ i, (∀ c ∈ r.chain, s.candNames i c = false) → t.link i = s.link i) ∧
    ∀ i l, (∃ c ∈ r.chain, s.candNames i c = true) → s.link i = some l →
      t.link i = (if l.state = .retiring ∧ l.refs ≤ 1 then none else some { l with refs := l.refs - 1 })

/-! ### The expiry of silence deadlines (R13, R170) -/

/-- In Operational the link holds a silence deadline that is the given count. -/
def State.dueAt (s : State) (count : Time) (i : LinkId) : Prop :=
  s.part = .operational ∧ ∃ l, s.link i = some l ∧ l.deadline = some count

/-- The link goes Down with the next rise of the count: its deadline is the new count, and its expiry does not wait as an
event of its own. -/
def State.expiresAtRise (s : State) (i : LinkId) : Prop := s.dueAt (s.now + 1) i ∧ s.expiresLater i = false

/-! ### A HEARD REPORT on one record (R6) -/

/-- Step 2 of R6 for a beacon (R10): the accumulation restarts, grows, or gives the measured interval, and the last beacon
time becomes now. -/
def Link.beaconMeasured (now : Time) (l m : Link) : Prop :=
  m = { l with lastBeacon := some now, gapSum := m.gapSum, gapCount := m.gapCount, interval := m.interval } ∧
    (l.lastBeacon = none → m.gapSum = l.gapSum ∧ m.gapCount = l.gapCount ∧ m.interval = l.interval) ∧
    ∀ b gap, l.lastBeacon = some b → gap = (now - b).toNat →
      (gap < 10 ∨ 2000 < gap → m.gapSum = 0 ∧ m.gapCount = 0 ∧ m.interval = l.interval) ∧
      (10 ≤ gap → gap ≤ 2000 →
        (l.gapCount < 3 → m.gapSum = l.gapSum + gap ∧ m.gapCount = l.gapCount + 1 ∧ m.interval = l.interval) ∧
        (3 ≤ l.gapCount → m.gapSum = 0 ∧ m.gapCount = 0 ∧ m.interval = some ((l.gapSum + gap) / 4)))

/-- Step 3 of R6 for a beacon heard on sector `h` (R15), with the sector move of R16 and its evaluation. -/
def Link.sectorFollowed (t : Tuning) (h : Sector) (l m : Link) : Prop :=
  (l.mode = .fixed → m = l) ∧
    (l.mode = .follow →
      (h = l.sector → m = { l with followSector := none, agree := 0 }) ∧
      (h ≠ l.sector →
        (l.followSector ≠ some h → m = { l with followSector := some h, agree := 1 }) ∧
        (l.followSector = some h →
          (l.agree < 2 → m = { l with agree := l.agree + 1 }) ∧
          (2 ≤ l.agree → m = Link.evaluate t { l with
            sector := h, followSector := none, agree := 0, events := { l.events with sectorMoved := true }
            est := { delivery := Vector.replicate 12 512, snr := none, probe := 0, oneWay := false } }))))

/-- The SNR average after a sample of `snr` dB (R34): the sample when there was none, and moved toward it otherwise. -/
def snrAfter (t : Tuning) (snr : Nat) (avg : Option Nat) : Nat :=
  match avg with
  | none => 4 * snr
  | some a => moveToward a (4 * snr) (t.get 1)

/-- Steps 1 to 4 of R6: `m` is the record `l` once a HEARD REPORT of `snr` dB on sector `h` has set the last heard time,
measured and followed a beacon, moved the SNR average, and been evaluated. -/
def Link.heardSteps (t : Tuning) (now : Time) (snr : Nat) (h : Sector) (beacon : Bool) (l m : Link) : Prop :=
  ∃ l1 l2 : Link,
    (beacon = false → l2 = { l with lastHeard := some now }) ∧
    (beacon = true → Link.beaconMeasured now { l with lastHeard := some now } l1 ∧ l1.sectorFollowed t h l2) ∧
    m = Link.evaluate t { l2 with est := { l2.est with snr := some (snrAfter t snr l2.est.snr) } }

/-! ### Numbers in answers -/

/-- The value of bytes carried most significant first (scope, "Byte order"). -/
def valueOf (bs : List Byte) : Nat := bs.foldl (fun v b => v * 256 + b.toNat) 0

/-- The value of the `k` bytes of an answer's results from a position on. -/
def fieldAt (rs : List Byte) (pos k : Nat) : Nat := valueOf ((rs.drop pos).take k)

/-- The results carry an optional field of `k` value bytes from a position on: a presence byte 1 and the value, or, when
absent, a presence byte 0 and a value of 0 (R171). -/
def optionAt (rs : List Byte) (pos k : Nat) (o : Option Nat) : Prop :=
  match o with
  | none => fieldAt rs pos 1 = 0 ∧ fieldAt rs (pos + 1) k = 0
  | some v => fieldAt rs pos 1 = 1 ∧ fieldAt rs (pos + 1) k = v

/-! ### The laws of the records -/

/-- A parameter value its range allows (R166). -/
def paramAllowed (p : ParamNo) (v : Nat) : Prop :=
  Param.lowest.get p ≤ v ∧ v ≤ Param.highest.get p ∧
    ((p = Param.deliveryDepth ∨ p = Param.snrDepth) → v = 1 ∨ v = 2 ∨ v = 4 ∨ v = 8)

/-- Every parameter lies in its range, and the recover threshold is below the degrade threshold (R166, R167). -/
def State.paramsInRange (s : State) : Prop :=
  (∀ p, paramAllowed p (s.param p)) ∧ s.param Param.recoverThreshold < s.param Param.degradeThreshold

/-- The rate profile obeys R29. -/
def State.profileInRange (s : State) : Prop :=
  (∀ r, 1 ≤ (s.profile.get r).airtime ∧ (s.profile.get r).airtime ≤ 2000 ∧ (s.profile.get r).minSnr ≤ 63) ∧
    ∀ r q : Rate, r ≤ q → (s.profile.get r).minSnr ≤ (s.profile.get q).minSnr

/-- No query queue holds more than 8 entries, no report queue more than 16, no dropped count passes 65,535; and an
absent port holds nothing (R94, R107, R112, R116). -/
def State.queuesBounded (s : State) : Prop :=
  s.queries.length ≤ 8 ∧
    ∀ p, (s.port p).reports.length ≤ 16 ∧ (s.port p).dropped ≤ 65535 ∧
      ((s.port p).present = false → s.port p = Port.afterReset false)

/-- The head of the query queue holds an answer, and the entries behind it wait (R94, R97). -/
def State.headHeld (s : State) : Prop :=
  match s.queries with
  | [] => True
  | q :: rest => q.answer.isSome = true ∧ ∀ w ∈ rest, w.answer = none

/-- The candidates in use that name a link. -/
def State.candsNaming (s : State) (i : LinkId) : List CandId := (List.finRange 256).filter (s.candNames i)

/-- Every link's reference count is the number of candidates in use that name it, and no candidate names a Vacant link
(R20). -/
def State.refsExact (s : State) : Prop :=
  ∀ i, (s.candsNaming i).length = match s.link i with
    | some l => l.refs
    | none => 0

/-- A Retiring link is named by at least one candidate (R24): its reference count is at least 1. -/
def State.retiringNamed (s : State) : Prop := ∀ i l, s.link i = some l → l.state = .retiring → 1 ≤ l.refs

/-- The Link Estimator's fields lie within their values (R27). -/
def Estimator.bounded (e : Estimator) : Prop :=
  (∀ r, e.delivery.get r ≤ 1024) ∧ (∀ a, e.snr = some a → a ≤ 252) ∧ e.probe ≤ 63

/-- Every link's estimator fields lie within their values (R27). -/
def State.estimatesBounded (s : State) : Prop := ∀ i l, s.link i = some l → l.est.bounded

/-- A link record's beacon accumulation and measured interval lie within their values (R1, R10). -/
def Link.beaconsBounded (l : Link) : Prop :=
  l.gapCount ≤ 3 ∧ 10 * l.gapCount ≤ l.gapSum ∧ l.gapSum ≤ 2000 * l.gapCount ∧
    ∀ b, l.interval = some b → 10 ≤ b ∧ b ≤ 2000

/-- A link holds a silence deadline exactly while its state is Probation, Up or Degraded and its last heard time is
present, and the deadline lies 30 to 30,000 ms after that time (R12). -/
def Link.deadlineSound (l : Link) : Prop :=
  match l.deadline with
  | none => l.state.mayHoldDeadline = false ∨ l.lastHeard = none
  | some t =>
    l.state.mayHoldDeadline = true ∧
      ∃ h, l.lastHeard = some h ∧ 30 ≤ (t - h).toNat ∧ (t - h).toNat ≤ 30000

/-- No silence deadline is passed: each that a link holds lies 1 to 30,000 ms ahead of the Timebase count, or is the count
while the link's expiry waits as an event of its own before the next rise (R12, R13, R170). -/
def State.deadlinesAhead (s : State) : Prop :=
  ∀ i l x, s.link i = some l → l.deadline = some x →
    (1 ≤ (x - s.now).toNat ∧ (x - s.now).toNat ≤ 30000) ∨ (x = s.now ∧ s.expiresLater i = true)

/-- Every link record obeys R10 and R12, and its heard count and agree count lie within their values (R1). -/
def State.linksSound (s : State) : Prop :=
  ∀ i l, s.link i = some l → l.beaconsBounded ∧ l.deadlineSound ∧ l.heard ≤ 8 ∧ l.agree ≤ 2

/-- No two link records in use share both radio and peer address (R3). -/
def State.linksDistinct (s : State) : Prop :=
  ∀ i j l m, s.link i = some l → s.link j = some m → l.radio = m.radio → l.peer = m.peer → i = j

/-- Every link in use is on a port that was sampled present (R3, R107). -/
def State.linksOnPresentPorts (s : State) : Prop := ∀ i l, s.link i = some l → (s.port l.radio).present = true

/-- In Configuring every link in use is in Probation or Retiring, with no last heard time and no silence deadline, no
destination has an active candidate, and the changed-destination set is empty (R70, R164). -/
def State.quietInConfiguring (s : State) : Prop :=
  s.part = .configuring →
    (∀ i l, s.link i = some l →
      (l.state = .probation ∨ l.state = .retiring) ∧ l.lastHeard = none ∧ l.deadline = none) ∧
    (∀ d r, s.dest d = some r → r.active = none) ∧ ∀ d, s.changed.get d = false

/-- A destination record in use obeys R57 and R72: at most 4 candidates, none twice, all in use for this destination and
each on a link of its own; an active candidate is a member of the chain, and with one there is a last switch time. -/
def State.chainSound (s : State) (d : DestId) (r : Dest) : Prop :=
  r.chain.length ≤ 4 ∧ r.chain.Nodup ∧ (∀ c ∈ r.chain, ∃ k, s.cand c = some k ∧ k.dest = d) ∧
    (∀ c ∈ r.chain, ∀ e ∈ r.chain, ∀ k k', s.cand c = some k → s.cand e = some k' → k.link = k'.link → c = e) ∧
    (∀ a, r.active = some a → a ∈ r.chain ∧ r.lastSwitch.isSome = true)

/-- The Path Table obeys R54, R57 and R72: every chain is sound, and every candidate in use is a member of the chain of
the destination it names. -/
def State.pathsSound (s : State) : Prop :=
  (∀ d r, s.dest d = some r → s.chainSound d r) ∧
    ∀ c k, s.cand c = some k → ∃ r, s.dest k.dest = some r ∧ c ∈ r.chain

/-- No two destination records in use share an address (R51). -/
def State.destsDistinct (s : State) : Prop :=
  ∀ d e r q, s.dest d = some r → s.dest e = some q → r.address = q.address → d = e

/-- Every member of the changed-destination set is a destination in use (R142). -/
def State.changedInUse (s : State) : Prop := ∀ d, s.changed.get d = true → s.dest d ≠ none

/-- The active candidate of every Resolved destination is in use and names a link that is Up or Degraded (R88). -/
def State.activesOnUsableLinks (s : State) : Prop :=
  ∀ d r a, s.dest d = some r → r.active = some a →
    ∃ k l, s.cand a = some k ∧ s.link k.link = some l ∧ (l.state = .up ∨ l.state = .degraded)

/-- Switch counts, remainder costs and last path costs lie within 0 to 65,535 (R49, R54, R71). -/
def State.figuresInRange (s : State) : Prop :=
  (∀ d r, s.dest d = some r → r.switchCount ≤ 65535) ∧
    ∀ c k, s.cand c = some k → k.remainder ≤ 65535 ∧ k.lastCost ≤ 65535

/-- No link's peer address and no destination's address is a group address (R1, R49): the lowest bit of the first byte is
0. -/
def State.stationsOnly (s : State) : Prop :=
  (∀ i l, s.link i = some l → l.peer.getLsbD 40 = false) ∧ ∀ d r, s.dest d = some r → r.address.getLsbD 40 = false

/-! ### The Job Engine -/

/-- The number of records of the table a job walks (R121). -/
def JobKind.tableSize (k : JobKind) : Nat :=
  match k with
  | .retireLinks | .retuneRadio => 32
  | .pruneDestinations => 128

/-- The Job Engine obeys R121 and R135: a Running job's next index lies within its table, it has visited the indices below
it, and has acted on no more than it has visited; a job notice counts the whole table when the job was DONE, and less when
it was STOPPED. -/
def State.jobSound (s : State) : Prop :=
  match s.job with
  | .idle => True
  | .running c => c.next < c.selector.kind.tableSize ∧ c.visited = c.next ∧ c.actedOn ≤ c.visited
  | .noticePending n =>
    n.actedOn ≤ n.visited ∧
      match n.code with
      | .done => n.visited = n.kind.tableSize
      | .stopped => n.visited < n.kind.tableSize

/-! ### The Control Port -/

/-- The frame in progress and the command in hand fit together (R149, R152): a frame is received only while the part runs
with no command in hand, and has fewer argument bytes than its length states; in the waiting phase the command is in hand,
and in the answer phases it is not; and a command in hand has at most 255 argument bytes. -/
def State.frameSound (s : State) : Prop :=
  (match s.frame with
    | .code | .length _ => s.hand = none ∧ s.power = .running
    | .arguments _ length received =>
      s.hand = none ∧ s.power = .running ∧ received.length < length ∧ length ≤ 255
    | .waiting => s.hand ≠ none
    | .answering a sent => s.hand = none ∧ sent < 3 + a.results.length
    | .afterAnswer => s.hand = none
    | .closed | .ignored => True) ∧
    ∀ h, s.hand = some h → h.args.length ≤ 255

/-! ### The reset state (R168) -/

/-- Every block is at its reset state, presence aside: the table of R168. -/
def State.atResetValues (s : State) : Prop :=
  s.part = .configuring ∧ (∀ i, s.link i = none) ∧ (∀ d, s.dest d = none) ∧ (∀ c, s.cand c = none) ∧ s.queries = [] ∧
    (∀ p, s.port p = Port.afterReset (s.port p).present) ∧ s.job = .idle ∧ (∀ d, s.changed.get d = false) ∧
    s.cursor = { table := .links, index := 0, autoAdvance := false } ∧
    s.params = #v[4, 8, 16, 2, 2000, 6, 100, 3, 1200, 800, 2, 3, 24, 0, 0, 0, 0, 0, 0, 0, 0, 0] ∧
    s.profile = #v[⟨1600, 2⟩, ⟨820, 5⟩, ⟨560, 8⟩, ⟨430, 11⟩, ⟨300, 14⟩, ⟨230, 17⟩, ⟨200, 20⟩, ⟨180, 23⟩, ⟨150, 26⟩,
      ⟨135, 29⟩, ⟨120, 32⟩, ⟨108, 35⟩] ∧
    s.now = 0 ∧ s.hand = none ∧ s.armed = false

/-- Through a reset and initialisation every block keeps its reset state, and no frame is received (R152, R169). -/
def State.heldInReset (s : State) : Prop :=
  s.power ≠ .running → s.atResetValues ∧ (s.frame = .closed ∨ s.frame = .ignored)

/-- What a soft reset leaves (R168, R169): every block at its reset state with presence kept, the rest of a frame begun
meanwhile ignored, NOTICE withdrawn and the ready signals withheld; and, as the model's choice (log entry 3), the queue of
waiting events. -/
def State.softResetLeaves (s t : State) : Prop :=
  t.atResetValues ∧ t.power = .initialising ∧ t.frame = s.frame ∧ t.notice = false ∧ t.queryReady = false ∧
    t.pending = s.pending ∧
    ∀ p, (t.port p).present = (s.port p).present ∧ t.requestReady p = false ∧ t.reportReady p = false

/-! ### The command table (R171) -/

/-- The commands with one argument length: the event that carries the command out, its code, its argument length. START
JOB, whose length follows its kind, stands apart. -/
def commandTable : List (Instr × Byte × Nat) :=
  [(.readIdentity, 0x01, 0), (.readTime, 0x02, 0), (.loadRateProfile, 0x03, 36), (.setParameter, 0x04, 3),
   (.getParameter, 0x05, 1), (.goOperational, 0x06, 0), (.resetPart, 0x07, 0),
   (.addLink, 0x10, 9), (.updateLink, 0x11, 6), (.retireLink, 0x12, 2), (.readLink, 0x13, 1),
   (.addDestination, 0x20, 6), (.findDestination, 0x21, 6), (.removeDestination, 0x22, 1), (.readDestination, 0x23, 1),
   (.addCandidate, 0x30, 6), (.updateCandidate, 0x31, 6), (.removeCandidate, 0x32, 1), (.readCandidate, 0x33, 1),
   (.setCursor, 0x40, 3), (.readAtCursor, 0x41, 0),
   (.readSummary, 0x50, 0), (.nextEventLink, 0x51, 0), (.readLinkEvents, 0x52, 1), (.takeChanges, 0x53, 0),
   (.readPortStatus, 0x54, 1), (.flushReports, 0x55, 1), (.readJobNotice, 0x56, 0),
   (.stopJob, 0x61, 0), (.readJobState, 0x62, 0)]

/-- START JOB's argument lengths (R153): 3 for kind 0, 2 for kinds 1 and 2, any from 1 up for no kind. -/
def startJobLengthOk (args : List Byte) : Prop :=
  match args with
  | [] => False
  | kind :: _ =>
    (kind = 0 → args.length = 3) ∧ ((kind = 1 ∨ kind = 2) → args.length = 2)

/-- The events by which the part is reset. -/
def isReset (c : Instr) : Bool := c == .resetPart || c == .softReset || c == .powerOnReset

end Sys2Proof.Machine
end

