-- ==== Sys2Proof/WellFormed.lean ====
section
/-! DEFINITION. Which events can happen on the part's pins at all: the checks below are on the event's own bytes, not
on the state it meets. -/

namespace Sys2Proof

/-- The lengths of R173 of the two recognised report kinds: kind 0 with 11 bytes, kind 1 with 10. -/
def isRecognisedReport (bytes : List Byte) : Bool :=
  match bytes with
  | [] => false
  | kind :: _ => (kind == 0 && bytes.length == 11) || (kind == 1 && bytes.length == 10)

/-- The event is one that R173 and R174 allow: a malformed message has a length that is not its kind's, and an
unrecognised report is no OUTCOME and no HEARD REPORT. -/
def Instr.wellFormed (i : Instr) : Bool :=
  match i with
  | .malformedQuery bytes => bytes.length != 7
  | .malformedRequest _ bytes => bytes.length != 1
  | .unrecognisedReport _ bytes => !isRecognisedReport bytes
  | .commandTaken _ _ | .ignoredFrame | .abortedFrame | .unknownCommand | .readIdentity | .readTime | .loadRateProfile
  | .setParameter | .getParameter | .goOperational | .resetPart | .addLink | .updateLink | .retireLink | .readLink
  | .addDestination | .findDestination | .removeDestination | .readDestination | .addCandidate | .updateCandidate
  | .removeCandidate | .readCandidate | .setCursor | .readAtCursor | .readSummary | .nextEventLink | .readLinkEvents
  | .takeChanges | .readPortStatus | .flushReports | .readJobNotice | .startJob | .stopJob | .readJobState
  | .pathQuery _ _ | .pathAnswer | .paramRequest _ _ | .paramAnswer _ | .outcomeReport _ _ _ _ _ _
  | .heardReport _ _ _ _ _ | .reportTake _ | .millisecondTick | .silenceDeadlineExpiry _ | .retireLinksVisit
  | .retuneRadioVisit | .pruneDestinationsVisit | .softReset | .powerOnReset | .powerOnResetEnd _ _ _
  | .initialisationEnd | .csWithdrawn =>
    true

end Sys2Proof
end

