-- ==== Sys2Proof/Certificates/Slice0/Obligations.lean ====
section
/-! DEFINITION. The statements for the provers, from the numbered rules of spec/. An event's outcome is written as an
equation wherever the rule fixes the whole next state, so what stands unchanged in it is the statement's frame; where it
is not, the frame is `State.tablesOnly` or `State.pathsOnly` with a clause for each record. -/

open Sys2Proof Sys2Proof.Machine

/-! ### The step, frames and framing -/

/-- A step takes the event at the front of the queue whole; with none waiting the part idles (the model's choice, log
entry 2). -/
def Obligations.StepTakesTheFrontEvent : Prop :=
  (∀ (c : Instr) (s : State) (rest : List Instr), s.pending = c :: rest →
    step s = exec c { s with pending := rest }) ∧
  ∀ s : State, s.pending = [] → step s = .next s

/-- A frame passes through its phases byte by byte (R149). CS asserted while the part runs with no command in hand and no
soft reset due begins the code phase; the code, the length and that many argument bytes put the command in hand, and a
whole frame does so at once; from the waiting phase on the bytes the host sends are ignored, and in the answer phase one
byte of the answer leaves with each. The part returns the marker 0xA5, the status, numbered 0 to 13 in the order of R154,
the result length and the results in the answer phase, filler 0x00 in every other, and nothing while CS is withdrawn (R171,
R174). A frame begun while a command is in hand, or during a reset or initialisation, is ignored until CS is withdrawn
(R152). CS withdrawn in the first three phases discards the frame, and in every phase it leaves the command in hand where
it is (R151). Malformed messages change nothing (R174). The model's own choices: that an IGNORED_FRAME changes nothing
where a frame would be received (log entry 1); that a frame comes in stretches, which compose, and that CS_WITHDRAWN, too,
discards a frame in its first three phases (log entry 5); that a frame begun while a soft reset is armed is ignored (log
entry 6); and that a malformed message of whatever length, the well-formed one's too, changes nothing (log entry 11). -/
def Obligations.FramesTakeOneCommand : Prop :=
  (∀ s : State, s.frame = .closed → s.power = .running → s.hand = none → s.armed = false →
    exec (.commandTaken true []) s = .next { s with frame := .code } ∧
    exec .ignoredFrame s = .next s ∧
    ∀ (code length : Byte) (args : List Byte), length.toNat = args.length →
      exec (.commandTaken true (code :: length :: args)) s = .next { s with frame := .waiting, hand := some ⟨code, args⟩ }) ∧
  (∀ (s : State) (bytes : List Byte), s.frame = .closed → s.hand ≠ none ∨ s.power ≠ .running ∨ s.armed = true →
    exec (.commandTaken true bytes) s = .next { s with frame := .ignored } ∧
    exec .ignoredFrame s = .next { s with frame := .ignored }) ∧
  (∀ (s : State) (b : Byte),
    (s.frame = .code → exec (.commandTaken false [b]) s = .next { s with frame := .length b }) ∧
    (∀ code, s.frame = .length code → exec (.commandTaken false [b]) s = .next
      (if b = 0 then { s with frame := .waiting, hand := some ⟨code, []⟩ }
        else { s with frame := .arguments code b.toNat [] })) ∧
    (∀ code n received, s.frame = .arguments code n received → exec (.commandTaken false [b]) s = .next
      (if received.length + 1 < n then { s with frame := .arguments code n (received ++ [b]) }
        else { s with frame := .waiting, hand := some ⟨code, received ++ [b]⟩ })) ∧
    (∀ a sent, s.frame = .answering a sent → exec (.commandTaken false [b]) s = .next
      { s with frame := if sent + 1 < 3 + a.results.length then .answering a (sent + 1) else .afterAnswer }) ∧
    (s.frame = .waiting ∨ s.frame = .afterAnswer ∨ s.frame = .ignored → exec (.commandTaken false [b]) s = .next s)) ∧
  (∀ (s t : State) (begins : Bool) (xs ys : List Byte), exec (.commandTaken begins xs) s = .next t →
    exec (.commandTaken begins (xs ++ ys)) s = exec (.commandTaken false ys) t) ∧
  (∀ s : State, (s.frame = .closed ↔ s.output = none) ∧
    (∀ a sent, s.frame = .answering a sent →
      s.output = some ((0xA5 :: a.status.code :: BitVec.ofNat 8 a.results.length :: a.results).getD sent 0)) ∧
    (s.frame ≠ .closed → (∀ a sent, s.frame ≠ .answering a sent) → s.output = some 0)) ∧
  [Status.ok, .unknownCommand, .badLength, .badValue, .wrongState, .noRecord, .duplicate, .tableFull, .poolEmpty,
    .chainFull, .noRadio, .busy, .noticeUnread, .notRunning].map Status.code = [0, 1, 2, 3, 4, 5, 6, 7, 8, 9, 10, 11, 12, 13] ∧
  ∀ (s : State) (p : Radio) (bytes : List Byte),
    ((s.frame = .code ∨ (∃ code, s.frame = .length code) ∨ ∃ code n received, s.frame = .arguments code n received) →
      exec .abortedFrame s = .next { s with frame := .closed }) ∧
    exec .csWithdrawn s = .next { s with frame := .closed } ∧
    exec (.malformedQuery bytes) s = .next s ∧ exec (.malformedRequest p bytes) s = .next s

/-- The framing of a command in hand is checked before its own rule (R153): a code that is none of the 31 of R171 is
answered UNKNOWN_COMMAND, and an argument length that is not the command's BAD_LENGTH, each with no other effect. START
JOB's length is judged by the kind its first byte names, and with no kind named any length from 1 up passes. -/
def Obligations.FramingIsCheckedFirst : Prop :=
  (∀ (s : State) (code : Byte) (args : List Byte), s.hand = some ⟨code, args⟩ → code ≠ 0x60 →
    (∀ row ∈ commandTable, row.2.1 ≠ code) →
    exec .unknownCommand s = .next (s.giveAnswer ⟨.unknownCommand, []⟩)) ∧
  (∀ row ∈ commandTable, ∀ (s : State) (args : List Byte), s.hand = some ⟨row.2.1, args⟩ →
    args.length ≠ row.2.2 → exec row.1 s = .next (s.giveAnswer ⟨.badLength, []⟩)) ∧
  ∀ (s : State) (args : List Byte), s.hand = some ⟨0x60, args⟩ →
    (¬ startJobLengthOk args → exec .startJob s = .next (s.giveAnswer ⟨.badLength, []⟩)) ∧
    (startJobLengthOk args → s.frame = .waiting → exec .startJob s ≠ .next (s.giveAnswer ⟨.badLength, []⟩))

/-- Whatever the event and the state, an answer other than OK carries no results, and nothing differs after it from before
it but that the command has left the hand and its answer is in the frame (R150, R154). -/
def Obligations.RefusalChangesNothing : Prop :=
  ∀ (c : Instr) (s t : State) (a : Answer), s.frame = .waiting → exec c s = .next t → t.frame = .answering a 0 →
    a.status ≠ .ok → a.results = [] ∧ t = { s with hand := none, frame := .answering a 0 }

/-! ### Identity, time, configuration, resets -/

/-- READ IDENTITY answers vendor code 0x4C46, part code 0x3208 and revision 2 (R155); READ TIME answers the Timebase count
in four bytes (R156); neither changes anything. The tick raises the count by one, wrapping, and nothing else changes where
no silence deadline is the new count in Operational; the count holds through a reset and initialisation (R169, R170). -/
def Obligations.IdentityAndTime : Prop :=
  (∀ s : State, s.hand = some ⟨0x01, []⟩ →
    exec .readIdentity s = .next (s.giveAnswer ⟨.ok, [0x4C, 0x46, 0x32, 0x08, 0x02]⟩)) ∧
  (∀ s : State, s.hand = some ⟨0x02, []⟩ → ∃ rs : List Byte,
    exec .readTime s = .next (s.giveAnswer ⟨.ok, rs⟩) ∧ rs.length = 4 ∧ valueOf rs = s.now.toNat) ∧
  ∀ s : State,
    (s.power = .running → (∀ i, ¬ s.dueAt (s.now + 1) i) → exec .millisecondTick s = .next { s with now := s.now + 1 }) ∧
    (s.power = .running → ∃ t, exec .millisecondTick s = .next t ∧
      t.now.toNat = (if s.now.toNat = 4294967295 then 0 else s.now.toNat + 1)) ∧
    (s.power ≠ .running → exec .millisecondTick s = .next s)

/-- SET PARAMETER brings the value into the parameter's range, writes it and answers it in two bytes, leaving every other
parameter and everything else alone; a write that would leave the recover threshold at or above the degrade threshold, and
a number above 21, are refused with BAD_VALUE. GET PARAMETER answers the value held and changes nothing (R166, R167). The ranges are
those of R166's table. -/
def Obligations.SetParameterClampsAndWrites : Prop :=
  Param.lowest = #v[1, 1, 8, 0, 0, 3, 10, 1, 2, 1, 0, 0, 10, 0, 0, 0, 0, 0, 0, 0, 0, 0] ∧
  Param.highest = #v[8, 8, 64, 8, 10000, 15, 2000, 8, 64000, 63999, 7, 11, 40, 1, 1, 1, 1, 1, 1, 1, 1, 1] ∧
  (∀ (s : State) (number hi lo : Byte), s.hand = some ⟨0x04, [number, hi, lo]⟩ →
    (21 < number.toNat → exec .setParameter s = .next (s.giveAnswer ⟨.badValue, []⟩)) ∧
    ∀ (p : ParamNo) (x v : Nat), number.toNat = p.val → x = hi.toNat * 256 + lo.toNat →
      (p.val ≤ 1 → v = (if x ≤ 1 then 1 else if x ≤ 3 then 2 else if x ≤ 7 then 4 else 8)) →
      (2 ≤ p.val → v = (if x < Param.lowest.get p then Param.lowest.get p
        else if Param.highest.get p < x then Param.highest.get p else x)) →
      ((p = 8 ∧ v ≤ s.param 9) ∨ (p = 9 ∧ s.param 8 ≤ v) →
        exec .setParameter s = .next (s.giveAnswer ⟨.badValue, []⟩)) ∧
      (¬ ((p = 8 ∧ v ≤ s.param 9) ∨ (p = 9 ∧ s.param 8 ≤ v)) → ∃ (t : State) (rs : List Byte),
        exec .setParameter s = .next (t.giveAnswer ⟨.ok, rs⟩) ∧ rs.length = 2 ∧ valueOf rs = v ∧ t.param p = v ∧
        (∀ q, q ≠ p → t.param q = s.param q) ∧ t = { s with params := t.params })) ∧
  ∀ (s : State) (number : Byte), s.hand = some ⟨0x05, [number]⟩ →
    (21 < number.toNat → exec .getParameter s = .next (s.giveAnswer ⟨.badValue, []⟩)) ∧
    ∀ p : ParamNo, number.toNat = p.val → s.param p ≤ 65535 → ∃ rs : List Byte,
      exec .getParameter s = .next (s.giveAnswer ⟨.ok, rs⟩) ∧ rs.length = 2 ∧ valueOf rs = s.param p

/-- LOAD RATE PROFILE replaces all twelve entries in Configuring when every value is allowed, is refused with BAD_VALUE
when one is not, and with WRONG_STATE in Operational (R30); `p` is the profile that its 36 bytes carry. GO OPERATIONAL makes
the part Operational and changes nothing else, and is refused with WRONG_STATE in Operational (R165). -/
def Obligations.ConfiguringCommandsActOnlyInConfiguring : Prop :=
  (∀ (s : State) (args : List Byte) (p : Vector RateEntry 12), s.hand = some ⟨0x03, args⟩ → args.length = 36 →
    (∀ r : Rate, (p.get r).airtime = (args.getD (3 * r.val) 0).toNat * 256 + (args.getD (3 * r.val + 1) 0).toNat ∧
      (p.get r).minSnr = (args.getD (3 * r.val + 2) 0).toNat) →
    (s.part = .operational → exec .loadRateProfile s = .next (s.giveAnswer ⟨.wrongState, []⟩)) ∧
    (s.part = .configuring → ({ s with profile := p } : State).profileInRange →
      exec .loadRateProfile s = .next (({ s with profile := p } : State).giveAnswer ⟨.ok, []⟩)) ∧
    (s.part = .configuring → ¬ ({ s with profile := p } : State).profileInRange →
      exec .loadRateProfile s = .next (s.giveAnswer ⟨.badValue, []⟩))) ∧
  ∀ s : State, s.hand = some ⟨0x06, []⟩ →
    (s.part = .configuring →
      exec .goOperational s = .next (({ s with part := .operational } : State).giveAnswer ⟨.ok, []⟩)) ∧
    (s.part = .operational → exec .goOperational s = .next (s.giveAnswer ⟨.wrongState, []⟩))

/-- RESET PART is answered OK and arms the soft reset while its frame is open. The soft reset takes effect once CS has been
withdrawn, or as the command is carried out when CS was withdrawn in the waiting phase; a frame begun since is ignored and
does not hold it up. Every block is then at its reset state with presence kept, initialisation begins, the NOTICE line is
withdrawn, and the end of initialisation gives the ready signals in Configuring (R168, R169). That both forms of the reset
keep the queue of waiting events is the model's choice (log entry 3), and so is that SOFT_RESET while the frame is open
changes nothing (log entries 1 and 6). -/
def Obligations.SoftResetTakesEffectAfterItsFrame : Prop :=
  (∀ s : State, s.hand = some ⟨0x07, []⟩ →
    (s.frame = .waiting → exec .resetPart s = .next (({ s with armed := true } : State).giveAnswer ⟨.ok, []⟩)) ∧
    (s.frame = .closed ∨ s.frame = .ignored → ∃ t, exec .resetPart s = .next t ∧ s.softResetLeaves t)) ∧
  ∀ s : State, s.armed = true →
    (s.frame = .closed ∨ s.frame = .ignored → ∃ t u, exec .softReset s = .next t ∧ s.softResetLeaves t ∧
      exec .initialisationEnd t = .next u ∧ u = { t with power := .running } ∧ u.queryReady = true ∧ u.notice = false ∧
      ∀ p, u.requestReady p = (s.port p).present ∧ u.reportReady p = (s.port p).present) ∧
    (s.frame ≠ .closed → s.frame ≠ .ignored → exec .softReset s = .next s)

/-- A power-on reset leaves every block at its reset state from any state, with the ready signals withheld and the rest of
a frame in progress ignored; at its end presence is sampled and initialisation begins; at the end of initialisation the
part runs in Configuring with its query ready and the ready signals of its present ports given, and what is left of the
frame still takes no command (R107, R152, R168, R169). Whatever event is taken, every block keeps its reset state through
a reset and initialisation (R169). That the reset keeps the queue of waiting events is the model's choice (log
entry 3). -/
def Obligations.PowerOnResetSequence : Prop :=
  (∀ (s : State) (b0 b1 b2 : Bool), ∃ t u v,
    exec .powerOnReset s = .next t ∧ t.atResetValues ∧ t.power = .inReset ∧ t.notice = false ∧ t.queryReady = false ∧
    t.frame = (if s.frame = .closed then .closed else .ignored) ∧
    t.pending = s.pending ∧ (∀ p, t.requestReady p = false ∧ t.reportReady p = false) ∧
    exec (.powerOnResetEnd b0 b1 b2) t = .next u ∧ u = { t with power := .initialising, ports := u.ports } ∧
    u.atResetValues ∧ ((u.port 0).present = b0 ∧ (u.port 1).present = b1 ∧ (u.port 2).present = b2) ∧
    u.queryReady = false ∧ (∀ p, u.requestReady p = false ∧ u.reportReady p = false) ∧
    exec .initialisationEnd u = .next v ∧ v = { u with power := .running } ∧ v.queryReady = true ∧
    (∀ p, v.requestReady p = (v.port p).present ∧ v.reportReady p = (v.port p).present) ∧ v.notice = false ∧
    ∀ bytes, s.frame ≠ .closed → exec (.commandTaken false bytes) v = .next v) ∧
  ∀ s t : State, s.heldInReset → step s = .next t → t.heldInReset

/-! ### Links -/

/-- ADD LINK takes the lowest Vacant id and starts its record as R4 gives, answers OK with the id, and changes nothing
else; R3's checks refuse it in the order of that rule's table. -/
def Obligations.AddLinkTakesTheLowestVacantId : Prop :=
  ∀ (s : State) (radio p0 p1 p2 p3 p4 p5 sector mode : Byte) (peer : Addr),
    s.hand = some ⟨0x10, [radio, p0, p1, p2, p3, p4, p5, sector, mode]⟩ → peer = p0 ++ p1 ++ p2 ++ p3 ++ p4 ++ p5 →
    (2 < radio.toNat ∨ 7 < sector.toNat ∨ 1 < mode.toNat ∨ p0.getLsbD 0 = true →
      exec .addLink s = .next (s.giveAnswer ⟨.badValue, []⟩)) ∧
    ∀ (r : Radio) (h : Sector) (m : SectorMode), radio.toNat = r.val → sector.toNat = h.val → mode = m.code →
      p0.getLsbD 0 = false →
      ((s.port r).present = false → exec .addLink s = .next (s.giveAnswer ⟨.noRadio, []⟩)) ∧
      ((s.port r).present = true → (∃ j l, s.link j = some l ∧ l.radio = r ∧ l.peer = peer) →
        exec .addLink s = .next (s.giveAnswer ⟨.duplicate, []⟩)) ∧
      ((s.port r).present = true → (∀ j l, s.link j = some l → ¬ (l.radio = r ∧ l.peer = peer)) →
        ((∀ j, s.link j ≠ none) → exec .addLink s = .next (s.giveAnswer ⟨.tableFull, []⟩)) ∧
        ∀ i, s.link i = none → (∀ j < i, s.link j ≠ none) →
          exec .addLink s = .next ((s.setLink i (some
            { state := .probation, radio := r, peer := peer, sector := h, mode := m
              followSector := none, agree := 0, pinned := none, heard := 0, lastHeard := none, lastBeacon := none
              gapSum := 0, gapCount := 0, interval := none, deadline := none, refs := 0
              events := ⟨false, false, false, false, false, false⟩
              est := { delivery := Vector.replicate 12 512, snr := none, probe := 0, oneWay := false } })).giveAnswer
            ⟨.ok, [BitVec.ofNat 8 i.val]⟩))

/-- UPDATE LINK writes the fields its mask names in the order sector, sector mode, pinned rate, each from the record as the
write before left it, and no other field or record (R17, R28, R40, R157). A new sector clears the follow fields, resets the
estimates, adds no SECTOR_MOVED, and is followed by an evaluation of R43; a new mode clears the follow fields; a new pin,
taken as 11 above 11 and cleared by presence 0, keeps the estimates, the SNR average and the probe counter, and is followed
by an evaluation; a value already held changes nothing. Only an Up or Degraded link's state can move. An id above 31, or a
named sector or mode outside its values, is refused with BAD_VALUE, then a Vacant or Retiring link with NO_RECORD. -/
def Obligations.UpdateLinkWritesInOrder : Prop :=
  ∀ (s : State) (id mask sector mode pp pr : Byte), s.hand = some ⟨0x11, [id, mask, sector, mode, pp, pr]⟩ →
    (31 < id.toNat ∨ (mask.getLsbD 0 = true ∧ 7 < sector.toNat) ∨ (mask.getLsbD 1 = true ∧ 1 < mode.toNat) →
      exec .updateLink s = .next (s.giveAnswer ⟨.badValue, []⟩)) ∧
    ∀ i : LinkId, id.toNat = i.val → (mask.getLsbD 0 = true → sector.toNat ≤ 7) →
      (mask.getLsbD 1 = true → mode.toNat ≤ 1) →
      (s.link i = none → exec .updateLink s = .next (s.giveAnswer ⟨.noRecord, []⟩)) ∧
      ∀ l, s.link i = some l →
        (l.state = .retiring → exec .updateLink s = .next (s.giveAnswer ⟨.noRecord, []⟩)) ∧
        (l.state ≠ .retiring → ∃ l1 l2 l3 : Link,
          exec .updateLink s = .next ((s.setLink i (some l3)).giveAnswer ⟨.ok, []⟩) ∧
          (mask.getLsbD 0 = false → l1 = l) ∧
          (mask.getLsbD 0 = true → ∀ h : Sector, sector.toNat = h.val →
            l1 = if h = l.sector then l else Link.evaluate s.tuning { l with
              sector := h, followSector := none, agree := 0
              est := { delivery := Vector.replicate 12 512, snr := none, probe := 0, oneWay := false } }) ∧
          (mask.getLsbD 1 = false → l2 = l1) ∧
          (mask.getLsbD 1 = true → ∀ m : SectorMode, mode = m.code →
            l2 = if m = l1.mode then l1 else { l1 with mode := m, followSector := none, agree := 0 }) ∧
          (mask.getLsbD 2 = false → l3 = l2) ∧
          (mask.getLsbD 2 = true → ∀ pin : Option Rate, (pp = 0 → pin = none) →
            (pp ≠ 0 → ∃ r : Rate, pin = some r ∧ r.val = min pr.toNat 11) →
            l3 = if pin = l2.pinned then l2 else Link.evaluate s.tuning { l2 with pinned := pin }) ∧
          (l.state = .probation ∨ l.state = .down → l3.state = l.state) ∧
          (l.state = .up ∨ l.state = .degraded → l3.state = .up ∨ l3.state = .degraded) ∧
          l3.events.sectorMoved = l.events.sectorMoved)

/-- RETIRE LINK without cascade (R21): a link no candidate names becomes Vacant, a named one becomes Retiring with its
deadline absent and its other fields kept, a Retiring one does not change; the answer carries the state. No other link
changes. A link that was Up or Degraded sends a usable-lost notice, on which each destination whose active candidate names
it is immediately selected, so that none names it any more, and every other destination stays as it was (R18, R88); any
other link leaves every destination alone. An id above 31 and a Vacant link are refused. -/
def Obligations.RetireLinkWithoutCascade : Prop :=
  ∀ (s : State) (id cascade : Byte), s.hand = some ⟨0x12, [id, cascade]⟩ →
    (31 < id.toNat → exec .retireLink s = .next (s.giveAnswer ⟨.badValue, []⟩)) ∧
    ∀ i : LinkId, id.toNat = i.val →
      (s.link i = none → exec .retireLink s = .next (s.giveAnswer ⟨.noRecord, []⟩)) ∧
      ∀ l, s.link i = some l → cascade = 0 →
        (l.state = .retiring → exec .retireLink s = .next (s.giveAnswer ⟨.ok, [5]⟩)) ∧
        (l.state ≠ .retiring → ∃ t : State,
          exec .retireLink s = .next (t.giveAnswer ⟨.ok, [if l.refs = 0 then 0 else 5]⟩) ∧
          t.link i = (if l.refs = 0 then none else some { l with state := .retiring, deadline := none }) ∧
          (∀ j, j ≠ i → t.link j = s.link j) ∧ s.tablesOnly t ∧ s.pathsReselected t ∧
          (l.state ≠ .up → l.state ≠ .degraded → t = s.setLink i (t.link i)) ∧
          (l.state = .up ∨ l.state = .degraded →
            t = (s.setLink i (t.link i)).usableLost i ∧ s.lostReselected i (s.setLink i (t.link i)) t))

/-- RETIRE LINK with cascade (R22): every candidate naming the link is free and out of its chain, its destination as the
removal of that candidate leaves it; every other candidate keeps its fields but for its last path cost, and every other
destination is left as it was with its mark in the changed-destination set; the link is Vacant, no other link changes, and
the answer is OK with Vacant. -/
def Obligations.RetireLinkWithCascade : Prop :=
  ∀ (s : State) (id cascade : Byte) (i : LinkId) (l : Link), s.hand = some ⟨0x12, [id, cascade]⟩ → cascade ≠ 0 →
    id.toNat = i.val → s.link i = some l → s.pathsSound →
    ∃ t : State, exec .retireLink s = .next (t.giveAnswer ⟨.ok, [0]⟩) ∧ s.cascadeRetired i t ∧ s.tablesOnly t

/-- READ LINK changes nothing and answers one byte 0 for a Vacant link, and 71 bytes for a link in use, with every field of
R1 and R27 and the three computed figures in the places of R172; an id above 31 is refused with BAD_VALUE (R2). Link
states are numbered Probation 1, Up 2, Degraded 3, Down 4, Retiring 5, and sector modes Fixed 0, Follow 1 (R171). -/
def Obligations.ReadLinkShowsTheRecord : Prop :=
  [LinkState.probation, .up, .degraded, .down, .retiring].map LinkState.code = [1, 2, 3, 4, 5] ∧
  [SectorMode.fixed, .follow].map SectorMode.code = [0, 1] ∧
  ∀ (s : State) (id : Byte), s.hand = some ⟨0x13, [id]⟩ →
    (31 < id.toNat → exec .readLink s = .next (s.giveAnswer ⟨.badValue, []⟩)) ∧
    ∀ i : LinkId, id.toNat = i.val →
      (s.link i = none → exec .readLink s = .next (s.giveAnswer ⟨.ok, [0]⟩)) ∧
      ∀ l, s.link i = some l → ∃ rs : List Byte, exec .readLink s = .next (s.giveAnswer ⟨.ok, rs⟩) ∧ rs.length = 71 ∧
        rs.getD 0 0 = l.state.code ∧ fieldAt rs 1 1 = l.radio.val ∧ fieldAt rs 2 6 = l.peer.toNat ∧
        fieldAt rs 8 1 = l.sector.val ∧ rs.getD 9 0 = l.mode.code ∧ optionAt rs 10 1 (l.followSector.map Fin.val) ∧
        (l.agree < 256 → fieldAt rs 12 1 = l.agree) ∧ optionAt rs 13 1 (l.pinned.map Fin.val) ∧
        (l.heard < 256 → fieldAt rs 15 1 = l.heard) ∧ optionAt rs 16 4 (l.lastHeard.map BitVec.toNat) ∧
        optionAt rs 21 4 (l.lastBeacon.map BitVec.toNat) ∧ (l.gapSum < 65536 → fieldAt rs 26 2 = l.gapSum) ∧
        (l.gapCount < 256 → fieldAt rs 28 1 = l.gapCount) ∧
        ((∀ b, l.interval = some b → b < 65536) → optionAt rs 29 2 l.interval) ∧
        optionAt rs 32 4 (l.deadline.map BitVec.toNat) ∧ (l.refs < 256 → fieldAt rs 37 1 = l.refs) ∧
        rs.getD 38 0 = l.events.byte ∧
        (∀ r : Rate, l.est.delivery.get r < 65536 → fieldAt rs (39 + 2 * r.val) 2 = l.est.delivery.get r) ∧
        ((∀ a, l.est.snr = some a → a < 256) → optionAt rs 63 1 l.est.snr) ∧
        (l.est.probe < 256 → fieldAt rs 65 1 = l.est.probe) ∧ fieldAt rs 66 1 = (if l.est.oneWay then 1 else 0) ∧
        fieldAt rs 67 1 = (l.ceiling s.tuning).val ∧ fieldAt rs 68 1 = (l.chosenRate s.tuning).val ∧
        (l.cost s.tuning < 65536 → fieldAt rs 69 2 = l.cost s.tuning)

/-- READ DESTINATION and READ CANDIDATE change nothing; a Vacant or free record is answered as one byte 0, and a record in
use as 21 and 9 bytes with every field in the places of R172, the candidate's position and active mark among them; an
index above 127 is refused with BAD_VALUE (R53, R56). Destination states are numbered Unresolved 1, Resolved 2,
Unreachable 3 (R171). -/
def Obligations.ReadDestinationAndCandidateShowTheRecord : Prop :=
  [DestState.unresolved, .resolved, .unreachable].map DestState.code = [1, 2, 3] ∧
  (∀ (s : State) (index : Byte), s.hand = some ⟨0x23, [index]⟩ →
    (127 < index.toNat → exec .readDestination s = .next (s.giveAnswer ⟨.badValue, []⟩)) ∧
    ∀ d : DestId, index.toNat = d.val →
      (s.dest d = none → exec .readDestination s = .next (s.giveAnswer ⟨.ok, [0]⟩)) ∧
      ∀ r, s.dest d = some r → ∃ rs : List Byte, exec .readDestination s = .next (s.giveAnswer ⟨.ok, rs⟩) ∧
        rs.length = 21 ∧ rs.getD 0 0 = r.state.code ∧ fieldAt rs 1 6 = r.address.toNat ∧
        (r.chain.length ≤ 4 → fieldAt rs 7 1 = r.chain.length ∧
          ∀ n : Nat, n < 4 → fieldAt rs (8 + n) 1 = (r.chain.map Fin.val).getD n 0) ∧
        optionAt rs 12 1 (r.active.map Fin.val) ∧ optionAt rs 14 4 (r.lastSwitch.map BitVec.toNat) ∧
        (r.switchCount < 65536 → fieldAt rs 19 2 = r.switchCount)) ∧
  ∀ (s : State) (id : Byte) (c : CandId), s.hand = some ⟨0x33, [id]⟩ → id.toNat = c.val →
    (s.cand c = none → exec .readCandidate s = .next (s.giveAnswer ⟨.ok, [0]⟩)) ∧
    ∀ k r, s.cand c = some k → s.dest k.dest = some r → ∃ rs : List Byte,
      exec .readCandidate s = .next (s.giveAnswer ⟨.ok, rs⟩) ∧ rs.length = 9 ∧ fieldAt rs 0 1 = 1 ∧
      fieldAt rs 1 1 = k.dest.val ∧ fieldAt rs 2 1 = k.link.val ∧
      (k.remainder < 65536 → fieldAt rs 3 2 = k.remainder) ∧ (k.lastCost < 65536 → fieldAt rs 5 2 = k.lastCost) ∧
      (∀ xs ys, r.chain = xs ++ c :: ys → c ∉ xs → xs.length < 4 → fieldAt rs 7 1 = xs.length + 1) ∧
      fieldAt rs 8 1 = (if r.active = some c then 1 else 0)

/-- A silence deadline expires in Operational when the count reaches it (R13): the link goes Down without a deadline and
with WENT_DOWN, its other fields kept, and no other link changes. A link in Probation sends no notice; an Up or Degraded one
sends a usable-lost notice, on which each destination whose active candidate names it is immediately selected, so that none
names it any more, and every other destination stays as it was (R18, R88). At each rise of the count every deadline equal to
the new count expires (R170), where one link alone expires as its expiry alone does. The model's own choices: that an expiry
which is not due changes nothing (log entry 1), and that one which waits in the queue of events as an event of its own before
the next tick is left to that event (log entry 7). -/
def Obligations.SilenceDeadlineExpiryTakesTheLinkDown : Prop :=
  (∀ (s : State) (i : LinkId) (l : Link), s.part = .operational → s.link i = some l → l.deadline = some s.now →
    ∃ t, exec (.silenceDeadlineExpiry i) s = .next t ∧
      t.link i = some { l with state := .down, deadline := none, events := { l.events with wentDown := true } } ∧
      (∀ j, j ≠ i → t.link j = s.link j) ∧ s.tablesOnly t ∧ s.pathsReselected t ∧
      (l.state = .probation → t = s.setLink i (t.link i)) ∧
      (l.state = .up ∨ l.state = .degraded →
        t = (s.setLink i (t.link i)).usableLost i ∧ s.lostReselected i (s.setLink i (t.link i)) t)) ∧
  (∀ (s : State) (i : LinkId), ¬ s.dueAt s.now i → exec (.silenceDeadlineExpiry i) s = .next s) ∧
  ∀ s : State, s.power = .running → ∃ t, exec .millisecondTick s = .next t ∧
    ({ s with now := s.now + 1 } : State).tablesOnly t ∧ ({ s with now := s.now + 1 } : State).pathsReselected t ∧
    (∀ i, ¬ s.expiresAtRise i → t.link i = s.link i) ∧
    (∀ i l, s.expiresAtRise i → s.link i = some l →
      t.link i = some { l with state := .down, deadline := none, events := { l.events with wentDown := true } } ∧
      (l.state = .up ∨ l.state = .degraded → ∀ d, t.activeOn i d = false)) ∧
    ∀ i, s.expiresAtRise i → (∀ j, j ≠ i → ¬ s.expiresAtRise j) →
      exec (.silenceDeadlineExpiry i) { s with now := s.now + 1 } = .next t

/-! ### Destinations and candidates -/

/-- ADD DESTINATION takes the lowest Vacant index as Unresolved, answers OK with it, and changes nothing else; a group
address, an address in use and a full table are refused, in this order (R52). FIND DESTINATION changes nothing and answers
the index and the state of the one record in use with the address, or NO_RECORD, or BAD_VALUE for a group address
(R51). -/
def Obligations.DestinationsAreAddedAndFoundByAddress : Prop :=
  ∀ (s : State) (a0 a1 a2 a3 a4 a5 : Byte) (a : Addr), a = a0 ++ a1 ++ a2 ++ a3 ++ a4 ++ a5 →
    (s.hand = some ⟨0x20, [a0, a1, a2, a3, a4, a5]⟩ →
      (a0.getLsbD 0 = true → exec .addDestination s = .next (s.giveAnswer ⟨.badValue, []⟩)) ∧
      (a0.getLsbD 0 = false → (∃ d r, s.dest d = some r ∧ r.address = a) →
        exec .addDestination s = .next (s.giveAnswer ⟨.duplicate, []⟩)) ∧
      (a0.getLsbD 0 = false → (∀ d r, s.dest d = some r → r.address ≠ a) →
        ((∀ d, s.dest d ≠ none) → exec .addDestination s = .next (s.giveAnswer ⟨.tableFull, []⟩)) ∧
        ∀ d, s.dest d = none → (∀ e < d, s.dest e ≠ none) →
          exec .addDestination s = .next ((s.setDest d (some
            { address := a, chain := [], active := none, lastSwitch := none, switchCount := 0 })).giveAnswer
              ⟨.ok, [BitVec.ofNat 8 d.val]⟩))) ∧
    (s.hand = some ⟨0x21, [a0, a1, a2, a3, a4, a5]⟩ →
      (a0.getLsbD 0 = true → exec .findDestination s = .next (s.giveAnswer ⟨.badValue, []⟩)) ∧
      (a0.getLsbD 0 = false → (∀ d r, s.dest d = some r → r.address ≠ a) →
        exec .findDestination s = .next (s.giveAnswer ⟨.noRecord, []⟩)) ∧
      (a0.getLsbD 0 = false → ∀ d r, s.dest d = some r → r.address = a →
        (∀ e r', s.dest e = some r' → r'.address = a → e = d) →
        exec .findDestination s = .next (s.giveAnswer ⟨.ok, [BitVec.ofNat 8 d.val, r.state.code]⟩)))

/-- REMOVE DESTINATION makes the record Vacant, frees the candidates of its chain, takes the index out of the
changed-destination set, and touches no other destination and no other candidate; a link none of these candidates names is
left as it was (R67). A Vacant index is refused with NO_RECORD and an index above 127 with BAD_VALUE. -/
def Obligations.RemoveDestinationClearsItsRecord : Prop :=
  ∀ (s : State) (index : Byte), s.hand = some ⟨0x22, [index]⟩ →
    (127 < index.toNat → exec .removeDestination s = .next (s.giveAnswer ⟨.badValue, []⟩)) ∧
    ∀ d : DestId, index.toNat = d.val →
      (s.dest d = none → exec .removeDestination s = .next (s.giveAnswer ⟨.noRecord, []⟩)) ∧
      ∀ r, s.dest d = some r → s.chainSound d r → ∃ t : State,
        exec .removeDestination s = .next (t.giveAnswer ⟨.ok, []⟩) ∧
        t.dest d = none ∧ t.changed.get d = false ∧ (∀ c ∈ r.chain, t.cand c = none) ∧
        (∀ c, c ∉ r.chain → t.cand c = s.cand c) ∧ (∀ e, e ≠ d → t.dest e = s.dest e) ∧
        (∀ e, e ≠ d → t.changed.get e = s.changed.get e) ∧
        s.referencesDropped r t ∧ s.tablesOnly t

/-- ADD CANDIDATE takes the lowest free id, places it in the chain and raises the link's reference count by one; with a
usable active candidate nothing is selected, and the next state is the edited state with that candidate's path cost written
(R75), its destination's mark in the changed-destination set as it was (R79); with none, or one that is unusable or no
member, the next state is that of immediate selection on the edited state; every other chain, link and candidate (but for the last path costs of the chain)
is left as it was; the answer carries the id and the destination's state after the check (R59 to R62). -/
def Obligations.AddCandidateJoinsTheChain : Prop :=
  ∀ (s : State) (dest link hi lo placement after : Byte) (d : DestId) (i : LinkId) (c : CandId) (r : Dest) (l : Link)
      (chain : List CandId),
    s.hand = some ⟨0x30, [dest, link, hi, lo, placement, after]⟩ → dest.toNat = d.val → link.toNat = i.val →
    s.dest d = some r → s.link i = some l → l.state ≠ .retiring →
    (∀ m ∈ r.chain, ∀ k, s.cand m = some k → k.link ≠ i) → r.chain.length < 4 →
    s.cand c = none → (∀ e < c, s.cand e ≠ none) →
    ((placement = 0 ∧ chain = c :: r.chain) ∨ (placement = 1 ∧ chain = r.chain ++ [c]) ∨
      (placement = 2 ∧ ∃ xs ys a, a.val = after.toNat ∧ a ∉ xs ∧ r.chain = xs ++ a :: ys ∧
        chain = xs ++ a :: c :: ys)) →
    ∃ (t : State) (r' : Dest) (k' : Cand),
      exec .addCandidate s = .next (t.giveAnswer ⟨.ok, [BitVec.ofNat 8 c.val, r'.state.code]⟩) ∧
      t.dest d = some r' ∧ r'.chain = chain ∧ r'.address = r.address ∧
      t.cand c = some k' ∧ k'.dest = d ∧ k'.link = i ∧ k'.remainder = hi.toNat * 256 + lo.toNat ∧
      (∀ a ∈ r.chain, r.active = some a → s.candUsable a = true →
        r' = { r with chain := chain } ∧ k'.lastCost = 65535 ∧ t.changed = s.changed) ∧
      (∀ u : State, u = ((s.setCand c (some ⟨d, i, hi.toNat * 256 + lo.toNat, 65535⟩)).setDest d
          (some { r with chain := chain })).setLink i (some { l with refs := l.refs + 1 }) →
        (∀ a ∈ r.chain, r.active = some a → s.candUsable a = true → t = u.refreshCost a) ∧
        ((r.active = none ∨ ∃ a, r.active = some a ∧ a ≠ c ∧ (a ∉ r.chain ∨ s.candUsable a = false)) →
          t = u.selectNow d)) ∧
      (∀ e, e ≠ c → sameButCost (s.cand e) (t.cand e)) ∧ (∀ e, e ∉ chain → t.cand e = s.cand e) ∧
      (∀ e, e ≠ d → t.dest e = s.dest e ∧ t.changed.get e = s.changed.get e) ∧
      t.link i = some { l with refs := l.refs + 1 } ∧ (∀ j, j ≠ i → t.link j = s.link j) ∧ s.tablesOnly t

/-- ADD CANDIDATE's refusals, in the order of R61's table. -/
def Obligations.AddCandidateRefusalsInOrder : Prop :=
  ∀ (s : State) (dest link hi lo placement after : Byte),
    s.hand = some ⟨0x30, [dest, link, hi, lo, placement, after]⟩ →
    (127 < dest.toNat ∨ 31 < link.toNat ∨ 2 < placement.toNat →
      exec .addCandidate s = .next (s.giveAnswer ⟨.badValue, []⟩)) ∧
    ∀ (d : DestId) (i : LinkId), dest.toNat = d.val → link.toNat = i.val → placement.toNat ≤ 2 →
      ((s.dest d = none ∨ s.link i = none ∨ ∃ l, s.link i = some l ∧ l.state = .retiring) →
        exec .addCandidate s = .next (s.giveAnswer ⟨.noRecord, []⟩)) ∧
      ∀ r l, s.dest d = some r → s.link i = some l → l.state ≠ .retiring →
        ((∃ m ∈ r.chain, ∃ k, s.cand m = some k ∧ k.link = i) →
          exec .addCandidate s = .next (s.giveAnswer ⟨.duplicate, []⟩)) ∧
        ((∀ m ∈ r.chain, ∀ k, s.cand m = some k → k.link ≠ i) →
          (4 ≤ r.chain.length → exec .addCandidate s = .next (s.giveAnswer ⟨.chainFull, []⟩)) ∧
          (r.chain.length < 4 →
            ((placement = 2 ∧ ∀ a ∈ r.chain, a.val ≠ after.toNat) →
              exec .addCandidate s = .next (s.giveAnswer ⟨.noRecord, []⟩)) ∧
            ((placement = 2 → ∃ a ∈ r.chain, a.val = after.toNat) → (∀ c, s.cand c ≠ none) →
              exec .addCandidate s = .next (s.giveAnswer ⟨.poolEmpty, []⟩))))

/-- UPDATE CANDIDATE's mask decides: the position moves the candidate within its chain and alone selects nothing; the
remainder cost, written after any move, selects nothing while the destination's active candidate, be it the one changed or
another, is usable after the write, the next state being the edited state with that candidate's path cost written (R75) and
no mark of the changed-destination set touched (R79), and otherwise the next state is that of immediate selection on the
edited state; with neither named nothing changes. Each answers the destination's state; a free candidate, a position outside
its values, after itself, or after a candidate that is not of the chain are refused in the order of R63 (R59, R63 to
R65). -/
def Obligations.UpdateCandidateMovesOrReprices : Prop :=
  ∀ (s : State) (id mask hi lo position after : Byte) (c : CandId),
    s.hand = some ⟨0x31, [id, mask, hi, lo, position, after]⟩ → id.toNat = c.val →
    (mask.getLsbD 1 = true → 2 < position.toNat → exec .updateCandidate s = .next (s.giveAnswer ⟨.badValue, []⟩)) ∧
    ((mask.getLsbD 1 = true → position.toNat ≤ 2) → s.cand c = none →
      exec .updateCandidate s = .next (s.giveAnswer ⟨.noRecord, []⟩)) ∧
    ∀ (k : Cand) (r : Dest), s.cand c = some k → s.dest k.dest = some r →
      (mask.getLsbD 1 = true → position = 2 → after.toNat = c.val →
        exec .updateCandidate s = .next (s.giveAnswer ⟨.badValue, []⟩)) ∧
      (mask.getLsbD 1 = true → position = 2 → after.toNat ≠ c.val → (∀ a ∈ r.chain, a.val ≠ after.toNat) →
        exec .updateCandidate s = .next (s.giveAnswer ⟨.noRecord, []⟩)) ∧
      (mask.getLsbD 0 = false → mask.getLsbD 1 = false →
        exec .updateCandidate s = .next (s.giveAnswer ⟨.ok, [r.state.code]⟩)) ∧
      ∀ chain : List CandId,
        ((mask.getLsbD 1 = false ∧ chain = r.chain) ∨ (mask.getLsbD 1 = true ∧ c ∈ r.chain ∧
          ((position = 0 ∧ chain = c :: r.chain.erase c) ∨ (position = 1 ∧ chain = r.chain.erase c ++ [c]) ∨
            (position = 2 ∧ ∃ xs ys a, a.val = after.toNat ∧ a ≠ c ∧ a ∉ xs ∧ r.chain.erase c = xs ++ a :: ys ∧
              chain = xs ++ a :: c :: ys)))) →
        (mask.getLsbD 0 = false → mask.getLsbD 1 = true → exec .updateCandidate s = .next
          ((s.setDest k.dest (some { r with chain := chain })).giveAnswer ⟨.ok, [r.state.code]⟩)) ∧
        (mask.getLsbD 0 = true → ∃ (t : State) (r' : Dest) (k' : Cand),
          exec .updateCandidate s = .next (t.giveAnswer ⟨.ok, [r'.state.code]⟩) ∧ t.dest k.dest = some r' ∧
          r'.chain = chain ∧ r'.address = r.address ∧ t.cand c = some k' ∧
          k' = { k with remainder := hi.toNat * 256 + lo.toNat, lastCost := k'.lastCost } ∧
          (∀ u : State, u = (s.setDest k.dest (some { r with chain := chain })).setCand c
              (some { k with remainder := hi.toNat * 256 + lo.toNat }) →
            (∀ a ∈ r.chain, r.active = some a → u.candUsable a = true →
              r' = { r with chain := chain } ∧ t = u.refreshCost a ∧ t.changed = s.changed) ∧
            ((r.active = none ∨ ∃ a, r.active = some a ∧ (a ∉ r.chain ∨ u.candUsable a = false)) →
              t = u.selectNow k.dest)) ∧
          (∀ e, e ≠ c → sameButCost (s.cand e) (t.cand e)) ∧
          (∀ e, e ≠ k.dest → t.dest e = s.dest e ∧ t.changed.get e = s.changed.get e) ∧ s.pathsOnly t)

/-- REMOVE CANDIDATE frees the record, closes the chain up, lowers its link's reference count, or makes a Retiring link
Vacant whose count reaches 0, and leaves every other chain, link and candidate (but for last path costs) alone; a usable
active candidate that is not the one removed stays, the next state being the edited state with that candidate's path cost
written (R75) and no mark of the changed-destination set touched (R79), and without one the next state is that of immediate
selection on the edited state; an emptied chain leaves the destination without an active candidate, booked as a switch only if it had one
(R57, R58, R60, R66). A free candidate is refused with NO_RECORD. -/
def Obligations.RemoveCandidateClosesTheChain : Prop :=
  ∀ (s : State) (id : Byte) (c : CandId), s.hand = some ⟨0x32, [id]⟩ → id.toNat = c.val →
    (s.cand c = none → exec .removeCandidate s = .next (s.giveAnswer ⟨.noRecord, []⟩)) ∧
    ∀ (k : Cand) (r : Dest) (l : Link), s.cand c = some k → s.dest k.dest = some r → s.link k.link = some l →
      ∃ (t : State) (r' : Dest),
      exec .removeCandidate s = .next (t.giveAnswer ⟨.ok, [BitVec.ofNat 8 k.dest.val, r'.state.code]⟩) ∧
      t.cand c = none ∧ t.dest k.dest = some r' ∧ r'.chain = r.chain.erase c ∧ r'.address = r.address ∧
      (∀ u : State, u = ((s.setDest k.dest (some { r with chain := r.chain.erase c })).setCand c none).setLink k.link
          (t.link k.link) →
        (r.chain.erase c = [] → t = u.setActive k.dest none ∧ r'.active = none ∧
          (r.active = none → r' = { r with chain := [] }) ∧
          (r.active ≠ none → r'.lastSwitch = some s.now ∧ r'.switchCount = min (r.switchCount + 1) 65535 ∧
            t.changed.get k.dest = true)) ∧
        (r.chain.erase c ≠ [] →
          (r.active = none ∨ ∃ a, r.active = some a ∧ (a ∉ r.chain.erase c ∨ u.candUsable a = false)) →
          t = u.selectNow k.dest) ∧
        ∀ a ∈ r.chain.erase c, r.active = some a → u.candUsable a = true →
          t = u.refreshCost a ∧ t.changed = s.changed) ∧
      (∀ a ∈ r.chain.erase c, r.active = some a → a ≠ c → s.candUsable a = true →
        r' = { r with chain := r.chain.erase c }) ∧
      (∀ e, e ≠ c → sameButCost (s.cand e) (t.cand e)) ∧
      (∀ e, e ≠ k.dest → t.dest e = s.dest e ∧ t.changed.get e = s.changed.get e) ∧
      t.link k.link = (if l.state = .retiring ∧ l.refs ≤ 1 then none else some { l with refs := l.refs - 1 }) ∧
      (∀ j, j ≠ k.link → t.link j = s.link j) ∧ s.tablesOnly t

/-! ### The cursor -/

/-- SET CURSOR writes the cursor's three fields and nothing else, and a table, setting or index outside its values, the end
position included, is refused with BAD_VALUE (R158). READ AT CURSOR with auto-advance on returns the first record in use at
or above the cursor, in the form of its table's read command, and moves past it, or the end marker and stands at the end
position (R160); with auto-advance off it returns the record at the index and does not move (R159); it changes nothing but
the cursor. The record is in each table what READ LINK, READ DESTINATION and READ CANDIDATE answer for the same index. The
tables are numbered links 0, destinations 1, candidates 2 (R171). -/
def Obligations.CursorWalksTheTables : Prop :=
  [CursorTable.links, .destinations, .candidates].map CursorTable.code = [0, 1, 2] ∧
  (∀ (s : State) (k : Byte),
    (k.toNat < 32 → s.hand = some ⟨0x13, [k]⟩ →
      exec .readLink s = .next (s.giveAnswer ⟨.ok, s.recordBytes .links k.toNat⟩)) ∧
    (k.toNat < 128 → s.hand = some ⟨0x23, [k]⟩ →
      exec .readDestination s = .next (s.giveAnswer ⟨.ok, s.recordBytes .destinations k.toNat⟩)) ∧
    (s.hand = some ⟨0x33, [k]⟩ →
      exec .readCandidate s = .next (s.giveAnswer ⟨.ok, s.recordBytes .candidates k.toNat⟩)) ∧
    ∀ h table, ({ s with hand := h } : State).recordBytes table k.toNat = s.recordBytes table k.toNat) ∧
  (∀ (s : State) (table index auto : Byte), s.hand = some ⟨0x40, [table, index, auto]⟩ →
    (∀ t : CursorTable, table = t.code → index.toNat < (match t with
        | .links => 32 | .destinations => 128 | .candidates => 256) → auto.toNat ≤ 1 →
      exec .setCursor s = .next
        (({ s with cursor := { table := t, index := index.toNat, autoAdvance := auto == 1 } } : State).giveAnswer
          ⟨.ok, []⟩)) ∧
    (2 < table.toNat ∨ 1 < auto.toNat ∨ (table = 0 ∧ 31 < index.toNat) ∨ (table = 1 ∧ 127 < index.toNat) →
      exec .setCursor s = .next (s.giveAnswer ⟨.badValue, []⟩))) ∧
  ∀ s : State, s.hand = some ⟨0x41, []⟩ →
    (s.cursor.autoAdvance = true →
      (∀ k, s.cursor.index ≤ k → s.inUse s.cursor.table k = true →
        (∀ j, s.cursor.index ≤ j → j < k → s.inUse s.cursor.table j = false) →
        exec .readAtCursor s = .next (({ s with cursor := { s.cursor with index := k + 1 } } : State).giveAnswer
          ⟨.ok, [s.cursor.table.code, 0, BitVec.ofNat 8 k] ++ s.recordBytes s.cursor.table k⟩)) ∧
      ((∀ k, s.cursor.index ≤ k → s.inUse s.cursor.table k = false) →
        exec .readAtCursor s = .next
          (({ s with cursor := { s.cursor with index := s.cursor.table.size } } : State).giveAnswer
            ⟨.ok, [s.cursor.table.code, 1, 0]⟩))) ∧
    (s.cursor.autoAdvance = false → s.cursor.index < s.cursor.table.size →
      exec .readAtCursor s = .next (s.giveAnswer
        ⟨.ok, [s.cursor.table.code, 0, BitVec.ofNat 8 s.cursor.index] ++
          s.recordBytes s.cursor.table s.cursor.index⟩))

/-! ### Notices -/

/-- The NOTICE line is asserted exactly while the part runs and some enabled cause is pending (R145). -/
def Obligations.NoticeFollowsItsCauses : Prop :=
  ∀ s : State, s.notice = true ↔ s.power = .running ∧
    ((∃ i l k, s.link i = some l ∧ l.events.holds k = true ∧ s.enabledEvents.holds k = true) ∨
      ((∃ d, s.changed.get d = true) ∧ s.param 19 ≠ 0) ∨ ((∃ n, s.job = .noticePending n) ∧ s.param 20 ≠ 0) ∨
      ((∃ p, (s.port p).overflow = true) ∧ s.param 21 ≠ 0))

/-- READ SUMMARY and NEXT EVENT LINK change nothing. The summary's eight bytes show the job notice, the overflow flags, the
lowest link with an enabled event, the number of changes, the first enabled and pending cause in the fixed order with its
member, and the NOTICE line; while the part runs the first cause is none exactly when NOTICE is withdrawn (R141, R146,
R172). -/
def Obligations.SummaryNamesTheFirstCause : Prop :=
  ∀ (s : State) (link : List Byte),
    ((link = [0, 0] ∧ ∀ i, s.hasEnabledEvent i = false) ∨
      (∃ i, link = [1, BitVec.ofNat 8 i.val] ∧ s.hasEnabledEvent i = true ∧ ∀ j < i, s.hasEnabledEvent j = false)) →
    (s.hand = some ⟨0x51, []⟩ → exec .nextEventLink s = .next (s.giveAnswer ⟨.ok, link⟩)) ∧
    (s.hand = some ⟨0x50, []⟩ → ∃ job overflow changes cause member : Byte,
      exec .readSummary s = .next (s.giveAnswer
        ⟨.ok, [job, overflow] ++ link ++ [changes, cause, member, if s.notice then 1 else 0]⟩) ∧
      ((job = 1 ∧ ∃ n, s.job = .noticePending n) ∨ (job = 0 ∧ ∀ n, s.job ≠ .noticePending n)) ∧
      (∀ n, overflow.getLsbD n = true ↔ ∃ p : Radio, p.val = n ∧ (s.port p).overflow = true) ∧
      changes.toNat = ((List.finRange 128).filter (fun d => s.changed.get d)).length ∧
      (s.power = .running → (cause = 0 ↔ s.notice = false)) ∧
      (job = 1 ∧ s.param 20 ≠ 0 → cause = 1 ∧ member = 0) ∧
      (¬ (job = 1 ∧ s.param 20 ≠ 0) →
        (∀ p : Radio, s.param 21 ≠ 0 → (s.port p).overflow = true → (∀ q < p, (s.port q).overflow = false) →
          cause = 2 ∧ member = BitVec.ofNat 8 p.val) ∧
        (s.param 21 = 0 ∨ (∀ p, (s.port p).overflow = false) →
          (∀ b, link = [1, b] → cause = 3 ∧ member = b) ∧
          (link = [0, 0] → cause = (if s.param 19 ≠ 0 ∧ changes ≠ 0 then 4 else 0) ∧ member = 0))))

/-- READ LINK EVENTS returns the link's pending set and empties it, and changes nothing else; a Vacant link is refused with
NO_RECORD and an id above 31 with BAD_VALUE (R140). -/
def Obligations.ReadLinkEventsEmptiesTheSet : Prop :=
  ∀ (s : State) (id : Byte), s.hand = some ⟨0x52, [id]⟩ →
    (31 < id.toNat → exec .readLinkEvents s = .next (s.giveAnswer ⟨.badValue, []⟩)) ∧
    ∀ i : LinkId, id.toNat = i.val →
      (s.link i = none → exec .readLinkEvents s = .next (s.giveAnswer ⟨.noRecord, []⟩)) ∧
      ∀ l, s.link i = some l → ∃ b : Byte, exec .readLinkEvents s = .next
          ((s.setLink i (some { l with events := ⟨false, false, false, false, false, false⟩ })).giveAnswer ⟨.ok, [b]⟩) ∧
        b.getLsbD 0 = l.events.cameUp ∧ b.getLsbD 1 = l.events.degraded ∧ b.getLsbD 2 = l.events.recovered ∧
        b.getLsbD 3 = l.events.wentDown ∧ b.getLsbD 4 = l.events.oneWay ∧ b.getLsbD 5 = l.events.sectorMoved ∧
        b.getLsbD 6 = false ∧ b.getLsbD 7 = false

/-- TAKE CHANGES returns up to 8 of the lowest indices of the set in ascending order with the number that remain; exactly
these leave the set, and nothing else changes (R143). -/
def Obligations.TakeChangesReturnsTheLowest : Prop :=
  ∀ s : State, s.hand = some ⟨0x53, []⟩ → ∃ (t : State) (taken : List DestId) (rest : Nat),
    exec .takeChanges s = .next (t.giveAnswer
      ⟨.ok, [BitVec.ofNat 8 taken.length, BitVec.ofNat 8 rest] ++ taken.map (fun d => BitVec.ofNat 8 d.val)⟩) ∧
    taken.Pairwise (· < ·) ∧ taken.length ≤ 8 ∧ (∀ d ∈ taken, s.changed.get d = true) ∧
    (∀ d, t.changed.get d = true ↔ s.changed.get d = true ∧ d ∉ taken) ∧
    (∀ d, t.changed.get d = true → taken.length = 8 ∧ ∀ e ∈ taken, e < d) ∧
    rest = ((List.finRange 128).filter (fun d => t.changed.get d)).length ∧ t = { s with changed := t.changed }

/-- READ PORT STATUS answers presence, fill, dropped count and flag, and clears the flag; FLUSH REPORTS empties the queue
and clears the count and the flag, answering the number discarded; neither touches the request slot or another port; an
absent port's flush is refused with NO_RADIO, and a port above 2 with BAD_VALUE (R117, R118). -/
def Obligations.PortStatusAndFlush : Prop :=
  (∀ (s : State) (port : Byte), s.hand = some ⟨0x54, [port]⟩ →
    (2 < port.toNat → exec .readPortStatus s = .next (s.giveAnswer ⟨.badValue, []⟩)) ∧
    ∀ p : Radio, port.toNat = p.val → ∃ dropped : List Byte,
      exec .readPortStatus s = .next ((s.setPort p { s.port p with overflow := false }).giveAnswer
        ⟨.ok, [if (s.port p).present then 1 else 0, BitVec.ofNat 8 (s.port p).reports.length] ++ dropped ++
          [if (s.port p).overflow then 1 else 0]⟩) ∧
      dropped.length = 2 ∧ ((s.port p).dropped ≤ 65535 → valueOf dropped = (s.port p).dropped)) ∧
  ∀ (s : State) (port : Byte), s.hand = some ⟨0x55, [port]⟩ →
    (2 < port.toNat → exec .flushReports s = .next (s.giveAnswer ⟨.badValue, []⟩)) ∧
    ∀ p : Radio, port.toNat = p.val →
      ((s.port p).present = false → exec .flushReports s = .next (s.giveAnswer ⟨.noRadio, []⟩)) ∧
      ((s.port p).present = true → exec .flushReports s = .next
        ((s.setPort p { s.port p with reports := [], dropped := 0, overflow := false }).giveAnswer
          ⟨.ok, [BitVec.ofNat 8 (s.port p).reports.length]⟩))

/-! ### Jobs -/

/-- START JOB's checks run in the order of R122's table, with the conditions of R123, for a command whose length fits its
kind. An accepted one forms a context at index 0 with both counts 0 and makes the Job Engine Running; for RETUNE RADIO it
flushes the port of the job's radio, and nothing else changes (R124). -/
def Obligations.StartJobFormsAContext : Prop :=
  ∀ (s : State) (args : List Byte), s.hand = some ⟨0x60, args⟩ → startJobLengthOk args →
    (s.part = .configuring → exec .startJob s = .next (s.giveAnswer ⟨.wrongState, []⟩)) ∧
    (s.part = .operational →
      (∀ ctx, s.job = .running ctx → exec .startJob s = .next (s.giveAnswer ⟨.busy, []⟩)) ∧
      (∀ n, s.job = .noticePending n → exec .startJob s = .next (s.giveAnswer ⟨.noticeUnread, []⟩)) ∧
      (s.job = .idle →
        (∀ kind rest, args = kind :: rest → 2 < kind.toNat →
          exec .startJob s = .next (s.giveAnswer ⟨.badValue, []⟩)) ∧
        (∀ a b : Byte, args = [0, a, b] →
          (a = 0 ∨ 7 < a.toNat ∨ b = 0 ∨ 15 < b.toNat → exec .startJob s = .next (s.giveAnswer ⟨.badValue, []⟩)) ∧
          (1 ≤ a.toNat → a.toNat ≤ 7 → 1 ≤ b.toNat → b.toNat ≤ 15 →
            ((∃ p : Radio, a.getLsbD p.val = true ∧ (s.port p).present = false) →
              exec .startJob s = .next (s.giveAnswer ⟨.noRadio, []⟩)) ∧
            ((∀ p : Radio, a.getLsbD p.val = true → (s.port p).present = true) →
              exec .startJob s = .next (({ s with
                job := .running { selector := .retireLinks (a.setWidth 3) (b.setWidth 4), next := 0, visited := 0,
                                  actedOn := 0 } } : State).giveAnswer ⟨.ok, []⟩)))) ∧
        (∀ a : Byte, args = [1, a] →
          (2 < a.toNat → exec .startJob s = .next (s.giveAnswer ⟨.badValue, []⟩)) ∧
          ∀ p : Radio, a.toNat = p.val →
            ((s.port p).present = false → exec .startJob s = .next (s.giveAnswer ⟨.noRadio, []⟩)) ∧
            ((s.port p).present = true → exec .startJob s = .next ((({ s with
              job := .running { selector := .retuneRadio p, next := 0, visited := 0, actedOn := 0 } } : State).setPort p
                { s.port p with reports := [], dropped := 0, overflow := false }).giveAnswer ⟨.ok, []⟩))) ∧
        (∀ a : Byte, args = [2, a] →
          (a = 0 ∨ 3 < a.toNat → exec .startJob s = .next (s.giveAnswer ⟨.badValue, []⟩)) ∧
          (1 ≤ a.toNat → a.toNat ≤ 3 → exec .startJob s = .next (({ s with
            job := .running { selector := .pruneDestinations (a.setWidth 2), next := 0, visited := 0,
                              actedOn := 0 } } : State).giveAnswer ⟨.ok, []⟩)))))

/-- STOP JOB ends a Running job with a STOPPED notice of its kind and counts (R132), READ JOB STATE shows the kind and the
next index of a Running job and changes nothing (R133), and READ JOB NOTICE returns a pending notice and releases it
(R134); STOP JOB without a Running job and READ JOB NOTICE without a notice are refused with NOT_RUNNING. Job kinds are
numbered RETIRE LINKS 0, RETUNE RADIO 1, PRUNE DESTINATIONS 2, and job codes DONE 0, STOPPED 1 (R171). -/
def Obligations.JobStopStateAndNotice : Prop :=
  [JobKind.retireLinks, .retuneRadio, .pruneDestinations].map JobKind.code = [0, 1, 2] ∧
  [JobCode.done, .stopped].map JobCode.code = [0, 1] ∧
  (∀ s : State, s.hand = some ⟨0x61, []⟩ →
    (∀ ctx, s.job = .running ctx → exec .stopJob s = .next (({ s with
      job := .noticePending { kind := ctx.selector.kind, code := .stopped, visited := ctx.visited,
                              actedOn := ctx.actedOn } } : State).giveAnswer ⟨.ok, []⟩)) ∧
    ((∀ ctx, s.job ≠ .running ctx) → exec .stopJob s = .next (s.giveAnswer ⟨.notRunning, []⟩))) ∧
  (∀ s : State, s.hand = some ⟨0x62, []⟩ →
    (∀ ctx, s.job = .running ctx → exec .readJobState s = .next
      (s.giveAnswer ⟨.ok, [1, ctx.selector.kind.code, BitVec.ofNat 8 ctx.next]⟩)) ∧
    ((∀ ctx, s.job ≠ .running ctx) → exec .readJobState s = .next (s.giveAnswer ⟨.ok, [0, 0, 0]⟩))) ∧
  ∀ s : State, s.hand = some ⟨0x56, []⟩ →
    (∀ n, s.job = .noticePending n → exec .readJobNotice s = .next (({ s with job := .idle } : State).giveAnswer
      ⟨.ok, [n.kind.code, n.code.code, BitVec.ofNat 8 n.visited, BitVec.ofNat 8 n.actedOn]⟩)) ∧
    ((∀ n, s.job ≠ .noticePending n) → exec .readJobNotice s = .next (s.giveAnswer ⟨.notRunning, []⟩))

/-- A RETIRE LINKS visit to a matching link makes it Vacant with every candidate that named it free, and leaves the tables as
RETIRE LINK with cascade does; a visit to any other record leaves the tables alone; each moves the walk on by exactly one
index, and the last ends it with a DONE notice (R125, R127). -/
def Obligations.RetireLinksVisitActsAndMovesOn : Prop :=
  ∀ (s : State) (ctx : JobContext) (radios : BitVec 3) (states : BitVec 4) (i : LinkId),
    s.job = .running ctx → ctx.selector = .retireLinks radios states → ctx.next = i.val →
    (∀ l, s.link i = some l → radios.getLsbD l.radio.val = true →
      ((l.state = .probation ∧ states.getLsbD 0 = true) ∨ (l.state = .up ∧ states.getLsbD 1 = true) ∨
        (l.state = .degraded ∧ states.getLsbD 2 = true) ∨ (l.state = .down ∧ states.getLsbD 3 = true)) →
      ∃ t, exec .retireLinksVisit s = .next t ∧ t.link i = none ∧ (∀ c, s.candNames i c = true → t.cand c = none) ∧
        (∀ c, s.candNames i c = false → sameButCost (s.cand c) (t.cand c)) ∧
        (∀ j, j ≠ i → t.link j = s.link j) ∧ (s.pathsSound → s.cascadeRetired i t) ∧
        ({ s with job := t.job } : State).tablesOnly t ∧
        t.job = (if i.val = 31 then .noticePending ⟨.retireLinks, .done, ctx.visited + 1, ctx.actedOn + 1⟩
          else .running { ctx with next := ctx.next + 1, visited := ctx.visited + 1, actedOn := ctx.actedOn + 1 })) ∧
    ((∀ l, s.link i = some l → radios.getLsbD l.radio.val = false ∨ l.state = .retiring ∨
        (l.state = .probation ∧ states.getLsbD 0 = false) ∨ (l.state = .up ∧ states.getLsbD 1 = false) ∨
        (l.state = .degraded ∧ states.getLsbD 2 = false) ∨ (l.state = .down ∧ states.getLsbD 3 = false)) →
      exec .retireLinksVisit s = .next { s with
        job := if i.val = 31 then .noticePending ⟨.retireLinks, .done, ctx.visited + 1, ctx.actedOn⟩
          else .running { ctx with next := ctx.next + 1, visited := ctx.visited + 1 } })

/-- A RETUNE RADIO visit resets a matching link as R25 gives and keeps the fields R25 keeps. If the link was Up or Degraded,
each destination whose active candidate names it is immediately selected, so that none names it any more (R18, R88);
otherwise no destination changes. A visit to any other record leaves the tables alone; each moves the walk on by exactly
one index (R25, R125, R128). -/
def Obligations.RetuneRadioVisitResetsTheLink : Prop :=
  ∀ (s : State) (ctx : JobContext) (radio : Radio) (i : LinkId), s.job = .running ctx →
    ctx.selector = .retuneRadio radio → ctx.next = i.val →
    (∀ l, s.link i = some l → l.radio = radio → l.state ≠ .retiring → ∃ t, exec .retuneRadioVisit s = .next t ∧
      t.link i = some { l with
        state := .probation, heard := 0, lastHeard := none, deadline := none, lastBeacon := none, gapSum := 0
        gapCount := 0, followSector := none, agree := 0
        est := { delivery := Vector.replicate 12 512, snr := none, probe := 0, oneWay := false } } ∧
      (∀ j, j ≠ i → t.link j = s.link j) ∧ ({ s with job := t.job } : State).tablesOnly t ∧ s.pathsReselected t ∧
      (l.state = .probation ∨ l.state = .down → ({ t with job := s.job } : State) = s.setLink i (t.link i)) ∧
      (l.state = .up ∨ l.state = .degraded →
        ({ t with job := s.job } : State) = (s.setLink i (t.link i)).usableLost i ∧
        s.lostReselected i (s.setLink i (t.link i)) t) ∧
      t.job = (if i.val = 31 then .noticePending ⟨.retuneRadio, .done, ctx.visited + 1, ctx.actedOn + 1⟩
        else .running { ctx with next := ctx.next + 1, visited := ctx.visited + 1, actedOn := ctx.actedOn + 1 })) ∧
    ((∀ l, s.link i = some l → l.radio ≠ radio ∨ l.state = .retiring) →
      exec .retuneRadioVisit s = .next { s with
        job := if i.val = 31 then .noticePending ⟨.retuneRadio, .done, ctx.visited + 1, ctx.actedOn⟩
          else .running { ctx with next := ctx.next + 1, visited := ctx.visited + 1 } })

/-- A PRUNE DESTINATIONS visit to a matching destination makes it Vacant, frees its candidates, takes its index out of the
changed-destination set and lowers its links' reference counts, touching no other destination's record; a visit to any
other record leaves the tables alone; each moves the walk on by exactly one index (R125, R129). -/
def Obligations.PruneDestinationsVisitRemovesTheDestination : Prop :=
  ∀ (s : State) (ctx : JobContext) (states : BitVec 2) (d : DestId), s.job = .running ctx →
    ctx.selector = .pruneDestinations states → ctx.next = d.val →
    (∀ r, s.dest d = some r → s.chainSound d r →
      ((r.state = .unresolved ∧ states.getLsbD 0 = true) ∨ (r.state = .unreachable ∧ states.getLsbD 1 = true)) →
      ∃ t, exec .pruneDestinationsVisit s = .next t ∧ t.dest d = none ∧ t.changed.get d = false ∧
        (∀ c ∈ r.chain, t.cand c = none) ∧ (∀ c, c ∉ r.chain → t.cand c = s.cand c) ∧
        (∀ e, e ≠ d → t.dest e = s.dest e ∧ t.changed.get e = s.changed.get e) ∧ s.referencesDropped r t ∧
        ({ s with job := t.job } : State).tablesOnly t ∧
        t.job = (if d.val = 127 then .noticePending ⟨.pruneDestinations, .done, ctx.visited + 1, ctx.actedOn + 1⟩
          else .running { ctx with next := ctx.next + 1, visited := ctx.visited + 1, actedOn := ctx.actedOn + 1 })) ∧
    ((∀ r, s.dest d = some r → r.state = .resolved ∨ (r.state = .unresolved ∧ states.getLsbD 0 = false) ∨
        (r.state = .unreachable ∧ states.getLsbD 1 = false)) →
      exec .pruneDestinationsVisit s = .next { s with
        job := if d.val = 127 then .noticePending ⟨.pruneDestinations, .done, ctx.visited + 1, ctx.actedOn⟩
          else .running { ctx with next := ctx.next + 1, visited := ctx.visited + 1 } })

/-! ### Path resolution and the Forwarding Port -/

/-- The path cost is the link cost plus the remainder, saturating at 65,535 (R73), and a candidate is usable exactly when
its link is Up or Degraded, its link cost is below 65,535 and its path cost is below 65,535 (R74). -/
def Obligations.UsabilityByStateAndCosts : Prop :=
  ∀ (s : State) (c : CandId) (k : Cand) (l : Link), s.cand c = some k → s.link k.link = some l →
    s.candCost c = (if l.cost s.tuning + k.remainder < 65535 then l.cost s.tuning + k.remainder else 65535) ∧
    (s.candUsable c = true ↔
      (l.state = .up ∨ l.state = .degraded) ∧ l.cost s.tuning < 65535 ∧ s.candCost c < 65535)

/-- Immediate selection writes the path cost of every member of the chain and makes the cheapest usable member active, the
nearest to the head of several, or none when no member is usable, whatever the hold-down; a change of the active candidate
brings its bookkeeping, and no other destination or candidate changes (R76). -/
def Obligations.ImmediateSelectionTakesTheCheapestUsable : Prop :=
  ∀ (s : State) (d : DestId) (r : Dest), s.dest d = some r → ∃ (t : State) (r' : Dest), s.selectNow d = t ∧
    t.dest d = some r' ∧ r'.address = r.address ∧ r'.chain = r.chain ∧
    ((r'.active = none ∧ ∀ c ∈ r.chain, s.candUsable c = false) ∨
      ∃ xs ys a, r.chain = xs ++ a :: ys ∧ r'.active = some a ∧ s.candUsable a = true ∧
        (∀ c ∈ xs, s.candUsable c = true → s.candCost a < s.candCost c) ∧
        (∀ c ∈ ys, s.candUsable c = true → s.candCost a ≤ s.candCost c)) ∧
    (r'.active = r.active → r' = r ∧ t.changed = s.changed) ∧
    (r'.active ≠ r.active → r'.lastSwitch = some s.now ∧ r'.switchCount = min (r.switchCount + 1) 65535 ∧
      ∀ e, t.changed.get e = (if e = d then true else s.changed.get e)) ∧
    (∀ c ∈ r.chain, ∀ k, s.cand c = some k → t.cand c = some { k with lastCost := s.candCost c }) ∧
    (∀ c, c ∉ r.chain → t.cand c = s.cand c) ∧ (∀ e, e ≠ d → t.dest e = s.dest e) ∧ s.pathsOnly t

/-- A full evaluation of a Resolved destination whose active candidate is usable writes every member's path cost; another
member becomes active exactly when the cheapest other usable member beats the active candidate by the hysteresis margin and
the hold-down has elapsed, and it is that member, with the switch's bookkeeping; and nothing else changes (R81 to R83,
R85). -/
def Obligations.SwitchTestNeedsMarginAndHoldDown : Prop :=
  ∀ (s : State) (d : DestId) (r : Dest) (a : CandId) (t0 : Time), s.dest d = some r → r.active = some a →
    a ∈ r.chain → s.candUsable a = true → r.lastSwitch = some t0 → ∃ (t : State) (r' : Dest) (e : CandId),
    s.evaluateDest d = t ∧ t.dest d = some r' ∧ r'.active = some e ∧ r'.address = r.address ∧ r'.chain = r.chain ∧
    (e = a → r' = r ∧ t.changed = s.changed) ∧
    (e ≠ a → s.candUsable e = true ∧ s.candCost e * 16 < s.candCost a * (16 - s.param 3) ∧
      s.param 4 ≤ (s.now - t0).toNat ∧
      (∃ xs ys, r.chain = xs ++ e :: ys ∧ (∀ c ∈ xs, c ≠ a → s.candUsable c = true → s.candCost e < s.candCost c) ∧
        (∀ c ∈ ys, c ≠ a → s.candUsable c = true → s.candCost e ≤ s.candCost c)) ∧
      r'.lastSwitch = some s.now ∧ r'.switchCount = min (r.switchCount + 1) 65535 ∧
      ∀ f, t.changed.get f = (if f = d then true else s.changed.get f)) ∧
    (∀ b ∈ r.chain, b ≠ a → s.candUsable b = true → s.candCost b * 16 < s.candCost a * (16 - s.param 3) →
      s.param 4 ≤ (s.now - t0).toNat → e ≠ a) ∧
    (∀ c ∈ r.chain, ∀ k, s.cand c = some k → t.cand c = some { k with lastCost := s.candCost c }) ∧
    (∀ c, c ∉ r.chain → t.cand c = s.cand c) ∧ (∀ f, f ≠ d → t.dest f = s.dest f) ∧ s.pathsOnly t

/-- Every switch made by any event brings its bookkeeping: over one event, a destination in use before and after either
keeps its active candidate, or has the Timebase count as its last switch time, its index in the changed-destination set,
and a switch count that has risen unless it is saturated (R78). Where the event is a tick, the count is the new one, at which
its expiries come (R170). -/
def Obligations.EverySwitchIsBooked : Prop :=
  ∀ (c : Instr) (s t : State) (d : DestId) (r r' : Dest), exec c s = .next t → s.dest d = some r → t.dest d = some r' →
    r'.active ≠ r.active →
    r'.lastSwitch = some t.now ∧ t.changed.get d = true ∧ min (r.switchCount + 1) 65535 ≤ r'.switchCount

/-- A PATH QUERY is taken while the query ready is given: behind others it waits unlooked at, and in an empty queue it is
resolved at once with its tag, NOT_READY in Configuring, UNKNOWN for a group address or one that no record holds, and
otherwise from the evaluation of the destination; while the ready is withheld nothing changes (R95, R97, R98, R100). -/
def Obligations.PathQueryIntake : Prop :=
  ∀ (s : State) (tag : Byte) (a : Addr),
    (s.queryReady = false → exec (.pathQuery tag a) s = .next s) ∧
    (s.queryReady = true → s.queries ≠ [] →
      exec (.pathQuery tag a) s = .next { s with queries := s.queries ++ [⟨tag, a, none⟩] }) ∧
    (s.queryReady = true → s.queries = [] →
      (s.part = .configuring →
        exec (.pathQuery tag a) s = .next { s with queries := [⟨tag, a, some ⟨tag, .notReady⟩⟩] }) ∧
      (s.part = .operational → ((∀ d r, s.dest d = some r → r.address ≠ a) ∨ a.getLsbD 40 = true) →
        exec (.pathQuery tag a) s = .next { s with queries := [⟨tag, a, some ⟨tag, .unknown⟩⟩] }) ∧
      (s.part = .operational → a.getLsbD 40 = false →
        ∀ d r, s.dest d = some r → r.address = a → (∀ e r', s.dest e = some r' → r'.address = a → e = d) →
        ∀ t : State, t = ({ s with queries := [⟨tag, a, none⟩] } : State).evaluateDest d →
        exec (.pathQuery tag a) s = .next { t with queries := [⟨tag, a, some ⟨tag, t.pathResult d⟩⟩] }))

/-- The frame switch's taking of an answer removes the head entry: an empty rest leaves an empty queue, and otherwise the
next entry is resolved within the same event and answered with its own tag, NOT_READY in Configuring, and in Operational
UNKNOWN for a group address or one that no record holds, and otherwise from the evaluation of the destination; the entries
behind it wait, and nothing changes but what its evaluation may change (R97 to R101). -/
def Obligations.PathAnswerAdvancesTheQueue : Prop :=
  ∀ (s : State) (q : Query) (ans : PathAnswer) (rest : List Query), s.queries = q :: rest → q.answer = some ans →
    (rest = [] → exec .pathAnswer s = .next { s with queries := [] }) ∧
    (∀ w ws, rest = w :: ws → w.answer = none →
      (s.part = .configuring →
        exec .pathAnswer s = .next { s with queries := { w with answer := some ⟨w.tag, .notReady⟩ } :: ws }) ∧
      (s.part = .operational → ((∀ d r, s.dest d = some r → r.address ≠ w.dest) ∨ w.dest.getLsbD 40 = true) →
        exec .pathAnswer s = .next { s with queries := { w with answer := some ⟨w.tag, .unknown⟩ } :: ws }) ∧
      (s.part = .operational → w.dest.getLsbD 40 = false →
        ∀ d r, s.dest d = some r → r.address = w.dest → (∀ e r', s.dest e = some r' → r'.address = w.dest → e = d) →
        ∀ t : State, t = ({ s with queries := w :: ws } : State).evaluateDest d →
        exec .pathAnswer s =
          .next { t with queries := { w with answer := some ⟨w.tag, t.pathResult d⟩ } :: ws }) ∧
      ∃ t ans', exec .pathAnswer s = .next t ∧ t.queries = { w with answer := some ans' } :: ws ∧ ans'.tag = w.tag ∧
        ({ s with queries := t.queries } : State).pathsOnly t ∧ s.pathsReselected t ∧
        ∀ d r, s.dest d = some r → r.address ≠ w.dest → t.dest d = some r)

/-- A result OK formed by an evaluation names a candidate that is in the chain, usable at the evaluation, with that link's
radio and peer, and a path cost below 65,535; NO_PATH means that no member was usable (R86, R98, R101). -/
def Obligations.OkAnswersNameUsableNextHops : Prop :=
  ∀ (s : State) (d : DestId) (r : Dest), s.dest d = some r → s.chainSound d r →
    (∀ (i : LinkId) (radio : Radio) (hop : Addr) (cost : Nat),
      (s.evaluateDest d).pathResult d = .ok i radio hop cost →
      ∃ c k l, c ∈ r.chain ∧ s.cand c = some k ∧ k.link = i ∧ s.link i = some l ∧ l.radio = radio ∧ l.peer = hop ∧
        (l.state = .up ∨ l.state = .degraded) ∧ s.candUsable c = true ∧ cost = s.candCost c ∧ cost < 65535) ∧
    ((s.evaluateDest d).pathResult d = .noPath ↔ ∀ c ∈ r.chain, s.candUsable c = false)

/-! ### The Radio Ports -/

/-- A PARAM REQUEST passes into an empty slot of a present port and is answered by the rows of R109 in their order; a
PROBATION answer carries the link's sector; an OK answer carries the sector and the chosen rate, or at a probe opportunity
below the ceiling with no pin the next rate with the probe mark, and moves the probe counter alone (R41); the radio's
taking of an answer empties the slot (R108). That a link in Probation is answered PROBATION, a retuned one too, and not
UNAVAILABLE as R102 has every link no longer Up or Degraded, is the model's choice between the two rules (log entry 17). -/
def Obligations.ParamExchange : Prop :=
  (∀ (s : State) (p : Radio) (id : Byte),
    (s.requestReady p = false → exec (.paramRequest p id) s = .next s) ∧
    (s.requestReady p = true → s.part = .configuring →
      exec (.paramRequest p id) s = .next (s.setPort p { s.port p with slot := some .notReady })) ∧
    (s.requestReady p = true → s.part = .operational →
      ((31 < id.toNat ∨ ∃ i : LinkId, id.toNat = i.val ∧ (s.link i = none ∨ ∃ l, s.link i = some l ∧
          (l.state = .retiring ∨ l.state = .down ∨ l.radio ≠ p))) →
        exec (.paramRequest p id) s = .next (s.setPort p { s.port p with slot := some .unavailable })) ∧
      ∀ (i : LinkId) (l : Link), id.toNat = i.val → s.link i = some l → l.radio = p →
        (l.state = .probation → exec (.paramRequest p id) s = .next
          (s.setPort p { s.port p with slot := some (.probation l.sector) })) ∧
        ((l.state = .up ∨ l.state = .degraded) → ∃ (rate : Rate) (probe : Bool) (n : Nat),
          exec (.paramRequest p id) s = .next
            ((s.setLink i (some { l with est := { l.est with probe := n } })).setPort p
              { s.port p with slot := some (.ok rate l.sector probe) }) ∧
          n = (if s.param 2 ≤ l.est.probe + 1 then 0 else l.est.probe + 1) ∧
          (probe = true ↔ s.param 2 ≤ l.est.probe + 1 ∧ l.pinned = none ∧
            (l.chosenRate s.tuning).val < (l.ceiling s.tuning).val) ∧
          rate.val = (l.chosenRate s.tuning).val + (if probe then 1 else 0)))) ∧
  ∀ (s : State) (p : Radio), exec (.paramAnswer p) s = .next (s.setPort p { s.port p with slot := none })

/-- A report of any kind passes whatever its values: at a queue with room it is appended at the tail, at a full one it is
dropped, the count rises unless saturated and the flag is set; at an absent port, or in a reset or initialisation, it does
not pass (R107, R112, R173). -/
def Obligations.ReportsAreQueuedOrDropped : Prop :=
  ∀ (s : State) (p : Radio) (link : Byte) (peer : Addr) (rate attempts acked snr sector beacon : Byte)
      (bytes : List Byte) (c : Instr) (r : Report),
    ((c = .outcomeReport p link peer rate attempts acked ∧ r = .outcome link peer rate attempts acked) ∨
      (c = .heardReport p peer snr sector beacon ∧ r = .heard peer snr sector beacon) ∨
      (c = .unrecognisedReport p bytes ∧ c.wellFormed = true ∧ r = .unrecognised bytes)) →
    (s.power = .running → (s.port p).present = true →
      ((s.port p).reports.length < 16 →
        exec c s = .next (s.setPort p { s.port p with reports := (s.port p).reports ++ [r] })) ∧
      (16 ≤ (s.port p).reports.length →
        exec c s = .next (s.setPort p
          { s.port p with dropped := min ((s.port p).dropped + 1) 65535, overflow := true }))) ∧
    ((s.power ≠ .running ∨ (s.port p).present = false) → exec c s = .next s)

/-- A take removes the head report and nothing more when it is discarded: in Configuring, for an unrecognised report, for a
rate above 11 or a sector above 7, for a link that is absent, Retiring, Down for an OUTCOME REPORT, on another radio or
with another peer (R113 to R115, R173). That a take at an empty queue changes nothing is the model's choice (log
entry 1). -/
def Obligations.DiscardedReportsChangeNothing : Prop :=
  ∀ (s : State) (p : Radio),
    ((s.port p).reports = [] → exec (.reportTake p) s = .next s) ∧
    ∀ r rest, (s.port p).reports = r :: rest →
      (s.part = .configuring ∨ (∃ bytes, r = .unrecognised bytes) ∨
        (∃ link peer rate attempts acked, r = .outcome link peer rate attempts acked ∧
          (11 < rate.toNat ∨ 31 < link.toNat ∨ ∀ (i : LinkId) l, i.val = link.toNat → s.link i = some l →
            l.state = .retiring ∨ l.state = .down ∨ l.radio ≠ p ∨ l.peer ≠ peer)) ∨
        (∃ peer snr sector beacon, r = .heard peer snr sector beacon ∧
          (7 < sector.toNat ∨ ∀ i l, s.link i = some l → l.radio = p → l.peer = peer → l.state = .retiring))) →
      exec (.reportTake p) s = .next (s.setPort p { s.port p with reports := rest })

/-- The take of a validated OUTCOME REPORT moves the estimate of its rate, and only it, by the filter; when acked it sets the
last heard time and computes the deadline from it; the record so left is evaluated by R43, which keeps a Probation link's
state; no other link, and nothing else but the queue, changes (R31 to R33, R114). -/
def Obligations.OutcomeReportMovesOneEstimate : Prop :=
  ∀ (s : State) (p : Radio) (link : Byte) (peer : Addr) (rate attempts acked : Byte) (rest : List Report) (i : LinkId)
      (l : Link) (q : Rate),
    s.part = .operational → (s.port p).reports = .outcome link peer rate attempts acked :: rest →
    link.toNat = i.val → s.link i = some l → l.radio = p → l.peer = peer →
    (l.state = .probation ∨ l.state = .up ∨ l.state = .degraded) → rate.toNat = q.val →
    ∃ l', exec (.reportTake p) s = .next
        ((s.setPort p { s.port p with reports := rest }).setLink i (some l')) ∧
      l' = Link.evaluate s.tuning { l with
        lastHeard := if acked ≠ 0 then some s.now else l.lastHeard
        deadline := if acked ≠ 0 then some (s.now + BitVec.ofNat 32 ((l.interval.getD (s.param 6)) * s.param 5))
          else l.deadline
        est := { l.est with
          delivery := put l.est.delivery q (moveToward (l.est.delivery.get q)
            (if acked ≠ 0 then 1024 / max 1 (min attempts.toNat 8) else 0) (s.param 0)) } } ∧
      (∀ r, r ≠ q → l'.est.delivery.get r = l.est.delivery.get r) ∧
      (l.state = .probation → l'.state = .probation) ∧
      (l.state ≠ .probation → l'.state = .up ∨ l'.state = .degraded)

/-- The take of a HEARD REPORT, a beacon or not, for a Probation or Down link (R6, R8, R9, R12): the record passes through
steps 1 to 4 of R6, the heard count rises by one up to 8 or starts again at 1 from Down, and the deadline is counted from
now. Below the probation heard count the link is in Probation and nothing else changes. With it reached the link comes Up
with CAME_UP and is evaluated, and the usable-gained notice has each Unreachable destination with a candidate on the link
immediately selected, every other destination staying as it was (R19, R89). A query's evaluation that falls together with
the notice finds the link Up in either order: taken between the link's coming Up and the rest of the take, or after the
take, it leaves the same state and the same result (the second row of R91; that this is how that row and the whole take of
R113 agree is deduced, log entry 16). -/
def Obligations.HeardReportCountsTowardUp : Prop :=
  (∀ (u : State) (i : LinkId) (d : DestId),
    (u.evaluateDest d).finishRise i = (u.finishRise i).evaluateDest d ∧
    ((u.finishRise i).evaluateDest d).pathResult d = (u.evaluateDest d).pathResult d) ∧
  ∀ (s : State) (p : Radio) (peer : Addr) (snr sector beacon : Byte) (rest : List Report) (i : LinkId) (l : Link)
      (h : Sector) (n : Nat),
    s.part = .operational → (s.port p).reports = .heard peer snr sector beacon :: rest → sector.toNat = h.val →
    s.link i = some l → l.radio = p → l.peer = peer →
    ((l.state = .probation ∧ n = min (l.heard + 1) 8) ∨ (l.state = .down ∧ n = 1)) →
    (∀ j l', s.link j = some l' → l'.radio = p → l'.peer = peer → j = i) →
    ∃ t m l', exec (.reportTake p) s = .next t ∧ t.link i = some l' ∧
      l.heardSteps s.tuning s.now (min snr.toNat 63) h (beacon != 0) m ∧
      l'.deadline = some (s.now + BitVec.ofNat 32 ((m.interval.getD (s.param 6)) * s.param 5)) ∧
      (n < s.param 7 → l' = { m with state := .probation, heard := n, deadline := l'.deadline } ∧
        t = (s.setPort p { s.port p with reports := rest }).setLink i (some l')) ∧
      (s.param 7 ≤ n →
        l' = { Link.evaluate s.tuning { m with
          state := .up, heard := n, events := { m.events with cameUp := true } } with deadline := l'.deadline } ∧
        (l'.state = .up ∨ l'.state = .degraded) ∧
        t = ((s.setPort p { s.port p with reports := rest }).setLink i (some l')).usableGained i ∧
        t = ((s.setPort p { s.port p with reports := rest }).setLink i (some { m with
          state := .up, heard := n, events := { m.events with cameUp := true } })).finishRise i ∧
        s.gainedReselected i (s.setLink i (some l')) t) ∧
      (∀ j, j ≠ i → t.link j = s.link j) ∧ (s.setPort p { s.port p with reports := rest }).tablesOnly t ∧
      s.pathsReselected t

/-- The take of a HEARD REPORT, a beacon or not, for an Up or Degraded link (R6): the record passes through steps 1 to 4,
in which a beacon is measured (a gap outside 10 to 2,000 ms restarts the accumulation, the fourth good gap sets the
interval; R10) and, in Follow mode, followed (the third agreeing beacon moves the sector, resets the estimates and adds
SECTOR_MOVED, with an evaluation; R15, R16), the SNR average is seeded with the clamped sample or moved toward it (R34), and
the record is evaluated (R35, R43); the deadline is then counted from now (R12). The link stays Up or Degraded, its heard
count, pin, radio, peer and reference count stay, and no other link and no destination changes. -/
def Obligations.HeardBeaconMeasuresAndFollows : Prop :=
  ∀ (s : State) (p : Radio) (peer : Addr) (snr sector beacon : Byte) (rest : List Report) (i : LinkId) (l : Link)
      (h : Sector),
    s.part = .operational → (s.port p).reports = .heard peer snr sector beacon :: rest →
    sector.toNat = h.val → s.link i = some l → l.radio = p → l.peer = peer → (l.state = .up ∨ l.state = .degraded) →
    (∀ j l', s.link j = some l' → l'.radio = p → l'.peer = peer → j = i) →
    ∃ m l', exec (.reportTake p) s = .next ((s.setPort p { s.port p with reports := rest }).setLink i (some l')) ∧
      l.heardSteps s.tuning s.now (min snr.toNat 63) h (beacon != 0) m ∧
      l' = { m with deadline := some (s.now + BitVec.ofNat 32 ((m.interval.getD (s.param 6)) * s.param 5)) } ∧
      (l'.state = .up ∨ l'.state = .degraded) ∧ l'.heard = l.heard ∧ l'.lastHeard = some s.now ∧ l'.mode = l.mode ∧
      l'.pinned = l.pinned ∧ l'.refs = l.refs ∧ l'.radio = l.radio ∧ l'.peer = l.peer ∧
      (beacon = 0 → l'.lastBeacon = l.lastBeacon ∧ l'.gapSum = l.gapSum ∧ l'.gapCount = l.gapCount ∧
        l'.interval = l.interval ∧ l'.followSector = l.followSector ∧ l'.agree = l.agree) ∧
      (beacon ≠ 0 → l'.lastBeacon = some s.now) ∧
      (beacon = 0 ∨ l.mode = .fixed ∨ l.followSector ≠ some h ∨ l.agree < 2 → l'.sector = l.sector ∧
        l'.est.delivery = l.est.delivery ∧ l'.est.probe = l.est.probe ∧
        l'.est.snr = some (snrAfter s.tuning (min snr.toNat 63) l.est.snr) ∧
        l'.events.sectorMoved = l.events.sectorMoved)

/-! ### The Link Estimator -/

/-- The delivery sample of an OUTCOME REPORT with `a` attempts (R32). -/
def Obligations.DeliverySampleFromAttempts : Prop :=
  (∀ a : Nat, 1 ≤ a → a ≤ 8 → deliverySample (clampAttempts a) true = 1024 / a) ∧
  (∀ a : Nat, deliverySample (clampAttempts a) false = 0) ∧
  [1, 2, 3, 4, 5, 6, 7, 8].map (fun a => deliverySample (clampAttempts a) true) =
    [1024, 512, 341, 256, 204, 170, 146, 128] ∧
  deliverySample (clampAttempts 0) true = 1024 ∧ deliverySample (clampAttempts 12) true = 128

/-- The filter moves an estimate toward the sample and never past it, by the difference divided by the depth and truncated
toward zero; with depth 1 it becomes the sample, and within the depth of the sample it stays (R33, R34). -/
def Obligations.FilterNeverPassesTheSample : Prop :=
  ∀ v x n : Nat, 1 ≤ n →
    (v ≤ x → moveToward v x n = v + (x - v) / n ∧ v ≤ moveToward v x n ∧ moveToward v x n ≤ x) ∧
    (x ≤ v → moveToward v x n = v - (v - x) / n ∧ x ≤ moveToward v x n ∧ moveToward v x n ≤ v) ∧
    moveToward v x 1 = x ∧ (x < v + n → v < x + n → moveToward v x n = v)

/-- The rate ceiling (R36): the default ceiling without an SNR average; with one, the highest rate whose minimum SNR is at
most floor(average / 4) less the margin, and rate 0 when no rate qualifies. -/
def Obligations.CeilingIsTheHighestRateCleared : Prop :=
  ∀ (t : Tuning) (l : Link),
    (l.est.snr = none → t.get 11 ≤ 11 → (l.ceiling t).val = t.get 11) ∧
    ∀ avg, l.est.snr = some avg →
      (∀ r : Rate, ((t.profile.get r).minSnr : Int) ≤ (avg / 4 : Nat) - (t.get 10 : Int) → r ≤ l.ceiling t) ∧
      ((∃ r : Rate, ((t.profile.get r).minSnr : Int) ≤ (avg / 4 : Nat) - (t.get 10 : Int)) →
        ((t.profile.get (l.ceiling t)).minSnr : Int) ≤ (avg / 4 : Nat) - (t.get 10 : Int)) ∧
      ((∀ r : Rate, ¬ ((t.profile.get r).minSnr : Int) ≤ (avg / 4 : Nat) - (t.get 10 : Int)) → l.ceiling t = 0)

/-- The rate cost (R37): saturated below an estimate of 32, and otherwise the least integer not below T × 1024 / S, which
lies within 1 to 64,000 for every airtime and estimate in range, with its two ends, and is twice T at the initial
estimate. -/
def Obligations.RateCostRoundsUpAndSaturates : Prop :=
  ∀ T S : Nat, 1 ≤ T → T ≤ 2000 → S ≤ 1024 →
    (S < 32 → rateCost T S = 65535) ∧
    (32 ≤ S → (∀ n : Nat, rateCost T S ≤ n ↔ T * 1024 ≤ n * S) ∧ 1 ≤ rateCost T S ∧ rateCost T S ≤ 64000) ∧
    T * 1024 ≤ 2048000 ∧ rateCost 1 1024 = 1 ∧ rateCost 2000 32 = 64000 ∧ rateCost T 512 = 2 * T

/-- The chosen rate (R38): the pinned rate when present, and otherwise a rate up to the ceiling of least cost, the highest
of several; when every rate up to the ceiling is saturated it is the ceiling; and the link cost is its rate cost. -/
def Obligations.ChosenRateIsTheHighestOfLeastCost : Prop :=
  ∀ (t : Tuning) (l : Link),
    l.cost t = l.rateCostAt t (l.chosenRate t) ∧ (∀ r, l.pinned = some r → l.chosenRate t = r) ∧
    (l.pinned = none →
      l.chosenRate t ≤ l.ceiling t ∧
      (∀ r : Rate, r ≤ l.ceiling t → l.rateCostAt t (l.chosenRate t) ≤ l.rateCostAt t r) ∧
      (∀ r : Rate, r ≤ l.ceiling t → l.chosenRate t < r → l.rateCostAt t (l.chosenRate t) < l.rateCostAt t r) ∧
      ((∀ r : Rate, r ≤ l.ceiling t → l.rateCostAt t r = 65535) → l.chosenRate t = l.ceiling t))

/-- An evaluation (R43, R44, R46): an Up link becomes Degraded exactly when its link cost is above the degrade threshold, a
Degraded link Up exactly when it is below the recover threshold, each with its event; a Probation or Down link keeps its
state; the one-way flag becomes the condition of R46, with ONE_WAY when it turns on; and nothing else of the record
changes. -/
def Obligations.EvaluationMovesBetweenUpAndDegraded : Prop :=
  ∀ (t : Tuning) (l : Link), l.state ≠ .retiring →
    ∃ (state : LinkState) (events : EventSet) (oneWay : Bool),
      l.evaluate t = { l with state := state, events := events, est := { l.est with oneWay := oneWay } } ∧
      (oneWay = true ↔ (∃ avg, l.est.snr = some avg ∧ t.get 12 ≤ avg / 4) ∧ l.cost t = 65535) ∧
      (l.state = .up → (t.get 8 < l.cost t → state = .degraded ∧ events.degraded = true) ∧
        (l.cost t ≤ t.get 8 → state = .up ∧ events.degraded = l.events.degraded)) ∧
      (l.state = .degraded → (l.cost t < t.get 9 → state = .up ∧ events.recovered = true) ∧
        (t.get 9 ≤ l.cost t → state = .degraded ∧ events.recovered = l.events.recovered)) ∧
      (l.state = .probation ∨ l.state = .down → state = l.state) ∧
      (l.state ≠ .up → events.degraded = l.events.degraded) ∧
      (l.state ≠ .degraded → events.recovered = l.events.recovered) ∧
      (events.oneWay = true ↔ l.events.oneWay = true ∨ (oneWay = true ∧ l.est.oneWay = false)) ∧
      events.cameUp = l.events.cameUp ∧ events.wentDown = l.events.wentDown ∧
      events.sectorMoved = l.events.sectorMoved

/-! ### Laws that every step keeps -/

/-- Outside a reset, only GO OPERATIONAL writes the part state, only SET PARAMETER the parameters, only LOAD RATE PROFILE
the rate profile, only the tick the Timebase count, only the cursor's two commands the cursor, and only the end of a
power-on reset a port's presence (R30, R107, R158, R164, R166, R170). An answer once formed is not altered: a PATH ANSWER
held at the head stays there until the frame switch takes it, and a PARAM ANSWER in its slot until the radio takes it (R86,
R97, R110). -/
def Obligations.OnlyTheirEventsWriteTheSettings : Prop :=
  ∀ (c : Instr) (s t : State), exec c s = .next t → isReset c = false →
    (t.part ≠ s.part → c = .goOperational) ∧ (t.params ≠ s.params → c = .setParameter) ∧
    (t.profile ≠ s.profile → c = .loadRateProfile) ∧ (t.now ≠ s.now → c = .millisecondTick) ∧
    (t.cursor ≠ s.cursor → c = .setCursor ∨ c = .readAtCursor) ∧
    ((∃ p, (t.port p).present ≠ (s.port p).present) → ∃ b0 b1 b2, c = .powerOnResetEnd b0 b1 b2) ∧
    (∀ q rest, s.queries = q :: rest → q.answer ≠ none → c ≠ .pathAnswer → ∃ rest', t.queries = q :: rest') ∧
    (∀ p a, (s.port p).slot = some a → c ≠ .paramAnswer p → (∀ b0 b1 b2, c ≠ .powerOnResetEnd b0 b1 b2) →
      (t.port p).slot = some a)

/-- Every parameter stays in its range with the recover threshold below the degrade threshold, and the rate profile stays
as R29 gives, at every step (R29, R30, R166, R167). -/
def Obligations.SettingsStayInRange : Prop :=
  ∀ s t : State, s.paramsInRange → s.profileInRange → step s = .next t → t.paramsInRange ∧ t.profileInRange

/-- The queues stay within their capacities, absent ports stay empty, and the head of the query queue alone holds an
answer, at every step (R94, R97, R107, R112); the frame in progress fits the command in hand (R149, R152); the cursor's
index does not pass its table's size (R158); and a job's next index lies within its table, with the counts of its context
and of a job notice as R121 and R135 bound them. -/
def Obligations.QueuesStayWithinBounds : Prop :=
  (∀ s t : State, s.queuesBounded → s.headHeld → step s = .next t → t.queuesBounded ∧ t.headHeld) ∧
  (∀ s t : State, s.frameSound → step s = .next t → t.frameSound) ∧
  (∀ s t : State, s.jobSound → step s = .next t → t.jobSound) ∧
  ∀ s t : State, s.cursor.index ≤ s.cursor.table.size → step s = .next t → t.cursor.index ≤ t.cursor.table.size

/-- Reference counts stay equal to the number of candidates naming each link, at every step (R20), and a Retiring link stays
named by at least one (R24). Exact counts over sound chains are at most 128, since a chain holds at most one candidate on a
link (R1, R57). -/
def Obligations.ReferenceCountsStayExact : Prop :=
  (∀ s t : State, s.refsExact → step s = .next t → t.refsExact) ∧
  (∀ s t : State, s.retiringNamed → step s = .next t → t.retiringNamed) ∧
  ∀ (s : State) (i : LinkId) (l : Link), s.refsExact → s.pathsSound → s.link i = some l → l.refs ≤ 128

/-- The estimator's fields stay within their values at every step while the parameters are in range (R27, R33, R34,
R41). -/
def Obligations.EstimatesStayWithinBounds : Prop :=
  ∀ s t : State, s.paramsInRange → s.estimatesBounded → step s = .next t → t.estimatesBounded

/-- A link holds a silence deadline exactly when R12 says so, 30 to 30,000 ms after it was last heard, and its beacon
measurement stays within R10's bounds, at every step while the parameters are in range. No deadline is passed: each lies 1
to 30,000 ms ahead of the count, but for one whose expiry waits as an event of its own in the millisecond of the deadline
(R12, R13, R170; log entry 7). At every step no two links in use share radio and peer (R3); every link in use is on a present
port (R107), since every block keeps its reset state through a reset; and in Configuring no link has left Probation but to
Retiring, none holds a deadline, no destination is Resolved and no change is recorded (R70, R164). -/
def Obligations.DeadlinesStaySound : Prop :=
  (∀ s t : State, s.paramsInRange → s.linksSound → step s = .next t → t.linksSound) ∧
  (∀ s t : State, s.paramsInRange → s.linksSound → s.quietInConfiguring → s.deadlinesAhead → step s = .next t →
    t.deadlinesAhead) ∧
  (∀ s t : State, s.linksDistinct → step s = .next t → t.linksDistinct) ∧
  (∀ s t : State, s.heldInReset → s.linksOnPresentPorts → step s = .next t → t.linksOnPresentPorts) ∧
  ∀ s t : State, s.quietInConfiguring → step s = .next t → t.quietInConfiguring

/-- Chains stay sound and every candidate in use stays a member of the chain of the destination it names, at every step
(R54, R57, R72). At every step no two destinations in use share an address (R51), every member of the changed-destination
set is a destination in use (R142), switch counts, remainder costs and last path costs stay within 65,535 (R49, R54), no
link's peer and no destination's address is a group address (R1, R49), and, over sound chains, the active candidate of every
Resolved destination names a link that is Up or Degraded (R88). -/
def Obligations.ChainsStaySound : Prop :=
  (∀ s t : State, s.pathsSound → step s = .next t → t.pathsSound) ∧
  (∀ s t : State, s.destsDistinct → step s = .next t → t.destsDistinct) ∧
  (∀ s t : State, s.changedInUse → step s = .next t → t.changedInUse) ∧
  (∀ s t : State, s.figuresInRange → step s = .next t → t.figuresInRange) ∧
  (∀ s t : State, s.stationsOnly → step s = .next t → t.stationsOnly) ∧
  ∀ s t : State, s.pathsSound → s.activesOnUsableLinks → step s = .next t → t.activesOnUsableLinks

/-- The state at reset holds the values of R168's table and obeys every law above. Its power and frame fields and its absent
presence are the model's choice (log entry 4). -/
def Obligations.ResetObeysTheLaws : Prop :=
  State.reset.atResetValues ∧ State.reset.paramsInRange ∧ State.reset.profileInRange ∧ State.reset.queuesBounded ∧
    State.reset.headHeld ∧ State.reset.refsExact ∧ State.reset.estimatesBounded ∧ State.reset.linksSound ∧
    State.reset.pathsSound ∧ State.reset.linksDistinct ∧ State.reset.linksOnPresentPorts ∧
    State.reset.quietInConfiguring ∧ State.reset.deadlinesAhead ∧ State.reset.destsDistinct ∧ State.reset.changedInUse ∧
    State.reset.activesOnUsableLinks ∧ State.reset.frameSound ∧ State.reset.heldInReset ∧ State.reset.jobSound ∧
    State.reset.retiringNamed ∧ State.reset.figuresInRange ∧ State.reset.stationsOnly ∧
    State.reset.cursor.index ≤ State.reset.cursor.table.size ∧ State.reset.notice = false
end

