-- ==== Sys2Proof/Laws/State.lean ====
section
/-! SUPPORT. Tables, and one lemma per field per update of the state: what each named update leaves alone, and what a
read after it gives. -/

namespace Sys2Proof.Machine

/-! ### Tables -/

@[simp] theorem get_put_self {α : Type} {n : Nat} (v : Vector α n) (i : Fin n) (x : α) : (put v i x).get i = x := by
  simp only [put, Vector.get, Vector.set]
  exact Array.getElem_set_self _

theorem get_put_ne {α : Type} {n : Nat} (v : Vector α n) (x : α) {i j : Fin n} (h : j ≠ i) :
    (put v i x).get j = v.get j := by
  have hij : i.val ≠ j.val := fun e => h (Fin.ext e.symm)
  simp only [put, Vector.get, Vector.set, Fin.val_cast]
  exact Array.getElem_set_ne _ _ hij

theorem get_put {α : Type} {n : Nat} (v : Vector α n) (i j : Fin n) (x : α) :
    (put v i x).get j = if j = i then x else v.get j := by
  by_cases h : j = i
  · subst h; simp
  · simp [h, get_put_ne v x h]

@[simp] theorem get_replicate {α : Type} {n : Nat} (x : α) (i : Fin n) : (Vector.replicate n x).get i = x := by
  simp [Vector.get]

/-- Tables that read alike everywhere are equal. -/
theorem table_ext {α : Type} {n : Nat} {v w : Vector α n} (h : ∀ i, v.get i = w.get i) : v = w := by
  apply Vector.ext
  intro i hi
  exact h ⟨i, hi⟩

/-! ### The rfl lemmas -/

/-! ### setLink -/

@[simp] theorem setLink_power (s : State) (i : LinkId) (l : Option Link) : (s.setLink i l).power = s.power := rfl
@[simp] theorem setLink_part (s : State) (i : LinkId) (l : Option Link) : (s.setLink i l).part = s.part := rfl
@[simp] theorem setLink_frame (s : State) (i : LinkId) (l : Option Link) : (s.setLink i l).frame = s.frame := rfl
@[simp] theorem setLink_hand (s : State) (i : LinkId) (l : Option Link) : (s.setLink i l).hand = s.hand := rfl
@[simp] theorem setLink_armed (s : State) (i : LinkId) (l : Option Link) : (s.setLink i l).armed = s.armed := rfl
@[simp] theorem setLink_cursor (s : State) (i : LinkId) (l : Option Link) : (s.setLink i l).cursor = s.cursor := rfl
@[simp] theorem setLink_params (s : State) (i : LinkId) (l : Option Link) : (s.setLink i l).params = s.params := rfl
@[simp] theorem setLink_profile (s : State) (i : LinkId) (l : Option Link) : (s.setLink i l).profile = s.profile := rfl
@[simp] theorem setLink_now (s : State) (i : LinkId) (l : Option Link) : (s.setLink i l).now = s.now := rfl
@[simp] theorem setLink_dests (s : State) (i : LinkId) (l : Option Link) : (s.setLink i l).dests = s.dests := rfl
@[simp] theorem setLink_cands (s : State) (i : LinkId) (l : Option Link) : (s.setLink i l).cands = s.cands := rfl
@[simp] theorem setLink_queries (s : State) (i : LinkId) (l : Option Link) : (s.setLink i l).queries = s.queries := rfl
@[simp] theorem setLink_ports (s : State) (i : LinkId) (l : Option Link) : (s.setLink i l).ports = s.ports := rfl
@[simp] theorem setLink_job (s : State) (i : LinkId) (l : Option Link) : (s.setLink i l).job = s.job := rfl
@[simp] theorem setLink_changed (s : State) (i : LinkId) (l : Option Link) : (s.setLink i l).changed = s.changed := rfl
@[simp] theorem setLink_pending (s : State) (i : LinkId) (l : Option Link) : (s.setLink i l).pending = s.pending := rfl

/-! ### setDest -/

@[simp] theorem setDest_power (s : State) (d : DestId) (r : Option Dest) : (s.setDest d r).power = s.power := rfl
@[simp] theorem setDest_part (s : State) (d : DestId) (r : Option Dest) : (s.setDest d r).part = s.part := rfl
@[simp] theorem setDest_frame (s : State) (d : DestId) (r : Option Dest) : (s.setDest d r).frame = s.frame := rfl
@[simp] theorem setDest_hand (s : State) (d : DestId) (r : Option Dest) : (s.setDest d r).hand = s.hand := rfl
@[simp] theorem setDest_armed (s : State) (d : DestId) (r : Option Dest) : (s.setDest d r).armed = s.armed := rfl
@[simp] theorem setDest_cursor (s : State) (d : DestId) (r : Option Dest) : (s.setDest d r).cursor = s.cursor := rfl
@[simp] theorem setDest_params (s : State) (d : DestId) (r : Option Dest) : (s.setDest d r).params = s.params := rfl
@[simp] theorem setDest_profile (s : State) (d : DestId) (r : Option Dest) : (s.setDest d r).profile = s.profile := rfl
@[simp] theorem setDest_now (s : State) (d : DestId) (r : Option Dest) : (s.setDest d r).now = s.now := rfl
@[simp] theorem setDest_links (s : State) (d : DestId) (r : Option Dest) : (s.setDest d r).links = s.links := rfl
@[simp] theorem setDest_cands (s : State) (d : DestId) (r : Option Dest) : (s.setDest d r).cands = s.cands := rfl
@[simp] theorem setDest_queries (s : State) (d : DestId) (r : Option Dest) : (s.setDest d r).queries = s.queries := rfl
@[simp] theorem setDest_ports (s : State) (d : DestId) (r : Option Dest) : (s.setDest d r).ports = s.ports := rfl
@[simp] theorem setDest_job (s : State) (d : DestId) (r : Option Dest) : (s.setDest d r).job = s.job := rfl
@[simp] theorem setDest_changed (s : State) (d : DestId) (r : Option Dest) : (s.setDest d r).changed = s.changed := rfl
@[simp] theorem setDest_pending (s : State) (d : DestId) (r : Option Dest) : (s.setDest d r).pending = s.pending := rfl

/-! ### setCand -/

@[simp] theorem setCand_power (s : State) (c : CandId) (k : Option Cand) : (s.setCand c k).power = s.power := rfl
@[simp] theorem setCand_part (s : State) (c : CandId) (k : Option Cand) : (s.setCand c k).part = s.part := rfl
@[simp] theorem setCand_frame (s : State) (c : CandId) (k : Option Cand) : (s.setCand c k).frame = s.frame := rfl
@[simp] theorem setCand_hand (s : State) (c : CandId) (k : Option Cand) : (s.setCand c k).hand = s.hand := rfl
@[simp] theorem setCand_armed (s : State) (c : CandId) (k : Option Cand) : (s.setCand c k).armed = s.armed := rfl
@[simp] theorem setCand_cursor (s : State) (c : CandId) (k : Option Cand) : (s.setCand c k).cursor = s.cursor := rfl
@[simp] theorem setCand_params (s : State) (c : CandId) (k : Option Cand) : (s.setCand c k).params = s.params := rfl
@[simp] theorem setCand_profile (s : State) (c : CandId) (k : Option Cand) : (s.setCand c k).profile = s.profile := rfl
@[simp] theorem setCand_now (s : State) (c : CandId) (k : Option Cand) : (s.setCand c k).now = s.now := rfl
@[simp] theorem setCand_links (s : State) (c : CandId) (k : Option Cand) : (s.setCand c k).links = s.links := rfl
@[simp] theorem setCand_dests (s : State) (c : CandId) (k : Option Cand) : (s.setCand c k).dests = s.dests := rfl
@[simp] theorem setCand_queries (s : State) (c : CandId) (k : Option Cand) : (s.setCand c k).queries = s.queries := rfl
@[simp] theorem setCand_ports (s : State) (c : CandId) (k : Option Cand) : (s.setCand c k).ports = s.ports := rfl
@[simp] theorem setCand_job (s : State) (c : CandId) (k : Option Cand) : (s.setCand c k).job = s.job := rfl
@[simp] theorem setCand_changed (s : State) (c : CandId) (k : Option Cand) : (s.setCand c k).changed = s.changed := rfl
@[simp] theorem setCand_pending (s : State) (c : CandId) (k : Option Cand) : (s.setCand c k).pending = s.pending := rfl

/-! ### setPort -/

@[simp] theorem setPort_power (s : State) (p : Radio) (q : Port) : (s.setPort p q).power = s.power := rfl
@[simp] theorem setPort_part (s : State) (p : Radio) (q : Port) : (s.setPort p q).part = s.part := rfl
@[simp] theorem setPort_frame (s : State) (p : Radio) (q : Port) : (s.setPort p q).frame = s.frame := rfl
@[simp] theorem setPort_hand (s : State) (p : Radio) (q : Port) : (s.setPort p q).hand = s.hand := rfl
@[simp] theorem setPort_armed (s : State) (p : Radio) (q : Port) : (s.setPort p q).armed = s.armed := rfl
@[simp] theorem setPort_cursor (s : State) (p : Radio) (q : Port) : (s.setPort p q).cursor = s.cursor := rfl
@[simp] theorem setPort_params (s : State) (p : Radio) (q : Port) : (s.setPort p q).params = s.params := rfl
@[simp] theorem setPort_profile (s : State) (p : Radio) (q : Port) : (s.setPort p q).profile = s.profile := rfl
@[simp] theorem setPort_now (s : State) (p : Radio) (q : Port) : (s.setPort p q).now = s.now := rfl
@[simp] theorem setPort_links (s : State) (p : Radio) (q : Port) : (s.setPort p q).links = s.links := rfl
@[simp] theorem setPort_dests (s : State) (p : Radio) (q : Port) : (s.setPort p q).dests = s.dests := rfl
@[simp] theorem setPort_cands (s : State) (p : Radio) (q : Port) : (s.setPort p q).cands = s.cands := rfl
@[simp] theorem setPort_queries (s : State) (p : Radio) (q : Port) : (s.setPort p q).queries = s.queries := rfl
@[simp] theorem setPort_job (s : State) (p : Radio) (q : Port) : (s.setPort p q).job = s.job := rfl
@[simp] theorem setPort_changed (s : State) (p : Radio) (q : Port) : (s.setPort p q).changed = s.changed := rfl
@[simp] theorem setPort_pending (s : State) (p : Radio) (q : Port) : (s.setPort p q).pending = s.pending := rfl

/-! ### setChanged -/

@[simp] theorem setChanged_power (s : State) (d : DestId) (b : Bool) : (s.setChanged d b).power = s.power := rfl
@[simp] theorem setChanged_part (s : State) (d : DestId) (b : Bool) : (s.setChanged d b).part = s.part := rfl
@[simp] theorem setChanged_frame (s : State) (d : DestId) (b : Bool) : (s.setChanged d b).frame = s.frame := rfl
@[simp] theorem setChanged_hand (s : State) (d : DestId) (b : Bool) : (s.setChanged d b).hand = s.hand := rfl
@[simp] theorem setChanged_armed (s : State) (d : DestId) (b : Bool) : (s.setChanged d b).armed = s.armed := rfl
@[simp] theorem setChanged_cursor (s : State) (d : DestId) (b : Bool) : (s.setChanged d b).cursor = s.cursor := rfl
@[simp] theorem setChanged_params (s : State) (d : DestId) (b : Bool) : (s.setChanged d b).params = s.params := rfl
@[simp] theorem setChanged_profile (s : State) (d : DestId) (b : Bool) : (s.setChanged d b).profile = s.profile := rfl
@[simp] theorem setChanged_now (s : State) (d : DestId) (b : Bool) : (s.setChanged d b).now = s.now := rfl
@[simp] theorem setChanged_links (s : State) (d : DestId) (b : Bool) : (s.setChanged d b).links = s.links := rfl
@[simp] theorem setChanged_dests (s : State) (d : DestId) (b : Bool) : (s.setChanged d b).dests = s.dests := rfl
@[simp] theorem setChanged_cands (s : State) (d : DestId) (b : Bool) : (s.setChanged d b).cands = s.cands := rfl
@[simp] theorem setChanged_queries (s : State) (d : DestId) (b : Bool) : (s.setChanged d b).queries = s.queries := rfl
@[simp] theorem setChanged_ports (s : State) (d : DestId) (b : Bool) : (s.setChanged d b).ports = s.ports := rfl
@[simp] theorem setChanged_job (s : State) (d : DestId) (b : Bool) : (s.setChanged d b).job = s.job := rfl
@[simp] theorem setChanged_pending (s : State) (d : DestId) (b : Bool) : (s.setChanged d b).pending = s.pending := rfl

/-! ### giveAnswer -/

@[simp] theorem giveAnswer_power (s : State) (a : Answer) : (s.giveAnswer a).power = s.power := rfl
@[simp] theorem giveAnswer_part (s : State) (a : Answer) : (s.giveAnswer a).part = s.part := rfl
@[simp] theorem giveAnswer_armed (s : State) (a : Answer) : (s.giveAnswer a).armed = s.armed := rfl
@[simp] theorem giveAnswer_cursor (s : State) (a : Answer) : (s.giveAnswer a).cursor = s.cursor := rfl
@[simp] theorem giveAnswer_params (s : State) (a : Answer) : (s.giveAnswer a).params = s.params := rfl
@[simp] theorem giveAnswer_profile (s : State) (a : Answer) : (s.giveAnswer a).profile = s.profile := rfl
@[simp] theorem giveAnswer_now (s : State) (a : Answer) : (s.giveAnswer a).now = s.now := rfl
@[simp] theorem giveAnswer_links (s : State) (a : Answer) : (s.giveAnswer a).links = s.links := rfl
@[simp] theorem giveAnswer_dests (s : State) (a : Answer) : (s.giveAnswer a).dests = s.dests := rfl
@[simp] theorem giveAnswer_cands (s : State) (a : Answer) : (s.giveAnswer a).cands = s.cands := rfl
@[simp] theorem giveAnswer_queries (s : State) (a : Answer) : (s.giveAnswer a).queries = s.queries := rfl
@[simp] theorem giveAnswer_ports (s : State) (a : Answer) : (s.giveAnswer a).ports = s.ports := rfl
@[simp] theorem giveAnswer_job (s : State) (a : Answer) : (s.giveAnswer a).job = s.job := rfl
@[simp] theorem giveAnswer_changed (s : State) (a : Answer) : (s.giveAnswer a).changed = s.changed := rfl
@[simp] theorem giveAnswer_pending (s : State) (a : Answer) : (s.giveAnswer a).pending = s.pending := rfl

/-! ### holdAnswer -/

@[simp] theorem holdAnswer_power (s : State) (p : Radio) (a : ParamAnswer) : (s.holdAnswer p a).power = s.power := rfl
@[simp] theorem holdAnswer_part (s : State) (p : Radio) (a : ParamAnswer) : (s.holdAnswer p a).part = s.part := rfl
@[simp] theorem holdAnswer_frame (s : State) (p : Radio) (a : ParamAnswer) : (s.holdAnswer p a).frame = s.frame := rfl
@[simp] theorem holdAnswer_hand (s : State) (p : Radio) (a : ParamAnswer) : (s.holdAnswer p a).hand = s.hand := rfl
@[simp] theorem holdAnswer_armed (s : State) (p : Radio) (a : ParamAnswer) : (s.holdAnswer p a).armed = s.armed := rfl
@[simp] theorem holdAnswer_cursor (s : State) (p : Radio) (a : ParamAnswer) : (s.holdAnswer p a).cursor = s.cursor := rfl
@[simp] theorem holdAnswer_params (s : State) (p : Radio) (a : ParamAnswer) : (s.holdAnswer p a).params = s.params := rfl
@[simp] theorem holdAnswer_profile (s : State) (p : Radio) (a : ParamAnswer) : (s.holdAnswer p a).profile = s.profile := rfl
@[simp] theorem holdAnswer_now (s : State) (p : Radio) (a : ParamAnswer) : (s.holdAnswer p a).now = s.now := rfl
@[simp] theorem holdAnswer_links (s : State) (p : Radio) (a : ParamAnswer) : (s.holdAnswer p a).links = s.links := rfl
@[simp] theorem holdAnswer_dests (s : State) (p : Radio) (a : ParamAnswer) : (s.holdAnswer p a).dests = s.dests := rfl
@[simp] theorem holdAnswer_cands (s : State) (p : Radio) (a : ParamAnswer) : (s.holdAnswer p a).cands = s.cands := rfl
@[simp] theorem holdAnswer_queries (s : State) (p : Radio) (a : ParamAnswer) : (s.holdAnswer p a).queries = s.queries := rfl
@[simp] theorem holdAnswer_job (s : State) (p : Radio) (a : ParamAnswer) : (s.holdAnswer p a).job = s.job := rfl
@[simp] theorem holdAnswer_changed (s : State) (p : Radio) (a : ParamAnswer) : (s.holdAnswer p a).changed = s.changed := rfl
@[simp] theorem holdAnswer_pending (s : State) (p : Radio) (a : ParamAnswer) : (s.holdAnswer p a).pending = s.pending := rfl

/-! ### moveOn -/

@[simp] theorem moveOn_power (s : State) (c : JobContext) (size : Nat) (acted : Bool) : (s.moveOn c size acted).power = s.power := rfl
@[simp] theorem moveOn_part (s : State) (c : JobContext) (size : Nat) (acted : Bool) : (s.moveOn c size acted).part = s.part := rfl
@[simp] theorem moveOn_frame (s : State) (c : JobContext) (size : Nat) (acted : Bool) : (s.moveOn c size acted).frame = s.frame := rfl
@[simp] theorem moveOn_hand (s : State) (c : JobContext) (size : Nat) (acted : Bool) : (s.moveOn c size acted).hand = s.hand := rfl
@[simp] theorem moveOn_armed (s : State) (c : JobContext) (size : Nat) (acted : Bool) : (s.moveOn c size acted).armed = s.armed := rfl
@[simp] theorem moveOn_cursor (s : State) (c : JobContext) (size : Nat) (acted : Bool) : (s.moveOn c size acted).cursor = s.cursor := rfl
@[simp] theorem moveOn_params (s : State) (c : JobContext) (size : Nat) (acted : Bool) : (s.moveOn c size acted).params = s.params := rfl
@[simp] theorem moveOn_profile (s : State) (c : JobContext) (size : Nat) (acted : Bool) : (s.moveOn c size acted).profile = s.profile := rfl
@[simp] theorem moveOn_now (s : State) (c : JobContext) (size : Nat) (acted : Bool) : (s.moveOn c size acted).now = s.now := rfl
@[simp] theorem moveOn_links (s : State) (c : JobContext) (size : Nat) (acted : Bool) : (s.moveOn c size acted).links = s.links := rfl
@[simp] theorem moveOn_dests (s : State) (c : JobContext) (size : Nat) (acted : Bool) : (s.moveOn c size acted).dests = s.dests := rfl
@[simp] theorem moveOn_cands (s : State) (c : JobContext) (size : Nat) (acted : Bool) : (s.moveOn c size acted).cands = s.cands := rfl
@[simp] theorem moveOn_queries (s : State) (c : JobContext) (size : Nat) (acted : Bool) : (s.moveOn c size acted).queries = s.queries := rfl
@[simp] theorem moveOn_ports (s : State) (c : JobContext) (size : Nat) (acted : Bool) : (s.moveOn c size acted).ports = s.ports := rfl
@[simp] theorem moveOn_changed (s : State) (c : JobContext) (size : Nat) (acted : Bool) : (s.moveOn c size acted).changed = s.changed := rfl
@[simp] theorem moveOn_pending (s : State) (c : JobContext) (size : Nat) (acted : Bool) : (s.moveOn c size acted).pending = s.pending := rfl

/-! ### Reads after writes -/

theorem link_setLink (s : State) (i j : LinkId) (l : Option Link) :
    (s.setLink i l).link j = if j = i then l else s.link j := get_put _ _ _ _

@[simp] theorem link_setLink_self (s : State) (i : LinkId) (l : Option Link) : (s.setLink i l).link i = l :=
  get_put_self _ _ _

theorem dest_setDest (s : State) (d e : DestId) (r : Option Dest) :
    (s.setDest d r).dest e = if e = d then r else s.dest e := get_put _ _ _ _

@[simp] theorem dest_setDest_self (s : State) (d : DestId) (r : Option Dest) : (s.setDest d r).dest d = r :=
  get_put_self _ _ _

theorem cand_setCand (s : State) (c e : CandId) (k : Option Cand) :
    (s.setCand c k).cand e = if e = c then k else s.cand e := get_put _ _ _ _

@[simp] theorem cand_setCand_self (s : State) (c : CandId) (k : Option Cand) : (s.setCand c k).cand c = k :=
  get_put_self _ _ _

theorem port_setPort (s : State) (p o : Radio) (q : Port) :
    (s.setPort p q).port o = if o = p then q else s.port o := get_put _ _ _ _

@[simp] theorem port_setPort_self (s : State) (p : Radio) (q : Port) : (s.setPort p q).port p = q :=
  get_put_self _ _ _

theorem changed_setChanged (s : State) (d e : DestId) (b : Bool) :
    (s.setChanged d b).changed.get e = if e = d then b else s.changed.get e := get_put _ _ _ _

/-! ### The reads that an update of another table leaves alone -/

@[simp] theorem link_setDest (s : State) (d : DestId) (r : Option Dest) (i : LinkId) :
    (s.setDest d r).link i = s.link i := rfl
@[simp] theorem link_setCand (s : State) (c : CandId) (k : Option Cand) (i : LinkId) :
    (s.setCand c k).link i = s.link i := rfl
@[simp] theorem link_setPort (s : State) (p : Radio) (q : Port) (i : LinkId) :
    (s.setPort p q).link i = s.link i := rfl
@[simp] theorem link_setChanged (s : State) (d : DestId) (b : Bool) (i : LinkId) :
    (s.setChanged d b).link i = s.link i := rfl
@[simp] theorem dest_setLink (s : State) (i : LinkId) (l : Option Link) (d : DestId) :
    (s.setLink i l).dest d = s.dest d := rfl
@[simp] theorem dest_setCand (s : State) (c : CandId) (k : Option Cand) (d : DestId) :
    (s.setCand c k).dest d = s.dest d := rfl
@[simp] theorem dest_setPort (s : State) (p : Radio) (q : Port) (d : DestId) :
    (s.setPort p q).dest d = s.dest d := rfl
@[simp] theorem dest_setChanged (s : State) (e : DestId) (b : Bool) (d : DestId) :
    (s.setChanged e b).dest d = s.dest d := rfl
@[simp] theorem cand_setLink (s : State) (i : LinkId) (l : Option Link) (c : CandId) :
    (s.setLink i l).cand c = s.cand c := rfl
@[simp] theorem cand_setDest (s : State) (d : DestId) (r : Option Dest) (c : CandId) :
    (s.setDest d r).cand c = s.cand c := rfl
@[simp] theorem cand_setPort (s : State) (p : Radio) (q : Port) (c : CandId) :
    (s.setPort p q).cand c = s.cand c := rfl
@[simp] theorem cand_setChanged (s : State) (d : DestId) (b : Bool) (c : CandId) :
    (s.setChanged d b).cand c = s.cand c := rfl
@[simp] theorem port_setLink (s : State) (i : LinkId) (l : Option Link) (p : Radio) :
    (s.setLink i l).port p = s.port p := rfl
@[simp] theorem port_setDest (s : State) (d : DestId) (r : Option Dest) (p : Radio) :
    (s.setDest d r).port p = s.port p := rfl
@[simp] theorem port_setCand (s : State) (c : CandId) (k : Option Cand) (p : Radio) :
    (s.setCand c k).port p = s.port p := rfl
@[simp] theorem port_setChanged (s : State) (d : DestId) (b : Bool) (p : Radio) :
    (s.setChanged d b).port p = s.port p := rfl

end Sys2Proof.Machine
end

