-- ==== Sys2Proof/Laws/Resolver.lean ====
section
/-! SUPPORT. The Path Resolver: for each of its operations, what it can do, said once. -/

namespace Sys2Proof.Machine

/-! ### Frames -/

@[simp] theorem State.pathsOnly_rfl (s : State) : s.pathsOnly s := rfl

theorem State.pathsOnly_trans {s t u : State} (h : s.pathsOnly t) (k : t.pathsOnly u) : s.pathsOnly u := by
  cases s; cases t; cases u
  simp only [State.pathsOnly, State.mk.injEq] at *
  simp_all

theorem State.pathsOnly_tablesOnly {s t : State} (h : s.pathsOnly t) : s.tablesOnly t := by
  cases s; cases t
  simp only [State.pathsOnly, State.tablesOnly, State.mk.injEq] at *
  simp_all

@[simp] theorem State.tablesOnly_rfl (s : State) : s.tablesOnly s := rfl

theorem State.tablesOnly_trans {s t u : State} (h : s.tablesOnly t) (k : t.tablesOnly u) : s.tablesOnly u := by
  cases s; cases t; cases u
  simp only [State.tablesOnly, State.mk.injEq] at *
  simp_all

theorem State.pathsOnly_links {s t : State} (h : s.pathsOnly t) : t.links = s.links := by rw [h]
theorem State.pathsOnly_params {s t : State} (h : s.pathsOnly t) : t.params = s.params := by rw [h]
theorem State.pathsOnly_profile {s t : State} (h : s.pathsOnly t) : t.profile = s.profile := by rw [h]
theorem State.pathsOnly_now {s t : State} (h : s.pathsOnly t) : t.now = s.now := by rw [h]
theorem State.pathsOnly_link {s t : State} (h : s.pathsOnly t) (i : LinkId) : t.link i = s.link i := by
  simp only [State.link, State.pathsOnly_links h]
theorem State.pathsOnly_tuning {s t : State} (h : s.pathsOnly t) : t.tuning = s.tuning := by
  simp only [State.tuning, State.pathsOnly_params h, State.pathsOnly_profile h]

theorem State.tablesOnly_params {s t : State} (h : s.tablesOnly t) : t.params = s.params := by rw [h]
theorem State.tablesOnly_profile {s t : State} (h : s.tablesOnly t) : t.profile = s.profile := by rw [h]
theorem State.tablesOnly_now {s t : State} (h : s.tablesOnly t) : t.now = s.now := by rw [h]
theorem State.tablesOnly_tuning {s t : State} (h : s.tablesOnly t) : t.tuning = s.tuning := by
  simp only [State.tuning, State.tablesOnly_params h, State.tablesOnly_profile h]

theorem setLink_tablesOnly (s : State) (i : LinkId) (l : Option Link) : s.tablesOnly (s.setLink i l) := rfl
theorem setDest_pathsOnly (s : State) (d : DestId) (r : Option Dest) : s.pathsOnly (s.setDest d r) := rfl
theorem setCand_pathsOnly (s : State) (c : CandId) (k : Option Cand) : s.pathsOnly (s.setCand c k) := rfl
theorem setChanged_pathsOnly (s : State) (d : DestId) (b : Bool) : s.pathsOnly (s.setChanged d b) := rfl

/-! ### Candidates but for their last path cost -/

@[simp] theorem sameButCost_rfl (k : Option Cand) : sameButCost k k := by cases k <;> simp [sameButCost]

theorem sameButCost_trans {a b c : Option Cand} (h : sameButCost a b) (k : sameButCost b c) : sameButCost a c := by
  rcases a with _ | ⟨a1, a2, a3, a4⟩ <;> rcases b with _ | ⟨b1, b2, b3, b4⟩ <;> rcases c with _ | ⟨c1, c2, c3, c4⟩ <;>
    simp_all [sameButCost]

/-- A record of the same candidate: where one is free so is the other, and otherwise three fields agree. -/
theorem sameButCost_iff {a b : Option Cand} : sameButCost a b ↔
    (a = none ∧ b = none) ∨ ∃ k k', a = some k ∧ b = some k' ∧ k'.dest = k.dest ∧ k'.link = k.link ∧
      k'.remainder = k.remainder := by
  rcases a with _ | ⟨a1, a2, a3, a4⟩ <;> rcases b with _ | ⟨b1, b2, b3, b4⟩ <;> simp [sameButCost]

theorem sameButCost_none_iff {a b : Option Cand} (h : sameButCost a b) : b = none ↔ a = none := by
  rcases sameButCost_iff.1 h with ⟨rfl, rfl⟩ | ⟨k, k', rfl, rfl, -⟩ <;> simp

theorem candNames_congr {s t : State} {c : CandId} (h : sameButCost (s.cand c) (t.cand c)) (i : LinkId) :
    t.candNames i c = s.candNames i c := by
  rcases sameButCost_iff.1 h with ⟨h1, h2⟩ | ⟨k, k', h1, h2, -, h3, -⟩ <;> simp [State.candNames, *]

theorem candCost_congr {s t : State} {c : CandId} (h : sameButCost (s.cand c) (t.cand c))
    (hl : ∀ i, t.link i = s.link i) (ht : t.tuning = s.tuning) : t.candCost c = s.candCost c := by
  rcases sameButCost_iff.1 h with ⟨h1, h2⟩ | ⟨k, k', h1, h2, -, h3, h4⟩ <;>
    simp [State.candCost, *]

theorem candUsable_congr {s t : State} {c : CandId} (h : sameButCost (s.cand c) (t.cand c))
    (hl : ∀ i, t.link i = s.link i) (ht : t.tuning = s.tuning) : t.candUsable c = s.candUsable c := by
  rcases sameButCost_iff.1 h with ⟨h1, h2⟩ | ⟨k, k', h1, h2, -, h3, h4⟩ <;>
    simp [State.candUsable, *]

/-! ### Updates in place -/

theorem updateCand_cand (s : State) (c e : CandId) (f : Cand → Cand) :
    (s.updateCand c f).cand e = if e = c then (s.cand c).map f else s.cand e := by
  unfold State.updateCand
  split
  · next k h => rw [cand_setCand, h]; rfl
  · next h => split <;> simp_all

theorem updateCand_pathsOnly (s : State) (c : CandId) (f : Cand → Cand) : s.pathsOnly (s.updateCand c f) := by
  unfold State.updateCand; split <;> rfl

@[simp] theorem updateCand_dests (s : State) (c : CandId) (f : Cand → Cand) : (s.updateCand c f).dests = s.dests := by
  unfold State.updateCand; split <;> rfl

@[simp] theorem updateCand_changed (s : State) (c : CandId) (f : Cand → Cand) :
    (s.updateCand c f).changed = s.changed := by
  unfold State.updateCand; split <;> rfl

@[simp] theorem updateCand_dest (s : State) (c : CandId) (f : Cand → Cand) (d : DestId) :
    (s.updateCand c f).dest d = s.dest d := by simp [State.dest]

theorem updateDest_dest (s : State) (d e : DestId) (f : Dest → Dest) :
    (s.updateDest d f).dest e = if e = d then (s.dest d).map f else s.dest e := by
  unfold State.updateDest
  split
  · next k h => rw [dest_setDest, h]; rfl
  · next h => split <;> simp_all

theorem updateDest_pathsOnly (s : State) (d : DestId) (f : Dest → Dest) : s.pathsOnly (s.updateDest d f) := by
  unfold State.updateDest; split <;> rfl

@[simp] theorem updateDest_cands (s : State) (d : DestId) (f : Dest → Dest) : (s.updateDest d f).cands = s.cands := by
  unfold State.updateDest; split <;> rfl

@[simp] theorem updateDest_cand (s : State) (d : DestId) (f : Dest → Dest) (c : CandId) :
    (s.updateDest d f).cand c = s.cand c := by simp [State.cand]

@[simp] theorem updateDest_changed (s : State) (d : DestId) (f : Dest → Dest) :
    (s.updateDest d f).changed = s.changed := by
  unfold State.updateDest; split <;> rfl

theorem updateLink_link (s : State) (i j : LinkId) (f : Link → Link) :
    (s.updateLink i f).link j = if j = i then (s.link i).map f else s.link j := by
  unfold State.updateLink
  split
  · next k h => rw [link_setLink, h]; rfl
  · next h => split <;> simp_all

theorem updateLink_tablesOnly (s : State) (i : LinkId) (f : Link → Link) : s.tablesOnly (s.updateLink i f) := by
  unfold State.updateLink; split <;> rfl

@[simp] theorem updateLink_dests (s : State) (i : LinkId) (f : Link → Link) : (s.updateLink i f).dests = s.dests := by
  unfold State.updateLink; split <;> rfl
@[simp] theorem updateLink_cands (s : State) (i : LinkId) (f : Link → Link) : (s.updateLink i f).cands = s.cands := by
  unfold State.updateLink; split <;> rfl
@[simp] theorem updateLink_changed (s : State) (i : LinkId) (f : Link → Link) :
    (s.updateLink i f).changed = s.changed := by
  unfold State.updateLink; split <;> rfl
@[simp] theorem updateLink_dest (s : State) (i : LinkId) (f : Link → Link) (d : DestId) :
    (s.updateLink i f).dest d = s.dest d := by simp [State.dest]
@[simp] theorem updateLink_cand (s : State) (i : LinkId) (f : Link → Link) (c : CandId) :
    (s.updateLink i f).cand c = s.cand c := by simp [State.cand]

/-! ### Path costs written (R75) -/

theorem refreshCost_pathsOnly (s : State) (c : CandId) : s.pathsOnly (s.refreshCost c) := updateCand_pathsOnly _ _ _

@[simp] theorem refreshCost_dest (s : State) (c : CandId) (d : DestId) : (s.refreshCost c).dest d = s.dest d :=
  updateCand_dest _ _ _ _

@[simp] theorem refreshCost_dests (s : State) (c : CandId) : (s.refreshCost c).dests = s.dests :=
  updateCand_dests _ _ _

@[simp] theorem refreshCost_changed (s : State) (c : CandId) : (s.refreshCost c).changed = s.changed :=
  updateCand_changed _ _ _

theorem refreshCost_cand (s : State) (c e : CandId) : (s.refreshCost c).cand e =
    if e = c then (s.cand c).map (fun k => { k with lastCost := s.candCost c }) else s.cand e :=
  updateCand_cand _ _ _ _

theorem refreshCost_sameButCost (s : State) (c e : CandId) : sameButCost (s.cand e) ((s.refreshCost c).cand e) := by
  rw [refreshCost_cand]
  split
  · next h => subst h; cases s.cand e <;> simp [sameButCost]
  · simp

theorem refreshCost_candCost (s : State) (c e : CandId) : (s.refreshCost c).candCost e = s.candCost e :=
  candCost_congr (refreshCost_sameButCost s c e) (State.pathsOnly_link (refreshCost_pathsOnly s c))
    (State.pathsOnly_tuning (refreshCost_pathsOnly s c))

theorem refreshCosts_pathsOnly (s : State) (cs : List CandId) : s.pathsOnly (s.refreshCosts cs) := by
  induction cs generalizing s with
  | nil => rfl
  | cons c cs ih => exact State.pathsOnly_trans (refreshCost_pathsOnly s c) (ih _)

@[simp] theorem refreshCosts_dests (s : State) (cs : List CandId) : (s.refreshCosts cs).dests = s.dests := by
  induction cs generalizing s with
  | nil => rfl
  | cons c cs ih => exact (ih (s.refreshCost c)).trans (refreshCost_dests s c)

@[simp] theorem refreshCosts_dest (s : State) (cs : List CandId) (d : DestId) :
    (s.refreshCosts cs).dest d = s.dest d := by simp [State.dest]

@[simp] theorem refreshCosts_changed (s : State) (cs : List CandId) : (s.refreshCosts cs).changed = s.changed := by
  induction cs generalizing s with
  | nil => rfl
  | cons c cs ih => exact (ih (s.refreshCost c)).trans (refreshCost_changed s c)

/-- Every member of the list has its path cost written, and no other candidate changes. -/
theorem refreshCosts_cand (s : State) (cs : List CandId) (e : CandId) : (s.refreshCosts cs).cand e =
    if e ∈ cs then (s.cand e).map (fun k => { k with lastCost := s.candCost e }) else s.cand e := by
  induction cs generalizing s with
  | nil => rfl
  | cons c cs ih =>
    show ((s.refreshCost c).refreshCosts cs).cand e = _
    rw [ih, refreshCost_candCost, refreshCost_cand]
    by_cases h1 : e = c
    · subst h1
      by_cases h2 : e ∈ cs <;> simp [h2, Function.comp_def]
    · by_cases h2 : e ∈ cs <;> simp [h1, h2]

theorem refreshCosts_sameButCost (s : State) (cs : List CandId) (e : CandId) :
    sameButCost (s.cand e) ((s.refreshCosts cs).cand e) := by
  rw [refreshCosts_cand]
  split
  · cases s.cand e <;> simp [sameButCost]
  · simp

/-! ### The cheapest of a list (R76, R83) -/

theorem cheapest_eq_none {cost : CandId → Nat} {cs : List CandId} : cheapest cost cs = none ↔ cs = [] := by
  cases cs with
  | nil => simp [cheapest]
  | cons c cs =>
    simp only [cheapest]
    split
    · simp
    · split <;> simp

/-- The cheapest beats every member nearer the head and is no dearer than any member behind it. -/
theorem cheapest_eq_some {cost : CandId → Nat} {cs : List CandId} {a : CandId} (h : cheapest cost cs = some a) :
    ∃ xs ys, cs = xs ++ a :: ys ∧ (∀ c ∈ xs, cost a < cost c) ∧ ∀ c ∈ ys, cost a ≤ cost c := by
  induction cs generalizing a with
  | nil => simp [cheapest] at h
  | cons c cs ih =>
    simp only [cheapest] at h
    split at h
    · next hn =>
      cases h
      rw [cheapest_eq_none] at hn
      subst hn
      exact ⟨[], [], rfl, by simp, by simp⟩
    · next best hb =>
      obtain ⟨xs, ys, rfl, h1, h2⟩ := ih hb
      split at h
      · next hle =>
        cases h
        refine ⟨[], xs ++ best :: ys, rfl, by simp, ?_⟩
        intro e he
        rcases List.mem_append.1 he with he | he
        · have := h1 e he; omega
        · rcases List.mem_cons.1 he with rfl | he
          · exact hle
          · have := h2 e he; omega
      · next hle =>
        cases h
        refine ⟨c :: xs, ys, rfl, ?_, h2⟩
        intro e he
        rcases List.mem_cons.1 he with rfl | he
        · omega
        · exact h1 e he

theorem cheapest_mem {cost : CandId → Nat} {cs : List CandId} {a : CandId} (h : cheapest cost cs = some a) : a ∈ cs := by
  obtain ⟨xs, ys, rfl, -⟩ := cheapest_eq_some h
  simp

theorem cheapest_le {cost : CandId → Nat} {cs : List CandId} {a : CandId} (h : cheapest cost cs = some a) :
    ∀ c ∈ cs, cost a ≤ cost c := by
  obtain ⟨xs, ys, rfl, h1, h2⟩ := cheapest_eq_some h
  intro c hc
  rcases List.mem_append.1 hc with hc | hc
  · exact (h1 c hc).le
  · rcases List.mem_cons.1 hc with rfl | hc
    · exact le_rfl
    · exact h2 c hc

/-- A split of a filtered list is a split of the list. -/
theorem filter_split {α : Type} {p : α → Bool} {cs xs ys : List α} {a : α} (h : cs.filter p = xs ++ a :: ys) :
    ∃ us vs, cs = us ++ a :: vs ∧ (∀ u ∈ us, p u = true → u ∈ xs) ∧ ∀ v ∈ vs, p v = true → v ∈ ys := by
  induction cs generalizing xs with
  | nil => simp at h
  | cons c cs ih =>
    rw [List.filter_cons] at h
    split at h
    · next hc =>
      cases xs with
      | nil =>
        simp only [List.nil_append, List.cons.injEq] at h
        obtain ⟨rfl, h⟩ := h
        refine ⟨[], cs, rfl, by simp, ?_⟩
        intro v hv hp
        rw [← h]
        exact List.mem_filter.2 ⟨hv, hp⟩
      | cons x xs =>
        simp only [List.cons_append, List.cons.injEq] at h
        obtain ⟨rfl, h⟩ := h
        obtain ⟨us, vs, rfl, h1, h2⟩ := ih h
        refine ⟨c :: us, vs, rfl, ?_, h2⟩
        intro u hu hp
        rcases List.mem_cons.1 hu with rfl | hu
        · simp
        · exact List.mem_cons_of_mem _ (h1 u hu hp)
    · next hc =>
      obtain ⟨us, vs, rfl, h1, h2⟩ := ih h
      refine ⟨c :: us, vs, rfl, ?_, h2⟩
      intro u hu hp
      rcases List.mem_cons.1 hu with rfl | hu
      · exact absurd hp hc
      · exact h1 u hu hp

/-! ### The active candidate set, with its bookkeeping (R78) -/

/-- The destination record that `setActive` leaves. -/
def Dest.withActive (now : Time) (a : Option CandId) (r : Dest) : Dest :=
  if r.active = a then r
  else { r with active := a, lastSwitch := some now, switchCount := min (r.switchCount + 1) 65535 }

@[simp] theorem Dest.withActive_active (now : Time) (a : Option CandId) (r : Dest) :
    (r.withActive now a).active = a := by
  unfold Dest.withActive; split
  · assumption
  · rfl
@[simp] theorem Dest.withActive_chain (now : Time) (a : Option CandId) (r : Dest) :
    (r.withActive now a).chain = r.chain := by
  unfold Dest.withActive; split <;> rfl
@[simp] theorem Dest.withActive_address (now : Time) (a : Option CandId) (r : Dest) :
    (r.withActive now a).address = r.address := by
  unfold Dest.withActive; split <;> rfl

theorem setActive_dest (s : State) (d e : DestId) (a : Option CandId) : (s.setActive d a).dest e =
    if e = d then (s.dest d).map (Dest.withActive s.now a) else s.dest e := by
  unfold State.setActive
  cases h : s.dest d with
  | none =>
    by_cases he : e = d
    · subst he; simp [h]
    · simp [he]
  | some r =>
    by_cases hr : r.active = a
    · by_cases he : e = d
      · subst he; simp [hr, h, Dest.withActive]
      · simp [hr, he]
    · by_cases he : e = d
      · subst he; simp [hr, Dest.withActive, Config.countLimit]
      · simp [hr, he, dest_setDest]

theorem setActive_changed (s : State) (d e : DestId) (a : Option CandId) : (s.setActive d a).changed.get e =
    if e = d ∧ ∃ r, s.dest d = some r ∧ r.active ≠ a then true else s.changed.get e := by
  unfold State.setActive
  cases h : s.dest d with
  | none => simp
  | some r =>
    by_cases hr : r.active = a
    · simp [hr]
    · by_cases he : e = d <;> simp [hr, he, changed_setChanged]

@[simp] theorem setActive_cands (s : State) (d : DestId) (a : Option CandId) : (s.setActive d a).cands = s.cands := by
  unfold State.setActive; split
  · rfl
  · split <;> rfl

@[simp] theorem setActive_cand (s : State) (d : DestId) (a : Option CandId) (c : CandId) :
    (s.setActive d a).cand c = s.cand c := by simp [State.cand]

theorem setActive_pathsOnly (s : State) (d : DestId) (a : Option CandId) : s.pathsOnly (s.setActive d a) := by
  unfold State.setActive; split
  · rfl
  · split <;> rfl

end Sys2Proof.Machine
end

