-- ==== Sys2Proof/Laws/Selection.lean ====
section
/-! SUPPORT. Selections and evaluations of one destination: what each can do, said once, and what follows from it for the
records' laws. -/

namespace Sys2Proof.Machine

/-- Everything a selection or evaluation of destination `d` can do: its chain's last path costs are written, and its
active candidate becomes absent or a usable member of its chain, with the bookkeeping of R78 when it changes. -/
def State.reselects (s t : State) (d : DestId) : Prop :=
  s.pathsOnly t ∧ (∀ e, e ≠ d → t.dest e = s.dest e ∧ t.changed.get e = s.changed.get e) ∧
    (∀ c, sameButCost (s.cand c) (t.cand c)) ∧ (s.dest d = none → t = s) ∧
    ∀ r, s.dest d = some r → (∀ c, c ∉ r.chain → t.cand c = s.cand c) ∧ ∃ a, t.dest d = some (r.withActive s.now a) ∧
      (a = r.active ∨ a = none ∨ ∃ c, a = some c ∧ c ∈ r.chain ∧ s.candUsable c = true) ∧
      t.changed.get d = (if a = r.active then s.changed.get d else true)

theorem State.reselects_rfl (s : State) (d : DestId) : s.reselects s d :=
  ⟨rfl, fun _ _ => ⟨rfl, rfl⟩, fun _ => sameButCost_rfl _, fun _ => rfl, fun r h =>
    ⟨fun _ _ => rfl, r.active, by simp [Dest.withActive, h], .inl rfl, by simp⟩⟩

/-! ### The operations -/

theorem setActive_reselects (s : State) (d : DestId) (a : Option CandId)
    (h : ∀ r, s.dest d = some r → a = r.active ∨ a = none ∨ ∃ c, a = some c ∧ c ∈ r.chain ∧ s.candUsable c = true) :
    s.reselects (s.setActive d a) d := by
  refine ⟨setActive_pathsOnly _ _ _, fun e he => ⟨?_, ?_⟩, fun c => by simp, ?_, ?_⟩
  · rw [setActive_dest, if_neg he]
  · rw [setActive_changed, if_neg (fun x => he x.1)]
  · intro hn; simp [State.setActive, hn]
  · intro r hr
    refine ⟨fun c _ => by simp, a, by simp [setActive_dest, hr], h r hr, ?_⟩
    rw [setActive_changed]
    by_cases ha : a = r.active
    · rw [if_pos ha, if_neg]
      rintro ⟨-, r', h1, h2⟩
      rw [hr] at h1; cases h1; exact h2 ha.symm
    · rw [if_neg ha, if_pos ⟨rfl, r, hr, fun x => ha x.symm⟩]

/-- The active candidate set after last path costs of the chain have been written. -/
theorem setActive_refreshCosts_reselects (s : State) (d : DestId) (r : Dest) (cs : List CandId) (a : Option CandId)
    (hr : s.dest d = some r) (hcs : ∀ c ∈ cs, c ∈ r.chain)
    (h : a = r.active ∨ a = none ∨ ∃ c, a = some c ∧ c ∈ r.chain ∧ s.candUsable c = true) :
    s.reselects ((s.refreshCosts cs).setActive d a) d := by
  have hp := refreshCosts_pathsOnly s cs
  have hd : (s.refreshCosts cs).dest d = some r := by simpa using hr
  refine ⟨State.pathsOnly_trans hp (setActive_pathsOnly _ _ _), fun e he => ⟨?_, ?_⟩, fun c => ?_, ?_, ?_⟩
  · rw [setActive_dest, if_neg he, refreshCosts_dest]
  · rw [setActive_changed, if_neg (fun x => he x.1), refreshCosts_changed]
  · rw [setActive_cand]; exact refreshCosts_sameButCost s cs c
  · intro hn; rw [hr] at hn; cases hn
  · intro r' hr'
    rw [hr] at hr'; cases hr'
    refine ⟨fun c hc => ?_, a, ?_, h, ?_⟩
    · rw [setActive_cand, refreshCosts_cand, if_neg (fun x => hc (hcs c x))]
    · rw [setActive_dest, if_pos rfl, hd, State.pathsOnly_now hp]; rfl
    · rw [setActive_changed, hd, refreshCosts_changed]
      by_cases ha : a = r.active
      · rw [if_pos ha, if_neg]
        rintro ⟨-, r', h1, h2⟩
        cases h1; exact h2 ha.symm
      · rw [if_neg ha, if_pos ⟨rfl, r, rfl, fun x => ha x.symm⟩]

theorem refreshCosts_reselects (s : State) (d : DestId) (r : Dest) (cs : List CandId) (hr : s.dest d = some r)
    (hcs : ∀ c ∈ cs, c ∈ r.chain) : s.reselects (s.refreshCosts cs) d := by
  have := setActive_refreshCosts_reselects s d r cs r.active hr hcs (.inl rfl)
  have hd : (s.refreshCosts cs).dest d = some r := by simpa using hr
  simpa [State.setActive, hd] using this

theorem selectNow_eq (s : State) (d : DestId) (r : Dest) (hr : s.dest d = some r) : s.selectNow d =
    (s.refreshCosts r.chain).setActive d (cheapest s.candCost (r.chain.filter s.candUsable)) := by
  simp [State.selectNow, hr]

theorem selectNow_reselects (s : State) (d : DestId) : s.reselects (s.selectNow d) d := by
  cases hr : s.dest d with
  | none => rw [show s.selectNow d = s by simp [State.selectNow, hr]]; exact State.reselects_rfl s d
  | some r =>
    rw [selectNow_eq s d r hr]
    refine setActive_refreshCosts_reselects s d r _ _ hr (fun _ h => h) ?_
    cases hc : cheapest s.candCost (r.chain.filter s.candUsable) with
    | none => exact .inr (.inl rfl)
    | some c =>
      have := List.mem_filter.1 (cheapest_mem hc)
      exact .inr (.inr ⟨c, rfl, this.1, this.2⟩)

theorem chainEditCheck_reselects (s : State) (d : DestId) : s.reselects (s.chainEditCheck d) d := by
  unfold State.chainEditCheck
  cases hr : s.dest d with
  | none => exact State.reselects_rfl s d
  | some r =>
    cases ha : r.active with
    | none => simpa [ha] using selectNow_reselects s d
    | some a =>
      by_cases h : (r.chain.contains a && s.candUsable a) = true
      · simp only [ha, h, if_true]
        have hm : a ∈ r.chain := by
          rw [Bool.and_eq_true] at h
          simpa using h.1
        exact refreshCosts_reselects s d r [a] hr (by simpa using hm)
      · simp only [ha, h]
        exact selectNow_reselects s d

theorem switchTest_reselects (s : State) (d : DestId) (r : Dest) (a : CandId) (hr : s.dest d = some r) :
    s.reselects (s.switchTest d r a) d := by
  unfold State.switchTest
  cases hc : s.challenger r a with
  | none => exact refreshCosts_reselects s d r _ hr (fun _ h => h)
  | some b =>
    dsimp only
    split
    · refine setActive_refreshCosts_reselects s d r _ _ hr (fun _ h => h) (.inr (.inr ⟨b, rfl, ?_⟩))
      have := List.mem_filter.1 (cheapest_mem hc)
      have h2 := this.2
      simp only [Bool.and_eq_true] at h2
      exact ⟨this.1, by simpa using h2.1⟩
    · exact refreshCosts_reselects s d r _ hr (fun _ h => h)

theorem evaluateDest_reselects (s : State) (d : DestId) : s.reselects (s.evaluateDest d) d := by
  unfold State.evaluateDest
  cases hr : s.dest d with
  | none => exact State.reselects_rfl s d
  | some r =>
    dsimp only
    split
    · exact State.reselects_rfl s d
    · cases ha : r.active with
      | none => exact selectNow_reselects s d
      | some a =>
        dsimp only
        split
        · exact switchTest_reselects s d r a hr
        · exact selectNow_reselects s d

/-! ### What a reselection keeps -/

theorem Dest.withActive_booked (r : Dest) (now : Time) (a : Option CandId) : r.withActive now a = r ∨
    ((r.withActive now a).lastSwitch = some now ∧ a ≠ r.active ∧
      (r.withActive now a).switchCount = min (r.switchCount + 1) 65535) := by
  unfold Dest.withActive
  split
  · exact .inl rfl
  · next h => exact .inr ⟨rfl, fun x => h x.symm, rfl⟩

theorem Dest.withActive_self (r : Dest) (now : Time) : r.withActive now r.active = r := by simp [Dest.withActive]

theorem State.bookKept_rfl (s : State) (d : DestId) : s.bookKept s d := by
  unfold State.bookKept
  cases s.dest d <;> simp

theorem State.bookKept_of_eq {s t : State} {d : DestId} (h : t.dest d = s.dest d)
    (hc : t.changed.get d = s.changed.get d) : s.bookKept t d := by
  unfold State.bookKept
  rw [h]
  cases s.dest d <;> simp [hc]

theorem State.bookKept_trans {s t u : State} {d : DestId} (hn : t.now = s.now) (h : s.bookKept t d)
    (k : t.bookKept u d) : s.bookKept u d := by
  unfold State.bookKept at *
  cases h1 : s.dest d with
  | none =>
    cases h2 : t.dest d with
    | none => cases h3 : u.dest d <;> simp_all
    | some _ => simp_all
  | some r =>
    cases h2 : t.dest d with
    | none => simp_all
    | some r1 =>
      cases h3 : u.dest d with
      | none => simp_all
      | some r2 =>
        simp only [h1, h2, h3, hn] at h k ⊢
        obtain ⟨a1, a2, a3⟩ := h
        obtain ⟨b1, b2, b3⟩ := k
        refine ⟨b1.trans a1, b2.trans a2, ?_⟩
        rcases b3 with ⟨rfl, b4⟩ | ⟨b4, b5, b6⟩
        · rcases a3 with ⟨rfl, a4⟩ | ⟨a4, a5, a6⟩
          · exact .inl ⟨rfl, b4.trans a4⟩
          · exact .inr ⟨a4, b4.trans a5, a6⟩
        · rcases a3 with ⟨rfl, a4⟩ | ⟨a4, a5, a6⟩
          · exact .inr ⟨b4, b5, b6⟩
          · exact .inr ⟨b4, b5, by omega⟩

theorem State.reselects.pathsOnly {s t : State} {d : DestId} (h : s.reselects t d) : s.pathsOnly t := h.1
theorem State.reselects.dest_ne {s t : State} {d e : DestId} (h : s.reselects t d) (he : e ≠ d) :
    t.dest e = s.dest e := (h.2.1 e he).1
theorem State.reselects.changed_ne {s t : State} {d e : DestId} (h : s.reselects t d) (he : e ≠ d) :
    t.changed.get e = s.changed.get e := (h.2.1 e he).2
theorem State.reselects.same {s t : State} {d : DestId} (h : s.reselects t d) (c : CandId) :
    sameButCost (s.cand c) (t.cand c) := h.2.2.1 c

theorem State.reselects.bookKept {s t : State} {d : DestId} (h : s.reselects t d) (e : DestId) : s.bookKept t e := by
  by_cases he : e = d
  · subst he
    cases hr : s.dest e with
    | none => rw [h.2.2.2.1 hr]; exact State.bookKept_rfl s e
    | some r =>
      obtain ⟨-, a, h1, -, h3⟩ := h.2.2.2.2 r hr
      unfold State.bookKept
      rw [hr, h1]
      refine ⟨by simp, by simp, ?_⟩
      rcases Dest.withActive_booked r s.now a with h4 | ⟨h4, h5, h6⟩
      · have : a = r.active := by rw [← Dest.withActive_active s.now a r, h4]
        exact .inl ⟨h4, by simpa [this] using h3⟩
      · exact .inr ⟨h4, by simpa [h5] using h3, h6.ge⟩
  · exact State.bookKept_of_eq (h.dest_ne he) (h.changed_ne he)

theorem State.reselects.pathsReselected {s t : State} {d : DestId} (h : s.reselects t d) : s.pathsReselected t :=
  ⟨h.bookKept, h.same⟩

theorem State.pathsReselected_rfl (s : State) : s.pathsReselected s :=
  ⟨State.bookKept_rfl s, fun _ => sameButCost_rfl _⟩

theorem State.pathsReselected_trans {s t u : State} (hn : t.now = s.now) (h : s.pathsReselected t)
    (k : t.pathsReselected u) : s.pathsReselected u :=
  ⟨fun d => State.bookKept_trans hn (h.1 d) (k.1 d), fun c => sameButCost_trans (h.2 c) (k.2 c)⟩

/-- The state of the chain of a destination after a reselection, member by member. -/
theorem State.reselects.dest_some {s t : State} {d e : DestId} {r' : Dest} (h : s.reselects t d)
    (hr : t.dest e = some r') : ∃ r, s.dest e = some r ∧ r'.address = r.address ∧ r'.chain = r.chain := by
  by_cases he : e = d
  · subst he
    cases hs : s.dest e with
    | none => rw [h.2.2.2.1 hs, hs] at hr; cases hr
    | some r =>
      obtain ⟨-, a, h1, -⟩ := h.2.2.2.2 r hs
      rw [h1] at hr; cases hr
      exact ⟨r, rfl, by simp, by simp⟩
  · exact ⟨r', by rw [← h.dest_ne he, hr], rfl, rfl⟩

/-- Soundness of a chain reads of the candidates only what a reselection keeps. -/
theorem chainSound_congr {s t : State} {d : DestId} {r : Dest} (h : ∀ c, sameButCost (s.cand c) (t.cand c))
    (k : s.chainSound d r) : t.chainSound d r := by
  obtain ⟨h1, h2, h3, h4, h5⟩ := k
  refine ⟨h1, h2, ?_, ?_, h5⟩
  · intro c hc
    obtain ⟨k, hk, hd⟩ := h3 c hc
    rcases sameButCost_iff.1 (h c) with ⟨x, -⟩ | ⟨k1, k2, e1, e2, e3, -, -⟩
    · rw [hk] at x; cases x
    · rw [hk] at e1; cases e1
      exact ⟨k2, e2, e3.trans hd⟩
  · intro c hc e he k k' hk hk' hl
    rcases sameButCost_iff.1 (h c) with ⟨-, x⟩ | ⟨k1, k2, a1, a2, -, a3, -⟩
    · rw [hk] at x; cases x
    rcases sameButCost_iff.1 (h e) with ⟨-, x⟩ | ⟨m1, m2, b1, b2, -, b3, -⟩
    · rw [hk'] at x; cases x
    rw [hk] at a2; cases a2
    rw [hk'] at b2; cases b2
    exact h4 c hc e he k1 m1 a1 b1 (by rw [← a3, ← b3, hl])

/-- The laws of the Path Table survive when chains stay, candidates stay but for last path costs, and each active candidate
is kept or becomes a member with a last switch time. -/
theorem pathsSound_of {s t : State} (hs : s.pathsSound) (hc : ∀ c, sameButCost (s.cand c) (t.cand c))
    (hd : ∀ e r', t.dest e = some r' → ∃ r, s.dest e = some r ∧ r'.chain = r.chain ∧
      ((r'.active = r.active ∧ r'.lastSwitch = r.lastSwitch) ∨
        ∀ a, r'.active = some a → a ∈ r.chain ∧ r'.lastSwitch.isSome = true))
    (hd' : ∀ e r, s.dest e = some r → ∃ r', t.dest e = some r' ∧ r'.chain = r.chain) : t.pathsSound := by
  constructor
  · intro e r' hr'
    obtain ⟨r, h1, h2, h3⟩ := hd e r' hr'
    obtain ⟨k1, k2, k3, k4, k5⟩ := chainSound_congr hc (hs.1 e r h1)
    unfold State.chainSound
    rw [h2]
    refine ⟨k1, k2, k3, k4, ?_⟩
    rcases h3 with ⟨h3, h4⟩ | h3
    · rw [h3, h4]; exact k5
    · exact h3
  · intro c k hk
    rcases sameButCost_iff.1 (hc c) with ⟨-, x⟩ | ⟨k1, k2, e1, e2, e3, -, -⟩
    · rw [hk] at x; cases x
    · rw [hk] at e2; cases e2
      obtain ⟨r, h1, h2⟩ := hs.2 c k1 e1
      obtain ⟨r', h3, h4⟩ := hd' k1.dest r h1
      exact ⟨r', by rw [e3]; exact h3, by rw [h4]; exact h2⟩

theorem State.reselects.pathsSound {s t : State} {d : DestId} (h : s.reselects t d) (hs : s.pathsSound) :
    t.pathsSound := by
  refine pathsSound_of hs h.same ?_ ?_
  · intro e r' hr'
    by_cases he : e = d
    · subst he
      cases hr : s.dest e with
      | none => rw [h.2.2.2.1 hr, hr] at hr'; cases hr'
      | some r =>
        obtain ⟨-, a, h1, h2, -⟩ := h.2.2.2.2 r hr
        rw [h1] at hr'; cases hr'
        refine ⟨r, rfl, by simp, ?_⟩
        rcases Dest.withActive_booked r s.now a with h4 | ⟨h4, h5, -⟩
        · rw [h4]; exact .inl ⟨rfl, rfl⟩
        · refine .inr (fun b hb => ⟨?_, by simp [h4]⟩)
          rw [Dest.withActive_active] at hb
          rcases h2 with h2 | h2 | ⟨c, h2, h6, -⟩
          · exact absurd h2 h5
          · rw [hb] at h2; cases h2
          · rw [hb] at h2; cases h2; exact h6
    · exact ⟨r', by rw [← h.dest_ne he, hr'], rfl, .inl ⟨rfl, rfl⟩⟩
  · intro e r hr
    by_cases he : e = d
    · subst he
      obtain ⟨-, a, h1, -⟩ := h.2.2.2.2 r hr
      exact ⟨_, h1, by simp⟩
    · exact ⟨r, by rw [h.dest_ne he, hr], rfl⟩

/-! ### Notices to several destinations (R88 to R90) -/

/-- What acting on a link notice can do: any number of destinations reselected. -/
theorem foldl_selectNow {p : State → DestId → Bool} (ds : List DestId) (s : State)
    (hp : ∀ s t d e, s.reselects t d → e ≠ d → p t e = p s e) :
    let t := ds.foldl (fun s d => if p s d then s.selectNow d else s) s
    s.pathsOnly t ∧ s.pathsReselected t ∧ (s.pathsSound → t.pathsSound) ∧
      ∀ d, (d ∉ ds ∨ p s d = false) → ds.Nodup → t.dest d = s.dest d ∧ t.changed.get d = s.changed.get d := by
  induction ds generalizing s with
  | nil => exact ⟨rfl, State.pathsReselected_rfl s, id, fun _ _ _ => ⟨rfl, rfl⟩⟩
  | cons d ds ih =>
    simp only [List.foldl_cons]
    have hr : s.reselects (if p s d then s.selectNow d else s) d := by
      split
      · exact selectNow_reselects s d
      · exact State.reselects_rfl s d
    generalize hu : (if p s d then s.selectNow d else s) = u at hr ⊢
    obtain ⟨h1, h2, h3, h4⟩ := ih u
    refine ⟨State.pathsOnly_trans hr.pathsOnly h1,
      State.pathsReselected_trans (State.pathsOnly_now hr.pathsOnly) hr.pathsReselected h2,
      fun h => h3 (hr.pathsSound h), ?_⟩
    intro e he hn
    obtain ⟨hn1, hn2⟩ := List.nodup_cons.1 hn
    by_cases hed : e = d
    · subst hed
      obtain ⟨k1, k2⟩ := h4 e (.inl hn1) hn2
      rcases he with he | he
      · simp at he
      · have : u = s := by rw [← hu]; simp [he]
        subst this
        exact ⟨k1, k2⟩
    · have hpe : p u e = p s e := hp s u d e hr hed
      obtain ⟨k1, k2⟩ := h4 e (by
        rcases he with he | he
        · exact .inl (fun x => he (List.mem_cons_of_mem _ x))
        · exact .inr (hpe.trans he)) hn2
      exact ⟨k1.trans (hr.dest_ne hed), k2.trans (hr.changed_ne hed)⟩

theorem activeOn_reselects (i : LinkId) (s t : State) (d e : DestId) (h : s.reselects t d) (he : e ≠ d) :
    t.activeOn i e = s.activeOn i e := by
  unfold State.activeOn
  rw [h.dest_ne he]
  cases hs : s.dest e with
  | none => rfl
  | some r =>
    cases ha : r.active with
    | none => simp [ha]
    | some a => simpa [ha] using candNames_congr (h.same a) i

theorem waitsOn_reselects (i : LinkId) (s t : State) (d e : DestId) (h : s.reselects t d) (he : e ≠ d) :
    t.waitsOn i e = s.waitsOn i e := by
  unfold State.waitsOn
  rw [h.dest_ne he]
  cases s.dest e with
  | none => rfl
  | some r =>
    have : t.candNames i = s.candNames i := funext fun c => candNames_congr (h.same c) i
    rw [this]

/-- A usable-lost notice: only destinations whose active candidate names the link are reselected. -/
theorem usableLost_spec (s : State) (i : LinkId) :
    s.pathsOnly (s.usableLost i) ∧ s.pathsReselected (s.usableLost i) ∧
      (s.pathsSound → (s.usableLost i).pathsSound) ∧
      ∀ d, s.activeOn i d = false →
        (s.usableLost i).dest d = s.dest d ∧ (s.usableLost i).changed.get d = s.changed.get d := by
  obtain ⟨h1, h2, h3, h4⟩ := foldl_selectNow (p := fun s d => s.activeOn i d) (List.finRange 128) s
    (activeOn_reselects i)
  exact ⟨h1, h2, h3, fun d hd => h4 d (.inr hd) (List.nodup_finRange _)⟩

/-- A usable-gained notice: only Unreachable destinations with a candidate naming the link are reselected. -/
theorem usableGained_spec (s : State) (i : LinkId) :
    s.pathsOnly (s.usableGained i) ∧ s.pathsReselected (s.usableGained i) ∧
      (s.pathsSound → (s.usableGained i).pathsSound) ∧
      ∀ d, s.waitsOn i d = false →
        (s.usableGained i).dest d = s.dest d ∧ (s.usableGained i).changed.get d = s.changed.get d := by
  obtain ⟨h1, h2, h3, h4⟩ := foldl_selectNow (p := fun s d => s.waitsOn i d) (List.finRange 128) s
    (waitsOn_reselects i)
  exact ⟨h1, h2, h3, fun d hd => h4 d (.inr hd) (List.nodup_finRange _)⟩

end Sys2Proof.Machine
end

