-- ==== Sys2Proof/Laws/PathTable.lean ====
section
/-! SUPPORT. The Path Table: removals of candidates and destinations and the retirement of links, what each can do, said
once. -/

namespace Sys2Proof.Machine

/-! ### One reference fewer (R20, R23) -/

/-- The record that `dropReference` leaves. -/
def Link.dropped (l : Link) : Option Link :=
  if l.state = .retiring ∧ l.refs ≤ 1 then none else some { l with refs := l.refs - 1 }

theorem dropReference_tablesOnly (s : State) (i : LinkId) : s.tablesOnly (s.dropReference i) := by
  unfold State.dropReference
  split
  · rfl
  · split <;> rfl

@[simp] theorem dropReference_dests (s : State) (i : LinkId) : (s.dropReference i).dests = s.dests := by
  unfold State.dropReference
  split
  · rfl
  · split <;> rfl

@[simp] theorem dropReference_cands (s : State) (i : LinkId) : (s.dropReference i).cands = s.cands := by
  unfold State.dropReference
  split
  · rfl
  · split <;> rfl

@[simp] theorem dropReference_changed (s : State) (i : LinkId) : (s.dropReference i).changed = s.changed := by
  unfold State.dropReference
  split
  · rfl
  · split <;> rfl

@[simp] theorem dropReference_dest (s : State) (i : LinkId) (d : DestId) : (s.dropReference i).dest d = s.dest d := by
  simp [State.dest]

@[simp] theorem dropReference_cand (s : State) (i : LinkId) (c : CandId) : (s.dropReference i).cand c = s.cand c := by
  simp [State.cand]

theorem dropReference_link (s : State) (i j : LinkId) :
    (s.dropReference i).link j = if j = i then (s.link i).bind Link.dropped else s.link j := by
  unfold State.dropReference
  cases h : s.link i with
  | none =>
    by_cases hj : j = i
    · subst hj; simp [h]
    · simp [hj]
  | some l =>
    by_cases hl : l.state = .retiring ∧ l.refs ≤ 1
    · simp [hl, link_setLink, Link.dropped]
    · simp [hl, link_setLink, Link.dropped]

/-! ### A candidate taken out of its chain (steps 1 to 3 of R66) -/

theorem detach_free (s : State) (c : CandId) (h : s.cand c = none) : s.detach c = s := by simp [State.detach, h]

theorem detach_tablesOnly (s : State) (c : CandId) : s.tablesOnly (s.detach c) := by
  unfold State.detach
  split
  · rfl
  · exact State.tablesOnly_trans (State.pathsOnly_tablesOnly
      (State.pathsOnly_trans (updateDest_pathsOnly _ _ _) (setCand_pathsOnly _ _ _))) (dropReference_tablesOnly _ _)

@[simp] theorem detach_changed (s : State) (c : CandId) : (s.detach c).changed = s.changed := by
  unfold State.detach
  split
  · rfl
  · simp

theorem detach_cand (s : State) (c e : CandId) : (s.detach c).cand e = if e = c then none else s.cand e := by
  unfold State.detach
  cases h : s.cand c with
  | none =>
    by_cases he : e = c
    · subst he; simp [h]
    · simp [he]
  | some k => simp [cand_setCand]

theorem detach_dest (s : State) (c : CandId) (k : Cand) (h : s.cand c = some k) (d : DestId) : (s.detach c).dest d =
    if d = k.dest then (s.dest d).map (fun r => { r with chain := r.chain.erase c }) else s.dest d := by
  simp only [State.detach, h, dropReference_dest, dest_setCand, updateDest_dest]
  by_cases hd : d = k.dest
  · subst hd; simp
  · simp [hd]

theorem detach_link (s : State) (c : CandId) (k : Cand) (h : s.cand c = some k) (i : LinkId) : (s.detach c).link i =
    if i = k.link then (s.link i).bind Link.dropped else s.link i := by
  have hl : ∀ j, ((s.updateDest k.dest (fun r => { r with chain := r.chain.erase c })).setCand c none).link j =
      s.link j := fun j => State.pathsOnly_link (updateDest_pathsOnly _ _ _) j
  simp only [State.detach, h, dropReference_link, hl]
  by_cases hi : i = k.link
  · subst hi; simp
  · simp [hi]

/-! ### A candidate removed (R66) -/

theorem afterRemoval_reselects (s : State) (d : DestId) : s.reselects (s.afterRemoval d) d := by
  unfold State.afterRemoval
  cases hr : s.dest d with
  | none => exact State.reselects_rfl s d
  | some r =>
    dsimp only
    split
    · exact setActive_reselects s d none (fun _ _ => .inr (.inl rfl))
    · exact chainEditCheck_reselects s d

theorem removeCand_eq (s : State) (c : CandId) (k : Cand) (h : s.cand c = some k) :
    s.removeCand c = (s.detach c).afterRemoval k.dest := by simp [State.removeCand, h]

theorem removeCand_tablesOnly (s : State) (c : CandId) : s.tablesOnly (s.removeCand c) := by
  unfold State.removeCand
  split
  · rfl
  · exact State.tablesOnly_trans (detach_tablesOnly s c)
      (State.pathsOnly_tablesOnly (afterRemoval_reselects _ _).pathsOnly)

theorem removeCand_cand (s : State) (c e : CandId) :
    sameButCost (if e = c then none else s.cand e) ((s.removeCand c).cand e) := by
  cases h : s.cand c with
  | none =>
    rw [show s.removeCand c = s by simp [State.removeCand, h]]
    by_cases he : e = c
    · subst he; simp [h]
    · simp [he]
  | some k =>
    rw [removeCand_eq s c k h, ← detach_cand]
    exact (afterRemoval_reselects _ _).same e

theorem removeCand_link (s : State) (c : CandId) (k : Cand) (h : s.cand c = some k) (i : LinkId) :
    (s.removeCand c).link i = if i = k.link then (s.link i).bind Link.dropped else s.link i := by
  rw [removeCand_eq s c k h, State.pathsOnly_link (afterRemoval_reselects _ _).pathsOnly, detach_link s c k h]

theorem removeCand_dest_ne (s : State) (c : CandId) (k : Cand) (h : s.cand c = some k) (d : DestId) (hd : d ≠ k.dest) :
    (s.removeCand c).dest d = s.dest d ∧ (s.removeCand c).changed.get d = s.changed.get d := by
  rw [removeCand_eq s c k h]
  have hr := afterRemoval_reselects (s.detach c) k.dest
  rw [hr.dest_ne hd, hr.changed_ne hd, detach_dest s c k h, if_neg hd, detach_changed]
  exact ⟨rfl, rfl⟩

/-! ### The chains' laws under an edit -/

theorem selectNow_active_mem {s : State} {d : DestId} {r' : Dest} {a : CandId} (hr : (s.selectNow d).dest d = some r')
    (ha : r'.active = some a) : a ∈ r'.chain := by
  cases hs : s.dest d with
  | none => rw [show s.selectNow d = s by simp [State.selectNow, hs], hs] at hr; cases hr
  | some r =>
    rw [selectNow_eq s d r hs, setActive_dest, if_pos rfl, refreshCosts_dest, hs] at hr
    cases hr
    rw [Dest.withActive_active] at ha
    rw [Dest.withActive_chain]
    exact (List.mem_filter.1 (cheapest_mem ha)).1

theorem chainEditCheck_active_mem {s : State} {d : DestId} {r' : Dest} {a : CandId}
    (hr : (s.chainEditCheck d).dest d = some r') (ha : r'.active = some a) : a ∈ r'.chain := by
  unfold State.chainEditCheck at hr
  cases hs : s.dest d with
  | none => simp [hs] at hr
  | some r =>
    cases hb : r.active with
    | none => simp only [hs, hb] at hr; exact selectNow_active_mem hr ha
    | some b =>
      by_cases h : (r.chain.contains b && s.candUsable b) = true
      · simp only [hs, hb, h, if_true, refreshCost_dest, Option.some.injEq] at hr
        subst hr
        rw [hb] at ha; cases ha
        rw [Bool.and_eq_true] at h
        simpa using h.1
      · simp only [hs, hb, h] at hr; exact selectNow_active_mem hr ha

theorem afterRemoval_active_mem {s : State} {d : DestId} {r' : Dest} {a : CandId}
    (hr : (s.afterRemoval d).dest d = some r') (ha : r'.active = some a) : a ∈ r'.chain := by
  unfold State.afterRemoval at hr
  cases hs : s.dest d with
  | none => simp [hs] at hr
  | some r =>
    simp only [hs] at hr
    split at hr
    · rw [setActive_dest, if_pos rfl, hs] at hr
      cases hr
      rw [Dest.withActive_active] at ha; cases ha
    · exact chainEditCheck_active_mem hr ha

/-- A chain sound but for its active candidate. -/
def State.chainWoven (s : State) (d : DestId) (r : Dest) : Prop := s.chainSound d { r with active := none }

theorem State.chainSound.woven {s : State} {d : DestId} {r : Dest} (h : s.chainSound d r) : s.chainWoven d r :=
  ⟨h.1, h.2.1, h.2.2.1, h.2.2.2.1, by simp⟩

theorem State.chainWoven.sound {s : State} {d : DestId} {r : Dest} (h : s.chainWoven d r)
    (k : ∀ a, r.active = some a → a ∈ r.chain ∧ r.lastSwitch.isSome = true) : s.chainSound d r :=
  ⟨h.1, h.2.1, h.2.2.1, h.2.2.2.1, k⟩

theorem chainWoven_of_chain {s : State} {d : DestId} {r r' : Dest} (h : s.chainWoven d r) (k : r'.chain = r.chain) :
    s.chainWoven d r' := by
  obtain ⟨h1, h2, h3, h4, -⟩ := h
  refine ⟨by rw [k]; exact h1, by rw [k]; exact h2, by rw [k]; exact h3, by rw [k]; exact h4, by simp⟩

/-- Chains woven in an edited state become sound by a reselection that leaves a member active. -/
theorem pathsSound_edit {u t : State} {d : DestId} (hw : ∀ e r, u.dest e = some r → u.chainWoven e r)
    (hc : ∀ c k, u.cand c = some k → ∃ r, u.dest k.dest = some r ∧ c ∈ r.chain)
    (ho : ∀ e r, e ≠ d → u.dest e = some r → ∀ a, r.active = some a → a ∈ r.chain ∧ r.lastSwitch.isSome = true)
    (hl : ∀ r, u.dest d = some r → ∀ a, r.active = some a → r.lastSwitch.isSome = true) (hr : u.reselects t d)
    (hm : ∀ r' a, t.dest d = some r' → r'.active = some a → a ∈ r'.chain) : t.pathsSound := by
  constructor
  · intro e r' he
    by_cases hed : e = d
    · subst hed
      cases hu : u.dest e with
      | none => rw [hr.2.2.2.1 hu, hu] at he; cases he
      | some r =>
        obtain ⟨-, a, h1, -, -⟩ := hr.2.2.2.2 r hu
        have hch : r'.chain = r.chain := by rw [h1] at he; cases he; simp
        refine (chainWoven_of_chain (chainSound_congr hr.same (hw e r hu)) hch).sound ?_
        intro b hb
        refine ⟨hm r' b he hb, ?_⟩
        rw [h1] at he; cases he
        rcases Dest.withActive_booked r u.now a with h4 | ⟨h4, -, -⟩
        · rw [h4] at hb ⊢; exact hl r hu b hb
        · simp [h4]
    · have hu : u.dest e = some r' := by rw [← hr.dest_ne hed, he]
      exact State.chainWoven.sound (chainSound_congr hr.same (hw e r' hu)) (ho e r' hed hu)
  · intro c k hk
    rcases sameButCost_iff.1 (hr.same c) with ⟨-, x⟩ | ⟨k1, k2, e1, e2, e3, -, -⟩
    · rw [hk] at x; cases x
    · rw [hk] at e2; cases e2
      obtain ⟨r, h1, h2⟩ := hc c k1 e1
      rw [e3]
      by_cases hed : k1.dest = d
      · subst hed
        obtain ⟨-, a, h3, -⟩ := hr.2.2.2.2 r h1
        exact ⟨_, h3, by simpa using h2⟩
      · exact ⟨r, by rw [hr.dest_ne hed]; exact h1, h2⟩

/-- A chain loses a candidate, and the other candidates stay. -/
theorem chainWoven_erase {s t : State} {d : DestId} {r r' : Dest} {c : CandId}
    (hc : ∀ e, e ≠ c → t.cand e = s.cand e) (hr : r'.chain = r.chain.erase c) (h : s.chainWoven d r) :
    t.chainWoven d r' := by
  obtain ⟨h1, h2, h3, h4, -⟩ := h
  have hm : ∀ e ∈ r'.chain, e ∈ r.chain ∧ e ≠ c := by
    intro e he
    rw [hr] at he
    exact ⟨List.mem_of_mem_erase he, fun x => by subst x; exact (h2.not_mem_erase) he⟩
  refine ⟨?_, ?_, ?_, ?_, by simp⟩
  · show r'.chain.length ≤ 4
    rw [hr]; exact (List.length_erase_le).trans h1
  · show r'.chain.Nodup
    rw [hr]; exact h2.erase c
  · intro e he
    obtain ⟨m1, m2⟩ := hm e he
    rw [hc e m2]
    exact h3 e m1
  · intro e he f hf
    obtain ⟨m1, m2⟩ := hm e he
    obtain ⟨n1, n2⟩ := hm f hf
    rw [hc e m2, hc f n2]
    exact h4 e m1 f n1

/-- After steps 1 to 3 of R66 the chains are woven, and the candidates in use are members of their chains. -/
theorem detach_woven {s : State} (c : CandId) (hs : s.pathsSound) :
    (∀ e r, (s.detach c).dest e = some r → (s.detach c).chainWoven e r) ∧
      ∀ f k, (s.detach c).cand f = some k → ∃ r, (s.detach c).dest k.dest = some r ∧ f ∈ r.chain := by
  cases h : s.cand c with
  | none =>
    rw [detach_free s c h]
    exact ⟨fun e r he => (hs.1 e r he).woven, hs.2⟩
  | some k =>
    have hc : ∀ e, e ≠ c → (s.detach c).cand e = s.cand e := fun e he => by rw [detach_cand, if_neg he]
    constructor
    · intro e r he
      rw [detach_dest s c k h] at he
      split at he
      · next hk =>
        cases hd : s.dest e with
        | none => rw [hd] at he; cases he
        | some r0 =>
          rw [hd] at he; cases he
          exact chainWoven_erase hc rfl (hs.1 e r0 hd).woven
      · next hk =>
        refine chainWoven_erase (c := c) hc ?_ (hs.1 e r he).woven
        rw [List.erase_of_not_mem]
        intro hm
        obtain ⟨k', h1, h2⟩ := (hs.1 e r he).2.2.1 c hm
        rw [h] at h1; cases h1
        exact hk h2.symm
    · intro f k' hf
      have hfc : f ≠ c := fun x => by subst x; rw [detach_cand, if_pos rfl] at hf; cases hf
      rw [hc f hfc] at hf
      obtain ⟨r, h1, h2⟩ := hs.2 f k' hf
      rw [detach_dest s c k h]
      split
      · exact ⟨_, by rw [h1]; rfl, (List.mem_erase_of_ne hfc).2 h2⟩
      · exact ⟨r, h1, h2⟩

theorem removeCand_pathsSound {s : State} (c : CandId) (hs : s.pathsSound) : (s.removeCand c).pathsSound := by
  cases h : s.cand c with
  | none => rw [show s.removeCand c = s by simp [State.removeCand, h]]; exact hs
  | some k =>
    rw [removeCand_eq s c k h]
    obtain ⟨hw, hc⟩ := detach_woven c hs
    refine pathsSound_edit hw hc ?_ ?_ (afterRemoval_reselects _ _) (fun _ _ => afterRemoval_active_mem)
    · intro e r he hr
      rw [detach_dest s c k h, if_neg he] at hr
      exact (hs.1 e r hr).2.2.2.2
    · intro r hr a ha
      rw [detach_dest s c k h, if_pos rfl] at hr
      cases hd : s.dest k.dest with
      | none => rw [hd] at hr; cases hr
      | some r0 =>
        rw [hd] at hr; cases hr
        exact ((hs.1 k.dest r0 hd).2.2.2.2 a ha).2

end Sys2Proof.Machine
end

