-- ==== Sys2Proof/Laws/Retirement.lean ====
section
/-! SUPPORT. Removal of every candidate of a link or of a destination, the retirement and the retune of a link: what each
can do, said once, with the reference counts and the switch bookkeeping they keep. -/

namespace Sys2Proof.Machine

/-! ### The switch bookkeeping over an operation that may change chains (R78) -/

/-- Destination `d`, if in use after, was in use before with the same address, and either kept its active candidate, last
switch time, switch count and mark, or was switched with the bookkeeping of R78. -/
def State.booked (s t : State) (d : DestId) : Prop :=
  ∀ r', t.dest d = some r' → ∃ r, s.dest d = some r ∧ r'.address = r.address ∧
    ((r'.active = r.active ∧ r'.lastSwitch = r.lastSwitch ∧ r'.switchCount = r.switchCount ∧
        t.changed.get d = s.changed.get d) ∨
      (r'.lastSwitch = some s.now ∧ t.changed.get d = true ∧ min (r.switchCount + 1) 65535 ≤ r'.switchCount))

theorem State.booked_of_eq {s t : State} {d : DestId} (h : t.dest d = s.dest d)
    (hc : t.changed.get d = s.changed.get d) : s.booked t d :=
  fun r' hr => ⟨r', by rw [← h, hr], rfl, .inl ⟨rfl, rfl, rfl, hc⟩⟩

theorem State.booked_trans {s t u : State} {d : DestId} (hn : t.now = s.now) (h : s.booked t d) (k : t.booked u d) :
    s.booked u d := by
  intro r2 h2
  obtain ⟨r1, h1, e1, b⟩ := k r2 h2
  obtain ⟨r, h0, e0, a⟩ := h r1 h1
  refine ⟨r, h0, e1.trans e0, ?_⟩
  rw [hn] at b
  rcases b with ⟨b1, b2, b3, b4⟩ | ⟨b1, b2, b3⟩ <;> rcases a with ⟨a1, a2, a3, a4⟩ | ⟨a1, a2, a3⟩
  · exact .inl ⟨b1.trans a1, b2.trans a2, b3.trans a3, b4.trans a4⟩
  · exact .inr ⟨b2.trans a1, b4.trans a2, by omega⟩
  · exact .inr ⟨b1, b2, by omega⟩
  · exact .inr ⟨b1, b2, by omega⟩

theorem State.bookKept.booked {s t : State} {d : DestId} (h : s.bookKept t d) : s.booked t d := by
  intro r' hr'
  unfold State.bookKept at h
  cases hr : s.dest d with
  | none => simp [hr, hr'] at h
  | some r =>
    simp only [hr, hr'] at h
    obtain ⟨h1, -, h3⟩ := h
    refine ⟨r, rfl, h1, ?_⟩
    rcases h3 with ⟨rfl, h4⟩ | h3
    · exact .inl ⟨rfl, rfl, rfl, h4⟩
    · exact .inr h3

theorem detach_booked (s : State) (c : CandId) (d : DestId) : s.booked (s.detach c) d := by
  cases h : s.cand c with
  | none => rw [detach_free s c h]; exact State.booked_of_eq rfl rfl
  | some k =>
    intro r' hr'
    rw [detach_dest s c k h] at hr'
    split at hr'
    · cases hd : s.dest d with
      | none => rw [hd] at hr'; cases hr'
      | some r => rw [hd] at hr'; cases hr'; exact ⟨r, rfl, rfl, .inl ⟨rfl, rfl, rfl, by simp⟩⟩
    · exact ⟨r', hr', rfl, .inl ⟨rfl, rfl, rfl, by simp⟩⟩

theorem removeCand_booked (s : State) (c : CandId) (d : DestId) : s.booked (s.removeCand c) d := by
  cases h : s.cand c with
  | none => rw [show s.removeCand c = s by simp [State.removeCand, h]]; exact State.booked_of_eq rfl rfl
  | some k =>
    rw [removeCand_eq s c k h]
    exact State.booked_trans (State.tablesOnly_now (detach_tablesOnly s c)) (detach_booked s c d)
      ((afterRemoval_reselects _ _).bookKept d).booked

/-! ### Reference counts (R20) -/

theorem refsExact_congr {s t : State} (h : ∀ c i, t.candNames i c = s.candNames i c)
    (hl : ∀ i, (t.link i).map Link.refs = (s.link i).map Link.refs) (hs : s.refsExact) : t.refsExact := by
  intro i
  have h1 : t.candsNaming i = s.candsNaming i := by
    unfold State.candsNaming
    exact List.filter_congr (fun c _ => h c i)
  rw [h1, hs i]
  have := hl i
  cases h2 : t.link i <;> cases h3 : s.link i <;> simp_all

theorem State.pathsOnly_refsExact {s t : State} (h : s.pathsOnly t) (hc : ∀ c, sameButCost (s.cand c) (t.cand c))
    (hs : s.refsExact) : t.refsExact :=
  refsExact_congr (fun c i => candNames_congr (hc c) i) (fun i => by rw [State.pathsOnly_link h]) hs

theorem candNames_detach (s : State) (c e : CandId) (i : LinkId) :
    (s.detach c).candNames i e = (e != c && s.candNames i e) := by
  unfold State.candNames
  rw [detach_cand]
  by_cases h : e = c
  · subst h; simp
  · simp [h]

theorem candsNaming_nodup (s : State) (i : LinkId) : (s.candsNaming i).Nodup := (List.nodup_finRange _).filter _

theorem mem_candsNaming {s : State} {i : LinkId} {c : CandId} : c ∈ s.candsNaming i ↔ s.candNames i c = true := by
  simp [State.candsNaming]

theorem candsNaming_detach (s : State) (c : CandId) (i : LinkId) :
    (s.detach c).candsNaming i = (s.candsNaming i).erase c := by
  rw [(candsNaming_nodup s i).erase_eq_filter]
  unfold State.candsNaming
  rw [List.filter_filter]
  exact List.filter_congr (fun e _ => candNames_detach s c e i)

theorem detach_refsExact {s : State} (c : CandId) (hs : s.refsExact) : (s.detach c).refsExact := by
  cases h : s.cand c with
  | none => rw [detach_free s c h]; exact hs
  | some k =>
    intro i
    rw [candsNaming_detach, detach_link s c k h]
    by_cases hi : i = k.link
    · subst hi
      have hm : c ∈ s.candsNaming k.link := mem_candsNaming.2 (by simp [State.candNames, h])
      have hpos := List.length_pos_of_mem hm
      rw [List.length_erase_of_mem hm, if_pos rfl]
      have := hs k.link
      cases hl : s.link k.link with
      | none => rw [hl] at this; simp only at this; omega
      | some l =>
        rw [hl] at this
        have hle : (s.candsNaming k.link).length = l.refs := this
        by_cases hx : l.state = .retiring ∧ l.refs ≤ 1
        · have hd : (some l).bind Link.dropped = none := by simp [Link.dropped, hx]
          rw [hd]
          show _ - 1 = 0
          omega
        · have hd : (some l).bind Link.dropped = some { l with refs := l.refs - 1 } := by simp [Link.dropped, hx]
          rw [hd]
          show _ - 1 = l.refs - 1
          omega
    · have hm : c ∉ s.candsNaming i := by
        rw [mem_candsNaming]
        simp only [State.candNames, h, beq_iff_eq]
        exact fun x => hi x.symm
      rw [List.erase_of_not_mem hm, if_neg hi]
      exact hs i

theorem removeCand_refsExact {s : State} (c : CandId) (hs : s.refsExact) : (s.removeCand c).refsExact := by
  cases h : s.cand c with
  | none => rw [show s.removeCand c = s by simp [State.removeCand, h]]; exact hs
  | some k =>
    rw [removeCand_eq s c k h]
    have hr := afterRemoval_reselects (s.detach c) k.dest
    exact State.pathsOnly_refsExact hr.pathsOnly hr.same (detach_refsExact c hs)

/-! ### Several candidates taken out of their chains (R67) -/

theorem foldl_detach (cs : List CandId) (s : State) :
    let t := cs.foldl State.detach s
    s.tablesOnly t ∧ t.changed = s.changed ∧ (∀ e, t.cand e = if e ∈ cs then none else s.cand e) ∧
      (∀ d, s.booked t d) ∧ (s.refsExact → t.refsExact) ∧
      (∀ d, (∀ c ∈ cs, ∀ k, s.cand c = some k → k.dest ≠ d) → t.dest d = s.dest d) ∧
      (∀ i, (∀ c ∈ cs, s.candNames i c = false) → t.link i = s.link i) := by
  induction cs generalizing s with
  | nil => exact ⟨rfl, rfl, by simp, fun d => State.booked_of_eq rfl rfl, id, fun _ _ => rfl, fun _ _ => rfl⟩
  | cons c cs ih =>
    obtain ⟨h1, h2, h3, h4, h5, h6, h7⟩ := ih (s.detach c)
    simp only [List.foldl_cons]
    refine ⟨State.tablesOnly_trans (detach_tablesOnly s c) h1, by rw [h2, detach_changed], ?_, ?_, ?_, ?_, ?_⟩
    · intro e
      rw [h3, detach_cand]
      by_cases he : e = c
      · subst he; simp
      · simp [he]
    · exact fun d => State.booked_trans (State.tablesOnly_now (detach_tablesOnly s c)) (detach_booked s c d) (h4 d)
    · exact fun h => h5 (detach_refsExact c h)
    · intro d hd
      rw [h6 d]
      · cases h : s.cand c with
        | none => rw [detach_free s c h]
        | some k => rw [detach_dest s c k h, if_neg (fun x => hd c (by simp) k h x.symm)]
      · intro e he k hk
        rw [detach_cand] at hk
        split at hk
        · cases hk
        · exact hd e (by simp [he]) k hk
    · intro i hi
      rw [h7 i]
      · cases h : s.cand c with
        | none => rw [detach_free s c h]
        | some k =>
          rw [detach_link s c k h, if_neg]
          intro x
          have := hi c (by simp)
          simp [State.candNames, h, x] at this
      · intro e he
        rw [candNames_detach, hi e (by simp [he]), Bool.and_false]

/-- A link that exactly one candidate of the list names loses one reference. -/
theorem foldl_detach_link (cs : List CandId) (s : State) (i : LinkId) (c : CandId) (hc : c ∈ cs)
    (hn : s.candNames i c = true) (ho : ∀ e ∈ cs, s.candNames i e = true → e = c) :
    (cs.foldl State.detach s).link i = (s.link i).bind Link.dropped := by
  induction cs generalizing s with
  | nil => cases hc
  | cons x cs ih =>
    simp only [List.foldl_cons]
    by_cases hx : x = c
    · subst hx
      obtain ⟨-, -, -, -, -, -, h7⟩ := foldl_detach cs (s.detach x)
      rw [h7 i]
      · cases h : s.cand x with
        | none => simp [State.candNames, h] at hn
        | some k =>
          have : k.link = i := by simpa [State.candNames, h] using hn
          rw [detach_link s x k h, if_pos this.symm]
      · intro e he
        rw [candNames_detach]
        by_cases hex : e = x
        · simp [hex]
        · have hf : s.candNames i e ≠ true := fun y => hex (ho e (by simp [he]) y)
          simp [hf]
    · have hcx : c ≠ x := fun y => hx y.symm
      have hm : c ∈ cs := by simpa [hcx] using hc
      rw [ih (s.detach x) hm (by rw [candNames_detach]; simp [hcx, hn])]
      · cases h : s.cand x with
        | none => rw [detach_free s x h]
        | some k =>
          rw [detach_link s x k h, if_neg]
          intro y
          exact hx (ho x (by simp) (by simp [State.candNames, h, y]))
      · intro e he hne
        rw [candNames_detach, Bool.and_eq_true] at hne
        exact ho e (by simp [he]) hne.2

/-! ### A destination removed (R67) -/

theorem removeDest_spec (s : State) (d : DestId) (r : Dest) (hr : s.dest d = some r) :
    s.tablesOnly (s.removeDest d) ∧ (s.removeDest d).dest d = none ∧ (s.removeDest d).changed.get d = false ∧
      (∀ c, (s.removeDest d).cand c = if c ∈ r.chain then none else s.cand c) ∧
      (∀ e, s.booked (s.removeDest d) e) ∧ (s.refsExact → (s.removeDest d).refsExact) ∧
      (∀ e, e ≠ d → (s.removeDest d).changed.get e = s.changed.get e) ∧
      (∀ e, e ≠ d → (∀ c ∈ r.chain, ∀ k, s.cand c = some k → k.dest ≠ e) →
        (s.removeDest d).dest e = s.dest e) ∧
      (∀ i, (∀ c ∈ r.chain, s.candNames i c = false) → (s.removeDest d).link i = s.link i) ∧
      ∀ i c, c ∈ r.chain → s.candNames i c = true → (∀ e ∈ r.chain, s.candNames i e = true → e = c) →
        (s.removeDest d).link i = (s.link i).bind Link.dropped := by
  obtain ⟨u, hu⟩ : ∃ u, u = s.setDest d (some { r with active := none, lastSwitch := none, switchCount := 0 }) :=
    ⟨_, rfl⟩
  have he : s.removeDest d = ((r.chain.foldl State.detach u).setDest d none).setChanged d false := by
    simp [State.removeDest, hr, hu]
  have hcand : ∀ c, u.cand c = s.cand c := by intro c; rw [hu]; rfl
  have hnames : ∀ i c, u.candNames i c = s.candNames i c := by intro i c; simp only [State.candNames, hcand]
  have hlink : ∀ i, u.link i = s.link i := by intro i; rw [hu]; rfl
  have hdest : ∀ e, e ≠ d → u.dest e = s.dest e := by intro e h; rw [hu, dest_setDest, if_neg h]
  have hch : u.changed = s.changed := by rw [hu]; rfl
  obtain ⟨h1, h2, h3, h4, h5, h6, h7⟩ := foldl_detach r.chain u
  have hnow : u.now = s.now := by rw [hu]; rfl
  have huo : s.tablesOnly u := by rw [hu]; exact State.pathsOnly_tablesOnly (setDest_pathsOnly _ _ _)
  rw [he]
  refine ⟨?_, ?_, ?_, ?_, ?_, ?_, ?_, ?_, ?_, ?_⟩
  · exact State.tablesOnly_trans huo (State.tablesOnly_trans h1 rfl)
  · simp
  · simp [State.setChanged]
  · intro c
    rw [cand_setChanged, cand_setDest, h3, hcand]
  · intro e
    by_cases hed : e = d
    · subst hed
      intro r' hr'
      simp at hr'
    · intro r' hr'
      rw [dest_setChanged, dest_setDest, if_neg hed] at hr'
      obtain ⟨r0, a1, a2, a3⟩ := h4 e r' hr'
      refine ⟨r0, by rw [← hdest e hed, a1], a2, ?_⟩
      rw [changed_setChanged, if_neg hed, setDest_changed]
      rw [hnow, h2] at a3
      rwa [h2, ← hch]
  · intro h
    refine refsExact_congr (s := r.chain.foldl State.detach u) (fun _ _ => rfl) (fun _ => rfl) (h5 ?_)
    exact refsExact_congr (fun c i => hnames i c) (fun i => by rw [hlink]) h
  · intro e hed
    rw [changed_setChanged, if_neg hed, setDest_changed, h2, hch]
  · intro e hed hk
    rw [dest_setChanged, dest_setDest, if_neg hed, h6 e (fun c hc k hk' => hk c hc k (by rw [← hcand, hk'])), hdest e hed]
  · intro i hi
    rw [link_setChanged, link_setDest, h7 i (fun c hc => by rw [hnames]; exact hi c hc), hlink]
  · intro i c hc hn ho
    rw [link_setChanged, link_setDest, foldl_detach_link r.chain u i c hc (by rw [hnames]; exact hn)
      (fun e he' hne => ho e he' (by rw [← hnames]; exact hne)), hlink]

theorem removeDest_vacant (s : State) (d : DestId) (h : s.dest d = none) : s.removeDest d = s := by
  simp [State.removeDest, h]

theorem removeDest_pathsSound {s : State} (d : DestId) (hs : s.pathsSound) : (s.removeDest d).pathsSound := by
  cases hr : s.dest d with
  | none => rw [removeDest_vacant s d hr]; exact hs
  | some r =>
    obtain ⟨-, h2, -, h4, -, -, -, h8, -, -⟩ := removeDest_spec s d r hr
    have hch : ∀ c ∈ r.chain, ∀ k, s.cand c = some k → k.dest = d := by
      intro c hc k hk
      obtain ⟨k', e1, e2⟩ := (hs.1 d r hr).2.2.1 c hc
      rw [hk] at e1; cases e1; exact e2
    have hdest : ∀ e, e ≠ d → (s.removeDest d).dest e = s.dest e :=
      fun e he => h8 e he (fun c hc k hk x => he ((hch c hc k hk).symm.trans x).symm)
    constructor
    · intro e r' he
      have hed : e ≠ d := fun x => by subst x; rw [h2] at he; cases he
      rw [hdest e hed] at he
      have hc : ∀ c ∈ r'.chain, (s.removeDest d).cand c = s.cand c := by
        intro c hc
        rw [h4, if_neg]
        intro hx
        obtain ⟨k, e1, e2⟩ := (hs.1 e r' he).2.2.1 c hc
        exact hed (e2.symm.trans (hch c hx k e1))
      obtain ⟨a1, a2, a3, a4, a5⟩ := hs.1 e r' he
      refine ⟨a1, a2, ?_, ?_, a5⟩
      · intro c hcm; rw [hc c hcm]; exact a3 c hcm
      · intro c hcm f hf; rw [hc c hcm, hc f hf]; exact a4 c hcm f hf
    · intro c k hk
      rw [h4] at hk
      split at hk
      · cases hk
      · next hx =>
        obtain ⟨r', e1, e2⟩ := hs.2 c k hk
        refine ⟨r', ?_, e2⟩
        rw [hdest]
        · exact e1
        · intro y
          rw [y, hr] at e1; cases e1
          exact hx e2

/-! ### One link record written, with a notice to the Path Resolver (R18, R19) -/

/-- Only link `i` of the links was written, as `l`; destinations changed by booked switches only, and candidates in their
last path costs. -/
def State.linkWritten (s t : State) (i : LinkId) (l : Option Link) : Prop :=
  s.tablesOnly t ∧ (∀ j, t.link j = if j = i then l else s.link j) ∧ s.pathsReselected t ∧ (s.pathsSound → t.pathsSound)

theorem setLink_pathsSound {s : State} (i : LinkId) (l : Option Link) (h : s.pathsSound) :
    (s.setLink i l).pathsSound := h

theorem setLink_linkWritten (s : State) (i : LinkId) (l : Option Link) : s.linkWritten (s.setLink i l) i l :=
  ⟨rfl, fun _ => link_setLink _ _ _ _, State.pathsReselected_rfl s, setLink_pathsSound i l⟩

theorem activeOn_setLink (s : State) (i j : LinkId) (l : Option Link) (d : DestId) :
    (s.setLink i l).activeOn j d = s.activeOn j d := rfl

theorem waitsOn_setLink (s : State) (i j : LinkId) (l : Option Link) (d : DestId) :
    (s.setLink i l).waitsOn j d = s.waitsOn j d := rfl

theorem lost_linkWritten (s : State) (i : LinkId) (l : Option Link) :
    s.linkWritten ((s.setLink i l).usableLost i) i l ∧
      ∀ d, s.activeOn i d = false → ((s.setLink i l).usableLost i).dest d = s.dest d ∧
        ((s.setLink i l).usableLost i).changed.get d = s.changed.get d := by
  obtain ⟨h1, h2, h3, h4⟩ := usableLost_spec (s.setLink i l) i
  refine ⟨⟨State.tablesOnly_trans (setLink_tablesOnly s i l) (State.pathsOnly_tablesOnly h1), fun j => ?_, h2, fun h => h3 h⟩, h4⟩
  rw [State.pathsOnly_link h1, link_setLink]

theorem gained_linkWritten (s : State) (i : LinkId) (l : Option Link) :
    s.linkWritten ((s.setLink i l).usableGained i) i l ∧
      ∀ d, s.waitsOn i d = false → ((s.setLink i l).usableGained i).dest d = s.dest d ∧
        ((s.setLink i l).usableGained i).changed.get d = s.changed.get d := by
  obtain ⟨h1, h2, h3, h4⟩ := usableGained_spec (s.setLink i l) i
  refine ⟨⟨State.tablesOnly_trans (setLink_tablesOnly s i l) (State.pathsOnly_tablesOnly h1), fun j => ?_, h2, fun h => h3 h⟩, h4⟩
  rw [State.pathsOnly_link h1, link_setLink]

theorem State.linkWritten.refsExact {s t : State} {i : LinkId} {l : Option Link} (h : s.linkWritten t i l)
    (hl : l.map Link.refs = (s.link i).map Link.refs) (hs : s.refsExact) : t.refsExact := by
  refine refsExact_congr (fun c j => candNames_congr (h.2.2.1.2 c) j) (fun j => ?_) hs
  rw [h.2.1 j]
  split
  · next hj => rw [hj]; exact hl
  · rfl

/-- A link that no candidate names becomes Vacant. -/
theorem State.linkWritten.refsExact_vacant {s t : State} {i : LinkId} (h : s.linkWritten t i none)
    (hn : s.candsNaming i = []) (hs : ∀ j, j ≠ i → (s.candsNaming j).length = match s.link j with
      | some l => l.refs
      | none => 0) : t.refsExact := by
  intro j
  have hc : t.candsNaming j = s.candsNaming j :=
    List.filter_congr (fun c _ => candNames_congr (h.2.2.1.2 c) j)
  rw [hc, h.2.1 j]
  by_cases hj : j = i
  · subst hj; simp [hn]
  · rw [if_neg hj]; exact hs j hj

/-! ### Every candidate of a link removed (R22) -/

theorem candNames_removeCand (s : State) (c e : CandId) (i : LinkId) :
    (s.removeCand c).candNames i e = (e != c && s.candNames i e) := by
  cases h : s.cand c with
  | none =>
    rw [show s.removeCand c = s by simp [State.removeCand, h]]
    by_cases he : e = c
    · subst he; simp [State.candNames, h]
    · simp [he]
  | some k =>
    rw [removeCand_eq s c k h, candNames_congr ((afterRemoval_reselects _ _).same e), candNames_detach]

theorem removeCand_link_ne (s : State) (c : CandId) (i j : LinkId) (hn : s.candNames i c = true) (hj : j ≠ i) :
    (s.removeCand c).link j = s.link j := by
  cases h : s.cand c with
  | none => simp [State.candNames, h] at hn
  | some k =>
    have : k.link = i := by simpa [State.candNames, h] using hn
    rw [removeCand_link s c k h, if_neg (fun x => hj (x.trans this))]

theorem removeCand_dest_none (s : State) (c : CandId) (d : DestId) (h : s.dest d = none) :
    (s.removeCand c).dest d = none := by
  cases hd : (s.removeCand c).dest d with
  | none => rfl
  | some r =>
    obtain ⟨r0, h0, -⟩ := removeCand_booked s c d r hd
    rw [h] at h0; cases h0

theorem removeCand_chain (s : State) (c : CandId) (k : Cand) (r : Dest) (hk : s.cand c = some k)
    (hr : s.dest k.dest = some r) : ∃ r', (s.removeCand c).dest k.dest = some r' ∧ r'.address = r.address ∧
      r'.chain = r.chain.erase c := by
  rw [removeCand_eq s c k hk]
  have hd : (s.detach c).dest k.dest = some { r with chain := r.chain.erase c } := by
    rw [detach_dest s c k hk, if_pos rfl, hr]; rfl
  obtain ⟨-, a, h1, -⟩ := (afterRemoval_reselects (s.detach c) k.dest).2.2.2.2 _ hd
  exact ⟨_, h1, by simp, by simp⟩

/-- The walk of R22 over a list of candidate ids. -/
def State.removeAllOf (s : State) (i : LinkId) (cs : List CandId) : State :=
  cs.foldl (fun s c => if s.candNames i c then s.removeCand c else s) s

theorem removeAllOf_spec (cs : List CandId) (s : State) (i : LinkId) :
    s.tablesOnly (s.removeAllOf i cs) ∧
      (∀ c, c ∈ cs → s.candNames i c = true → (s.removeAllOf i cs).cand c = none) ∧
      (∀ c, (c ∉ cs ∨ s.candNames i c = false) → sameButCost (s.cand c) ((s.removeAllOf i cs).cand c)) ∧
      (∀ j, j ≠ i → (s.removeAllOf i cs).link j = s.link j) ∧
      (∀ d, s.booked (s.removeAllOf i cs) d) ∧ (s.refsExact → (s.removeAllOf i cs).refsExact) ∧
      (s.pathsSound → (s.removeAllOf i cs).pathsSound) := by
  induction cs generalizing s with
  | nil =>
    exact ⟨rfl, fun _ h => absurd h (by simp), fun _ _ => sameButCost_rfl _, fun _ _ => rfl,
      fun _ => State.booked_of_eq rfl rfl, id, id⟩
  | cons c cs ih =>
    by_cases hn : s.candNames i c = true
    · have he : s.removeAllOf i (c :: cs) = (s.removeCand c).removeAllOf i cs := by simp [State.removeAllOf, hn]
      rw [he]
      obtain ⟨h1, h2, h3, h4, h5, h6, h7⟩ := ih (s.removeCand c)
      refine ⟨State.tablesOnly_trans (removeCand_tablesOnly s c) h1, ?_, ?_, ?_, ?_, ?_, ?_⟩
      · intro e he hne
        by_cases hec : e = c
        · subst hec
          have hx : (s.removeCand e).cand e = none := by
            have := removeCand_cand s e e
            rw [if_pos rfl] at this
            exact (sameButCost_none_iff this).2 rfl
          have hy := h3 e (.inr (by rw [candNames_removeCand]; simp))
          rw [hx] at hy
          exact (sameButCost_none_iff hy).2 rfl
        · exact h2 e (by simpa [hec] using he) (by rw [candNames_removeCand]; simp [hec, hne])
      · intro e he
        have hec : e ≠ c := by
          rintro rfl
          rcases he with he | he
          · simp at he
          · rw [hn] at he; cases he
        have hx := removeCand_cand s c e
        rw [if_neg hec] at hx
        refine sameButCost_trans hx (h3 e ?_)
        rcases he with he | he
        · exact .inl (fun y => he (by simp [y]))
        · exact .inr (by rw [candNames_removeCand, he, Bool.and_false])
      · intro j hj
        rw [h4 j hj, removeCand_link_ne s c i j hn hj]
      · exact fun d => State.booked_trans (State.tablesOnly_now (removeCand_tablesOnly s c)) (removeCand_booked s c d) (h5 d)
      · exact fun h => h6 (removeCand_refsExact c h)
      · exact fun h => h7 (removeCand_pathsSound c h)
    · have he : s.removeAllOf i (c :: cs) = s.removeAllOf i cs := by simp [State.removeAllOf, hn]
      rw [he]
      obtain ⟨h1, h2, h3, h4, h5, h6, h7⟩ := ih s
      refine ⟨h1, ?_, ?_, h4, h5, h6, h7⟩
      · intro e he hne
        have hec : e ≠ c := by rintro rfl; exact hn hne
        exact h2 e (by simpa [hec] using he) hne
      · intro e he
        refine h3 e ?_
        rcases he with he | he
        · exact .inl (fun y => he (by simp [y]))
        · exact .inr he

/-- What the walk of R22 leaves of each chain; a destination with no candidate on the link is left as it was. -/
theorem removeAllOf_chain (cs : List CandId) (s : State) (i : LinkId) (hs : s.pathsSound) (d : DestId) (r : Dest)
    (hr : s.dest d = some r) : ∃ r', (s.removeAllOf i cs).dest d = some r' ∧ r'.address = r.address ∧
      r'.chain = r.chain.filter (fun c => !(decide (c ∈ cs) && s.candNames i c)) ∧ (r'.chain = r.chain → r' = r) := by
  induction cs generalizing s r with
  | nil => exact ⟨r, hr, rfl, by simp, fun _ => rfl⟩
  | cons c cs ih =>
    by_cases hn : s.candNames i c = true
    · have he : s.removeAllOf i (c :: cs) = (s.removeCand c).removeAllOf i cs := by simp [State.removeAllOf, hn]
      rw [he]
      cases hk : s.cand c with
      | none => simp [State.candNames, hk] at hn
      | some k =>
        obtain ⟨rk, hk1, hk2⟩ := hs.2 c k hk
        by_cases hd : d = k.dest
        · subst hd
          rw [hr] at hk1; cases hk1
          obtain ⟨r1, a1, a2, a3⟩ := removeCand_chain s c k r hk hr
          obtain ⟨r', b1, b2, b3, -⟩ := ih (s.removeCand c) (removeCand_pathsSound c hs) r1 a1
          have hnd := (hs.1 k.dest r hr).2.1
          have hch : r'.chain = r.chain.filter (fun e => !(decide (e ∈ c :: cs) && s.candNames i e)) := by
            rw [b3, a3, hnd.erase_eq_filter, List.filter_filter]
            refine List.filter_congr (fun e _ => ?_)
            rw [candNames_removeCand]
            by_cases hec : e = c
            · subst hec; simp [hn]
            · have hb : (e != c) = true := by simpa using hec
              simp [hec, hb]
          refine ⟨r', b1, b2.trans a2, hch, ?_⟩
          intro hx
          exfalso
          have : c ∈ r'.chain := by rw [hx]; exact hk2
          rw [hch] at this
          have := (List.mem_filter.1 this).2
          simp [hn] at this
        · have hd1 := (removeCand_dest_ne s c k hk d hd).1
          obtain ⟨r', b1, b2, b3, b4⟩ := ih (s.removeCand c) (removeCand_pathsSound c hs) r (by rw [hd1]; exact hr)
          refine ⟨r', b1, b2, ?_, b4⟩
          rw [b3]
          refine List.filter_congr (fun e he' => ?_)
          rw [candNames_removeCand]
          have hec : e ≠ c := by
            rintro rfl
            obtain ⟨k', e1, e2⟩ := (hs.1 d r hr).2.2.1 e he'
            rw [hk] at e1; cases e1
            exact hd e2.symm
          have hb : (e != c) = true := by simpa using hec
          simp [hec, hb]
    · have he : s.removeAllOf i (c :: cs) = s.removeAllOf i cs := by simp [State.removeAllOf, hn]
      rw [he]
      obtain ⟨r', b1, b2, b3, b4⟩ := ih s hs r hr
      refine ⟨r', b1, b2, ?_, b4⟩
      rw [b3]
      refine List.filter_congr (fun e _ => ?_)
      by_cases hec : e = c
      · subst hec; simp [hn]
      · simp [hec]

theorem removeCandsOf_eq (s : State) (i : LinkId) : s.removeCandsOf i = s.removeAllOf i (List.finRange 256) := rfl

/-! ### A link retired (R21, R22) -/

theorem vacateLink_linkWritten (s : State) (i : LinkId) (before : LinkState) :
    s.linkWritten (s.vacateLink i before) i none ∧
      (∀ d, s.activeOn i d = false → (s.vacateLink i before).dest d = s.dest d ∧
        (s.vacateLink i before).changed.get d = s.changed.get d) ∧
      (before.isUsable = false → s.vacateLink i before = s.setLink i none) := by
  unfold State.vacateLink
  split
  · next h =>
    obtain ⟨h1, h2⟩ := lost_linkWritten s i none
    exact ⟨h1, h2, fun x => by simp [h] at x⟩
  · exact ⟨setLink_linkWritten s i none, fun _ _ => ⟨rfl, rfl⟩, fun _ => rfl⟩

theorem retireCascade_spec (s : State) (i : LinkId) (l : Link) (hl : s.link i = some l) :
    s.tablesOnly (s.retireCascade i) ∧ (∀ j, (s.retireCascade i).link j = if j = i then none else s.link j) ∧
      (∀ c, s.candNames i c = true → (s.retireCascade i).cand c = none) ∧
      (∀ c, s.candNames i c = false → sameButCost (s.cand c) ((s.retireCascade i).cand c)) ∧
      (∀ d, s.booked (s.retireCascade i) d) ∧ (s.refsExact → (s.retireCascade i).refsExact) ∧
      (s.pathsSound → (s.retireCascade i).pathsSound) ∧
      (s.pathsSound → ∀ d r, s.dest d = some r → ∃ r', (s.retireCascade i).dest d = some r' ∧ r'.address = r.address ∧
        r'.chain = r.chain.filter (fun c => !s.candNames i c) ∧ (r'.chain = r.chain → r' = r)) := by
  obtain ⟨cs, hcs⟩ : ∃ cs, cs = List.finRange 256 := ⟨_, rfl⟩
  have hm : ∀ c : CandId, c ∈ cs := fun c => by rw [hcs]; exact List.mem_finRange c
  have he : s.retireCascade i = (s.removeAllOf i cs).vacateLink i l.state := by
    rw [hcs, ← removeCandsOf_eq]; simp only [State.retireCascade, hl]
  obtain ⟨h1, h2, h3, h4, h5, h6, h7⟩ := removeAllOf_spec cs s i
  have h8 := removeAllOf_chain cs s i
  generalize s.removeAllOf i cs = u at he h1 h2 h3 h4 h5 h6 h7 h8
  obtain ⟨⟨w1, w2, w3, w4⟩, v2, -⟩ := vacateLink_linkWritten u i l.state
  have hnone : ∀ c, u.candNames i c = false := by
    intro c
    by_cases hc : s.candNames i c = true
    · simp [State.candNames, h2 c (hm c) hc]
    · rw [candNames_congr (h3 c (.inr (by simpa using hc)))]; simpa using hc
  have hact : ∀ d, u.activeOn i d = false := by
    intro d
    unfold State.activeOn
    split
    · split
      · exact hnone _
      · rfl
    · rfl
  rw [he]
  refine ⟨State.tablesOnly_trans h1 w1, ?_, ?_, ?_, ?_, ?_, ?_, ?_⟩
  · intro j
    rw [w2 j]
    split
    · rfl
    · next hj => exact h4 j hj
  · intro c hc
    have := w3.2 c
    rw [h2 c (hm c) hc] at this
    exact (sameButCost_none_iff this).2 rfl
  · exact fun c hc => sameButCost_trans (h3 c (.inr hc)) (w3.2 c)
  · exact fun d => State.booked_trans (State.tablesOnly_now h1) (h5 d) (w3.1 d).booked
  · intro h
    refine State.linkWritten.refsExact_vacant ⟨w1, w2, w3, w4⟩ ?_ (fun j _ => h6 h j)
    simp [State.candsNaming, hnone]
  · exact fun h => w4 (h7 h)
  · intro hs d r hr
    obtain ⟨r', b1, b2, b3, b4⟩ := h8 hs d r hr
    exact ⟨r', by rw [(v2 d (hact d)).1, b1], b2, by rw [b3]; simp [hm], b4⟩

theorem retireAlone_spec (s : State) (i : LinkId) (l : Link) (hl : s.link i = some l) (hr : l.state ≠ .retiring) :
    s.linkWritten (s.retireAlone i) i (if l.refs = 0 then none else some l.retire) ∧
      (∀ d, s.activeOn i d = false → (s.retireAlone i).dest d = s.dest d ∧
        (s.retireAlone i).changed.get d = s.changed.get d) ∧
      (l.state.isUsable = false → s.retireAlone i = s.setLink i (if l.refs = 0 then none else some l.retire)) := by
  unfold State.retireAlone
  simp only [hl, hr, if_false]
  by_cases h0 : l.refs = 0
  · simp only [h0, if_true]
    exact vacateLink_linkWritten s i l.state
  · simp only [h0, if_false]
    split
    · next h =>
      obtain ⟨h1, h2⟩ := lost_linkWritten s i (some l.retire)
      exact ⟨h1, h2, fun x => by simp [h] at x⟩
    · exact ⟨setLink_linkWritten s i _, fun _ _ => ⟨rfl, rfl⟩, fun _ => rfl⟩

theorem retireAlone_refsExact {s : State} (i : LinkId) (hs : s.refsExact) : (s.retireAlone i).refsExact := by
  cases hl : s.link i with
  | none => simpa [State.retireAlone, hl] using hs
  | some l =>
    by_cases hr : l.state = .retiring
    · simpa [State.retireAlone, hl, hr] using hs
    · obtain ⟨h1, -, -⟩ := retireAlone_spec s i l hl hr
      by_cases h0 : l.refs = 0
      · rw [if_pos h0] at h1
        refine h1.refsExact_vacant ?_ (fun j _ => hs j)
        have := hs i
        rw [hl] at this
        exact List.length_eq_zero_iff.1 (this.trans h0)
      · rw [if_neg h0] at h1
        exact h1.refsExact (by simp [hl, Link.retire]) hs

end Sys2Proof.Machine
end

