-- ==== Sys2Proof/Laws/Commands.lean ====
section
/-! SUPPORT. Host commands: what carrying one out comes to, and for each rule the two ways it can go, refused with nothing
changed or accepted with the effects named. -/

namespace Sys2Proof.Machine

/-- The rule answered with a status other than OK, with no results and nothing changed (R150, R154). -/
def Reply.refused (r : Reply) (s : State) : Prop := ∃ e, e ≠ Status.ok ∧ r = s.refuse e

theorem refuse_refused (s : State) (e : Status) (h : e ≠ .ok) : (s.refuse e).refused s := ⟨e, h, rfl⟩

/-- A host command's event: it cannot take place and nothing changes, or its command is in hand and is answered, by its
rule or by BAD_LENGTH. -/
theorem carryOut_cases (code : Byte) (rule : List Byte → State → Reply) (s : State) :
    carryOut code rule s = .next s ∨ ∃ h, s.hand = some h ∧ h.code = code ∧
      ((lengthFits code h.args = false ∧ carryOut code rule s = .next (s.refuse .badLength).finish) ∨
        (lengthFits code h.args = true ∧ carryOut code rule s = .next (rule h.args s).finish)) := by
  unfold carryOut
  cases hh : s.hand with
  | none => exact .inl rfl
  | some h =>
    dsimp only
    by_cases hc : h.code = code
    · refine .inr ⟨h, rfl, hc, ?_⟩
      rw [if_pos hc]
      cases hl : lengthFits code h.args
      · exact .inl ⟨rfl, by simp⟩
      · exact .inr ⟨rfl, by simp⟩
    · exact .inl (if_neg hc)

/-- What every rule keeps, whatever the arguments, the event keeps, if the giving of an answer keeps it. -/
theorem carryOut_keeps {P : State → Prop} {code : Byte} {rule : List Byte → State → Reply} {s t : State}
    (hg : ∀ s a, P s → P (s.giveAnswer a)) (hr : ∀ args, P s → P (rule args s).state) (hs : P s)
    (h : carryOut code rule s = .next t) : P t := by
  rcases carryOut_cases code rule s with h1 | ⟨c, -, -, ⟨-, h1⟩ | ⟨-, h1⟩⟩ <;> rw [h1] at h <;> cases h
  · exact hs
  · exact hg _ _ hs
  · exact hg _ _ (hr _ hs)

/-- The event with its command in hand and its arguments of the right length. -/
theorem carryOut_eq {code : Byte} {args : List Byte} {rule : List Byte → State → Reply} {s : State}
    (h : s.hand = some ⟨code, args⟩) (hl : lengthFits code args = true) :
    carryOut code rule s = .next ((rule args s).state.giveAnswer ⟨(rule args s).status, (rule args s).results⟩) := by
  simp [carryOut, h, hl, Reply.finish]

/-! ### Configuration -/

theorem loadRateProfile_cases (args : List Byte) (s : State) : (loadRateProfile args s).refused s ∨
    ∃ p, s.part = .configuring ∧ profileOf (profileEntries args) = some p ∧ profileValid (profileEntries args) = true ∧
      loadRateProfile args s = { s with profile := p }.ok [] := by
  unfold loadRateProfile
  split
  · exact .inl (refuse_refused _ _ (by decide))
  · next hp =>
    split
    · next p h =>
      split
      · next hv => exact .inr ⟨p, by cases hq : s.part <;> simp_all, h, hv, rfl⟩
      · exact .inl (refuse_refused _ _ (by decide))
    · exact .inl (refuse_refused _ _ (by decide))

theorem setParameter_cases (args : List Byte) (s : State) : (setParameter args s).refused s ∨
    ∃ p x, crossesThresholds s p (clampParam p x) = false ∧
      setParameter args s = { s with params := put s.params p (clampParam p x) }.ok (bytesOf 2 (clampParam p x)) := by
  unfold setParameter
  split
  · split
    · exact .inl (refuse_refused _ _ (by decide))
    · next p _ =>
      dsimp only
      split
      · exact .inl (refuse_refused _ _ (by decide))
      · next hc => exact .inr ⟨p, _, by simpa using hc, rfl⟩
  · exact .inl (refuse_refused _ _ (by decide))

theorem getParameter_cases (args : List Byte) (s : State) : (getParameter args s).refused s ∨
    ∃ rs, getParameter args s = s.ok rs := by
  unfold getParameter
  split
  · split
    · exact .inl (refuse_refused _ _ (by decide))
    · exact .inr ⟨_, rfl⟩
  · exact .inl (refuse_refused _ _ (by decide))

theorem goOperational_cases (args : List Byte) (s : State) : (goOperational args s).refused s ∨
    (s.part = .configuring ∧ goOperational args s = { s with part := .operational }.ok []) := by
  unfold goOperational
  split
  · next h => exact .inr ⟨h, rfl⟩
  · exact .inl (refuse_refused _ _ (by decide))

theorem resetPart_cases (args : List Byte) (s : State) :
    (s.frame.carrierEnded = true ∧ resetPart args s = s.softReset.ok []) ∨
      (s.frame.carrierEnded = false ∧ resetPart args s = { s with armed := true }.ok []) := by
  unfold resetPart
  split
  · next h => exact .inl ⟨h, rfl⟩
  · next h => exact .inr ⟨by simpa using h, rfl⟩

/-! ### Links -/

theorem vacantLink_eq_some {s : State} {i : LinkId} (h : s.vacantLink = some i) :
    s.link i = none ∧ ∀ j < i, s.link j ≠ none := by
  rw [State.vacantLink, List.find?_eq_some_iff_append] at h
  obtain ⟨h1, as, bs, h2, h3⟩ := h
  refine ⟨by simpa using h1, fun j hj hn => ?_⟩
  have hp : (List.finRange 32).Pairwise (· < ·) := List.pairwise_lt_finRange 32
  have hm : j ∈ as ++ i :: bs := by rw [← h2]; exact List.mem_finRange j
  rw [h2] at hp
  rcases List.mem_append.1 hm with hm | hm
  · have := h3 j hm
    simp [hn] at this
  · rcases List.mem_cons.1 hm with rfl | hm
    · exact absurd hj (lt_irrefl _)
    · have := (List.pairwise_cons.1 (List.pairwise_append.1 hp).2.1).1 j hm
      exact absurd hj (not_lt.2 this.le)

theorem addLink_cases (args : List Byte) (s : State) : (addLink args s).refused s ∨
    ∃ i r peer h m, s.link i = none ∧ (s.port r).present = true ∧ s.findLink r peer = none ∧
      addLink args s = (s.setLink i (some (Link.fresh r peer h m))).ok [byteOf i] := by
  unfold addLink
  split
  · split
    · next r h m _ _ _ =>
      dsimp only
      split
      · exact .inl (refuse_refused _ _ (by decide))
      · split
        · exact .inl (refuse_refused _ _ (by decide))
        · next hp =>
          split
          · exact .inl (refuse_refused _ _ (by decide))
          · next hf =>
            split
            · exact .inl (refuse_refused _ _ (by decide))
            · next i hi =>
              exact .inr ⟨i, r, _, h, m, (vacantLink_eq_some hi).1, by simpa using hp, by simpa using hf, rfl⟩
    · exact .inl (refuse_refused _ _ (by decide))
  · exact .inl (refuse_refused _ _ (by decide))

theorem updateLink_cases (args : List Byte) (s : State) : (updateLink args s).refused s ∨
    ∃ i l mask h m pin, s.link i = some l ∧ l.state ≠ .retiring ∧
      updateLink args s = (s.setLink i (some (l.writeMasked s.tuning mask h m pin))).ok [] := by
  unfold updateLink
  split
  · split
    · exact .inl (refuse_refused _ _ (by decide))
    · next i _ =>
      split
      · exact .inl (refuse_refused _ _ (by decide))
      · split
        · exact .inl (refuse_refused _ _ (by decide))
        · split
          · exact .inl (refuse_refused _ _ (by decide))
          · next l hl =>
            split
            · exact .inl (refuse_refused _ _ (by decide))
            · next hr => exact .inr ⟨i, l, _, _, _, _, hl, hr, rfl⟩
  · exact .inl (refuse_refused _ _ (by decide))

theorem retireLink_cases (args : List Byte) (s : State) : (retireLink args s).refused s ∨
    ∃ i l t, s.link i = some l ∧ (t = s.retireCascade i ∨ t = s.retireAlone i) ∧
      retireLink args s = t.ok [t.linkCode i] := by
  unfold retireLink
  split
  · split
    · exact .inl (refuse_refused _ _ (by decide))
    · next i _ =>
      split
      · exact .inl (refuse_refused _ _ (by decide))
      · next hl =>
        cases h : s.link i with
        | none => simp [h] at hl
        | some l =>
          refine .inr ⟨i, l, _, h, ?_, rfl⟩
          split
          · exact .inl rfl
          · exact .inr rfl
  · exact .inl (refuse_refused _ _ (by decide))

theorem readLink_cases (args : List Byte) (s : State) : (readLink args s).refused s ∨ ∃ rs, readLink args s = s.ok rs := by
  unfold readLink
  split
  · split
    · exact .inl (refuse_refused _ _ (by decide))
    · exact .inr ⟨_, rfl⟩
  · exact .inl (refuse_refused _ _ (by decide))

/-! ### Destinations -/

theorem vacantDest_eq_some {s : State} {d : DestId} (h : s.vacantDest = some d) : s.dest d = none := by
  have := List.find?_some h
  simpa using this

theorem addDestination_cases (args : List Byte) (s : State) : (addDestination args s).refused s ∨
    ∃ d a, s.dest d = none ∧ addDestination args s = (s.setDest d (some (Dest.fresh a))).ok [byteOf d] := by
  unfold addDestination
  split
  · dsimp only
    split
    · exact .inl (refuse_refused _ _ (by decide))
    · split
      · exact .inl (refuse_refused _ _ (by decide))
      · split
        · exact .inl (refuse_refused _ _ (by decide))
        · next d hd => exact .inr ⟨d, _, vacantDest_eq_some hd, rfl⟩
  · exact .inl (refuse_refused _ _ (by decide))

theorem findDestination_cases (args : List Byte) (s : State) : (findDestination args s).refused s ∨
    ∃ rs, findDestination args s = s.ok rs := by
  unfold findDestination
  split
  · dsimp only
    split
    · exact .inl (refuse_refused _ _ (by decide))
    · split
      · exact .inl (refuse_refused _ _ (by decide))
      · exact .inr ⟨_, rfl⟩
  · exact .inl (refuse_refused _ _ (by decide))

theorem removeDestination_cases (args : List Byte) (s : State) : (removeDestination args s).refused s ∨
    ∃ d r, s.dest d = some r ∧ removeDestination args s = (s.removeDest d).ok [] := by
  unfold removeDestination
  split
  · split
    · exact .inl (refuse_refused _ _ (by decide))
    · next d _ =>
      split
      · exact .inl (refuse_refused _ _ (by decide))
      · next hd =>
        cases h : s.dest d with
        | none => simp [h] at hd
        | some r => exact .inr ⟨d, r, h, rfl⟩
  · exact .inl (refuse_refused _ _ (by decide))

theorem readDestination_cases (args : List Byte) (s : State) : (readDestination args s).refused s ∨
    ∃ rs, readDestination args s = s.ok rs := by
  unfold readDestination
  split
  · split
    · exact .inl (refuse_refused _ _ (by decide))
    · exact .inr ⟨_, rfl⟩
  · exact .inl (refuse_refused _ _ (by decide))

/-! ### Candidates -/

theorem freeCand_eq_some {s : State} {c : CandId} (h : s.freeCand = some c) : s.cand c = none := by
  have := List.find?_some h
  simpa using this

theorem addCandidate_cases (args : List Byte) (s : State) : (addCandidate args s).refused s ∨
    ∃ d i r l c n p, s.dest d = some r ∧ s.link i = some l ∧ l.state ≠ .retiring ∧ s.chainNames r.chain i = false ∧
      r.chain.length < 4 ∧ p.misses r.chain = false ∧ s.cand c = none ∧
      addCandidate args s = (s.enlist c d i n p).ok [byteOf c, (s.enlist c d i n p).destCode d] := by
  unfold addCandidate
  split
  · split
    · next d i p _ _ _ =>
      split
      · exact .inl (refuse_refused _ _ (by decide))
      · next r hr =>
        split
        · exact .inl (refuse_refused _ _ (by decide))
        · next l hl =>
          split
          · exact .inl (refuse_refused _ _ (by decide))
          · next hs =>
            split
            · exact .inl (refuse_refused _ _ (by decide))
            · next hn =>
              split
              · exact .inl (refuse_refused _ _ (by decide))
              · next hlen =>
                split
                · exact .inl (refuse_refused _ _ (by decide))
                · next hm =>
                  split
                  · exact .inl (refuse_refused _ _ (by decide))
                  · next c hc =>
                    exact .inr ⟨d, i, r, l, c, _, p, hr, hl, hs, by simpa using hn, by
                      simpa [Config.chainCapacity] using hlen, by simpa using hm, freeCand_eq_some hc, rfl⟩
    · exact .inl (refuse_refused _ _ (by decide))
  · exact .inl (refuse_refused _ _ (by decide))

theorem updateCandidate_cases (args : List Byte) (s : State) : (updateCandidate args s).refused s ∨
    ∃ c k mask n p, s.cand c = some k ∧ (mask.getLsbD 1 = true → ∃ q, p = some q ∧ q.isAfter c = false ∧
        q.misses (s.chainOf k.dest) = false) ∧
      updateCandidate args s = (s.rewriteCand c k.dest mask n p).ok
        [(s.rewriteCand c k.dest mask n p).destCode k.dest] := by
  unfold updateCandidate
  split
  · dsimp only
    split
    · exact .inl (refuse_refused _ _ (by decide))
    · next h1 =>
      split
      · exact .inl (refuse_refused _ _ (by decide))
      · next k hk =>
        split
        · exact .inl (refuse_refused _ _ (by decide))
        · next h2 =>
          split
          · exact .inl (refuse_refused _ _ (by decide))
          · next h3 =>
            refine .inr ⟨_, k, _, _, _, hk, ?_, rfl⟩
            intro hm
            rw [hm, Bool.true_and] at h1 h2 h3
            cases hp : placementOf _ _ with
            | none => rw [hp] at h1; simp at h1
            | some q => rw [hp] at h2 h3; exact ⟨q, rfl, by simpa using h2, by simpa using h3⟩
  · exact .inl (refuse_refused _ _ (by decide))

theorem removeCandidate_cases (args : List Byte) (s : State) : (removeCandidate args s).refused s ∨
    ∃ c k, s.cand c = some k ∧
      removeCandidate args s = (s.removeCand c).ok [byteOf k.dest, (s.removeCand c).destCode k.dest] := by
  unfold removeCandidate
  split
  · split
    · exact .inl (refuse_refused _ _ (by decide))
    · next k hk => exact .inr ⟨_, k, hk, rfl⟩
  · exact .inl (refuse_refused _ _ (by decide))

theorem readCandidate_cases (args : List Byte) (s : State) : (readCandidate args s).refused s ∨
    ∃ rs, readCandidate args s = s.ok rs := by
  unfold readCandidate
  split
  · exact .inr ⟨_, rfl⟩
  · exact .inl (refuse_refused _ _ (by decide))

/-! ### The cursor -/

theorem setCursor_cases (args : List Byte) (s : State) : (setCursor args s).refused s ∨
    ∃ u, setCursor args s = { s with cursor := u }.ok [] := by
  unfold setCursor
  split
  · split
    · split
      · exact .inr ⟨_, rfl⟩
      · exact .inl (refuse_refused _ _ (by decide))
    · exact .inl (refuse_refused _ _ (by decide))
  · exact .inl (refuse_refused _ _ (by decide))

theorem readAtCursor_cases (args : List Byte) (s : State) : ∃ u rs, readAtCursor args s = { s with cursor := u }.ok rs := by
  unfold readAtCursor
  dsimp only
  split
  · split
    · exact ⟨_, _, rfl⟩
    · exact ⟨_, _, rfl⟩
  · split
    · exact ⟨s.cursor, _, rfl⟩
    · exact ⟨s.cursor, _, rfl⟩

/-! ### Notices and jobs -/

theorem readLinkEvents_cases (args : List Byte) (s : State) : (readLinkEvents args s).refused s ∨
    ∃ i l, s.link i = some l ∧
      readLinkEvents args s = (s.setLink i (some { l with events := {} })).ok [l.events.byte] := by
  unfold readLinkEvents
  split
  · split
    · exact .inl (refuse_refused _ _ (by decide))
    · next i _ =>
      split
      · exact .inl (refuse_refused _ _ (by decide))
      · next l hl => exact .inr ⟨i, l, hl, rfl⟩
  · exact .inl (refuse_refused _ _ (by decide))

theorem foldl_setChanged (ds : List DestId) (s : State) : ∃ ch : Vector Bool 128,
    ds.foldl (fun s d => s.setChanged d false) s = { s with changed := ch } ∧
      ∀ d, ch.get d = (s.changed.get d && !decide (d ∈ ds)) := by
  induction ds generalizing s with
  | nil => exact ⟨s.changed, rfl, by simp⟩
  | cons x ds ih =>
    obtain ⟨ch, h1, h2⟩ := ih (s.setChanged x false)
    refine ⟨ch, h1, fun d => ?_⟩
    rw [h2, changed_setChanged]
    by_cases hd : d = x
    · subst hd; simp
    · simp [hd]

theorem takeChanges_cases (args : List Byte) (s : State) : ∃ (ch : Vector Bool 128) (rs : List Byte),
    takeChanges args s = { s with changed := ch }.ok rs ∧
      ∀ d, ch.get d = (s.changed.get d && !decide (d ∈ s.takenChanges)) := by
  obtain ⟨ch, h1, h2⟩ := foldl_setChanged s.takenChanges s
  exact ⟨ch, _, by rw [takeChanges, h1], h2⟩

theorem readPortStatus_cases (args : List Byte) (s : State) : (readPortStatus args s).refused s ∨
    ∃ p rs, readPortStatus args s = (s.setPort p { s.port p with overflow := false }).ok rs := by
  unfold readPortStatus
  split
  · split
    · exact .inl (refuse_refused _ _ (by decide))
    · exact .inr ⟨_, _, rfl⟩
  · exact .inl (refuse_refused _ _ (by decide))

theorem flushReports_cases (args : List Byte) (s : State) : (flushReports args s).refused s ∨
    ∃ p rs, (s.port p).present = true ∧ flushReports args s = (s.setPort p (s.port p).flush).ok rs := by
  unfold flushReports
  split
  · split
    · exact .inl (refuse_refused _ _ (by decide))
    · split
      · next h => exact .inr ⟨_, _, h, rfl⟩
      · exact .inl (refuse_refused _ _ (by decide))
  · exact .inl (refuse_refused _ _ (by decide))

theorem readJobNotice_cases (args : List Byte) (s : State) : (readJobNotice args s).refused s ∨
    ∃ n rs, s.job = .noticePending n ∧ readJobNotice args s = { s with job := .idle }.ok rs := by
  unfold readJobNotice
  split
  · next h => exact .inr ⟨_, _, h, rfl⟩
  · exact .inl (refuse_refused _ _ (by decide))
  · exact .inl (refuse_refused _ _ (by decide))

theorem startJob_cases (args : List Byte) (s : State) : (startJob args s).refused s ∨
    ∃ j, s.part = .operational ∧ s.job = .idle ∧ s.radiosPresent j = true ∧
      startJob args s = ({ s with job := .running (JobContext.start j) }.flushForJob j).ok [] := by
  unfold startJob
  split
  · exact .inl (refuse_refused _ _ (by decide))
  · next hp =>
    split
    · exact .inl (refuse_refused _ _ (by decide))
    · exact .inl (refuse_refused _ _ (by decide))
    · next hj =>
      split
      · exact .inl (refuse_refused _ _ (by decide))
      · split
        · next h => exact .inr ⟨_, hp, hj, h, rfl⟩
        · exact .inl (refuse_refused _ _ (by decide))

theorem stopJob_cases (args : List Byte) (s : State) : (stopJob args s).refused s ∨
    ∃ c, s.job = .running c ∧ stopJob args s = { s with job := .noticePending (c.notice .stopped) }.ok [] := by
  unfold stopJob
  split
  · next h => exact .inr ⟨_, h, rfl⟩
  · exact .inl (refuse_refused _ _ (by decide))
  · exact .inl (refuse_refused _ _ (by decide))

theorem readJobState_cases (args : List Byte) (s : State) : ∃ rs, readJobState args s = s.ok rs := by
  unfold readJobState
  split
  · exact ⟨_, rfl⟩
  · exact ⟨_, rfl⟩
  · exact ⟨_, rfl⟩

end Sys2Proof.Machine
end

