-- ==== Sys2Proof/Laws/ChainEdits.lean ====
section
/-! SUPPORT. Chain edits: placement in a chain, and what an accepted ADD CANDIDATE and UPDATE CANDIDATE can do, said
once. -/

namespace Sys2Proof.Machine

/-! ### Placement (R59) -/

theorem mem_insertAfter {a c x : CandId} {chain : List CandId} : x ∈ insertAfter a c chain ↔ x = c ∨ x ∈ chain := by
  induction chain with
  | nil => simp [insertAfter]
  | cons y ys ih =>
    unfold insertAfter
    split
    · simp only [List.mem_cons]; tauto
    · simp only [List.mem_cons, ih]; tauto

theorem length_insertAfter (a c : CandId) (chain : List CandId) : (insertAfter a c chain).length = chain.length + 1 := by
  induction chain with
  | nil => rfl
  | cons y ys ih =>
    unfold insertAfter
    split <;> simp [ih]

theorem nodup_insertAfter {a c : CandId} {chain : List CandId} (h : chain.Nodup) (hc : c ∉ chain) :
    (insertAfter a c chain).Nodup := by
  induction chain with
  | nil => simp [insertAfter]
  | cons y ys ih =>
    obtain ⟨h1, h2⟩ := List.nodup_cons.1 h
    obtain ⟨h3, h4⟩ : c ≠ y ∧ c ∉ ys := by simpa using hc
    unfold insertAfter
    split
    · refine List.nodup_cons.2 ⟨?_, List.nodup_cons.2 ⟨h4, h2⟩⟩
      simp only [List.mem_cons, not_or]
      exact ⟨fun x => h3 x.symm, h1⟩
    · refine List.nodup_cons.2 ⟨?_, ih h2 h4⟩
      rw [mem_insertAfter, not_or]
      exact ⟨fun x => h3 x.symm, h1⟩

/-- Where the candidate goes: immediately after the first occurrence of the member named. -/
theorem insertAfter_split {a c : CandId} {xs ys : List CandId} (h : a ∉ xs) :
    insertAfter a c (xs ++ a :: ys) = xs ++ a :: c :: ys := by
  induction xs with
  | nil => simp [insertAfter]
  | cons x xs ih =>
    obtain ⟨h1, h2⟩ : a ≠ x ∧ a ∉ xs := by simpa using h
    simp only [List.cons_append, insertAfter]
    rw [if_neg (fun y => h1 y.symm), ih h2]

theorem mem_placeIn {p : Placement} {c x : CandId} {chain : List CandId} :
    x ∈ placeIn p c chain ↔ x = c ∨ x ∈ chain := by
  cases p
  · simp [placeIn]
  · simp [placeIn]; tauto
  · exact mem_insertAfter

theorem length_placeIn (p : Placement) (c : CandId) (chain : List CandId) :
    (placeIn p c chain).length = chain.length + 1 := by
  cases p
  · rfl
  · simp [placeIn]
  · exact length_insertAfter _ _ _

theorem nodup_placeIn {p : Placement} {c : CandId} {chain : List CandId} (h : chain.Nodup) (hc : c ∉ chain) :
    (placeIn p c chain).Nodup := by
  cases p
  · exact List.nodup_cons.2 ⟨hc, h⟩
  · refine List.nodup_append.2 ⟨h, by simp, ?_⟩
    intro x hx y hy
    rcases List.mem_singleton.1 hy with rfl
    rintro rfl
    exact hc hx
  · exact nodup_insertAfter h hc

/-! ### A candidate enlisted (steps 1 to 4 of R61) -/

/-- The state of an accepted ADD CANDIDATE before its chain-edit check. -/
def State.enlisted (s : State) (c : CandId) (d : DestId) (i : LinkId) (n : Nat) (p : Placement) : State :=
  ((s.setCand c (some { dest := d, link := i, remainder := n, lastCost := Config.saturated })).updateDest d
    (fun r => { r with chain := placeIn p c r.chain })).updateLink i (fun l => { l with refs := l.refs + 1 })

theorem enlist_eq (s : State) (c : CandId) (d : DestId) (i : LinkId) (n : Nat) (p : Placement) :
    s.enlist c d i n p = (s.enlisted c d i n p).chainEditCheck d := rfl

theorem enlisted_tablesOnly (s : State) (c : CandId) (d : DestId) (i : LinkId) (n : Nat) (p : Placement) :
    s.tablesOnly (s.enlisted c d i n p) :=
  State.tablesOnly_trans (State.pathsOnly_tablesOnly (State.pathsOnly_trans (setCand_pathsOnly _ _ _)
    (updateDest_pathsOnly _ _ _))) (updateLink_tablesOnly _ _ _)

theorem enlisted_cand (s : State) (c : CandId) (d : DestId) (i : LinkId) (n : Nat) (p : Placement) (e : CandId) :
    (s.enlisted c d i n p).cand e =
      if e = c then some { dest := d, link := i, remainder := n, lastCost := 65535 } else s.cand e := by
  simp only [State.enlisted, updateLink_cand, updateDest_cand, cand_setCand]
  rfl

theorem enlisted_dest (s : State) (c : CandId) (d : DestId) (i : LinkId) (n : Nat) (p : Placement) (e : DestId) :
    (s.enlisted c d i n p).dest e =
      if e = d then (s.dest d).map (fun r => { r with chain := placeIn p c r.chain }) else s.dest e := by
  simp only [State.enlisted, updateLink_dest, updateDest_dest, dest_setCand]

theorem enlisted_changed (s : State) (c : CandId) (d : DestId) (i : LinkId) (n : Nat) (p : Placement) :
    (s.enlisted c d i n p).changed = s.changed := by
  simp only [State.enlisted, updateLink_changed, updateDest_changed, setCand_changed]

theorem enlisted_link (s : State) (c : CandId) (d : DestId) (i : LinkId) (n : Nat) (p : Placement) (j : LinkId) :
    (s.enlisted c d i n p).link j =
      if j = i then (s.link i).map (fun l => { l with refs := l.refs + 1 }) else s.link j := by
  have h : ∀ j, ((s.setCand c (some { dest := d, link := i, remainder := n, lastCost := Config.saturated })).updateDest d
      (fun r => { r with chain := placeIn p c r.chain })).link j = s.link j :=
    fun j => State.pathsOnly_link (State.pathsOnly_trans (setCand_pathsOnly _ _ _) (updateDest_pathsOnly _ _ _)) j
  simp only [State.enlisted, updateLink_link, h]

theorem enlist_refsExact {s : State} {c : CandId} {d : DestId} {i : LinkId} {n : Nat} {p : Placement} {l : Link}
    (hl : s.link i = some l) (hc : s.cand c = none) (hs : s.refsExact) : (s.enlist c d i n p).refsExact := by
  rw [enlist_eq]
  have hr := chainEditCheck_reselects (s.enlisted c d i n p) d
  refine State.pathsOnly_refsExact hr.pathsOnly hr.same ?_
  intro j
  have he : s.candsNaming j = ((s.enlisted c d i n p).candsNaming j).erase c := by
    rw [(candsNaming_nodup _ j).erase_eq_filter]
    unfold State.candsNaming
    rw [List.filter_filter]
    refine List.filter_congr (fun e _ => ?_)
    unfold State.candNames
    rw [enlisted_cand]
    by_cases hec : e = c
    · subst hec; simp [hc]
    · simp [hec]
  have hs' := hs j
  rw [he] at hs'
  rw [enlisted_link]
  by_cases hj : j = i
  · subst hj
    have hm : c ∈ (s.enlisted c d j n p).candsNaming j :=
      mem_candsNaming.2 (by simp [State.candNames, enlisted_cand])
    have := List.length_pos_of_mem hm
    rw [List.length_erase_of_mem hm] at hs'
    rw [hl] at hs' ⊢
    rw [if_pos rfl]
    show _ = l.refs + 1
    have h2 : ((s.enlisted c d j n p).candsNaming j).length - 1 = l.refs := hs'
    omega
  · have hm : c ∉ (s.enlisted c d i n p).candsNaming j := by
      rw [mem_candsNaming]
      simp only [State.candNames, enlisted_cand, if_true, beq_iff_eq]
      exact fun x => hj x.symm
    rw [List.erase_of_not_mem hm] at hs'
    rw [if_neg hj]
    exact hs'

theorem enlist_pathsSound {s : State} {c : CandId} {d : DestId} {i : LinkId} {n : Nat} {p : Placement} {r : Dest}
    (hr : s.dest d = some r) (hc : s.cand c = none) (hn : s.chainNames r.chain i = false) (hlen : r.chain.length < 4)
    (hs : s.pathsSound) : (s.enlist c d i n p).pathsSound := by
  rw [enlist_eq]
  have hne : ∀ e r, s.dest e = some r → c ∉ r.chain := by
    intro e r he hm
    obtain ⟨k, h1, -⟩ := (hs.1 e r he).2.2.1 c hm
    rw [hc] at h1; cases h1
  have hcand : ∀ e, e ≠ c → (s.enlisted c d i n p).cand e = s.cand e := fun e he => by rw [enlisted_cand, if_neg he]
  have hcc : (s.enlisted c d i n p).cand c = some { dest := d, link := i, remainder := n, lastCost := 65535 } := by
    rw [enlisted_cand, if_pos rfl]
  refine pathsSound_edit ?_ ?_ ?_ ?_ (chainEditCheck_reselects _ _) (fun _ _ => chainEditCheck_active_mem)
  · intro e r' he
    rw [enlisted_dest] at he
    split at he
    · next hed =>
      subst hed
      rw [hr] at he; cases he
      obtain ⟨h1, h2, h3, h4, -⟩ := hs.1 e r hr
      refine ⟨?_, nodup_placeIn h2 (hne e r hr), ?_, ?_, by simp⟩
      · show (placeIn p c r.chain).length ≤ 4
        rw [length_placeIn]; omega
      · intro x hx
        rcases mem_placeIn.1 hx with rfl | hx
        · exact ⟨_, hcc, rfl⟩
        · rw [hcand x (fun y => hne e r hr (y ▸ hx))]
          exact h3 x hx
      · have hnew : ∀ x ∈ r.chain, ∀ k, s.cand x = some k → k.link ≠ i := by
          intro x hx k hk hki
          have : s.chainNames r.chain i = true := by
            unfold State.chainNames
            rw [List.any_eq_true]
            exact ⟨x, hx, by simp [State.candNames, hk, hki]⟩
          rw [hn] at this; cases this
        intro x hx y hy k k' hk hk' hl
        rcases mem_placeIn.1 hx with hxc | hx <;> rcases mem_placeIn.1 hy with hyc | hy
        · rw [hxc, hyc]
        · rw [hxc, hcc] at hk; cases hk
          rw [hcand y (fun z => hne e r hr (z ▸ hy))] at hk'
          exact absurd hl.symm (hnew y hy k' hk')
        · rw [hyc, hcc] at hk'; cases hk'
          rw [hcand x (fun z => hne e r hr (z ▸ hx))] at hk
          exact absurd hl (hnew x hx k hk)
        · rw [hcand x (fun z => hne e r hr (z ▸ hx))] at hk
          rw [hcand y (fun z => hne e r hr (z ▸ hy))] at hk'
          exact h4 x hx y hy k k' hk hk' hl
    · next hed =>
      obtain ⟨h1, h2, h3, h4, -⟩ := hs.1 e r' he
      have hx' : ∀ x ∈ r'.chain, x ≠ c := fun x hx y => hne e r' he (y ▸ hx)
      refine ⟨h1, h2, ?_, ?_, by simp⟩
      · intro x hx; rw [hcand x (hx' x hx)]; exact h3 x hx
      · intro x hx y hy; rw [hcand x (hx' x hx), hcand y (hx' y hy)]; exact h4 x hx y hy
  · intro x k hk
    by_cases hx : x = c
    · subst hx
      rw [hcc] at hk; cases hk
      exact ⟨_, by rw [enlisted_dest, if_pos rfl, hr]; rfl, mem_placeIn.2 (.inl rfl)⟩
    · rw [hcand x hx] at hk
      obtain ⟨r', h1, h2⟩ := hs.2 x k hk
      rw [enlisted_dest]
      split
      · next hed =>
        rw [hed] at h1
        exact ⟨_, by rw [h1]; rfl, mem_placeIn.2 (.inr h2)⟩
      · exact ⟨r', h1, h2⟩
  · intro e r' hed he
    rw [enlisted_dest, if_neg hed] at he
    exact (hs.1 e r' he).2.2.2.2
  · intro r' he a ha
    rw [enlisted_dest, if_pos rfl, hr] at he
    cases he
    exact ((hs.1 d r hr).2.2.2.2 a ha).2

theorem enlist_booked (s : State) (c : CandId) (d e : DestId) (i : LinkId) (n : Nat) (p : Placement) :
    s.booked (s.enlist c d i n p) e := by
  rw [enlist_eq]
  refine State.booked_trans (State.tablesOnly_now (enlisted_tablesOnly s c d i n p)) ?_
    ((chainEditCheck_reselects _ _).bookKept e).booked
  intro r' hr'
  rw [enlisted_dest] at hr'
  split at hr'
  · next hed =>
    subst hed
    cases hd : s.dest e with
    | none => rw [hd] at hr'; cases hr'
    | some r => rw [hd] at hr'; cases hr'; exact ⟨r, rfl, rfl, .inl ⟨rfl, rfl, rfl, by rw [enlisted_changed]⟩⟩
  · exact ⟨r', hr', rfl, .inl ⟨rfl, rfl, rfl, by rw [enlisted_changed]⟩⟩

theorem enlist_tablesOnly (s : State) (c : CandId) (d : DestId) (i : LinkId) (n : Nat) (p : Placement) :
    s.tablesOnly (s.enlist c d i n p) := by
  rw [enlist_eq]
  exact State.tablesOnly_trans (enlisted_tablesOnly s c d i n p)
    (State.pathsOnly_tablesOnly (chainEditCheck_reselects _ _).pathsOnly)

/-! ### A candidate moved or repriced (R63 to R65) -/

theorem moveCand_pathsOnly (s : State) (c : CandId) (d : DestId) (p : Placement) : s.pathsOnly (s.moveCand c d p) :=
  updateDest_pathsOnly _ _ _

theorem moveCand_dest (s : State) (c : CandId) (d e : DestId) (p : Placement) : (s.moveCand c d p).dest e =
    if e = d then (s.dest d).map (fun r => { r with chain := placeIn p c (r.chain.erase c) }) else s.dest e :=
  updateDest_dest _ _ _ _

theorem moveCand_booked (s : State) (c : CandId) (d e : DestId) (p : Placement) : s.booked (s.moveCand c d p) e := by
  have hch : (s.moveCand c d p).changed = s.changed := updateDest_changed _ _ _
  intro r' hr'
  rw [moveCand_dest] at hr'
  split at hr'
  · next hed =>
    subst hed
    cases hd : s.dest e with
    | none => rw [hd] at hr'; cases hr'
    | some r => rw [hd] at hr'; cases hr'; exact ⟨r, rfl, rfl, .inl ⟨rfl, rfl, rfl, by rw [hch]⟩⟩
  · exact ⟨r', hr', rfl, .inl ⟨rfl, rfl, rfl, by rw [hch]⟩⟩

theorem moveCand_pathsSound {s : State} {c : CandId} {k : Cand} (p : Placement) (hk : s.cand c = some k)
    (hs : s.pathsSound) : (s.moveCand c k.dest p).pathsSound := by
  have hcand : ∀ e, (s.moveCand c k.dest p).cand e = s.cand e := fun e => updateDest_cand _ _ _ _
  obtain ⟨rk, hrk, hck⟩ := hs.2 c k hk
  have hmem : ∀ x, x ∈ placeIn p c (rk.chain.erase c) ↔ x ∈ rk.chain := by
    intro x
    rw [mem_placeIn]
    constructor
    · rintro (rfl | h)
      · exact hck
      · exact List.mem_of_mem_erase h
    · intro h
      by_cases hx : x = c
      · exact .inl hx
      · exact .inr ((List.mem_erase_of_ne hx).2 h)
  constructor
  · intro e r' he
    rw [moveCand_dest] at he
    split at he
    · next hed =>
      subst hed
      rw [hrk] at he; cases he
      obtain ⟨h1, h2, h3, h4, h5⟩ := hs.1 k.dest rk hrk
      refine ⟨?_, nodup_placeIn (h2.erase c) h2.not_mem_erase, ?_, ?_, ?_⟩
      · show (placeIn p c (rk.chain.erase c)).length ≤ 4
        rw [length_placeIn, List.length_erase_of_mem hck]
        have := List.length_pos_of_mem hck
        omega
      · intro x hx; rw [hcand]; exact h3 x ((hmem x).1 hx)
      · intro x hx y hy; rw [hcand, hcand]; exact h4 x ((hmem x).1 hx) y ((hmem y).1 hy)
      · intro a ha; exact ⟨(hmem a).2 (h5 a ha).1, (h5 a ha).2⟩
    · obtain ⟨h1, h2, h3, h4, h5⟩ := hs.1 e r' he
      exact ⟨h1, h2, fun x hx => by rw [hcand]; exact h3 x hx, fun x hx y hy => by
        rw [hcand, hcand]; exact h4 x hx y hy, h5⟩
  · intro x kx hx
    rw [hcand] at hx
    obtain ⟨r', h1, h2⟩ := hs.2 x kx hx
    rw [moveCand_dest]
    split
    · next hed =>
      rw [hed, hrk] at h1; cases h1
      exact ⟨_, by rw [hrk]; rfl, (hmem x).2 h2⟩
    · exact ⟨r', h1, h2⟩

theorem writeRemainder_spec (s : State) (c : CandId) (d : DestId) (n : Nat) :
    s.pathsOnly (s.writeRemainder c d n) ∧ (∀ e, s.bookKept (s.writeRemainder c d n) e) ∧
      (∀ e, sameButCost (if e = c then (s.cand c).map (fun k => { k with remainder := n }) else s.cand e)
        ((s.writeRemainder c d n).cand e)) ∧
      (s.pathsSound → (s.writeRemainder c d n).pathsSound) := by
  have hr := chainEditCheck_reselects (s.updateCand c (fun k => { k with remainder := n })) d
  have he : s.writeRemainder c d n = (s.updateCand c (fun k => { k with remainder := n })).chainEditCheck d := rfl
  rw [he]
  refine ⟨State.pathsOnly_trans (updateCand_pathsOnly _ _ _) hr.pathsOnly, ?_, ?_, ?_⟩
  · intro e
    refine State.bookKept_trans (State.pathsOnly_now (updateCand_pathsOnly _ _ _))
      (State.bookKept_of_eq (updateCand_dest _ _ _ _) (by rw [updateCand_changed])) (hr.bookKept e)
  · intro e
    rw [← updateCand_cand]
    exact hr.same e
  · intro hs
    refine hr.pathsSound ?_
    have hk : ∀ e k', (s.updateCand c (fun k => { k with remainder := n })).cand e = some k' →
        ∃ k, s.cand e = some k ∧ k'.dest = k.dest ∧ k'.link = k.link := by
      intro e k' hk'
      rw [updateCand_cand] at hk'
      split at hk'
      · next hec =>
        subst hec
        cases h : s.cand e with
        | none => rw [h] at hk'; cases hk'
        | some k => rw [h] at hk'; cases hk'; exact ⟨k, rfl, rfl, rfl⟩
      · exact ⟨k', hk', rfl, rfl⟩
    constructor
    · intro e r he'
      rw [updateCand_dest] at he'
      obtain ⟨h1, h2, h3, h4, h5⟩ := hs.1 e r he'
      refine ⟨h1, h2, ?_, ?_, h5⟩
      · intro x hx
        obtain ⟨k, k1, k2⟩ := h3 x hx
        rw [updateCand_cand]
        split
        · next hxc => subst hxc; exact ⟨{ k with remainder := n }, by rw [k1]; rfl, k2⟩
        · exact ⟨k, k1, k2⟩
      · intro x hx y hy kx ky hkx hky hl
        obtain ⟨k1, a1, -, a3⟩ := hk x kx hkx
        obtain ⟨k2, b1, -, b3⟩ := hk y ky hky
        exact h4 x hx y hy k1 k2 a1 b1 (by rw [← a3, ← b3, hl])
    · intro x kx hkx
      obtain ⟨k1, a1, a2, -⟩ := hk x kx hkx
      rw [updateCand_dest, a2]
      exact hs.2 x k1 a1

theorem rewriteCand_spec (s : State) (c : CandId) (k : Cand) (mask : Byte) (n : Nat) (p : Option Placement)
    (hk : s.cand c = some k) : s.pathsOnly (s.rewriteCand c k.dest mask n p) ∧
      (∀ e, s.booked (s.rewriteCand c k.dest mask n p) e) ∧
      (∀ e i, (s.rewriteCand c k.dest mask n p).candNames i e = s.candNames i e) ∧
      (s.pathsSound → (s.rewriteCand c k.dest mask n p).pathsSound) := by
  obtain ⟨u, hu⟩ : ∃ u : State, (match mask.getLsbD 1, p with
    | true, some q => s.moveCand c k.dest q
    | _, _ => s) = u := ⟨_, rfl⟩
  have h1 : s.pathsOnly u ∧ (∀ e, s.booked u e) ∧ (∀ e, u.cand e = s.cand e) ∧ (s.pathsSound → u.pathsSound) := by
    rw [← hu]
    split
    · exact ⟨moveCand_pathsOnly _ _ _ _, fun e => moveCand_booked _ _ _ _ _, fun e => updateDest_cand _ _ _ _,
        moveCand_pathsSound _ hk⟩
    · exact ⟨rfl, fun _ => State.booked_of_eq rfl rfl, fun _ => rfl, id⟩
  obtain ⟨a1, a2, a3, a4⟩ := h1
  have he : s.rewriteCand c k.dest mask n p = if mask.getLsbD 0 then u.writeRemainder c k.dest n else u := by
    rw [← hu]; rfl
  rw [he]
  split
  · obtain ⟨b1, b2, b3, b4⟩ := writeRemainder_spec u c k.dest n
    refine ⟨State.pathsOnly_trans a1 b1, fun e => State.booked_trans (State.pathsOnly_now a1) (a2 e) (b2 e).booked, ?_,
      fun h => b4 (a4 h)⟩
    intro e i
    have hb := b3 e
    by_cases hec : e = c
    · subst hec
      rw [if_pos rfl, a3, hk] at hb
      rcases sameButCost_iff.1 hb with ⟨x, -⟩ | ⟨k1, k2, e1, e2, -, e3, -⟩
      · cases x
      · cases e1
        simp only [State.candNames, e2, hk]
        rw [e3]
    · rw [if_neg hec, a3] at hb
      exact candNames_congr hb i
  · exact ⟨a1, a2, fun e i => by unfold State.candNames; rw [a3], a4⟩

end Sys2Proof.Machine
end

