-- ==== Sys2Proof/Laws/LinkRecord.lean ====
section
/-! SUPPORT. One link record: what an evaluation, a filter step and each of the Link Table's steps on it can do, said
once. -/

namespace Sys2Proof.Machine

/-! ### The filter (R33, R34) -/

theorem moveToward_up {v x : Nat} (n : Nat) (h : v ≤ x) : moveToward v x n = v + (x - v) / n := by
  unfold moveToward
  rw [show (x : Int) - (v : Int) = ((x - v : Nat) : Int) by omega, Int.tdiv_eq_ediv_of_nonneg (by omega)]
  norm_cast

theorem moveToward_down {v x : Nat} (n : Nat) (h : x ≤ v) : moveToward v x n = v - (v - x) / n := by
  unfold moveToward
  rw [show (x : Int) - (v : Int) = -((v - x : Nat) : Int) by omega, Int.neg_tdiv,
    Int.tdiv_eq_ediv_of_nonneg (by omega)]
  have : (v - x) / n ≤ v := (Nat.div_le_self _ _).trans (Nat.sub_le _ _)
  norm_cast
  omega

/-- A filter step stays within any bound that holds of the estimate and of the sample. -/
theorem moveToward_le {v x b : Nat} (n : Nat) (hv : v ≤ b) (hx : x ≤ b) : moveToward v x n ≤ b := by
  rcases le_total v x with h | h
  · rw [moveToward_up n h]
    have := Nat.div_le_self (x - v) n
    omega
  · rw [moveToward_down n h]
    exact (Nat.sub_le _ _).trans hv

/-! ### An evaluation (R43 to R47) -/

/-- What an evaluation can write: the state, between Up and Degraded only, the pending events, and the one-way flag. -/
theorem evaluate_spec (t : Tuning) (l : Link) : ∃ st ev ow,
    l.evaluate t = { l with state := st, events := ev, est := { l.est with oneWay := ow } } ∧
      (st = l.state ∨ (l.state = .up ∧ st = .degraded) ∨ (l.state = .degraded ∧ st = .up)) := by
  have h1 : ∃ ev ow, l.judgeOneWay t (l.cost t) = { l with events := ev, est := { l.est with oneWay := ow } } := by
    unfold Link.judgeOneWay
    split
    · exact ⟨l.events, l.est.oneWay, rfl⟩
    · exact ⟨_, _, rfl⟩
  obtain ⟨ev, ow, h1⟩ := h1
  unfold Link.evaluate
  dsimp only
  rw [h1]
  unfold Link.judgeState
  dsimp only
  cases hs : l.state <;> dsimp only
  · exact ⟨.probation, ev, ow, by rw [← hs], .inl rfl⟩
  · split
    · exact ⟨.degraded, _, ow, rfl, .inr (.inl ⟨rfl, rfl⟩)⟩
    · exact ⟨.up, ev, ow, by rw [← hs], .inl rfl⟩
  · split
    · exact ⟨.up, _, ow, rfl, .inr (.inr ⟨rfl, rfl⟩)⟩
    · exact ⟨.degraded, ev, ow, by rw [← hs], .inl rfl⟩
  · exact ⟨.down, ev, ow, by rw [← hs], .inl rfl⟩
  · exact ⟨.retiring, ev, ow, by rw [← hs], .inl rfl⟩

/-- Everything of a record that an evaluation leaves alone. -/
theorem evaluate_frame (t : Tuning) (l : Link) : l.evaluate t = { l with
    state := (l.evaluate t).state, events := (l.evaluate t).events
    est := { l.est with oneWay := (l.evaluate t).est.oneWay } } := by
  obtain ⟨st, ev, ow, h, -⟩ := evaluate_spec t l
  rw [h]

theorem evaluate_isUsable (t : Tuning) (l : Link) : (l.evaluate t).state.isUsable = l.state.isUsable := by
  obtain ⟨st, ev, ow, h, rfl | ⟨h1, rfl⟩ | ⟨h1, rfl⟩⟩ := evaluate_spec t l <;> rw [h] <;> simp [*, LinkState.isUsable]

theorem evaluate_mayHoldDeadline (t : Tuning) (l : Link) :
    (l.evaluate t).state.mayHoldDeadline = l.state.mayHoldDeadline := by
  obtain ⟨st, ev, ow, h, rfl | ⟨h1, rfl⟩ | ⟨h1, rfl⟩⟩ := evaluate_spec t l <;> rw [h] <;>
    simp [*, LinkState.mayHoldDeadline]

theorem evaluate_state (t : Tuning) (l : Link) (h : l.state ≠ .up) (h' : l.state ≠ .degraded) :
    (l.evaluate t).state = l.state := by
  obtain ⟨st, ev, ow, e, rfl | ⟨h1, rfl⟩ | ⟨h1, rfl⟩⟩ := evaluate_spec t l
  · rw [e]
  · exact absurd h1 h
  · exact absurd h1 h'

@[simp] theorem evaluate_refs (t : Tuning) (l : Link) : (l.evaluate t).refs = l.refs := by rw [evaluate_frame]
@[simp] theorem evaluate_peer (t : Tuning) (l : Link) : (l.evaluate t).peer = l.peer := by rw [evaluate_frame]
@[simp] theorem evaluate_radio (t : Tuning) (l : Link) : (l.evaluate t).radio = l.radio := by rw [evaluate_frame]
@[simp] theorem evaluate_sector (t : Tuning) (l : Link) : (l.evaluate t).sector = l.sector := by rw [evaluate_frame]
@[simp] theorem evaluate_mode (t : Tuning) (l : Link) : (l.evaluate t).mode = l.mode := by rw [evaluate_frame]
@[simp] theorem evaluate_followSector (t : Tuning) (l : Link) : (l.evaluate t).followSector = l.followSector := by
  rw [evaluate_frame]
@[simp] theorem evaluate_agree (t : Tuning) (l : Link) : (l.evaluate t).agree = l.agree := by rw [evaluate_frame]
@[simp] theorem evaluate_pinned (t : Tuning) (l : Link) : (l.evaluate t).pinned = l.pinned := by rw [evaluate_frame]
@[simp] theorem evaluate_heard (t : Tuning) (l : Link) : (l.evaluate t).heard = l.heard := by rw [evaluate_frame]
@[simp] theorem evaluate_lastHeard (t : Tuning) (l : Link) : (l.evaluate t).lastHeard = l.lastHeard := by
  rw [evaluate_frame]
@[simp] theorem evaluate_lastBeacon (t : Tuning) (l : Link) : (l.evaluate t).lastBeacon = l.lastBeacon := by
  rw [evaluate_frame]
@[simp] theorem evaluate_gapSum (t : Tuning) (l : Link) : (l.evaluate t).gapSum = l.gapSum := by rw [evaluate_frame]
@[simp] theorem evaluate_gapCount (t : Tuning) (l : Link) : (l.evaluate t).gapCount = l.gapCount := by
  rw [evaluate_frame]
@[simp] theorem evaluate_interval (t : Tuning) (l : Link) : (l.evaluate t).interval = l.interval := by
  rw [evaluate_frame]
@[simp] theorem evaluate_deadline (t : Tuning) (l : Link) : (l.evaluate t).deadline = l.deadline := by
  rw [evaluate_frame]
@[simp] theorem evaluate_delivery (t : Tuning) (l : Link) : (l.evaluate t).est.delivery = l.est.delivery := by
  rw [evaluate_frame]
@[simp] theorem evaluate_snr (t : Tuning) (l : Link) : (l.evaluate t).est.snr = l.est.snr := by rw [evaluate_frame]
@[simp] theorem evaluate_probe (t : Tuning) (l : Link) : (l.evaluate t).est.probe = l.est.probe := by
  rw [evaluate_frame]

/-! ### Reference counts are kept by every step on a record (R20) -/

@[simp] theorem computeDeadline_refs (t : Tuning) (l : Link) : (l.computeDeadline t).refs = l.refs := rfl
@[simp] theorem sampleSnr_refs (t : Tuning) (x : Nat) (l : Link) : (l.sampleSnr t x).refs = l.refs := rfl
@[simp] theorem sampleDelivery_refs (t : Tuning) (r : Rate) (x : Nat) (l : Link) :
    (l.sampleDelivery t r x).refs = l.refs := rfl
@[simp] theorem clearFollow_refs (l : Link) : l.clearFollow.refs = l.refs := rfl
@[simp] theorem resetEstimates_refs (l : Link) : l.resetEstimates.refs = l.refs := rfl
@[simp] theorem addEvent_refs (k : EventKind) (l : Link) : (l.addEvent k).refs = l.refs := rfl
@[simp] theorem afterOkAnswer_refs (t : Tuning) (l : Link) : (l.afterOkAnswer t).refs = l.refs := rfl
@[simp] theorem expire_refs (l : Link) : l.expire.refs = l.refs := rfl
@[simp] theorem retire_refs (l : Link) : l.retire.refs = l.refs := rfl
@[simp] theorem retune_refs (l : Link) : l.retune.refs = l.refs := rfl

@[simp] theorem changeSector_refs (t : Tuning) (h : Sector) (l : Link) : (l.changeSector t h).refs = l.refs := by
  simp [Link.changeSector]

@[simp] theorem measureBeacon_refs (now : Time) (l : Link) : (l.measureBeacon now).refs = l.refs := by
  unfold Link.measureBeacon
  split
  · rfl
  · dsimp only; split
    · rfl
    · split <;> rfl

@[simp] theorem followBeacon_refs (t : Tuning) (h : Sector) (l : Link) : (l.followBeacon t h).refs = l.refs := by
  unfold Link.followBeacon
  split
  · rfl
  · split
    · rfl
    · generalize (if l.followSector = some h then l.agree + 1 else 1) = n
      dsimp only; split
      · simp
      · rfl

@[simp] theorem hear_refs (t : Tuning) (now : Time) (x : Nat) (h : Sector) (b : Bool) (l : Link) :
    (l.hear t now x h b).refs = l.refs := by
  unfold Link.hear
  cases b <;> simp

@[simp] theorem climb_refs (t : Tuning) (l : Link) : (l.climb t).refs = l.refs := by
  unfold Link.climb
  split <;> rfl

@[simp] theorem countHearing_refs (t : Tuning) (l : Link) : (l.countHearing t).refs = l.refs := by
  unfold Link.countHearing
  split <;> simp

@[simp] theorem takeOutcome_refs (t : Tuning) (now : Time) (r : Rate) (n : Nat) (acked : Bool) (l : Link) :
    (l.takeOutcome t now r n acked).refs = l.refs := by
  unfold Link.takeOutcome
  cases acked <;> simp

@[simp] theorem writeSector_refs (t : Tuning) (h : Sector) (l : Link) : (l.writeSector t h).refs = l.refs := by
  unfold Link.writeSector
  split <;> simp

@[simp] theorem writeMode_refs (m : SectorMode) (l : Link) : (l.writeMode m).refs = l.refs := by
  unfold Link.writeMode
  split <;> rfl

@[simp] theorem writePin_refs (t : Tuning) (pin : Option Rate) (l : Link) : (l.writePin t pin).refs = l.refs := by
  unfold Link.writePin
  split <;> simp

@[simp] theorem writeMasked_refs (t : Tuning) (mask : Byte) (h : Option Sector) (m : Option SectorMode)
    (pin : Option Rate) (l : Link) : (l.writeMasked t mask h m pin).refs = l.refs := by
  unfold Link.writeMasked
  dsimp only
  split <;> split <;> split <;> simp

/-! ### The estimator's bounds (R27) -/

theorem Estimator.initial_bounded : Estimator.initial.bounded :=
  ⟨fun r => by simp [Estimator.initial, Config.initialEstimate], by simp [Estimator.initial], by simp [Estimator.initial]⟩

theorem evaluate_bounded (t : Tuning) {l : Link} (h : l.est.bounded) : (l.evaluate t).est.bounded := by
  obtain ⟨h1, h2, h3⟩ := h
  exact ⟨by simpa using h1, by simpa using h2, by simpa using h3⟩

theorem sampleSnr_bounded (t : Tuning) {x : Nat} {l : Link} (hx : x ≤ 252) (h : l.est.bounded) :
    (l.sampleSnr t x).est.bounded := by
  obtain ⟨h1, h2, h3⟩ := h
  refine ⟨h1, ?_, h3⟩
  intro a ha
  unfold Link.sampleSnr at ha
  dsimp only at ha
  cases hs : l.est.snr with
  | none => rw [hs] at ha; cases ha; exact hx
  | some avg => rw [hs] at ha; cases ha; exact moveToward_le _ (h2 avg hs) hx

theorem sampleDelivery_bounded (t : Tuning) (r : Rate) {x : Nat} {l : Link} (hx : x ≤ 1024) (h : l.est.bounded) :
    (l.sampleDelivery t r x).est.bounded := by
  obtain ⟨h1, h2, h3⟩ := h
  refine ⟨?_, h2, h3⟩
  intro q
  show (put l.est.delivery r _).get q ≤ 1024
  rw [get_put]
  split
  · exact moveToward_le _ (h1 r) hx
  · exact h1 q

theorem changeSector_bounded (t : Tuning) (h : Sector) (l : Link) : (l.changeSector t h).est.bounded :=
  evaluate_bounded t Estimator.initial_bounded

theorem measureBeacon_est (now : Time) (l : Link) : (l.measureBeacon now).est = l.est := by
  unfold Link.measureBeacon
  split
  · rfl
  · dsimp only; split
    · rfl
    · split <;> rfl

theorem followBeacon_bounded (t : Tuning) (h : Sector) {l : Link} (hl : l.est.bounded) :
    (l.followBeacon t h).est.bounded := by
  unfold Link.followBeacon
  split
  · exact hl
  · split
    · exact hl
    · generalize (if l.followSector = some h then l.agree + 1 else 1) = n
      dsimp only; split
      · exact changeSector_bounded _ _ _
      · exact hl

theorem hear_bounded (t : Tuning) (now : Time) {x : Nat} (h : Sector) (b : Bool) {l : Link} (hx : x ≤ 63)
    (hl : l.est.bounded) : (l.hear t now x h b).est.bounded := by
  unfold Link.hear
  refine evaluate_bounded t (sampleSnr_bounded t (by omega) ?_)
  cases b
  · exact hl
  · exact followBeacon_bounded t h (by rw [measureBeacon_est]; exact hl)

theorem countHearing_est (t : Tuning) (l : Link) : (l.countHearing t).est = l.est := by
  unfold Link.countHearing Link.climb
  split
  · split <;> rfl
  · split <;> rfl
  all_goals rfl

theorem deliverySample_le (n : Nat) (b : Bool) : deliverySample n b ≤ 1024 := by
  unfold deliverySample
  split
  · exact Nat.div_le_self _ _
  · omega

theorem takeOutcome_bounded (t : Tuning) (now : Time) (r : Rate) (n : Nat) (acked : Bool) {l : Link}
    (h : l.est.bounded) : (l.takeOutcome t now r (clampAttempts n) acked).est.bounded := by
  unfold Link.takeOutcome
  refine evaluate_bounded t ?_
  have := sampleDelivery_bounded t r (deliverySample_le (clampAttempts n) acked) h
  cases acked <;> exact this

theorem afterOkAnswer_bounded (t : Tuning) {l : Link} (ht : t.get Param.probeInterval ≤ 64) (h : l.est.bounded) :
    (l.afterOkAnswer t).est.bounded := by
  obtain ⟨h1, h2, h3⟩ := h
  refine ⟨h1, h2, ?_⟩
  show (l.countProbe t).1 ≤ 63
  unfold Link.countProbe
  split
  · simp
  · show l.est.probe + 1 ≤ 63
    omega

theorem writeMasked_bounded (t : Tuning) (mask : Byte) (h : Option Sector) (m : Option SectorMode)
    (pin : Option Rate) {l : Link} (hl : l.est.bounded) : (l.writeMasked t mask h m pin).est.bounded := by
  have hs : ∀ (x : Sector) (l : Link), l.est.bounded → (l.writeSector t x).est.bounded := by
    intro x l hl
    unfold Link.writeSector
    split
    · exact hl
    · exact changeSector_bounded _ _ _
  have hm : ∀ (x : SectorMode) (l : Link), l.est.bounded → (l.writeMode x).est.bounded := by
    intro x l hl
    unfold Link.writeMode
    split
    · exact hl
    · exact hl
  have hp : ∀ l : Link, l.est.bounded → (l.writePin t pin).est.bounded := by
    intro l hl
    unfold Link.writePin
    split
    · exact hl
    · exact evaluate_bounded t hl
  unfold Link.writeMasked
  dsimp only
  split <;> split <;> split <;> first
    | exact hp _ (hm _ _ (hs _ _ hl))
    | exact hm _ _ (hs _ _ hl)
    | exact hp _ (hs _ _ hl)
    | exact hp _ (hm _ _ hl)
    | exact hs _ _ hl
    | exact hm _ _ hl
    | exact hp _ hl
    | exact hl

/-! ### The deadline and the beacon measurement (R10, R12) -/

/-- The laws of `State.linksSound` for one record. -/
def Link.sound (l : Link) : Prop := l.beaconsBounded ∧ l.deadlineSound ∧ l.heard ≤ 8 ∧ l.agree ≤ 2

theorem fresh_sound (r : Radio) (a : Addr) (h : Sector) (m : SectorMode) : (Link.fresh r a h m).sound := by
  simp [Link.sound, Link.fresh, Link.beaconsBounded, Link.deadlineSound]

/-- A record that keeps the fields the laws read keeps the laws. -/
theorem Link.sound_congr {l l' : Link} (h1 : l'.gapSum = l.gapSum) (h2 : l'.gapCount = l.gapCount)
    (h3 : l'.interval = l.interval) (h4 : l'.deadline = l.deadline) (h5 : l'.lastHeard = l.lastHeard)
    (h6 : l'.state.mayHoldDeadline = l.state.mayHoldDeadline) (h7 : l'.heard = l.heard) (h8 : l'.agree = l.agree)
    (h : l.sound) : l'.sound := by
  simpa only [Link.sound, Link.beaconsBounded, Link.deadlineSound, h1, h2, h3, h4, h5, h6, h7, h8] using h

theorem evaluate_sound (t : Tuning) {l : Link} (h : l.sound) : (l.evaluate t).sound := by
  refine Link.sound_congr ?_ ?_ ?_ ?_ ?_ (evaluate_mayHoldDeadline t l) ?_ ?_ h <;> simp

/-- A deadline computed afresh is sound, whatever the one before it was (R12). -/
theorem computeDeadline_sound (t : Tuning) {l : Link} (h1 : l.beaconsBounded) (h2 : l.heard ≤ 8) (h3 : l.agree ≤ 2)
    (t5 : 3 ≤ t.get Param.lossLimit ∧ t.get Param.lossLimit ≤ 15)
    (t6 : 10 ≤ t.get Param.nominalBeacon ∧ t.get Param.nominalBeacon ≤ 2000) : (l.computeDeadline t).sound := by
  refine ⟨h1, ?_, h2, h3⟩
  have hb : 10 ≤ l.beaconInterval t ∧ l.beaconInterval t ≤ 2000 := by
    unfold Link.beaconInterval
    cases hi : l.interval with
    | none => exact t6
    | some b => exact h1.2.2.2 b hi
  unfold Link.deadlineSound Link.computeDeadline
  dsimp only
  by_cases hm : l.state.mayHoldDeadline = true
  · rw [if_pos hm]
    cases hh : l.lastHeard with
    | none => exact .inr rfl
    | some x =>
      refine ⟨hm, x, rfl, ?_⟩
      have hlo : 30 ≤ l.beaconInterval t * t.get Param.lossLimit := by nlinarith [hb.1, t5.1]
      have hhi : l.beaconInterval t * t.get Param.lossLimit ≤ 30000 := by nlinarith [hb.2, t5.2]
      rw [show x + BitVec.ofNat 32 (l.beaconInterval t * t.get Param.lossLimit) - x =
        BitVec.ofNat 32 (l.beaconInterval t * t.get Param.lossLimit) by rw [add_sub_cancel_left], BitVec.toNat_ofNat]
      omega
  · rw [if_neg hm]
    exact .inl (by simpa using hm)

theorem measureBeacon_bounded (now : Time) {l : Link} (h : l.beaconsBounded) : (l.measureBeacon now).beaconsBounded := by
  obtain ⟨h1, h2, h3, h4⟩ := h
  unfold Link.measureBeacon
  split
  · exact ⟨h1, h2, h3, h4⟩
  · dsimp only
    split
    · exact ⟨by simp, by simp, by simp, h4⟩
    · next hg =>
      simp only [Bool.or_eq_true, decide_eq_true_eq, not_or, not_lt] at hg
      obtain ⟨g1, g2⟩ := hg
      change 10 ≤ _ at g1
      change _ ≤ 2000 at g2
      generalize (now - ‹Time›).toNat = g at g1 g2 ⊢
      split
      · next hc =>
        simp only [Config.gapsPerMeasurement] at hc
        refine ⟨by simp, by simp, by simp, ?_⟩
        intro b hb
        have : b = (l.gapSum + g) / 4 := by
          simpa [Config.gapsPerMeasurement] using hb.symm
        omega
      · next hc =>
        simp only [Config.gapsPerMeasurement] at hc
        refine ⟨?_, ?_, ?_, h4⟩ <;> dsimp only <;> omega

/-- The laws of a record that do not read its deadline. -/
def Link.counted (l : Link) : Prop := l.beaconsBounded ∧ l.heard ≤ 8 ∧ l.agree ≤ 2

theorem Link.sound.counted {l : Link} (h : l.sound) : l.counted := ⟨h.1, h.2.2.1, h.2.2.2⟩

theorem Link.counted_congr {l l' : Link} (h1 : l'.gapSum = l.gapSum) (h2 : l'.gapCount = l.gapCount)
    (h3 : l'.interval = l.interval) (h7 : l'.heard = l.heard) (h8 : l'.agree ≤ max l.agree 2)
    (h : l.counted) : l'.counted := by
  obtain ⟨⟨a1, a2, a3, a4⟩, b, c⟩ := h
  refine ⟨⟨by rw [h2]; exact a1, by rw [h1, h2]; exact a2, by rw [h1, h2]; exact a3, by rw [h3]; exact a4⟩,
    by rw [h7]; exact b, by omega⟩

theorem evaluate_counted (t : Tuning) {l : Link} (h : l.counted) : (l.evaluate t).counted := by
  refine Link.counted_congr ?_ ?_ ?_ ?_ ?_ h <;> simp

theorem changeSector_counted (t : Tuning) (x : Sector) {l : Link} (h : l.counted) : (l.changeSector t x).counted :=
  evaluate_counted t ⟨h.1, h.2.1, Nat.zero_le 2⟩

theorem changeSector_sound (t : Tuning) (x : Sector) {l : Link} (h : l.sound) : (l.changeSector t x).sound := by
  refine evaluate_sound t ?_
  obtain ⟨h1, h2, h3, h4⟩ := h
  exact ⟨h1, h2, h3, by simp [Link.resetEstimates, Link.clearFollow]⟩

theorem measureBeacon_counted (now : Time) {l : Link} (h : l.counted) : (l.measureBeacon now).counted := by
  refine ⟨measureBeacon_bounded now h.1, ?_, ?_⟩ <;> unfold Link.measureBeacon
  · split
    · exact h.2.1
    · dsimp only; split
      · exact h.2.1
      · split <;> exact h.2.1
  · split
    · exact h.2.2
    · dsimp only; split
      · exact h.2.2
      · split <;> exact h.2.2

theorem followBeacon_counted (t : Tuning) (x : Sector) {l : Link} (h : l.counted) : (l.followBeacon t x).counted := by
  unfold Link.followBeacon
  split
  · exact h
  · split
    · exact ⟨h.1, h.2.1, Nat.zero_le 2⟩
    · generalize (if l.followSector = some x then l.agree + 1 else 1) = n
      dsimp only; split
      · exact changeSector_counted t x h
      · next hn =>
        simp only [Config.agreeToMove, not_le] at hn
        exact ⟨h.1, h.2.1, by show n ≤ 2; omega⟩

theorem hear_counted (t : Tuning) (now : Time) (x : Nat) (s : Sector) (b : Bool) {l : Link} (h : l.counted) :
    (l.hear t now x s b).counted := by
  unfold Link.hear
  refine evaluate_counted t (Link.counted_congr rfl rfl rfl rfl (le_max_left _ _) ?_)
  cases b
  · exact h
  · exact followBeacon_counted t s (measureBeacon_counted now h)

theorem countHearing_counted (t : Tuning) {l : Link} (h : l.counted) : (l.countHearing t).counted := by
  have hc : ∀ l : Link, l.counted → (l.climb t).counted := by
    intro l hl
    unfold Link.climb
    split
    · exact hl
    · exact hl
  unfold Link.countHearing
  split
  · exact hc _ ⟨h.1, by show min _ Config.heardLimit ≤ 8; exact min_le_right _ _, h.2.2⟩
  · exact hc _ ⟨h.1, by show 1 ≤ 8; omega, h.2.2⟩
  · exact h
  · exact h
  · exact h

theorem takeOutcome_sound (t : Tuning) (now : Time) (r : Rate) (n : Nat) (acked : Bool) {l : Link} (h : l.sound)
    (t5 : 3 ≤ t.get Param.lossLimit ∧ t.get Param.lossLimit ≤ 15)
    (t6 : 10 ≤ t.get Param.nominalBeacon ∧ t.get Param.nominalBeacon ≤ 2000) :
    (l.takeOutcome t now r n acked).sound := by
  unfold Link.takeOutcome
  refine evaluate_sound t ?_
  cases acked
  · exact h
  · exact computeDeadline_sound t h.1 h.2.2.1 h.2.2.2 t5 t6

theorem writeMasked_sound (t : Tuning) (mask : Byte) (h : Option Sector) (m : Option SectorMode) (pin : Option Rate)
    {l : Link} (hl : l.sound) : (l.writeMasked t mask h m pin).sound := by
  have hs : ∀ (x : Sector) (l : Link), l.sound → (l.writeSector t x).sound := by
    intro x l hl
    unfold Link.writeSector
    split
    · exact hl
    · exact changeSector_sound t x hl
  have hm : ∀ (x : SectorMode) (l : Link), l.sound → (l.writeMode x).sound := by
    intro x l hl
    unfold Link.writeMode
    split
    · exact hl
    · exact ⟨hl.1, hl.2.1, hl.2.2.1, by simp [Link.clearFollow]⟩
  have hp : ∀ l : Link, l.sound → (l.writePin t pin).sound := by
    intro l hl
    unfold Link.writePin
    split
    · exact hl
    · exact evaluate_sound t hl
  unfold Link.writeMasked
  dsimp only
  split <;> split <;> split <;> first
    | exact hp _ (hm _ _ (hs _ _ hl))
    | exact hm _ _ (hs _ _ hl)
    | exact hp _ (hs _ _ hl)
    | exact hp _ (hm _ _ hl)
    | exact hs _ _ hl
    | exact hm _ _ hl
    | exact hp _ hl
    | exact hl

/-- A state that may hold no deadline, with none held, is sound. -/
theorem Link.sound_of_none {l : Link} (h : l.counted) (hd : l.deadline = none)
    (hs : l.state.mayHoldDeadline = false ∨ l.lastHeard = none) : l.sound :=
  ⟨h.1, by unfold Link.deadlineSound; rw [hd]; exact hs, h.2.1, h.2.2⟩

theorem expire_sound {l : Link} (h : l.sound) : l.expire.sound :=
  Link.sound_of_none h.counted rfl (.inl rfl)

theorem retire_sound {l : Link} (h : l.sound) : l.retire.sound :=
  Link.sound_of_none h.counted rfl (.inl rfl)

theorem retune_sound {l : Link} (h : l.sound) : l.retune.sound := by
  refine Link.sound_of_none ⟨⟨?_, ?_, ?_, h.1.2.2.2⟩, ?_, ?_⟩ rfl (.inr rfl) <;>
    simp [Link.retune, Link.resetEstimates, Link.clearFollow]

end Sys2Proof.Machine
end

