-- ==== Sys2Proof/Laws/Estimation.lean ====
section
/-! SUPPORT. What the Link Estimator's and the Link Table's steps on one record can do, said once each: an evaluation, the
least-cost rate, a beacon measurement, sector follow. -/

namespace Sys2Proof.Machine

/-- Everything an evaluation can do (R43, R44, R46). -/
theorem evaluate_cases (t : Tuning) (l : Link) (hr : l.state ≠ .retiring) : ∃ st ev e,
    l.evaluate t = { l with
      state := st, events := ev, est := { l.est with oneWay := l.oneWayHolds t (l.cost t) } } ∧
    e = (if l.oneWayHolds t (l.cost t) && !l.est.oneWay then l.events.insert .oneWay else l.events) ∧
    ((l.state = .up ∧ t.get Param.degradeThreshold < l.cost t ∧ st = .degraded ∧ ev = e.insert .degraded) ∨
      (l.state = .degraded ∧ l.cost t < t.get Param.recoverThreshold ∧ st = .up ∧ ev = e.insert .recovered) ∨
      (st = l.state ∧ ev = e ∧ (l.state = .up → l.cost t ≤ t.get Param.degradeThreshold) ∧
        (l.state = .degraded → t.get Param.recoverThreshold ≤ l.cost t))) := by
  unfold Link.evaluate
  dsimp only
  have h1 : l.judgeOneWay t (l.cost t) = { l with
      est := { l.est with oneWay := l.oneWayHolds t (l.cost t) }
      events := if l.oneWayHolds t (l.cost t) && !l.est.oneWay then l.events.insert .oneWay else l.events } := by
    unfold Link.judgeOneWay; rw [if_neg hr]
  rw [h1]
  generalize (if l.oneWayHolds t (l.cost t) && !l.est.oneWay then l.events.insert .oneWay else l.events) = e
  generalize l.oneWayHolds t (l.cost t) = ow
  generalize l.cost t = c
  unfold Link.judgeState
  dsimp only
  cases hs : l.state <;> dsimp only
  · exact ⟨.probation, e, e, by rw [← hs], rfl, .inr (.inr ⟨rfl, rfl, by simp, by simp⟩)⟩
  · split
    · next h => exact ⟨.degraded, _, e, rfl, rfl, .inl ⟨rfl, h, rfl, rfl⟩⟩
    · next h => exact ⟨.up, e, e, by rw [← hs], rfl, .inr (.inr ⟨rfl, rfl, fun _ => by omega, by simp⟩)⟩
  · split
    · next h => exact ⟨.up, _, e, rfl, rfl, .inr (.inl ⟨rfl, h, rfl, rfl⟩)⟩
    · next h => exact ⟨.degraded, e, e, by rw [← hs], rfl, .inr (.inr ⟨rfl, rfl, by simp, fun _ => by omega⟩)⟩
  · exact ⟨.down, e, e, by rw [← hs], rfl, .inr (.inr ⟨rfl, rfl, by simp, by simp⟩)⟩
  · exact absurd hs hr

/-- An evaluation adds neither CAME_UP nor SECTOR_MOVED. -/
theorem evaluate_keeps (t : Tuning) (l : Link) : (l.evaluate t).events.cameUp = l.events.cameUp ∧
    (l.evaluate t).events.sectorMoved = l.events.sectorMoved := by
  by_cases hr : l.state = .retiring
  · simp [Link.evaluate, Link.judgeOneWay, Link.judgeState, hr]
  · obtain ⟨st, ev, e, h1, h2, h3⟩ := evaluate_cases t l hr
    have he : e.cameUp = l.events.cameUp ∧ e.sectorMoved = l.events.sectorMoved := by
      rw [h2]; split <;> exact ⟨rfl, rfl⟩
    rw [h1]
    rcases h3 with ⟨-, -, -, rfl⟩ | ⟨-, -, -, rfl⟩ | ⟨-, rfl, -⟩ <;> exact he

/-- The least-cost rate of a rising list is a member of least cost, and every higher member costs more (R38). -/
theorem leastCostRate_spec (cost : Rate → Nat) (rs : List Rate) (hs : rs.Pairwise (· < ·)) (hne : rs ≠ []) :
    ∃ b, leastCostRate cost rs = some b ∧ b ∈ rs ∧ (∀ r ∈ rs, cost b ≤ cost r) ∧
      (∀ r ∈ rs, b < r → cost b < cost r) := by
  induction rs with
  | nil => exact absurd rfl hne
  | cons r rs ih =>
    rw [List.pairwise_cons] at hs
    unfold leastCostRate
    by_cases hn : rs = []
    · subst hn; exact ⟨r, rfl, by simp, by simp, by simp⟩
    · obtain ⟨b, h1, h2, h3, h4⟩ := ih hs.2 hn
      rw [h1]; dsimp only
      split
      · next h => exact ⟨b, rfl, by simp [h2], by simp; exact ⟨h, h3⟩, by
          intro x hx hbx
          rw [List.mem_cons] at hx
          rcases hx with rfl | hx
          · exact absurd (hs.1 b h2) (by simp; exact le_of_lt hbx)
          · exact h4 x hx hbx⟩
      · next h =>
        refine ⟨r, rfl, by simp, ?_, ?_⟩
        · intro x hx; rw [List.mem_cons] at hx
          rcases hx with rfl | hx
          · exact le_rfl
          · have := h3 x hx; omega
        · intro x hx hbx; rw [List.mem_cons] at hx
          rcases hx with rfl | hx
          · exact absurd hbx (by simp)
          · have := h3 x hx; omega

/-- Everything a beacon measurement can do (R10). -/
theorem measureBeacon_cases (now : Time) (l : Link) : ∃ gs gc iv,
    l.measureBeacon now = { l with lastBeacon := some now, gapSum := gs, gapCount := gc, interval := iv } ∧
    (l.lastBeacon = none → gs = l.gapSum ∧ gc = l.gapCount ∧ iv = l.interval) ∧
    (∀ b gap, l.lastBeacon = some b → gap = (now - b).toNat →
        (gap < 10 ∨ 2000 < gap → gs = 0 ∧ gc = 0 ∧ iv = l.interval) ∧
        (10 ≤ gap → gap ≤ 2000 →
          (l.gapCount < 3 → gs = l.gapSum + gap ∧ gc = l.gapCount + 1 ∧ iv = l.interval) ∧
          (3 ≤ l.gapCount → gs = 0 ∧ gc = 0 ∧ iv = some ((l.gapSum + gap) / 4)))) := by
  cases hb : l.lastBeacon with
  | none => exact ⟨l.gapSum, l.gapCount, l.interval, by simp [Link.measureBeacon, hb], fun _ => ⟨rfl, rfl, rfl⟩, by simp⟩
  | some b =>
    unfold Link.measureBeacon
    rw [hb]; dsimp only
    by_cases h : (now - b).toNat < 10 ∨ 2000 < (now - b).toNat
    · refine ⟨0, 0, l.interval,
        if_pos (by rw [Bool.or_eq_true, decide_eq_true_eq, decide_eq_true_eq]; exact h), by simp, ?_⟩
      rintro b' gap h1 rfl
      cases h1
      exact ⟨fun _ => ⟨rfl, rfl, rfl⟩, fun h1 h2 => by omega⟩
    · have hn : ¬ ((decide ((now - b).toNat < Config.shortestGap) || decide (Config.longestGap < (now - b).toNat)) = true) := by
        rw [Bool.or_eq_true, decide_eq_true_eq, decide_eq_true_eq]; exact h
      by_cases h' : 4 ≤ l.gapCount + 1
      · refine ⟨0, 0, _, (if_neg hn).trans (if_pos h'), by simp, ?_⟩
        rintro b' gap h1 rfl
        cases h1
        exact ⟨fun h => by omega, fun h1 h2 => ⟨fun h => by omega, fun _ => ⟨rfl, rfl, rfl⟩⟩⟩
      · refine ⟨_, _, l.interval, (if_neg hn).trans (if_neg h'), by simp, ?_⟩
        rintro b' gap h1 rfl
        cases h1
        exact ⟨fun h => by omega, fun h1 h2 => ⟨fun _ => ⟨rfl, rfl, rfl⟩, fun h => by omega⟩⟩

/-- Everything sector follow can do to an Up or Degraded link (R15, R16). -/
theorem followBeacon_cases (t : Tuning) (h : Sector) (l : Link) (hu : l.state.isUsable = true) :
    ∃ x, x = l.followBeacon t h ∧
      x = { l with
        state := x.state, sector := x.sector, followSector := x.followSector, agree := x.agree, events := x.events
        est := x.est } ∧
      x.state.isUsable = true ∧
      (l.mode = .fixed → x.sector = l.sector ∧ x.followSector = l.followSector ∧ x.agree = l.agree) ∧
      (l.mode = .follow →
        (h = l.sector → x.sector = h ∧ x.followSector = none ∧ x.agree = 0) ∧
        (h ≠ l.sector →
          (l.followSector ≠ some h → x.sector = l.sector ∧ x.followSector = some h ∧ x.agree = 1) ∧
          (l.followSector = some h →
            (l.agree < 2 → x.sector = l.sector ∧ x.followSector = some h ∧ x.agree = l.agree + 1) ∧
            (2 ≤ l.agree → x.sector = h ∧ x.followSector = none ∧ x.agree = 0 ∧ x.events.sectorMoved = true ∧
              x.est.delivery = Vector.replicate 12 512 ∧ x.est.probe = 0 ∧
              x.est.snr = none)))) ∧
      (x.sector = l.sector → x.est.delivery = l.est.delivery ∧ x.est.probe = l.est.probe ∧ x.est.snr = l.est.snr ∧
        x.events.sectorMoved = l.events.sectorMoved) := by
  refine ⟨_, rfl, ?_⟩
  unfold Link.followBeacon
  cases hm : l.mode
  · dsimp only; exact ⟨by rw [← hm], hu, by simp, by simp, by simp⟩
  · dsimp only
    by_cases hs : h = l.sector
    · rw [if_pos hs]
      refine ⟨by simp [Link.clearFollow, hm], hu, by simp, ?_, ?_⟩
      · intro _; refine ⟨fun _ => ⟨hs.symm, rfl, rfl⟩, fun h' => absurd hs h'⟩
      · intro _; exact ⟨rfl, rfl, rfl, rfl⟩
    · rw [if_neg hs]
      by_cases hf : l.followSector = some h
      · rw [if_pos hf]
        by_cases ha : 2 ≤ l.agree
        · rw [if_pos (show Config.agreeToMove ≤ _ by change 3 ≤ _; omega)]
          unfold Link.changeSector
          generalize hz : (Link.clearFollow { l.addEvent .sectorMoved with sector := h }).resetEstimates = z
          have hmv : z.events.sectorMoved = true := by rw [← hz]; rfl
          have hzu : z.state.isUsable = true := by rw [← hz]; exact hu
          have h1 := evaluate_frame t z
          refine ⟨?_, by rw [evaluate_isUsable]; exact hzu, by simp, ?_, ?_⟩
          · have q1 := evaluate_sector t z
            have q2 := evaluate_followSector t z
            have q3 := evaluate_agree t z
            have q4 : (z.evaluate t).est = { z.est with oneWay := (z.evaluate t).est.oneWay } := by conv_lhs => rw [h1]
            generalize z.evaluate t = q at *
            conv_lhs => rw [h1]
            subst hz
            rw [q1, q2, q3]
            rw [show q.est = _ from q4]
            rw [show SectorMode.follow = l.mode from hm.symm]
            rfl
          · intro _
            refine ⟨fun h' => absurd h' hs, fun _ => ⟨fun h' => absurd hf h', fun _ =>
              ⟨fun h' => by omega, fun _ => ?_⟩⟩⟩
            simp only [evaluate_sector, evaluate_followSector, evaluate_agree, evaluate_delivery, evaluate_probe,
              evaluate_snr, (evaluate_keeps t z).2]
            rw [hmv, ← hz]; exact ⟨rfl, rfl, rfl, rfl, rfl, rfl, rfl⟩
          · intro h'; rw [evaluate_sector, ← hz] at h'; exact absurd h' hs
        · rw [if_neg (show ¬ Config.agreeToMove ≤ _ by change ¬ 3 ≤ _; omega)]
          refine ⟨by rw [← hm], hu, by simp, ?_, fun _ => ⟨rfl, rfl, rfl, rfl⟩⟩
          intro _
          exact ⟨fun h' => absurd h' hs, fun _ => ⟨fun h' => absurd hf h', fun _ =>
            ⟨fun _ => ⟨rfl, rfl, rfl⟩, fun h' => absurd h' ha⟩⟩⟩
      · rw [if_neg hf, if_neg (show ¬ Config.agreeToMove ≤ _ by change ¬ 3 ≤ _; omega)]
        refine ⟨by rw [← hm], hu, by simp, ?_, fun _ => ⟨rfl, rfl, rfl, rfl⟩⟩
        intro _
        refine ⟨fun h' => absurd h' hs, fun _ => ⟨fun h' => ⟨rfl, rfl, rfl⟩, fun h' => absurd h' hf⟩⟩

/-! ### A HEARD REPORT on one record, in the words of the statements (R6) -/

theorem measureBeacon_measured (now : Time) (l : Link) : Link.beaconMeasured now l (l.measureBeacon now) := by
  obtain ⟨gs, gc, iv, h1, h2, h3⟩ := measureBeacon_cases now l
  unfold Link.beaconMeasured
  rw [h1]
  exact ⟨rfl, h2, h3⟩

theorem followBeacon_followed (t : Tuning) (h : Sector) (l : Link) : l.sectorFollowed t h (l.followBeacon t h) := by
  unfold Link.sectorFollowed Link.followBeacon
  split
  · next hm => exact ⟨fun _ => rfl, fun h' => by rw [hm] at h'; cases h'⟩
  next hm =>
  refine ⟨fun h' => (by rw [hm] at h'; cases h'), fun _ => ?_⟩
  refine ⟨fun hs => by rw [if_pos hs]; rfl, fun hs => ⟨fun hf => ?_, fun hf => ⟨fun ha => ?_, fun ha => ?_⟩⟩⟩ <;> rw [if_neg hs]
  · rw [if_neg hf, if_neg (by decide)]
  · rw [if_pos hf, if_neg (show ¬ Config.agreeToMove ≤ _ by change ¬ 3 ≤ _; omega), ← hf]
  · rw [if_pos hf, if_pos (show Config.agreeToMove ≤ _ by change 3 ≤ _; omega)]
    rfl

theorem sampleSnr_snr (t : Tuning) (x : Nat) (l : Link) : l.sampleSnr t (x * 4) =
    { l with est := { l.est with snr := some (snrAfter t x l.est.snr) } } := by
  unfold Link.sampleSnr snrAfter
  cases l.est.snr <;> simp [Nat.mul_comm, Param.snrDepth]

/-- Steps 1 to 4 of R6 (R10, R15, R16, R34, R35). -/
theorem hear_steps (t : Tuning) (now : Time) (x : Nat) (h : Sector) (b : Bool) (l : Link) :
    l.heardSteps t now x h b (l.hear t now x h b) := by
  refine ⟨({ l with lastHeard := some now } : Link).measureBeacon now,
    if b then (({ l with lastHeard := some now } : Link).measureBeacon now).followBeacon t h else { l with lastHeard := some now },
    fun hb => by rw [hb]; rfl, fun hb => ⟨measureBeacon_measured _ _, ?_⟩, ?_⟩
  · rw [if_pos hb]; exact followBeacon_followed _ _ _
  · unfold Link.hear
    dsimp only
    rw [sampleSnr_snr]

end Sys2Proof.Machine
end

