-- ==== Sys2Proof/Laws/Notices.lean ====
section
/-! SUPPORT. Link notices and cascade retirements, destination by destination: a selection or a removal reads of a state only
what the same operation on another destination keeps, so each destination that a notice or a cascade reaches is as its own
selection or removal, alone, leaves it (R22, R88, R89). -/

namespace Sys2Proof.Machine

/-- Two states are alike to a selection of destination `d`. -/
def State.alikeFor (s t : State) (d : DestId) : Prop :=
  t.now = s.now ∧ s.sameDest t d ∧ ∀ c ∈ s.chainOf d, sameButCost (s.cand c) (t.cand c) ∧ t.candCost c = s.candCost c ∧
    t.candUsable c = s.candUsable c

theorem State.reselects.alikeFor {s t : State} {d e : DestId} (h : s.reselects t e) (hd : d ≠ e) : s.alikeFor t d :=
  ⟨State.pathsOnly_now h.pathsOnly, ⟨h.dest_ne hd, h.changed_ne hd⟩, fun c _ => ⟨h.same c,
    candCost_congr (h.same c) (State.pathsOnly_link h.pathsOnly) (State.pathsOnly_tuning h.pathsOnly),
    candUsable_congr (h.same c) (State.pathsOnly_link h.pathsOnly) (State.pathsOnly_tuning h.pathsOnly)⟩⟩

/-- The record of a candidate after immediate selection of a destination. -/
theorem selectNow_cand (s : State) (d : DestId) (c : CandId) : (s.selectNow d).cand c =
    if c ∈ s.chainOf d then (s.cand c).map (fun k => { k with lastCost := s.candCost c }) else s.cand c := by
  cases hr : s.dest d with
  | none => simp [State.selectNow, State.chainOf, hr]
  | some r => rw [selectNow_eq s d r hr, setActive_cand, refreshCosts_cand]; simp [State.chainOf, hr]

theorem cheapest_congr {f g : CandId → Nat} {cs : List CandId} (h : ∀ c ∈ cs, f c = g c) : cheapest f cs = cheapest g cs := by
  induction cs with
  | nil => rfl
  | cons c cs ih =>
    have h1 := ih (fun e he => h e (List.mem_cons_of_mem _ he))
    simp only [cheapest, h1]
    cases hc : cheapest g cs with
    | none => rfl
    | some b => simp only [h c (List.mem_cons_self ..), h b (List.mem_cons_of_mem _ (cheapest_mem hc))]

/-- The active candidate set alike, its destination being alike. -/
theorem setActive_congr {s t : State} {d : DestId} (a : Option CandId) (hn : t.now = s.now) (h : s.sameDest t d) :
    (s.setActive d a).sameDest (t.setActive d a) d := by
  constructor
  · simp only [setActive_dest, if_true, h.1, hn]
  · simp only [setActive_changed, h.1, h.2]

/-- Immediate selection leaves alike what it finds alike. -/
theorem selectNow_congr {s t : State} {d : DestId} (h : s.alikeFor t d) :
    (s.selectNow d).sameDest (t.selectNow d) d ∧ ∀ c ∈ s.chainOf d, (t.selectNow d).cand c = (s.selectNow d).cand c := by
  obtain ⟨hn, ⟨hd, hch⟩, hc⟩ := h
  constructor
  · cases hr : s.dest d with
    | none =>
      rw [hr] at hd
      simp only [State.selectNow, hr, hd, State.sameDest, true_and]
      exact hch
    | some r =>
      rw [hr] at hd
      have hr' : s.chainOf d = r.chain := by simp [State.chainOf, hr]
      rw [hr'] at hc
      have h2 : r.chain.filter t.candUsable = r.chain.filter s.candUsable := List.filter_congr fun c h => (hc c h).2.2
      have h1 := cheapest_congr (f := t.candCost) (g := s.candCost) (cs := r.chain.filter s.candUsable)
        fun c h => (hc c (List.mem_filter.1 h).1).2.1
      rw [selectNow_eq s d r hr, selectNow_eq t d r hd, h2, h1]
      refine setActive_congr _ ?_ ⟨?_, ?_⟩
      · rw [State.pathsOnly_now (refreshCosts_pathsOnly _ _), State.pathsOnly_now (refreshCosts_pathsOnly _ _), hn]
      · simp only [refreshCosts_dest, hr, hd]
      · simp only [refreshCosts_changed, hch]
  · intro c hm
    have hm' : c ∈ t.chainOf d := by simpa [State.chainOf, hd] using hm
    rw [selectNow_cand, selectNow_cand, if_pos hm, if_pos hm', (hc c hm).2.1]
    rcases sameButCost_iff.1 (hc c hm).1 with ⟨h1, h2⟩ | ⟨k, k', h1, h2, h3, h4, h5⟩
    · rw [h1, h2]
    · rw [h1, h2]
      cases k; cases k'
      simp_all

/-- So does the chain-edit check. -/
theorem chainEditCheck_congr {s t : State} {d : DestId} (h : s.alikeFor t d) :
    (s.chainEditCheck d).sameDest (t.chainEditCheck d) d := by
  have hs := (selectNow_congr h).1
  obtain ⟨-, ⟨hd, hch⟩, hc⟩ := h
  unfold State.chainEditCheck
  rw [hd]
  cases hr : s.dest d with
  | none => exact ⟨hd, hch⟩
  | some r =>
    cases ha : r.active with
    | none => simpa [ha] using hs
    | some a =>
      by_cases hm : a ∈ r.chain
      · have hu := (hc a (by simpa [State.chainOf, hr] using hm)).2.2
        have hm' : r.chain.contains a = true := by simpa using hm
        simp only [ha, hm', hu, Bool.true_and]
        split
        · exact ⟨by simp [hd], by simp [hch]⟩
        · exact hs
      · have hm' : r.chain.contains a = false := by simpa using hm
        simp only [ha, hm', Bool.false_and]
        exact hs

/-- A candidate whose last path cost is its path cost. -/
def State.costShown (s : State) (c : CandId) : Prop := ∀ k, s.cand c = some k → k.lastCost = s.candCost c

theorem selectNow_candCost (s : State) (d : DestId) (c : CandId) : (s.selectNow d).candCost c = s.candCost c :=
  candCost_congr ((selectNow_reselects s d).same c) (State.pathsOnly_link (selectNow_reselects s d).pathsOnly)
    (State.pathsOnly_tuning (selectNow_reselects s d).pathsOnly)

theorem selectNow_shown {s : State} {c : CandId} (d : DestId) (h : s.costShown c) :
    (s.selectNow d).cand c = s.cand c ∧ (s.selectNow d).costShown c := by
  have h1 : (s.selectNow d).cand c = s.cand c := by
    rw [selectNow_cand]
    split
    · cases hk : s.cand c with
      | none => rfl
      | some k => cases k; have := h _ hk; simp_all
    · rfl
  refine ⟨h1, fun k hk => ?_⟩
  rw [h1] at hk
  rw [selectNow_candCost]
  exact h k hk

theorem selectNow_showsChain {s : State} {d : DestId} {c : CandId} (hc : c ∈ s.chainOf d) : (s.selectNow d).costShown c := by
  intro k hk
  rw [selectNow_cand, if_pos hc] at hk
  rw [selectNow_candCost]
  cases h : s.cand c with
  | none => rw [h] at hk; cases hk
  | some k0 => rw [h] at hk; cases hk; rfl

theorem foldl_shown {p : State → DestId → Bool} (ds : List DestId) {s : State} {c : CandId} (h : s.costShown c) :
    (ds.foldl (fun s d => if p s d then s.selectNow d else s) s).cand c = s.cand c := by
  induction ds generalizing s with
  | nil => rfl
  | cons d ds ih =>
    simp only [List.foldl_cons]
    split
    · obtain ⟨h1, h2⟩ := selectNow_shown d h
      rw [ih h2, h1]
    · exact ih h

/-- Each destination that a sweep of selections reaches is as its own selection, alone, leaves it. -/
theorem foldl_selected {p : State → DestId → Bool} (ds : List DestId) (s : State)
    (hp : ∀ s t d e, s.reselects t d → e ≠ d → p t e = p s e) (hn : ds.Nodup) {d : DestId} (hd : d ∈ ds)
    (h : p s d = true) : s.selectedIn (ds.foldl (fun s d => if p s d then s.selectNow d else s) s) d := by
  induction ds generalizing s with
  | nil => cases hd
  | cons e ds ih =>
    obtain ⟨hn1, hn2⟩ := List.nodup_cons.1 hn
    by_cases hde : d = e
    · subst hde
      simp only [List.foldl_cons, h, if_true]
      obtain ⟨-, -, -, h4⟩ := foldl_selectNow ds (s.selectNow d) hp
      exact ⟨h4 d (.inl hn1) hn2, fun c hc => foldl_shown ds (selectNow_showsChain hc)⟩
    · have hr : s.reselects (if p s e then s.selectNow e else s) e := by
        split
        · exact selectNow_reselects s e
        · exact State.reselects_rfl s e
      simp only [List.foldl_cons]
      generalize (if p s e then s.selectNow e else s) = u at hr ⊢
      have hm : d ∈ ds := (List.mem_cons.1 hd).resolve_left hde
      obtain ⟨⟨k1, k2⟩, k3⟩ := ih u hn2 hm ((hp s u e d hr hde).trans h)
      obtain ⟨⟨c1, c2⟩, c3⟩ := selectNow_congr (hr.alikeFor hde)
      have hch : u.chainOf d = s.chainOf d := by simp [State.chainOf, hr.dest_ne hde]
      exact ⟨⟨k1.trans c1, k2.trans c2⟩, fun c hc => (k3 c (by rw [hch]; exact hc)).trans (c3 c hc)⟩

/-- A candidate on a link that is Vacant or not usable is not usable (R74). -/
theorem not_usable_of_names {s : State} {i : LinkId} {c : CandId} (hn : s.candNames i c = true)
    (hl : ∀ l, s.link i = some l → l.state.isUsable = false) : s.candUsable c = false := by
  unfold State.candNames at hn
  unfold State.candUsable
  cases hk : s.cand c with
  | none => rfl
  | some k =>
    have hi : k.link = i := by simpa [hk] using hn
    dsimp only
    rw [hi]
    cases h : s.link i with
    | none => rfl
    | some l => simp [hl l h]

/-- Immediate selection never makes a candidate active whose link is Vacant or not usable (R74, R76). -/
theorem selectNow_notOn {s : State} {i : LinkId} (d : DestId) (hl : ∀ l, s.link i = some l → l.state.isUsable = false) :
    (s.selectNow d).activeOn i d = false := by
  obtain ⟨-, -, -, k4, -⟩ := selectNow_reselects s d
  unfold State.activeOn
  cases hr : s.dest d with
  | none => rw [k4 hr, hr]
  | some r =>
    rw [selectNow_eq s d r hr, setActive_dest, if_pos rfl, refreshCosts_dest, hr]
    simp only [Option.map_some, Dest.withActive_active]
    cases hc : cheapest s.candCost (r.chain.filter s.candUsable) with
    | none => rfl
    | some a =>
      have hu := (List.mem_filter.1 (cheapest_mem hc)).2
      dsimp only
      by_contra hn
      have hn' : s.candNames i a = true := by
        rw [← eq_true_of_ne_false hn]
        refine (candNames_congr ?_ i).symm
        have := (selectNow_reselects s d).same a
        rwa [selectNow_eq s d r hr, hc] at this
      rw [not_usable_of_names hn' hl] at hu
      cases hu

/-- What a usable-lost notice leaves, when the link's new record is not usable (R88). -/
theorem usableLost_leaves (s : State) (i : LinkId) (x : Option Link) (hx : ∀ l, x = some l → l.state.isUsable = false) :
    s.lostReselected i (s.setLink i x) ((s.setLink i x).usableLost i) := by
  intro d
  obtain ⟨h1, h2, -, h4⟩ := usableLost_spec (s.setLink i x) i
  have hsel : s.activeOn i d = true → (s.setLink i x).selectedIn ((s.setLink i x).usableLost i) d := fun h =>
    foldl_selected (p := fun s d => s.activeOn i d) _ _ (activeOn_reselects i) (List.nodup_finRange _)
      (List.mem_finRange d) h
  refine ⟨hsel, fun h => h4 d h, ?_⟩
  have hname : ∀ c, ((s.setLink i x).usableLost i).candNames i c = s.candNames i c :=
    fun c => candNames_congr (h2.2 c) i
  cases hd : s.activeOn i d with
  | false =>
    have := h4 d hd
    unfold State.activeOn at hd ⊢
    rw [this.1]
    rw [show (s.setLink i x).dest d = s.dest d from rfl]
    cases hr : s.dest d with
    | none => rfl
    | some r =>
      cases ha : r.active with
      | none => simp [ha]
      | some a => simpa [hr, ha, hname] using hd
  | true =>
    obtain ⟨⟨e1, -⟩, -⟩ := hsel hd
    have hn := selectNow_notOn (s := s.setLink i x) (i := i) d (fun l hl => hx l (by simpa using hl))
    unfold State.activeOn at hn ⊢
    rw [e1]
    cases hr : ((s.setLink i x).selectNow d).dest d with
    | none => rfl
    | some r =>
      cases ha : r.active with
      | none => simp [ha]
      | some a =>
        rw [hr] at hn
        simp only [ha] at hn ⊢
        rw [hname, ← hn]
        exact (candNames_congr ((selectNow_reselects (s.setLink i x) d).same a) i).symm

/-- The link is Vacant or not usable, and no active candidate names it. -/
def State.offLink (s : State) (i : LinkId) : Prop :=
  (∀ l, s.link i = some l → l.state.isUsable = false) ∧ ∀ d, s.activeOn i d = false

theorem selectNow_offLink {s : State} {i : LinkId} (d : DestId) (h : s.offLink i) : (s.selectNow d).offLink i := by
  have hr := selectNow_reselects s d
  refine ⟨fun l hl => h.1 l (by rwa [State.pathsOnly_link hr.pathsOnly] at hl), fun e => ?_⟩
  by_cases he : e = d
  · rw [he]; exact selectNow_notOn d h.1
  · rw [activeOn_reselects i s _ d e hr he]; exact h.2 e

/-- A usable-lost notice for one link brings no destination onto another that is off. -/
theorem usableLost_offLink {s : State} {i : LinkId} (j : LinkId) (h : s.offLink i) : (s.usableLost j).offLink i := by
  unfold State.usableLost
  generalize List.finRange 128 = ds
  induction ds generalizing s with
  | nil => exact h
  | cons d ds ih =>
    rw [List.foldl_cons]
    split
    · exact ih (selectNow_offLink d h)
    · exact ih h

/-- What a usable-gained notice leaves (R89). -/
theorem usableGained_leaves (s : State) (i : LinkId) (x : Option Link) :
    s.gainedReselected i (s.setLink i x) ((s.setLink i x).usableGained i) := by
  intro d
  obtain ⟨-, -, -, h4⟩ := usableGained_spec (s.setLink i x) i
  exact ⟨fun h => foldl_selected (p := fun s d => s.waitsOn i d) _ _ (waitsOn_reselects i) (List.nodup_finRange _)
    (List.mem_finRange d) h, fun h => h4 d h⟩

/-! ### A usable-gained notice and the evaluation after it (R8) -/

/-- Two records of one link alike to path costs and usability. -/
def Link.alike (t : Tuning) (x y : Link) : Prop := y.state.isUsable = x.state.isUsable ∧ y.cost t = x.cost t

theorem candCost_setLink {s : State} {i : LinkId} {x y : Link} (hx : s.link i = some x) (h : x.alike s.tuning y) :
    (s.setLink i (some y)).candCost = s.candCost ∧ (s.setLink i (some y)).candUsable = s.candUsable := by
  have ht : (s.setLink i (some y)).tuning = s.tuning := rfl
  constructor <;> funext c
  · simp only [State.candCost, cand_setLink, ht, link_setLink]
    cases s.cand c with
    | none => rfl
    | some k =>
      dsimp only
      by_cases hk : k.link = i
      · rw [hk, if_pos rfl, hx]; simp only [h.2]
      · rw [if_neg hk]
  · simp only [State.candUsable, cand_setLink, ht, link_setLink]
    cases s.cand c with
    | none => rfl
    | some k =>
      dsimp only
      by_cases hk : k.link = i
      · rw [hk, if_pos rfl, hx]; simp only [h.1, h.2]
      · rw [if_neg hk]

theorem refreshCost_setLink {s : State} {i : LinkId} {x y : Link} (hx : s.link i = some x) (h : x.alike s.tuning y)
    (c : CandId) : (s.setLink i (some y)).refreshCost c = (s.refreshCost c).setLink i (some y) := by
  unfold State.refreshCost State.updateCand
  rw [(candCost_setLink hx h).1, cand_setLink]
  cases s.cand c <;> rfl

theorem refreshCosts_setLink {s : State} {i : LinkId} {x y : Link} (hx : s.link i = some x) (h : x.alike s.tuning y)
    (cs : List CandId) : (s.setLink i (some y)).refreshCosts cs = (s.refreshCosts cs).setLink i (some y) := by
  induction cs generalizing s with
  | nil => rfl
  | cons c cs ih =>
    show ((s.setLink i (some y)).refreshCost c).refreshCosts cs = ((s.refreshCost c).refreshCosts cs).setLink i (some y)
    have hp := refreshCost_pathsOnly s c
    rw [refreshCost_setLink hx h, ih (by rw [State.pathsOnly_link hp, hx]) (by rw [State.pathsOnly_tuning hp]; exact h)]

theorem setActive_setLink (s : State) (i : LinkId) (y : Option Link) (d : DestId) (a : Option CandId) :
    (s.setLink i y).setActive d a = (s.setActive d a).setLink i y := by
  unfold State.setActive
  rw [dest_setLink]
  cases s.dest d with
  | none => rfl
  | some r => dsimp only; split <;> rfl

/-- Immediate selection does not see a link record exchanged for one alike. -/
theorem selectNow_setLink {s : State} {i : LinkId} {x y : Link} (hx : s.link i = some x) (h : x.alike s.tuning y)
    (d : DestId) : (s.setLink i (some y)).selectNow d = (s.selectNow d).setLink i (some y) := by
  unfold State.selectNow
  rw [dest_setLink]
  cases s.dest d with
  | none => rfl
  | some r =>
    dsimp only
    rw [(candCost_setLink hx h).1, (candCost_setLink hx h).2, refreshCosts_setLink hx h, setActive_setLink]

theorem foldl_waits_setLink {i : LinkId} {x y : Link} (ds : List DestId) {s : State} (hx : s.link i = some x)
    (h : x.alike s.tuning y) :
    ds.foldl (fun s d => if s.waitsOn i d then s.selectNow d else s) (s.setLink i (some y)) =
      (ds.foldl (fun s d => if s.waitsOn i d then s.selectNow d else s) s).setLink i (some y) := by
  induction ds generalizing s with
  | nil => rfl
  | cons d ds ih =>
    rw [List.foldl_cons, List.foldl_cons]
    by_cases hw : s.waitsOn i d = true
    · have hp := (selectNow_reselects s d).pathsOnly
      rw [if_pos hw, if_pos ((waitsOn_setLink s i i (some y) d).trans hw), selectNow_setLink hx h,
        ih (by rw [State.pathsOnly_link hp, hx]) (by rw [State.pathsOnly_tuning hp]; exact h)]
    · rw [if_neg hw, if_neg (fun e => hw ((waitsOn_setLink s i i (some y) d).symm.trans e)), ih hx h]

/-- A link record exchanged for one alike after a usable-gained notice might as well have been exchanged before it. -/
theorem usableGained_setLink {s : State} {i : LinkId} {x y : Link} (h : x.alike s.tuning y) :
    ((s.setLink i (some x)).usableGained i).setLink i (some y) = (s.setLink i (some y)).usableGained i := by
  have := foldl_waits_setLink (List.finRange 128) (s := s.setLink i (some x)) (link_setLink_self _ _ _) h
  have hself : (s.setLink i (some x)).setLink i (some y) = s.setLink i (some y) := by simp [State.setLink, put]
  rw [hself] at this
  exact this.symm

/-! ### A cascade, destination by destination (R22) -/

theorem afterRemoval_congr {s t : State} {d : DestId} (h : s.alikeFor t d) :
    (s.afterRemoval d).sameDest (t.afterRemoval d) d := by
  have hc := chainEditCheck_congr h
  obtain ⟨hn, hd, -⟩ := h
  unfold State.afterRemoval
  rw [hd.1]
  cases hr : s.dest d with
  | none => exact hd
  | some r =>
    dsimp only
    split
    · exact setActive_congr none hn hd
    · exact hc

theorem candCost_of {s t : State} {c : CandId} {k : Cand} (hk : s.cand c = some k) (hc : sameButCost (s.cand c) (t.cand c))
    (hl : t.link k.link = s.link k.link) (ht : t.tuning = s.tuning) :
    t.candCost c = s.candCost c ∧ t.candUsable c = s.candUsable c := by
  rcases sameButCost_iff.1 hc with ⟨h1, -⟩ | ⟨k1, k', h1, h2, -, h4, h5⟩
  · rw [hk] at h1; cases h1
  · rw [hk] at h1; cases h1
    constructor
    · simp [State.candCost, hk, h2, h4, h5, hl, ht]
    · simp [State.candUsable, hk, h2, h4, h5, hl, ht]

/-- The removal of a candidate reads of a state only its destination, and of the other members of its chain only what they
name. -/
theorem removeCand_congr {s t : State} {c : CandId} {k k' : Cand} {r : Dest} (hk : s.cand c = some k)
    (hk' : t.cand c = some k') (hkd : k'.dest = k.dest) (hkl : k'.link = k.link) (hr : s.dest k.dest = some r)
    (hnd : r.chain.Nodup) (hn : t.now = s.now) (ht : t.tuning = s.tuning) (hd : s.sameDest t k.dest)
    (hm : ∀ e ∈ r.chain, e ≠ c → ∃ m, s.cand e = some m ∧ m.link ≠ k.link ∧ sameButCost (s.cand e) (t.cand e) ∧
      t.link m.link = s.link m.link) : (s.removeCand c).sameDest (t.removeCand c) k.dest := by
  rw [removeCand_eq s c k hk, removeCand_eq t c k' hk', hkd]
  refine afterRemoval_congr ⟨?_, ⟨?_, ?_⟩, fun e he => ?_⟩
  · rw [State.tablesOnly_now (detach_tablesOnly t c), State.tablesOnly_now (detach_tablesOnly s c), hn]
  · rw [detach_dest s c k hk, detach_dest t c k' hk', hkd, if_pos rfl, if_pos rfl, hd.1]
  · rw [detach_changed, detach_changed, hd.2]
  · have hch : (s.detach c).chainOf k.dest = r.chain.erase c := by
      simp [State.chainOf, detach_dest s c k hk, hr]
    rw [hch] at he
    have hec : e ≠ c := by rintro rfl; exact hnd.not_mem_erase he
    obtain ⟨m, m1, m2, m3, m4⟩ := hm e (List.mem_of_mem_erase he) hec
    have a1 : (s.detach c).cand e = s.cand e := by rw [detach_cand, if_neg hec]
    have a2 : (t.detach c).cand e = t.cand e := by rw [detach_cand, if_neg hec]
    have hc : sameButCost ((s.detach c).cand e) ((t.detach c).cand e) := by rw [a1, a2]; exact m3
    refine ⟨hc, candCost_of (k := m) (a1.trans m1) hc ?_ ?_⟩
    · rw [detach_link t c k' hk', detach_link s c k hk, hkl, if_neg m2, if_neg m2, m4]
    · rw [State.tablesOnly_tuning (detach_tablesOnly t c), State.tablesOnly_tuning (detach_tablesOnly s c), ht]

/-- The walk of R22 leaves a destination with no candidate on the link as it was. -/
theorem removeAllOf_untouched (cs : List CandId) (s : State) (i : LinkId) (hs : s.pathsSound) (d : DestId)
    (h : ∀ c ∈ s.chainOf d, s.candNames i c = false) : s.sameDest (s.removeAllOf i cs) d := by
  induction cs generalizing s with
  | nil => exact ⟨rfl, rfl⟩
  | cons c cs ih =>
    by_cases hn : s.candNames i c = true
    · have he : s.removeAllOf i (c :: cs) = (s.removeCand c).removeAllOf i cs := by simp [State.removeAllOf, hn]
      rw [he]
      cases hk : s.cand c with
      | none => simp [State.candNames, hk] at hn
      | some k =>
        obtain ⟨rk, hk1, hk2⟩ := hs.2 c k hk
        have hd : d ≠ k.dest := by
          rintro rfl
          rw [h c (by simpa [State.chainOf, hk1] using hk2)] at hn
          cases hn
        obtain ⟨h1, h2⟩ := removeCand_dest_ne s c k hk d hd
        obtain ⟨h3, h4⟩ := ih (s.removeCand c) (removeCand_pathsSound c hs) (fun e he => by
          rw [candNames_removeCand, h e (by simpa [State.chainOf, h1] using he), Bool.and_false])
        exact ⟨h3.trans h1, h4.trans h2⟩
    · have he : s.removeAllOf i (c :: cs) = s.removeAllOf i cs := by simp [State.removeAllOf, hn]
      rw [he]
      exact ih s hs h

/-- The walk of R22 leaves the destination of a candidate on the link as the removal of that candidate, alone, leaves it. -/
theorem removeAllOf_removed (cs : List CandId) (s : State) (i : LinkId) (hs : s.pathsSound) (c : CandId) (k : Cand)
    (hk : s.cand c = some k) (hi : k.link = i) (hc : c ∈ cs) :
    (s.removeCand c).sameDest (s.removeAllOf i cs) k.dest := by
  induction cs generalizing s k with
  | nil => cases hc
  | cons e cs ih =>
    by_cases hn : s.candNames i e = true
    · have he : s.removeAllOf i (e :: cs) = (s.removeCand e).removeAllOf i cs := by simp [State.removeAllOf, hn]
      rw [he]
      obtain ⟨r, hr, hm⟩ := hs.2 c k hk
      have hsound := hs.1 k.dest r hr
      by_cases hec : e = c
      · subst hec
        refine removeAllOf_untouched cs _ i (removeCand_pathsSound e hs) k.dest ?_
        intro x hx
        rw [candNames_removeCand]
        obtain ⟨r', a1, -, a3⟩ := removeCand_chain s e k r hk hr
        have hx' : x ∈ r.chain.erase e := by simpa [State.chainOf, a1, a3] using hx
        have hxe : x ≠ e := by rintro rfl; exact hsound.2.1.not_mem_erase hx'
        have hxm := List.mem_of_mem_erase hx'
        obtain ⟨m, m1, -⟩ := hsound.2.2.1 x hxm
        have : m.link ≠ i := fun h => hxe (hsound.2.2.2.1 x hxm e hm m k m1 hk (h.trans hi.symm))
        simp [State.candNames, m1, this]
      · have hmc : c ∈ cs := (List.mem_cons.1 hc).resolve_left (fun h => hec h.symm)
        cases hke : s.cand e with
        | none => simp [State.candNames, hke] at hn
        | some ke =>
          have hkei : ke.link = i := by simpa [State.candNames, hke] using hn
          have hdne : k.dest ≠ ke.dest := by
            intro hx
            obtain ⟨re, e1, e2⟩ := hs.2 e ke hke
            rw [← hx, hr] at e1; cases e1
            exact hec (hsound.2.2.2.1 e e2 c hm ke k hke hk (hkei.trans hi.symm))
          have hcc := removeCand_cand s e c
          rw [if_neg (fun h => hec h.symm)] at hcc
          rcases sameButCost_iff.1 hcc with ⟨x, -⟩ | ⟨k0, k', x1, x2, x3, x4, -⟩
          · rw [hk] at x; cases x
          rw [hk] at x1; cases x1
          have hih := ih (s.removeCand e) (removeCand_pathsSound e hs) k' x2 (x4.trans hi) hmc
          rw [x3] at hih
          have hcg := removeCand_congr (s := s) (t := s.removeCand e) hk x2 x3 x4 hr hsound.2.1
            (State.tablesOnly_now (removeCand_tablesOnly s e)) (State.tablesOnly_tuning (removeCand_tablesOnly s e))
            (removeCand_dest_ne s e ke hke k.dest hdne) (by
              intro x hx hxc
              obtain ⟨m, m1, m2⟩ := hsound.2.2.1 x hx
              have hml : m.link ≠ k.link := fun h => hxc (hsound.2.2.2.1 x hx c hm m k m1 hk h)
              have hxe : x ≠ e := by rintro rfl; rw [hke] at m1; cases m1; exact hdne m2.symm
              have hxx := removeCand_cand s e x
              rw [if_neg hxe] at hxx
              exact ⟨m, m1, hml, hxx, removeCand_link_ne s e i m.link hn (fun h => hml (h.trans hi.symm))⟩)
          exact ⟨hih.1.trans hcg.1, hih.2.trans hcg.2⟩
    · have he : s.removeAllOf i (e :: cs) = s.removeAllOf i cs := by simp [State.removeAllOf, hn]
      rw [he]
      refine ih s hs k hk hi ((List.mem_cons.1 hc).resolve_left ?_)
      rintro rfl
      exact hn (by simp [State.candNames, hk, hi])

/-- What a cascade retirement leaves, over sound chains (R22). -/
theorem retireCascade_leaves {s : State} {i : LinkId} {l : Link} (hl : s.link i = some l) (hs : s.pathsSound) :
    s.cascadeRetired i (s.retireCascade i) := by
  obtain ⟨-, h2, h3, h4, -, -, -, h6⟩ := retireCascade_spec s i l hl
  have hsame : ∀ d, (s.removeCandsOf i).sameDest (s.retireCascade i) d := by
    intro d
    have he : s.retireCascade i = (s.removeCandsOf i).vacateLink i l.state := by simp only [State.retireCascade, hl]
    rw [he]
    refine (vacateLink_linkWritten _ i l.state).2.1 d ?_
    have hno : ∀ c, (s.removeCandsOf i).candNames i c = false := by
      intro c
      rw [removeCandsOf_eq]
      obtain ⟨-, k2, k3, -⟩ := removeAllOf_spec (List.finRange 256) s i
      cases hn : s.candNames i c with
      | true => simp [State.candNames, k2 c (List.mem_finRange c) hn]
      | false => rw [candNames_congr (k3 c (.inr hn)), hn]
    unfold State.activeOn
    split
    · split
      · exact hno _
      · rfl
    · rfl
  have hnone : ∀ c, s.candNames i c = true → s.cand c ≠ none := fun c h hx => by simp [State.candNames, hx] at h
  refine ⟨by rw [h2 i, if_pos rfl], fun j hj => by rw [h2 j, if_neg hj], h3, h4, fun d r hr => ?_, fun c k hk hi => ?_,
    fun d hd => ?_⟩
  · obtain ⟨r', a1, a2, a3, -⟩ := h6 hs d r hr
    exact ⟨r', a1, a2, a3⟩
  · have h := removeAllOf_removed (List.finRange 256) s i hs c k hk hi (List.mem_finRange c)
    rw [← removeCandsOf_eq] at h
    exact ⟨(hsame _).1.trans h.1, (hsame _).2.trans h.2⟩
  · have h := removeAllOf_untouched (List.finRange 256) s i hs d hd
    rw [← removeCandsOf_eq] at h
    exact ⟨(hsame _).1.trans h.1, (hsame _).2.trans h.2⟩

end Sys2Proof.Machine
end

