-- ==== Sys2Proof/Laws/Events.lean ====
section
/-! SUPPORT. The events that are not host commands: the query queue, the ports' messages, the take of a report, the expiry
of a deadline, and the visits of a job, what each can do, said once. -/

namespace Sys2Proof.Machine

/-! ### The query queue (R97) -/

/-- Resolving the head leaves the tables as an evaluation of one destination leaves them, and puts an answer in the head
when it was waiting. -/
theorem resolveQuery_spec (s : State) (q : Query) :
    (s.resolveQuery q).2.tag = q.tag ∧ ((s.resolveQuery q).1 = s ∨ ∃ d, s.findDest q.dest = some d ∧
      s.part = .operational ∧ (s.resolveQuery q).1 = s.evaluateDest d) := by
  unfold State.resolveQuery
  split
  · exact ⟨rfl, .inl rfl⟩
  · next hp =>
    split
    · exact ⟨rfl, .inl rfl⟩
    · next d hd => exact ⟨rfl, .inr ⟨d, hd, hp, rfl⟩⟩

theorem resolveHead_nil (s : State) (h : s.queries = []) : s.resolveHead = s := by simp [State.resolveHead, h]

theorem resolveHead_held (s : State) (q : Query) (a : PathAnswer) (rest : List Query) (h : s.queries = q :: rest)
    (ha : q.answer = some a) : s.resolveHead = s := by simp [State.resolveHead, h, ha]

theorem resolveHead_waiting (s : State) (q : Query) (rest : List Query) (h : s.queries = q :: rest)
    (ha : q.answer = none) : s.resolveHead =
      { (s.resolveQuery q).1 with queries := { q with answer := some (s.resolveQuery q).2 } :: rest } := by
  simp [State.resolveHead, h, ha]

/-- Everything resolving the head can do: at most one destination reselected, and the queue's head answered. -/
theorem resolveHead_cases (s : State) : s.resolveHead = s ∨ ∃ q rest a u, s.queries = q :: rest ∧ q.answer = none ∧
    a.tag = q.tag ∧ s.resolveHead = { u with queries := { q with answer := some a } :: rest } ∧
      (u = s ∨ ∃ d, s.findDest q.dest = some d ∧ s.part = .operational ∧ u = s.evaluateDest d) := by
  cases hq : s.queries with
  | nil => exact .inl (resolveHead_nil s hq)
  | cons q rest =>
    cases ha : q.answer with
    | some a => exact .inl (resolveHead_held s q a rest hq ha)
    | none =>
      obtain ⟨h1, h2⟩ := resolveQuery_spec s q
      exact .inr ⟨q, rest, _, _, rfl, ha, h1, resolveHead_waiting s q rest hq ha, h2⟩

/-! ### The take of a report (R113 to R115) -/

theorem askedLink_eq_some {s : State} {p : Radio} {id : Byte} {i : LinkId} {l : Link}
    (h : s.askedLink p id = some (i, l)) : id.toNat = i.val ∧ s.link i = some l ∧ l.state ≠ .retiring ∧
      l.state ≠ .down ∧ l.radio = p := by
  unfold State.askedLink at h
  split at h
  · cases h
  · next j hj =>
    split at h
    · cases h
    · next m hm =>
      split at h
      · cases h
      · next hx =>
        simp only [Option.some.injEq, Prod.mk.injEq] at h
        obtain ⟨rfl, rfl⟩ := h
        simp only [not_or, not_not] at hx
        refine ⟨?_, hm, hx.1, hx.2.1, hx.2.2⟩
        unfold idOf at hj
        split at hj
        · cases hj; rfl
        · cases hj

theorem findLink_eq_some {s : State} {p : Radio} {peer : Addr} {i : LinkId} (h : s.findLink p peer = some i) :
    ∃ l, s.link i = some l ∧ l.radio = p ∧ l.peer = peer := by
  have := List.find?_some h
  unfold State.linkMatches at this
  split at this
  · next l hl => exact ⟨l, hl, by simpa using this⟩
  · cases this

/-- A link record written as `l'` from the one it held as `l`. -/
def State.linkMoved (s t : State) (i : LinkId) (l l' : Link) : Prop :=
  s.link i = some l ∧ s.linkWritten t i (some l')

/-- What the handling of a heard link can do (R6 to R9, R12). -/
theorem handleHeard_spec (s : State) (i : LinkId) (l : Link) (hl : s.link i = some l) (snr : Nat) (h : Sector) (b : Bool) :
    ∃ l', s.linkWritten (s.handleHeard i snr h b) i (some l') ∧ l'.refs = l.refs ∧
      (snr ≤ 63 → l.est.bounded → l'.est.bounded) ∧
      (l.sound → (3 ≤ s.tuning.get Param.lossLimit ∧ s.tuning.get Param.lossLimit ≤ 15) →
        (10 ≤ s.tuning.get Param.nominalBeacon ∧ s.tuning.get Param.nominalBeacon ≤ 2000) → l'.sound) ∧
      ((s.handleHeard i snr h b) = s.setLink i (some l') ∨
        ((l.hear s.tuning s.now snr h b).state.isUsable = false ∧
          ∀ d, s.waitsOn i d = false → (s.handleHeard i snr h b).dest d = s.dest d)) := by
  have hb : ∀ x : Link, x.est.bounded → (x.computeDeadline s.tuning).est.bounded := fun _ h => h
  have hcnt : l.counted → ((l.hear s.tuning s.now snr h b).countHearing s.tuning).counted :=
    fun hc => countHearing_counted _ (hear_counted _ _ _ _ _ hc)
  have hest : snr ≤ 63 → l.est.bounded → ((l.hear s.tuning s.now snr h b).countHearing s.tuning).est.bounded := by
    intro h1 h2
    rw [countHearing_est]
    exact hear_bounded _ _ _ _ h1 h2
  unfold State.handleHeard State.finishRise
  simp only [hl]
  split
  · next hx =>
    rw [Bool.and_eq_true] at hx
    obtain ⟨w, k⟩ := gained_linkWritten s i (some ((l.hear s.tuning s.now snr h b).countHearing s.tuning))
    generalize (s.setLink i (some ((l.hear s.tuning s.now snr h b).countHearing s.tuning))).usableGained i = u at w k ⊢
    have hui : u.link i = some ((l.hear s.tuning s.now snr h b).countHearing s.tuning) := by rw [w.2.1 i, if_pos rfl]
    obtain ⟨w1, w2, w3, w4⟩ := w
    refine ⟨(((l.hear s.tuning s.now snr h b).countHearing s.tuning).evaluate s.tuning).computeDeadline s.tuning,
      ⟨State.tablesOnly_trans w1 (updateLink_tablesOnly _ _ _), ?_, ?_, ?_⟩, by simp, ?_, ?_, .inr ⟨by simpa using hx.1, ?_⟩⟩
    · intro j
      rw [updateLink_link]
      split
      · next hj => rw [hui]; rfl
      · next hj => rw [w2 j, if_neg hj]
    · refine State.pathsReselected_trans (State.tablesOnly_now w1) w3 ⟨fun d => ?_, fun c => ?_⟩
      · exact State.bookKept_of_eq (by simp) (by simp)
      · rw [updateLink_cand]; exact sameButCost_rfl _
    · intro hs
      have := w4 hs
      unfold State.updateLink
      split
      · exact setLink_pathsSound _ _ this
      · exact this
    · exact fun h1 h2 => evaluate_bounded _ (hest h1 h2)
    · intro h1 h2 h3
      have hc := evaluate_counted s.tuning (hcnt h1.counted)
      exact computeDeadline_sound _ hc.1 hc.2.1 hc.2.2 h2 h3
    · intro d hd
      rw [updateLink_dest]
      exact (k d hd).1
  · refine ⟨((l.hear s.tuning s.now snr h b).countHearing s.tuning).computeDeadline s.tuning,
      setLink_linkWritten _ _ _, by simp, hest, ?_, .inl rfl⟩
    intro h1 h2 h3
    have hc := hcnt h1.counted
    exact computeDeadline_sound _ hc.1 hc.2.1 hc.2.2 h2 h3

/-- Everything the handling of a taken report can do: nothing, or one link record written (R113 to R115). -/
theorem handleReport_cases (s : State) (p : Radio) (r : Report) : s.handleReport p r = s ∨
    ∃ i l l', s.link i = some l ∧ s.linkWritten (s.handleReport p r) i (some l') ∧ l'.refs = l.refs ∧
      (l.est.bounded → l'.est.bounded) ∧
      (l.sound → (3 ≤ s.tuning.get Param.lossLimit ∧ s.tuning.get Param.lossLimit ≤ 15) →
        (10 ≤ s.tuning.get Param.nominalBeacon ∧ s.tuning.get Param.nominalBeacon ≤ 2000) → l'.sound) := by
  cases r with
  | outcome id peer rate attempts acked =>
    unfold State.handleReport
    dsimp only
    unfold State.takeOutcome
    split
    · next r i l hr ha =>
      split
      · obtain ⟨-, hl, -⟩ := askedLink_eq_some ha
        exact .inr ⟨i, l, _, hl, setLink_linkWritten _ _ _, by simp, takeOutcome_bounded _ _ _ _ _,
          fun h1 h2 h3 => takeOutcome_sound _ _ _ _ _ h1 h2 h3⟩
      · exact .inl rfl
    · exact .inl rfl
  | heard peer snr sector beacon =>
    unfold State.handleReport
    dsimp only
    unfold State.takeHeard
    split
    · next h i hh hf =>
      split
      · next l hl =>
        split
        · exact .inl rfl
        · obtain ⟨l', h1, h2, h3, h4, -⟩ := handleHeard_spec s i l hl (min snr.toNat 63) h (flagOf beacon)
          exact .inr ⟨i, l, l', hl, h1, h2, h3 (min_le_right _ _), h4⟩
      · exact .inl rfl
    · exact .inl rfl
  | unrecognised bytes => exact .inl rfl

/-! ### The retune of a link (R25) -/

theorem retuneLink_spec (s : State) (i : LinkId) (l : Link) (hl : s.link i = some l) :
    s.linkWritten (s.retuneLink i) i (some l.retune) ∧
      (∀ d, s.activeOn i d = false → (s.retuneLink i).dest d = s.dest d) ∧
      (l.state.isUsable = false → s.retuneLink i = s.setLink i (some l.retune)) := by
  unfold State.retuneLink
  simp only [hl]
  split
  · next h =>
    obtain ⟨h1, h2⟩ := lost_linkWritten s i (some l.retune)
    exact ⟨h1, fun d hd => (h2 d hd).1, fun x => by simp [h] at x⟩
  · exact ⟨setLink_linkWritten s i _, fun _ _ => rfl, fun _ => rfl⟩

/-! ### Expiry (R13) -/

theorem due_eq_true {now : Time} {l : Link} : l.due now = true ↔ l.deadline = some now := by simp [Link.due]

theorem expireLink_of_due {s : State} {i : LinkId} {l : Link} (hl : s.link i = some l) (hp : s.part = .operational)
    (hd : l.deadline = some s.now) : s.expireLink i =
      if l.state.isUsable then (s.setLink i (some l.expire)).usableLost i else s.setLink i (some l.expire) := by
  simp [State.expireLink, hl, hp, due_eq_true.2 hd]

theorem expireLink_of_not_due {s : State} {i : LinkId} (h : ¬ s.dueAt s.now i) : s.expireLink i = s := by
  unfold State.expireLink
  split
  · rfl
  · next l hl => exact if_neg fun hx => h ⟨hx.1, l, hl, due_eq_true.1 hx.2⟩

/-- The expiry of a silence deadline does nothing, or takes its link Down. -/
theorem expireLink_cases (s : State) (i : LinkId) : (¬ s.dueAt s.now i ∧ s.expireLink i = s) ∨
    ∃ l, s.link i = some l ∧ l.deadline = some s.now ∧ s.part = .operational ∧
      s.linkWritten (s.expireLink i) i (some l.expire) ∧
      (∀ d, s.activeOn i d = false → (s.expireLink i).dest d = s.dest d) ∧
      (l.state.isUsable = false → s.expireLink i = s.setLink i (some l.expire)) := by
  by_cases h : s.dueAt s.now i
  · obtain ⟨hp, l, hl, hd⟩ := h
    refine .inr ⟨l, hl, hd, hp, ?_⟩
    rw [expireLink_of_due hl hp hd]
    split
    · next hu =>
      obtain ⟨h1, h2⟩ := lost_linkWritten s i (some l.expire)
      exact ⟨h1, fun d hd => (h2 d hd).1, fun x => by simp [hu] at x⟩
    · exact ⟨setLink_linkWritten s i _, fun _ _ => rfl, fun _ => rfl⟩
  · exact .inl ⟨h, expireLink_of_not_due h⟩

/-! ### The expiries of a rise (R170) -/

/-- A link record once its silence deadline has expired at a count, where it was due. -/
def Link.expired (now : Time) (l : Link) : Link := if l.due now then l.expire else l

@[simp] theorem expired_refs (now : Time) (l : Link) : (l.expired now).refs = l.refs := by
  unfold Link.expired; split <;> rfl

theorem expired_expired (now : Time) (l : Link) : (l.expired now).expired now = l.expired now := by
  by_cases h : l.due now = true
  · have he : l.expired now = l.expire := if_pos h
    rw [he]
    rfl
  · have he : l.expired now = l := if_neg h
    rw [he, he]

@[simp] theorem expireDue_nil (s : State) : s.expireDue [] = s := rfl
@[simp] theorem expireDue_cons (s : State) (i : LinkId) (is : List LinkId) :
    s.expireDue (i :: is) = (s.expireLink i).expireDue is := rfl

/-- Everything a run of expiries can do: in Operational the links of the list that are due go Down, and of the rest only
destinations and candidates are reselected. -/
theorem expireDue_spec (s : State) (is : List LinkId) : s.tablesOnly (s.expireDue is) ∧
    (∀ j, (s.expireDue is).link j =
      if s.part = .operational ∧ j ∈ is then (s.link j).map (Link.expired s.now) else s.link j) ∧
    s.pathsReselected (s.expireDue is) ∧ (s.pathsSound → (s.expireDue is).pathsSound) := by
  induction is generalizing s with
  | nil => exact ⟨rfl, fun j => by simp, State.pathsReselected_rfl s, id⟩
  | cons i is ih =>
    rw [expireDue_cons]
    have hw : s.linkWritten (s.expireLink i) i
        (if s.part = .operational then (s.link i).map (Link.expired s.now) else s.link i) := by
      rcases expireLink_cases s i with ⟨hn, he⟩ | ⟨l, hl, hd, hp, hw, -, -⟩
      · have : (if s.part = .operational then (s.link i).map (Link.expired s.now) else s.link i) = s.link i := by
          split
          · next hp =>
            cases hl : s.link i with
            | none => rfl
            | some l =>
              have : l.due s.now = false := by
                rw [Bool.eq_false_iff]; exact fun h => hn ⟨hp, l, hl, due_eq_true.1 h⟩
              simp [Link.expired, this]
          · rfl
        rw [this, he]
        refine ⟨rfl, fun j => ?_, State.pathsReselected_rfl s, id⟩
        split
        · next h => rw [h]
        · rfl
      · rw [if_pos hp, hl, Option.map_some, Link.expired, if_pos (due_eq_true.2 hd)]
        exact hw
    obtain ⟨w1, w2, w3, w4⟩ := hw
    obtain ⟨h1, h2, h3, h4⟩ := ih (s.expireLink i)
    have hn := State.tablesOnly_now w1
    have hp : (s.expireLink i).part = s.part := by rw [w1]
    refine ⟨State.tablesOnly_trans w1 h1, fun j => ?_, State.pathsReselected_trans hn w3 h3, fun h => h4 (w4 h)⟩
    rw [h2 j, w2 j, hp, hn]
    by_cases ho : s.part = .operational
    · simp only [ho, true_and, if_true, List.mem_cons]
      by_cases hji : j = i
      · subst hji
        simp only [true_or, if_true]
        split
        · rw [Option.map_map]
          congr 1
          funext l
          exact expired_expired _ l
        · rfl
      · simp [hji]
    · simp only [ho, false_and, if_false]
      split
      · next h => rw [h]
      · rfl

/-- An expiry leaves its link off, if that was due and usable, and every link off that was. -/
theorem expireLink_offLink {s : State} {i : LinkId} (j : LinkId) (h : s.offLink i ∨
    (j = i ∧ s.dueAt s.now i ∧ ∀ l, s.link i = some l → l.state.isUsable = true)) : (s.expireLink j).offLink i := by
  by_cases hj : s.dueAt s.now j
  · obtain ⟨hp, l, hl, hd⟩ := hj
    rw [expireLink_of_due hl hp hd]
    have hoff : ∀ m : Link, m.state.isUsable = false → s.offLink i → (s.setLink j (some m)).offLink i := by
      intro m hm hs
      refine ⟨fun l' hl' => ?_, hs.2⟩
      rw [link_setLink] at hl'
      split at hl'
      · cases hl'; exact hm
      · exact hs.1 l' hl'
    rcases h with hs | ⟨rfl, -, hu⟩
    · split
      · exact usableLost_offLink j (hoff _ rfl hs)
      · exact hoff _ rfl hs
    · rw [if_pos (hu l hl)]
      have hlost := usableLost_leaves s j (some l.expire) (by rintro x hx; cases hx; rfl)
      refine ⟨fun l' hl' => ?_, fun d => (hlost d).2.2⟩
      rw [(lost_linkWritten s j (some l.expire)).1.2.1 j, if_pos rfl] at hl'
      cases hl'
      rfl
  · rw [expireLink_of_not_due hj]
    rcases h with hs | ⟨rfl, hd, -⟩
    · exact hs
    · exact absurd hd hj

/-- A run of expiries leaves no destination on a usable link of its list that was due. -/
theorem expireDue_offLink {s : State} {i : LinkId} {is : List LinkId} (h : s.offLink i ∨
    (i ∈ is ∧ s.dueAt s.now i ∧ ∀ l, s.link i = some l → l.state.isUsable = true)) : (s.expireDue is).offLink i := by
  induction is generalizing s with
  | nil =>
    rcases h with hs | ⟨hm, -⟩
    · exact hs
    · cases hm
  | cons j is ih =>
    rw [expireDue_cons]
    refine ih ?_
    rcases h with hs | ⟨hm, hd, hu⟩
    · exact .inl (expireLink_offLink j (.inl hs))
    · by_cases hji : j = i
      · exact .inl (expireLink_offLink j (.inr ⟨hji, hd, hu⟩))
      · have hl : (s.expireLink j).link i = s.link i ∧ (s.expireLink j).part = s.part ∧ (s.expireLink j).now = s.now := by
          rcases expireLink_cases s j with ⟨-, he⟩ | ⟨l, -, -, -, hw, -⟩
          · rw [he]; exact ⟨rfl, rfl, rfl⟩
          · exact ⟨by rw [hw.2.1 i, if_neg (Ne.symm hji)], by rw [hw.1], by rw [hw.1]⟩
        refine .inr ⟨(List.mem_cons.1 hm).resolve_left (Ne.symm hji), ?_, fun l hl' => hu l (hl.1 ▸ hl')⟩
        unfold State.dueAt
        rw [hl.1, hl.2.1, hl.2.2]
        exact hd

/-- With none of them due, a run of expiries does nothing. -/
theorem expireDue_of_not_due {s : State} {is : List LinkId} (h : ∀ i ∈ is, ¬ s.dueAt s.now i) : s.expireDue is = s := by
  induction is with
  | nil => rfl
  | cons i is ih =>
    rw [expireDue_cons, expireLink_of_not_due (h i (by simp))]
    exact ih fun j hj => h j (by simp [hj])

/-! ### The rise of the count (R170) -/

@[simp] theorem mem_expiresNow {s : State} {i : LinkId} : i ∈ s.expiresNow ↔ s.expiresLater i = false := by
  simp [State.expiresNow]

/-- The tick in a running part: the count rises, and the expiries at the new count come that do not wait. -/
theorem millisecondTick_running {s : State} (h : s.power = .running) : execMillisecondTick s =
    .next ({ s with now := s.now + 1 }.expireDue s.expiresNow) := by
  simp [execMillisecondTick, h]

/-- With no link to expire, the tick changes the count alone. -/
theorem millisecondTick_quiet {s : State} (h : s.power = .running) (hn : ∀ i, ¬ s.expiresAtRise i) :
    execMillisecondTick s = .next { s with now := s.now + 1 } := by
  rw [millisecondTick_running h, expireDue_of_not_due]
  rintro i hi ⟨hp, l, hl, hd⟩
  exact hn i ⟨⟨hp, l, hl, hd⟩, mem_expiresNow.1 hi⟩

/-- Everything a tick can do: the count rises, in Operational the links expire whose deadline is the new count and whose
expiry does not wait, and destinations are reselected by switches booked at the new count. -/
theorem millisecondTick_spec {s : State} (h : s.power = .running) : ∃ t, execMillisecondTick s = .next t ∧
    ({ s with now := s.now + 1 } : State).tablesOnly t ∧ ({ s with now := s.now + 1 } : State).pathsReselected t ∧
    (s.pathsSound → t.pathsSound) ∧
    ∀ i, t.link i = if s.part = .operational ∧ s.expiresLater i = false then (s.link i).map (Link.expired (s.now + 1))
      else s.link i := by
  obtain ⟨h1, h2, h3, h4⟩ := expireDue_spec { s with now := s.now + 1 } s.expiresNow
  refine ⟨_, millisecondTick_running h, h1, h3, h4, fun i => ?_⟩
  rw [h2 i]
  simp only [mem_expiresNow]
  rfl

end Sys2Proof.Machine
end

