-- ==== Sys2Proof/Laws/Frames.lean ====
section
/-! SUPPORT. The Control Port's frames, phase by phase: what a byte clocked does in each, and that bytes change nothing but
the frame and the command in hand (R149, R151, R152). -/

namespace Sys2Proof.Machine

theorem clockByte_code {s : State} (b : Byte) (h : s.frame = .code) : s.clockByte b = { s with frame := .length b } := by
  unfold State.clockByte; rw [h]

theorem clockByte_length {s : State} {code : Byte} (b : Byte) (h : s.frame = .length code) : s.clockByte b =
    if b = 0 then s.takeCommand code [] else { s with frame := .arguments code b.toNat [] } := by
  unfold State.clockByte; rw [h]

theorem clockByte_arguments {s : State} {code : Byte} {n : Nat} {received : List Byte} (b : Byte)
    (h : s.frame = .arguments code n received) : s.clockByte b =
      if n ≤ received.length + 1 then s.takeCommand code (received ++ [b])
      else { s with frame := .arguments code n (received ++ [b]) } := by
  unfold State.clockByte; rw [h]

theorem clockByte_answering {s : State} {a : Answer} {sent : Nat} (b : Byte) (h : s.frame = .answering a sent) :
    s.clockByte b =
      { s with frame := if a.bytes.length ≤ sent + 1 then .afterAnswer else .answering a (sent + 1) } := by
  unfold State.clockByte; rw [h]

theorem clockByte_idle {s : State} (b : Byte)
    (h : s.frame = .closed ∨ s.frame = .waiting ∨ s.frame = .afterAnswer ∨ s.frame = .ignored) : s.clockByte b = s := by
  unfold State.clockByte; rcases h with h | h | h | h <;> rw [h]

/-- In these four phases any number of bytes change nothing. -/
theorem foldl_clockByte_idle {s : State} (bytes : List Byte)
    (h : s.frame = .closed ∨ s.frame = .waiting ∨ s.frame = .afterAnswer ∨ s.frame = .ignored) :
    bytes.foldl State.clockByte s = s := by
  induction bytes with
  | nil => rfl
  | cons b bs ih => rw [List.foldl_cons, clockByte_idle b h, ih]

theorem length_answerBytes (a : Answer) : a.bytes.length = 3 + a.results.length := by simp [Answer.bytes]; omega

theorem beginFrame_eq {s : State} (h : s.frame = .closed) :
    s.beginFrame = { s with frame := if s.receivesFrames then .code else .ignored } := by
  simp [State.beginFrame, h]

theorem receivesFrames_iff {s : State} :
    s.receivesFrames = true ↔ s.power = .running ∧ s.hand = none ∧ s.armed = false := by
  simp [State.receivesFrames, and_assoc]

/-- A byte changes nothing but the frame, and the hand when it brings the frame to its waiting phase. -/
theorem clockByte_cases (s : State) (b : Byte) : (∃ f, s.clockByte b = { s with frame := f }) ∨
    ∃ h, s.clockByte b = { s with frame := .waiting, hand := some h } := by
  unfold State.clockByte State.takeCommand
  split
  · exact .inl ⟨_, rfl⟩
  · split
    · exact .inr ⟨_, rfl⟩
    · exact .inl ⟨_, rfl⟩
  · split
    · exact .inr ⟨_, rfl⟩
    · exact .inl ⟨_, rfl⟩
  · exact .inl ⟨_, rfl⟩
  all_goals exact .inl ⟨s.frame, rfl⟩

/-- A stretch of a frame changes nothing but the frame and the command in hand. -/
theorem foldl_clockByte_only (bytes : List Byte) (s : State) :
    bytes.foldl State.clockByte s = { s with
      frame := (bytes.foldl State.clockByte s).frame, hand := (bytes.foldl State.clockByte s).hand } := by
  induction bytes generalizing s with
  | nil => rfl
  | cons b bs ih =>
    rw [List.foldl_cons, ih]
    rcases clockByte_cases s b with ⟨f, h⟩ | ⟨x, h⟩ <;> rw [h]

end Sys2Proof.Machine
end

