-- ==== Sys2Proof/Laws/Operands.lean ====
section
/-! SUPPORT. Lemmas of the operand forms: ids and codes read from argument bytes, values written into result bytes, and the
searches of the tables (the lowest entry, the one entry). -/

namespace Sys2Proof.Machine

/-! ### Argument fields -/

theorem idOf_eq_some {n : Nat} {b : Byte} {i : Fin n} (h : b.toNat = i.val) : idOf n b = some i := by
  unfold idOf; rw [dif_pos (by omega)]; congr

theorem idOf_eq_none {n : Nat} {b : Byte} (h : n ≤ b.toNat) : idOf n b = none := by
  unfold idOf; rw [dif_neg (by omega)]

theorem sectorModeOf_code (m : SectorMode) : sectorModeOf m.code = some m := by cases m <;> rfl

theorem sectorModeOf_eq_none {b : Byte} (h : 1 < b.toNat) : sectorModeOf b = none := by
  unfold sectorModeOf
  rw [if_neg (by rintro rfl; simp at h), if_neg (by rintro rfl; simp at h)]

theorem cursorTableOf_code (t : CursorTable) : cursorTableOf t.code = some t := by cases t <;> rfl

theorem cursorTableOf_eq_none {b : Byte} (h : 2 < b.toNat) : cursorTableOf b = none := by
  unfold cursorTableOf
  rw [if_neg (by rintro rfl; simp at h), if_neg (by rintro rfl; simp at h), if_neg (by rintro rfl; simp at h)]

/-- A group address is known by the lowest bit of its first byte (scope, "Addresses"). -/
theorem isGroup_addrOf (p0 p1 p2 p3 p4 p5 : Byte) : isGroup (addrOf p0 p1 p2 p3 p4 p5) = p0.getLsbD 0 := by
  unfold isGroup addrOf
  rw [BitVec.getLsbD_append, BitVec.getLsbD_append, BitVec.getLsbD_append, BitVec.getLsbD_append,
    BitVec.getLsbD_append]
  rfl

/-! ### Result bytes -/

@[simp] theorem length_bytesOf (k v : Nat) : (bytesOf k v).length = k := by
  induction k with
  | zero => rfl
  | succ k ih => simp [bytesOf, ih]

theorem foldl_bytesOf (k v acc : Nat) :
    (bytesOf k v).foldl (fun a (b : Byte) => a * 256 + b.toNat) acc = acc * 256 ^ k + v % 256 ^ k := by
  induction k generalizing acc with
  | zero => simp [bytesOf, Nat.mod_one]
  | succ k ih =>
    have h : v % 256 ^ (k + 1) = v % 256 ^ k + 256 ^ k * (v / 256 ^ k % 256) := Nat.mod_pow_succ
    simp only [bytesOf, List.foldl_cons, ih, BitVec.toNat_ofNat]
    rw [h]
    change (acc * 256 + v / 256 ^ k % 256) * 256 ^ k + _ = _
    generalize v / 256 ^ k % 256 = q
    generalize v % 256 ^ k = w
    rw [Nat.pow_succ]
    ring

/-- A value in `k` bytes reads back as itself when `k` bytes hold it (scope, "Byte order"). -/
theorem valueOf_bytesOf {k v : Nat} (h : v < 256 ^ k) : valueOf (bytesOf k v) = v := by
  have := foldl_bytesOf k v 0
  rw [Nat.mod_eq_of_lt h, Nat.zero_mul, Nat.zero_add] at this
  exact this

/-! ### Searches -/

theorem find?_lowest {n : Nat} {p : Fin n → Bool} {i : Fin n} (h : p i = true) (hl : ∀ j < i, p j = false) :
    (List.finRange n).find? p = some i := by
  rw [List.find?_eq_some_iff_append]
  refine ⟨h, (List.finRange n).take i.val, (List.finRange n).drop (i.val + 1), ?_, ?_⟩
  · conv_lhs => rw [← List.take_append_drop i.val (List.finRange n)]
    congr 1
    rw [List.drop_eq_getElem_cons (by simp)]
    simp
  · intro a ha
    obtain ⟨k, hk, rfl⟩ := List.mem_iff_getElem.1 ha
    simp only [List.getElem_take, List.getElem_finRange] at *
    simp at hk
    have := hl (Fin.cast (by simp) (⟨k, by omega⟩ : Fin n)) (by simp [Fin.lt_def]; omega)
    simpa using this

theorem find?_only {n : Nat} {p : Fin n → Bool} {i : Fin n} (h : p i = true) (hu : ∀ j, p j = true → j = i) :
    (List.finRange n).find? p = some i := by
  cases hf : (List.finRange n).find? p with
  | none => rw [List.find?_eq_none] at hf; exact absurd h (hf i (List.mem_finRange i))
  | some j => rw [hu j (List.find?_some hf)]

theorem find?_nowhere {n : Nat} {p : Fin n → Bool} (h : ∀ j, p j = false) : (List.finRange n).find? p = none := by
  rw [List.find?_eq_none]; intro x _; simp [h x]

/-- A link that alone has its radio and peer is the one found (R5). -/
theorem findLink_eq {s : State} {p : Radio} {peer : Addr} {i : LinkId} {l : Link} (hl : s.link i = some l)
    (h1 : l.radio = p) (h2 : l.peer = peer)
    (hu : ∀ j l', s.link j = some l' → l'.radio = p → l'.peer = peer → j = i) : s.findLink p peer = some i := by
  refine find?_only (by simp [State.linkMatches, hl, h1, h2]) fun j hj => ?_
  unfold State.linkMatches at hj
  cases hl' : s.link j with
  | none => simp [hl'] at hj
  | some l' => simp [hl'] at hj; exact hu j l' hl' hj.1 hj.2

/-- A destination that alone has its address is the one found (R51). -/
theorem findDest_eq {s : State} {a : Addr} {d : DestId} {r : Dest} (hg : isGroup a = false) (hr : s.dest d = some r)
    (ha : r.address = a) (hu : ∀ e r', s.dest e = some r' → r'.address = a → e = d) : s.findDest a = some d := by
  unfold State.findDest
  rw [hg, if_neg (by simp)]
  refine find?_only (by simp [State.destMatches, hr, ha]) fun e he => ?_
  unfold State.destMatches at he
  cases hr' : s.dest e with
  | none => simp [hr'] at he
  | some r' => simp [hr'] at he; exact hu e r' hr' he

end Sys2Proof.Machine
end

