-- ==== Sys2Proof/Laws/Orders.lean ====
section
/-! SUPPORT. Orders that make no difference (R90, R91): a selection made or evaluated again changes nothing, and
evaluations and selections of different destinations can be taken in either order. -/

namespace Sys2Proof.Machine

/-- States that differ from one state in the paths alone, and agree there, are equal. -/
theorem State.pathsOnly_ext {s t u : State} (hs : s.pathsOnly t) (hu : s.pathsOnly u) (hd : ∀ e, t.dest e = u.dest e)
    (hc : ∀ c, t.cand c = u.cand c) (hch : ∀ e, t.changed.get e = u.changed.get e) : t = u := by
  have e1 : t.dests = u.dests := Vector.ext fun n h => hd ⟨n, h⟩
  have e2 : t.cands = u.cands := Vector.ext fun n h => hc ⟨n, h⟩
  have e3 : t.changed = u.changed := Vector.ext fun n h => hch ⟨n, h⟩
  rw [hs, hu, e1, e2, e3]

/-- A selection or evaluation leaves every path cost and every judgement of usability as it was (R90). -/
theorem State.reselects.costs {s t : State} {d : DestId} (h : s.reselects t d) :
    t.candCost = s.candCost ∧ t.candUsable = s.candUsable :=
  ⟨funext fun c => candCost_congr (h.same c) (State.pathsOnly_link h.pathsOnly) (State.pathsOnly_tuning h.pathsOnly),
    funext fun c => candUsable_congr (h.same c) (State.pathsOnly_link h.pathsOnly) (State.pathsOnly_tuning h.pathsOnly)⟩

theorem refreshCosts_candCost (s : State) (cs : List CandId) : (s.refreshCosts cs).candCost = s.candCost :=
  funext fun c => candCost_congr (refreshCosts_sameButCost s cs c) (State.pathsOnly_link (refreshCosts_pathsOnly s cs))
    (State.pathsOnly_tuning (refreshCosts_pathsOnly s cs))

/-! ### A full evaluation as one choice -/

/-- The active candidate that a full evaluation leaves a destination with (R84, R85). -/
def State.evaluatedActive (s : State) (r : Dest) : Option CandId :=
  let cheapestUsable := cheapest s.candCost (r.chain.filter s.candUsable)
  if r.chain.isEmpty then r.active
  else
    match r.active with
    | none => cheapestUsable
    | some a =>
      if s.candUsable a then
        match s.challenger r a with
        | none => some a
        | some b =>
          if marginPasses (s.param Param.hysteresis) (s.candCost a) (s.candCost b) && s.holdDownElapsed r then some b
          else some a
      else cheapestUsable

theorem setActive_self {s : State} {d : DestId} {r : Dest} (hr : s.dest d = some r) : s.setActive d r.active = s := by
  simp [State.setActive, hr]

/-- A full evaluation writes the path costs of the chain and makes its choice active. -/
theorem evaluateDest_eq (s : State) (d : DestId) (r : Dest) (hr : s.dest d = some r) :
    s.evaluateDest d = (s.refreshCosts r.chain).setActive d (s.evaluatedActive r) := by
  have hs : ∀ cs, (s.refreshCosts cs).setActive d r.active = s.refreshCosts cs :=
    fun cs => setActive_self (by simpa using hr)
  unfold State.evaluateDest State.evaluatedActive
  simp only [hr]
  by_cases he : r.chain.isEmpty = true
  · rw [if_pos he, if_pos he, hs, List.isEmpty_iff.1 he]; rfl
  · rw [if_neg he, if_neg he]
    cases ha : r.active with
    | none => exact selectNow_eq s d r hr
    | some a =>
      rw [ha] at hs
      dsimp only
      split
      · unfold State.switchTest
        cases s.challenger r a with
        | none => exact (hs _).symm
        | some b =>
          dsimp only
          split
          · rfl
          · exact (hs _).symm
      · exact selectNow_eq s d r hr

theorem evaluatedActive_congr {s t : State} (hc : t.candCost = s.candCost) (hu : t.candUsable = s.candUsable)
    (hp : t.params = s.params) (hn : t.now = s.now) (r : Dest) : t.evaluatedActive r = s.evaluatedActive r := by
  have h1 : t.challenger r = s.challenger r := by funext a; simp only [State.challenger, hc, hu]
  have h2 : ∀ p, t.param p = s.param p := fun p => by simp only [State.param, hp]
  have h3 : t.holdDownElapsed r = s.holdDownElapsed r := by unfold State.holdDownElapsed; rw [h2, hn]
  unfold State.evaluatedActive
  rw [hc, hu, h1, h2, h3]

/-! ### Different destinations -/

/-- Two choices for different destinations, made in either order. -/
theorem choices_comm (s : State) {d e : DestId} (h : d ≠ e) (cs es : List CandId) (a b : Option CandId) :
    (((s.refreshCosts cs).setActive d a).refreshCosts es).setActive e b =
      (((s.refreshCosts es).setActive e b).refreshCosts cs).setActive d a := by
  have cost : ∀ (u : State) d a c, (u.setActive d a).candCost c = u.candCost c := fun u d a c =>
    candCost_congr (by simp) (State.pathsOnly_link (setActive_pathsOnly u d a))
      (State.pathsOnly_tuning (setActive_pathsOnly u d a))
  have now : ∀ (u : State) cs, (u.refreshCosts cs).now = u.now := fun u cs => State.pathsOnly_now (refreshCosts_pathsOnly u cs)
  have now' : ∀ (u : State) d a, (u.setActive d a).now = u.now := fun u d a => State.pathsOnly_now (setActive_pathsOnly u d a)
  have paths : ∀ (u : State) d cs a, u.pathsOnly ((u.refreshCosts cs).setActive d a) := fun u d cs a =>
    State.pathsOnly_trans (refreshCosts_pathsOnly u cs) (setActive_pathsOnly _ _ _)
  refine State.pathsOnly_ext (State.pathsOnly_trans (paths s d cs a) (paths _ e es b))
    (State.pathsOnly_trans (paths s e es b) (paths _ d cs a)) (fun f => ?_) (fun c => ?_) (fun f => ?_)
  · simp only [setActive_dest, refreshCosts_dest, now, now']
    by_cases h1 : f = d
    · subst h1; simp [h]
    · simp [h1, Ne.symm h]
  · simp only [setActive_cand, refreshCosts_cand, cost, refreshCosts_candCost]
    by_cases h1 : c ∈ cs <;> by_cases h2 : c ∈ es <;> simp [h1, h2]
  · simp only [setActive_changed, setActive_dest, refreshCosts_dest, refreshCosts_changed]
    by_cases h1 : f = d
    · subst h1; simp [h]
    · simp [h1, Ne.symm h]

/-- A full evaluation of one destination and a selection of another, in either order. -/
theorem evaluateDest_selectNow_comm (s : State) {d e : DestId} (h : d ≠ e) :
    (s.selectNow e).evaluateDest d = (s.evaluateDest d).selectNow e := by
  have h1 := selectNow_reselects s e
  have h2 := evaluateDest_reselects s d
  have hd := h1.dest_ne h
  have he := h2.dest_ne (Ne.symm h)
  cases hr : s.dest d with
  | none =>
    rw [show s.evaluateDest d = s by simp [State.evaluateDest, hr]]
    simp [State.evaluateDest, hd, hr]
  | some r =>
    cases hq : s.dest e with
    | none =>
      rw [show s.selectNow e = s by simp [State.selectNow, hq]]
      simp [State.selectNow, he, hq]
    | some q =>
      rw [evaluateDest_eq _ d r (hd.trans hr), selectNow_eq _ e q (he.trans hq), h2.costs.1, h2.costs.2,
        evaluatedActive_congr h1.costs.1 h1.costs.2 (State.pathsOnly_params h1.pathsOnly) (State.pathsOnly_now h1.pathsOnly),
        selectNow_eq s e q hq, evaluateDest_eq s d r hr]
      exact choices_comm s (Ne.symm h) _ _ _ _

/-! ### The same destination again -/

theorem refreshCosts_shown {s : State} {cs : List CandId} (h : ∀ c ∈ cs, s.costShown c) : s.refreshCosts cs = s := by
  refine State.pathsOnly_ext (refreshCosts_pathsOnly s cs) (State.pathsOnly_rfl s) (fun e => by simp) (fun c => ?_)
    (fun e => by simp)
  rw [refreshCosts_cand]
  split
  · next hc =>
    cases hk : s.cand c with
    | none => rfl
    | some k => cases k; have := h c hc _ hk; simp_all
  · rfl

theorem evaluateDest_showsChain {s : State} {d : DestId} {c : CandId} (hc : c ∈ s.chainOf d) :
    (s.evaluateDest d).costShown c := by
  intro k hk
  rw [(evaluateDest_reselects s d).costs.1]
  cases hr : s.dest d with
  | none => simp [State.chainOf, hr] at hc
  | some r =>
    have hc' : c ∈ r.chain := by simpa [State.chainOf, hr] using hc
    rw [evaluateDest_eq s d r hr, setActive_cand, refreshCosts_cand, if_pos hc'] at hk
    cases h : s.cand c with
    | none => rw [h] at hk; cases hk
    | some k0 => rw [h] at hk; cases hk; rfl

/-- A destination just selected is left as it is by a selection, and by an evaluation, of the same figures. -/
theorem selectNow_again (s : State) (d : DestId) :
    (s.selectNow d).selectNow d = s.selectNow d ∧ (s.selectNow d).evaluateDest d = s.selectNow d := by
  cases hr : s.dest d with
  | none => simp [State.selectNow, State.evaluateDest, hr]
  | some r =>
    have h := selectNow_reselects s d
    have hx := selectNow_eq s d r hr
    have hsh : ∀ c ∈ r.chain, (s.selectNow d).costShown c :=
      fun c hc => selectNow_showsChain (by simpa [State.chainOf, hr] using hc)
    have hd : (s.selectNow d).dest d =
        some (r.withActive s.now (cheapest s.candCost (r.chain.filter s.candUsable))) := by
      rw [hx, setActive_dest, if_pos rfl, refreshCosts_dest, hr, State.pathsOnly_now (refreshCosts_pathsOnly _ _)]; rfl
    generalize ha : cheapest s.candCost (r.chain.filter s.candUsable) = a at hd
    have hself := setActive_self hd
    rw [Dest.withActive_active] at hself
    constructor
    · rw [selectNow_eq _ d _ hd, Dest.withActive_chain, refreshCosts_shown hsh, h.costs.1, h.costs.2, ha, hself]
    · rw [evaluateDest_eq _ d _ hd, Dest.withActive_chain, refreshCosts_shown hsh]
      have : (s.selectNow d).evaluatedActive (r.withActive s.now a) = a := by
        unfold State.evaluatedActive State.challenger
        simp only [Dest.withActive_chain, Dest.withActive_active, h.costs.1, h.costs.2, ha]
        split
        · rfl
        · cases a with
          | none => rfl
          | some a =>
            have hu := (List.mem_filter.1 (cheapest_mem ha)).2
            simp only [hu, if_true]
            split
            · rfl
            · next b hb =>
              have hm := List.mem_filter.1 (cheapest_mem hb)
              rw [Bool.and_eq_true] at hm
              have hle := cheapest_le ha b (List.mem_filter.2 ⟨hm.1, hm.2.1⟩)
              have : marginPasses ((s.selectNow d).param Param.hysteresis) (s.candCost a) (s.candCost b) = false := by
                simp only [marginPasses, decide_eq_false_iff_not, not_lt]
                exact (Nat.mul_le_mul_left _ (Nat.sub_le _ _)).trans (Nat.mul_le_mul_right _ hle)
              simp [this]
      rw [this, hself]

/-- A destination Unreachable after a full evaluation is left as it is by a selection of the same figures. -/
theorem evaluateDest_selectNow_same (s : State) (d : DestId) (h : ∀ r, (s.evaluateDest d).dest d = some r → r.active = none ∧
    r.chain ≠ []) : (s.evaluateDest d).selectNow d = s.evaluateDest d := by
  cases hr : s.dest d with
  | none => simp [State.selectNow, State.evaluateDest, hr]
  | some r =>
    have hx := evaluateDest_reselects s d
    have hd : (s.evaluateDest d).dest d = some (r.withActive s.now (s.evaluatedActive r)) := by
      rw [evaluateDest_eq s d r hr, setActive_dest, if_pos rfl, refreshCosts_dest, hr,
        State.pathsOnly_now (refreshCosts_pathsOnly _ _)]; rfl
    obtain ⟨h1, h2⟩ := h _ hd
    rw [Dest.withActive_active] at h1
    rw [Dest.withActive_chain] at h2
    have he : s.evaluateDest d = s.selectNow d := by
      rw [evaluateDest_eq s d r hr, selectNow_eq s d r hr]
      congr 1
      unfold State.evaluatedActive at h1 ⊢
      have hne : r.chain.isEmpty = false := by simpa using h2
      simp only [hne, Bool.false_eq_true, if_false] at h1 ⊢
      cases ha : r.active with
      | none => rfl
      | some a =>
        simp only [ha] at h1 ⊢
        by_cases hu : s.candUsable a = true
        · rw [if_pos hu] at h1
          split at h1
          · cases h1
          · split at h1 <;> cases h1
        · rw [if_neg hu]
    rw [he]; exact (selectNow_again s d).1

/-! ### An evaluation beside a usable-gained notice (the second row of R91) -/

/-- A destination that waits on a link is Unreachable: its chain has members, and none of them is active. -/
theorem waitsOn_unreachable {s : State} {i : LinkId} {d : DestId} (h : s.waitsOn i d = true) :
    ∃ r, s.dest d = some r ∧ r.active = none ∧ r.chain ≠ [] := by
  unfold State.waitsOn at h
  cases hr : s.dest d with
  | none => simp [hr] at h
  | some r =>
    simp only [hr, Bool.and_eq_true, beq_iff_eq] at h
    have h1 := h.1
    unfold Dest.state at h1
    split at h1
    · cases h1
    · next he =>
      split at h1
      · cases h1
      · next ha => exact ⟨r, rfl, by simpa using ha, by simpa using he⟩

/-- The full evaluation of a destination that waits on a link is immediate selection (R84). -/
theorem evaluateDest_of_waitsOn {s : State} {i : LinkId} {d : DestId} (h : s.waitsOn i d = true) :
    s.evaluateDest d = s.selectNow d := by
  obtain ⟨r, hr, ha, hc⟩ := waitsOn_unreachable h
  simp [State.evaluateDest, hr, ha, hc]

/-- A full evaluation before the sweep of a usable-gained notice, or after it. -/
theorem evaluateDest_gained_comm (ds : List DestId) (s : State) (i : LinkId) (d : DestId) :
    (ds.foldl (fun s e => if s.waitsOn i e then s.selectNow e else s) s).evaluateDest d =
      ds.foldl (fun s e => if s.waitsOn i e then s.selectNow e else s) (s.evaluateDest d) := by
  induction ds generalizing s with
  | nil => rfl
  | cons e ds ih =>
    rw [List.foldl_cons, List.foldl_cons, ih]
    congr 1
    by_cases h : d = e
    · subst h
      by_cases hw : s.waitsOn i d = true
      · rw [if_pos hw, (selectNow_again s d).2, evaluateDest_of_waitsOn hw, (selectNow_again s d).1, ite_self]
      · rw [if_neg hw]
        split
        · next hw' =>
          refine (evaluateDest_selectNow_same s d fun r hr => ?_).symm
          obtain ⟨r', h1, h2⟩ := waitsOn_unreachable hw'
          rw [hr] at h1; cases h1; exact h2
        · rfl
    · rw [waitsOn_reselects i s _ d e (evaluateDest_reselects s d) (Ne.symm h)]
      split
      · exact evaluateDest_selectNow_comm s h
      · rfl

/-- A full evaluation does not see a link record exchanged for one alike. -/
theorem evaluateDest_setLink {s : State} {i : LinkId} {x y : Link} (hx : s.link i = some x) (h : x.alike s.tuning y)
    (d : DestId) : (s.setLink i (some y)).evaluateDest d = (s.evaluateDest d).setLink i (some y) := by
  cases hr : s.dest d with
  | none => simp [State.evaluateDest, hr]
  | some r =>
    rw [evaluateDest_eq _ d r (by simpa using hr), evaluateDest_eq s d r hr, refreshCosts_setLink hx h, setActive_setLink,
      evaluatedActive_congr (candCost_setLink hx h).1 (candCost_setLink hx h).2 rfl rfl]

/-- The evaluation and the deadline that follow a link's coming Up leave a record alike to path costs and usability. -/
theorem evaluate_alike (t : Tuning) (l : Link) : l.alike t ((l.evaluate t).computeDeadline t) :=
  ⟨evaluate_isUsable t l, by
    obtain ⟨a, b, c, h, -⟩ := evaluate_spec t l
    rw [h]; rfl⟩

end Sys2Proof.Machine
end

