-- ==== Sys2Proof/Laws/PerInstr.lean ====
section
/-! SUPPORT. The family `WellFormedByLength`: what makes an event one that the part's pins can carry, said of each event
in the terms of R173 and R174, one lemma per event. -/

namespace Sys2Proof.Laws

/-- A byte string is read as itself, unrecognised, exactly when its kind byte and length are those of no report (R173). -/
theorem unrecognised_iff (bytes : List Byte) :
    isRecognisedReport bytes = false ↔ Machine.Report.ofBytes bytes = .unrecognised bytes := by
  match bytes with
  | [] => simp [isRecognisedReport, Machine.Report.ofBytes]
  | [_] | [_, _] | [_, _, _] | [_, _, _, _] | [_, _, _, _, _] | [_, _, _, _, _, _] | [_, _, _, _, _, _, _]
  | [_, _, _, _, _, _, _, _] | [_, _, _, _, _, _, _, _, _] =>
    simp [isRecognisedReport, Machine.Report.ofBytes]
  | [kind, p0, p1, p2, p3, p4, p5, snr, sector, beacon] =>
    by_cases h : kind = 1#8 <;> simp [isRecognisedReport, Machine.Report.ofBytes, h]
  | [kind, link, p0, p1, p2, p3, p4, p5, rate, attempts, acked] =>
    by_cases h : kind = 0#8 <;> simp [isRecognisedReport, Machine.Report.ofBytes, h]
  | _ :: _ :: _ :: _ :: _ :: _ :: _ :: _ :: _ :: _ :: _ :: _ :: _ =>
    simp [isRecognisedReport, Machine.Report.ofBytes]

/-- An event is well formed exactly when its bytes are ones its kind allows; an event that carries no byte string of free
length always is. -/
def WellFormedByLength.Statement (i : Instr) : Prop :=
  (i.wellFormed = true) = match i with
    | .malformedQuery bytes => bytes.length ≠ 7
    | .malformedRequest _ bytes => bytes.length ≠ 1
    | .unrecognisedReport _ bytes => Machine.Report.ofBytes bytes = .unrecognised bytes
    | _ => True

theorem WellFormedByLength.commandTaken (begins : Bool) (bytes : List Byte) :
    Statement (.commandTaken begins bytes) := by
  simp [Statement, Instr.wellFormed]

theorem WellFormedByLength.ignoredFrame : Statement .ignoredFrame := by
  simp [Statement, Instr.wellFormed]

theorem WellFormedByLength.abortedFrame : Statement .abortedFrame := by
  simp [Statement, Instr.wellFormed]

theorem WellFormedByLength.unknownCommand : Statement .unknownCommand := by
  simp [Statement, Instr.wellFormed]

theorem WellFormedByLength.readIdentity : Statement .readIdentity := by
  simp [Statement, Instr.wellFormed]

theorem WellFormedByLength.readTime : Statement .readTime := by
  simp [Statement, Instr.wellFormed]

theorem WellFormedByLength.loadRateProfile : Statement .loadRateProfile := by
  simp [Statement, Instr.wellFormed]

theorem WellFormedByLength.setParameter : Statement .setParameter := by
  simp [Statement, Instr.wellFormed]

theorem WellFormedByLength.getParameter : Statement .getParameter := by
  simp [Statement, Instr.wellFormed]

theorem WellFormedByLength.goOperational : Statement .goOperational := by
  simp [Statement, Instr.wellFormed]

theorem WellFormedByLength.resetPart : Statement .resetPart := by
  simp [Statement, Instr.wellFormed]

theorem WellFormedByLength.addLink : Statement .addLink := by
  simp [Statement, Instr.wellFormed]

theorem WellFormedByLength.updateLink : Statement .updateLink := by
  simp [Statement, Instr.wellFormed]

theorem WellFormedByLength.retireLink : Statement .retireLink := by
  simp [Statement, Instr.wellFormed]

theorem WellFormedByLength.readLink : Statement .readLink := by
  simp [Statement, Instr.wellFormed]

theorem WellFormedByLength.addDestination : Statement .addDestination := by
  simp [Statement, Instr.wellFormed]

theorem WellFormedByLength.findDestination : Statement .findDestination := by
  simp [Statement, Instr.wellFormed]

theorem WellFormedByLength.removeDestination : Statement .removeDestination := by
  simp [Statement, Instr.wellFormed]

theorem WellFormedByLength.readDestination : Statement .readDestination := by
  simp [Statement, Instr.wellFormed]

theorem WellFormedByLength.addCandidate : Statement .addCandidate := by
  simp [Statement, Instr.wellFormed]

theorem WellFormedByLength.updateCandidate : Statement .updateCandidate := by
  simp [Statement, Instr.wellFormed]

theorem WellFormedByLength.removeCandidate : Statement .removeCandidate := by
  simp [Statement, Instr.wellFormed]

theorem WellFormedByLength.readCandidate : Statement .readCandidate := by
  simp [Statement, Instr.wellFormed]

theorem WellFormedByLength.setCursor : Statement .setCursor := by
  simp [Statement, Instr.wellFormed]

theorem WellFormedByLength.readAtCursor : Statement .readAtCursor := by
  simp [Statement, Instr.wellFormed]

theorem WellFormedByLength.readSummary : Statement .readSummary := by
  simp [Statement, Instr.wellFormed]

theorem WellFormedByLength.nextEventLink : Statement .nextEventLink := by
  simp [Statement, Instr.wellFormed]

theorem WellFormedByLength.readLinkEvents : Statement .readLinkEvents := by
  simp [Statement, Instr.wellFormed]

theorem WellFormedByLength.takeChanges : Statement .takeChanges := by
  simp [Statement, Instr.wellFormed]

theorem WellFormedByLength.readPortStatus : Statement .readPortStatus := by
  simp [Statement, Instr.wellFormed]

theorem WellFormedByLength.flushReports : Statement .flushReports := by
  simp [Statement, Instr.wellFormed]

theorem WellFormedByLength.readJobNotice : Statement .readJobNotice := by
  simp [Statement, Instr.wellFormed]

theorem WellFormedByLength.startJob : Statement .startJob := by
  simp [Statement, Instr.wellFormed]

theorem WellFormedByLength.stopJob : Statement .stopJob := by
  simp [Statement, Instr.wellFormed]

theorem WellFormedByLength.readJobState : Statement .readJobState := by
  simp [Statement, Instr.wellFormed]

theorem WellFormedByLength.pathQuery (tag : Byte) (dest : Addr) : Statement (.pathQuery tag dest) := by
  simp [Statement, Instr.wellFormed]

theorem WellFormedByLength.pathAnswer : Statement .pathAnswer := by
  simp [Statement, Instr.wellFormed]

theorem WellFormedByLength.malformedQuery (bytes : List Byte) : Statement (.malformedQuery bytes) := by
  simp [Statement, Instr.wellFormed]

theorem WellFormedByLength.paramRequest (port : Radio) (link : Byte) : Statement (.paramRequest port link) := by
  simp [Statement, Instr.wellFormed]

theorem WellFormedByLength.paramAnswer (port : Radio) : Statement (.paramAnswer port) := by
  simp [Statement, Instr.wellFormed]

theorem WellFormedByLength.malformedRequest (port : Radio) (bytes : List Byte) : Statement (.malformedRequest port bytes) := by
  simp [Statement, Instr.wellFormed]

theorem WellFormedByLength.outcomeReport (port : Radio) (link : Byte) (peer : Addr) (rate attempts acked : Byte) : Statement (.outcomeReport port link peer rate attempts acked) := by
  simp [Statement, Instr.wellFormed]

theorem WellFormedByLength.heardReport (port : Radio) (peer : Addr) (snr sector beacon : Byte) : Statement (.heardReport port peer snr sector beacon) := by
  simp [Statement, Instr.wellFormed]

theorem WellFormedByLength.unrecognisedReport (port : Radio) (bytes : List Byte) : Statement (.unrecognisedReport port bytes) := by
  unfold Statement; exact propext (by simpa [Instr.wellFormed] using unrecognised_iff bytes)

theorem WellFormedByLength.reportTake (port : Radio) : Statement (.reportTake port) := by
  simp [Statement, Instr.wellFormed]

theorem WellFormedByLength.millisecondTick : Statement .millisecondTick := by
  simp [Statement, Instr.wellFormed]

theorem WellFormedByLength.silenceDeadlineExpiry (link : LinkId) : Statement (.silenceDeadlineExpiry link) := by
  simp [Statement, Instr.wellFormed]

theorem WellFormedByLength.retireLinksVisit : Statement .retireLinksVisit := by
  simp [Statement, Instr.wellFormed]

theorem WellFormedByLength.retuneRadioVisit : Statement .retuneRadioVisit := by
  simp [Statement, Instr.wellFormed]

theorem WellFormedByLength.pruneDestinationsVisit : Statement .pruneDestinationsVisit := by
  simp [Statement, Instr.wellFormed]

theorem WellFormedByLength.softReset : Statement .softReset := by
  simp [Statement, Instr.wellFormed]

theorem WellFormedByLength.powerOnReset : Statement .powerOnReset := by
  simp [Statement, Instr.wellFormed]

theorem WellFormedByLength.powerOnResetEnd (pres0 pres1 pres2 : Bool) : Statement (.powerOnResetEnd pres0 pres1 pres2) := by
  simp [Statement, Instr.wellFormed]

theorem WellFormedByLength.initialisationEnd : Statement .initialisationEnd := by
  simp [Statement, Instr.wellFormed]

theorem WellFormedByLength.csWithdrawn : Statement .csWithdrawn := by
  simp [Statement, Instr.wellFormed]

end Sys2Proof.Laws
end

