-- ==== Sys2Proof/Tests/Slice0.lean ====
section
/-! SUPPORT. The model's own tests: the well-formedness smoke, single steps against the manual's worked cases, and for each
statement with hypotheses a state and operands that meet them. -/

namespace Sys2Proof.Tests

set_option Elab.async false

open Sys2Proof.Machine

/-! ### Helpers -/

/-- The state after an event. -/
def after (c : Instr) (s : State) : State :=
  match exec c s with
  | .next t => t
  | .fault _ => s
  | .refused _ => s

/-- The answer a frame holds. -/
def answer (s : State) : Option Answer :=
  match s.frame with
  | .answering a _ => some a
  | .closed | .code | .length _ | .arguments _ _ _ | .waiting | .afterAnswer | .ignored => none

/-- A command in hand, its frame in the waiting phase. -/
def host (code : Byte) (args : List Byte) (s : State) : State :=
  { s with frame := .waiting, hand := some ⟨code, args⟩ }

/-- The Timebase count set. -/
def at_ (t : Time) (s : State) : State := { s with now := t }

/-- Running in Operational at time 20,000, radios 0 and 1 present, tables empty. -/
def blank : State :=
  { State.reset with
    power := .running, part := .operational, now := 20000
    ports := #v[Port.afterReset true, Port.afterReset true, Port.afterReset false] }

/-- A link whose estimate is `e` at one rate and at its least usable value elsewhere. -/
def link (peer : Addr) (state : LinkState) (r : Rate) (e snr refs : Nat) : Link :=
  { Link.fresh 0 peer 2 .follow with
    state := state, heard := 2, lastHeard := some 19900, deadline := some 20500, refs := refs
    est := { delivery := put (Vector.replicate 12 32) r e, snr := some snr, probe := 15, oneWay := false } }

def link2 : Link := link 0x020000000002 .up 7 900 106 1
def link5 : Link := link 0x020000000005 .up 9 600 148 1
def link9 : Link := link 0x020000000009 .probation 7 512 100 0
def dest0 : Dest := ⟨0x0a3c5510027e, [0, 1], some 0, some 20010, 1⟩
def cand0 : Cand := ⟨0, 2, 400, 605⟩
def cand1 : Cand := ⟨0, 5, 300, 65535⟩

/-- The state of the worked case of section 4.9 at its start: destination 0 on candidates 0 and 1, link costs 205 and 231,
with link 9 in Probation. -/
def town : State :=
  (((((blank.setLink 2 (some link2)).setLink 5 (some link5)).setLink 9 (some link9)).setDest 0 (some dest0)).setCand 0
    (some cand0)).setCand 1 (some cand1)

/-- The state code and the pending events of a link. -/
def linkView (s : State) (i : LinkId) : Option (LinkState × Byte) := (s.link i).map (fun l => (l.state, l.events.byte))

/-- The active candidate and the switch count of a destination. -/
def destView (s : State) (d : DestId) : Option (Option CandId × Nat) := (s.dest d).map (fun r => (r.active, r.switchCount))

/-! ### Which events are well formed -/

theorem test_wellFormed_malformedQuery : (Instr.malformedQuery (List.replicate 7 0)).wellFormed = false ∧
    (Instr.malformedQuery (List.replicate 8 0)).wellFormed = true := by decide

theorem test_wellFormed_malformedRequest : (Instr.malformedRequest 0 [4]).wellFormed = false ∧
    (Instr.malformedRequest 0 []).wellFormed = true := by decide

theorem test_wellFormed_unrecognisedReport :
    (Instr.unrecognisedReport 0 (0 :: List.replicate 10 7)).wellFormed = false ∧
    (Instr.unrecognisedReport 0 (1 :: List.replicate 9 7)).wellFormed = false ∧
    (Instr.unrecognisedReport 0 (1 :: List.replicate 10 7)).wellFormed = true ∧
    (Instr.unrecognisedReport 0 (2 :: List.replicate 10 7)).wellFormed = true := by decide

theorem test_decode_none : decodeTableWord 8 0x10 = none := rfl

/-! ### Frames, resets, configuration (chapters 9 and 10) -/

/-- R149: READ LINK of link 2, a whole frame at once and in two stretches, and one byte short of its arguments. -/
theorem test_commandTaken : let s := after (.commandTaken true [0x13, 1, 2]) blank
    let t := after (.commandTaken false [1, 2]) (after (.commandTaken true [0x13]) blank)
    s.frame = .waiting ∧ s.hand = some ⟨0x13, [2]⟩ ∧ t.frame = .waiting ∧ t.hand = some ⟨0x13, [2]⟩ ∧
    (after (.commandTaken true [0x13, 1]) blank).frame = .arguments 0x13 1 [] := by decide +kernel

/-- R149: the bytes returned while READ IDENTITY's answer is clocked out, with the filler of R171 before and after it. -/
theorem test_commandTaken_answer : let s := after .readIdentity (host 0x01 [] town)
    (List.range 9).map (fun n => (after (.commandTaken false (List.replicate n 0xFF)) s).output) =
      [0xA5, 0, 5, 0x4C, 0x46, 0x32, 0x08, 2, 0].map some ∧ (host 0x01 [] town).output = some 0 ∧ town.output = none := by
  decide +kernel

/-- R152 and section 9.7, frame 2: a frame begun with a command in hand is ignored though its bytes come after the command
has been carried out. -/
theorem test_ignoredFrame :
    let s := after .ignoredFrame (after .csWithdrawn (host 0x20 [0x0a, 0x3c, 0x55, 0x10, 0x0c, 0x31] town))
    let t := after (.commandTaken false [0x01, 0]) (after .addDestination s)
    t.frame = .ignored ∧ t.hand = none ∧ t.output = some 0 ∧ (after .csWithdrawn t).frame = .closed := by decide +kernel

theorem test_abortedFrame : let t := after .abortedFrame (after (.commandTaken true [0x13, 1]) town)
    t.frame = .closed ∧ t.hand = none := by decide +kernel

theorem test_unknownCommand : answer (after .unknownCommand (host 0x63 [] blank)) = some ⟨.unknownCommand, []⟩ := by
  decide +kernel

/-- R149: marker, status, result length, results; R155's five result bytes. -/
theorem test_readIdentity : (answer (after .readIdentity (host 0x01 [] blank))).map Answer.bytes =
    some [0xA5, 0, 5, 0x4C, 0x46, 0x32, 0x08, 2] := by decide +kernel

theorem test_readTime : answer (after .readTime (host 0x02 [] (at_ 0x01020304 blank))) = some ⟨.ok, [1, 2, 3, 4]⟩ := by
  decide +kernel

/-- Section 9.7, frame 1: the answer of a command whose frame was withdrawn is lost. -/
theorem test_csWithdrawn_answerLost :
    let t := after .addDestination (after .csWithdrawn (host 0x20 [0x0a, 0x3c, 0x55, 0x10, 0x0c, 0x31] town))
    answer t = none ∧ t.hand = none ∧ (t.dest 1).map Dest.state = some .unresolved := by decide +kernel

theorem test_setParameter_depth : answer (after .setParameter (host 0x04 [0, 0, 7] blank)) = some ⟨.ok, [0, 4]⟩ := by
  decide +kernel

theorem test_setParameter_thresholds : answer (after .setParameter (host 0x04 [9, 0x04, 0xB0] blank)) =
    some ⟨.badValue, []⟩ := by decide +kernel

theorem test_getParameter : answer (after .getParameter (host 0x05 [8] blank)) = some ⟨.ok, [0x04, 0xB0]⟩ := by
  decide +kernel

theorem test_goOperational : (after .goOperational (host 0x06 [] { blank with part := .configuring })).part = .operational :=
  by decide +kernel

/-- R29: a minimum SNR below the one before it is refused. -/
theorem test_loadRateProfile_order : answer (after .loadRateProfile (host 0x03
    ((List.replicate 10 [0, 100, 5]).flatten ++ [0, 100, 4] ++ [0, 100, 9]) { blank with part := .configuring })) =
    some ⟨.badValue, []⟩ := by decide +kernel

theorem test_softReset : let t := after .softReset { town with armed := true }
    t.power = .initialising ∧ t.link 2 = none ∧ t.now = 0 ∧ (t.port 1).present = true := by decide +kernel

theorem test_powerOnReset_discardsFrame : let t := after .powerOnReset (host 0x02 [] town)
    t.frame = .ignored ∧ t.hand = none ∧ (t.port 1).present = false := by decide +kernel

theorem test_powerOnResetEnd : ((after (.powerOnResetEnd true false true) State.reset).port 1).present = false ∧
    ((after (.powerOnResetEnd true false true) State.reset).port 2).present = true := by decide +kernel

theorem test_millisecondTick_wraps : (after .millisecondTick (at_ 0xFFFFFFFF blank)).now = 0 := by decide +kernel

/-! ### Links (chapter 1) -/

theorem test_addLink : answer (after .addLink (host 0x10 [1, 0x02, 0x1a, 0x7c, 0, 0x4e, 0x91, 2, 1] town)) =
    some ⟨.ok, [0]⟩ := by decide +kernel

theorem test_addLink_noRadio : answer (after .addLink (host 0x10 [2, 0x02, 0x1a, 0x7c, 0, 0x4e, 0x91, 2, 1] town)) =
    some ⟨.noRadio, []⟩ := by decide +kernel

/-- Section 1.13, time 10,200: the third hearing brings the link Up with CAME_UP, deadline last heard + 100 × 6. -/
theorem test_reportTake_cameUp : let t := after (.reportTake 0) (at_ 10200 (town.setPort 0
      { town.port 0 with reports := [.heard 0x020000000009 25 2 0] }))
    linkView t 9 = some (.up, 1) ∧ (t.link 9).map (·.deadline) = some (some 10800) := by decide +kernel

/-- Section 1.5: good gaps of 102, 98, 101 and 99 give a measured interval of 100. -/
theorem test_measureBeacon : (({ link2 with lastBeacon := some 10301, gapSum := 301, gapCount := 3 } : Link).measureBeacon
    10400).interval = some 100 := by decide +kernel

/-- Section 1.13, time 12,800: the third beacon on sector 3 moves the sector and seeds the average anew at 25 × 4. -/
theorem test_sectorMove : let l := ({ link9 with followSector := some 3, agree := 2 } : Link).hear town.tuning 12800 25 3 true
    l.sector = 3 ∧ l.events.sectorMoved = true ∧ l.est.snr = some 100 := by decide +kernel

/-- `town` with link 2's deadline alone at 20,500. -/
def oneDue : State :=
  (town.setLink 5 (some { link5 with deadline := some 21000 })).setLink 9 (some { link9 with deadline := some 21000 })

/-- Section 4.9, time 23,000, by the rise of the count (R170): the tick alone takes the link Down; where the link's expiry
waits as an event of its own, as in the first column of R14, the tick leaves it to that event. -/
theorem test_millisecondTick_expires : let t := after .millisecondTick (at_ 20499 oneDue)
    linkView t 2 = some (.down, 8) ∧ destView t 0 = some (some 1, 2) ∧ linkView t 5 = some (.up, 0) ∧
    linkView (after .millisecondTick { at_ 20499 oneDue with pending := [.reportTake 0, .silenceDeadlineExpiry 2] }) 2 =
      some (.up, 0) := by decide +kernel

/-- Section 4.9, time 23,000: the link goes Down and destination 0 is reselected onto candidate 1 at once. -/
theorem test_silenceDeadlineExpiry : let t := after (.silenceDeadlineExpiry 2) (at_ 20500 town)
    linkView t 2 = some (.down, 8) ∧ destView t 0 = some (some 1, 2) ∧ t.changed.get 0 = true := by decide +kernel

theorem test_silenceDeadline_notDue : linkView (after (.silenceDeadlineExpiry 2) (at_ 20499 town)) 2 = some (.up, 0) := by
  decide +kernel

/-- Section 1.14, step 1. -/
theorem test_retireLink : let t := after .retireLink (host 0x12 [2, 0] town)
    answer t = some ⟨.ok, [5]⟩ ∧ destView t 0 = some (some 1, 2) := by decide +kernel

theorem test_retireLink_cascade : let t := after .retireLink (host 0x12 [2, 1] town)
    answer t = some ⟨.ok, [0]⟩ ∧ t.cand 0 = none ∧ (t.dest 0).map (·.chain) = some [1] := by decide +kernel

theorem test_updateLink_sector : let t := after .updateLink (host 0x11 [2, 1, 6, 0, 0, 0] town)
    (t.link 2).map (·.sector) = some 6 ∧ (t.link 2).map (·.est) = some Estimator.initial := by decide +kernel

/-- R172: sector at byte 8, reference count at 37, SNR average at 63 and 64, link cost in the last two of 71 bytes. -/
theorem test_readLink : (answer (after .readLink (host 0x13 [2] town))).map (fun a =>
    (a.results.length, fieldAt a.results 8 1, fieldAt a.results 37 1, fieldAt a.results 63 2, fieldAt a.results 69 2)) =
    some (71, 2, 1, 256 + 106, 205) := by decide +kernel

/-! ### The Link Estimator (chapter 2) -/

/-- Section 2.11's link: average 106, S[5] 1000, S[6] 900, S[7] 600, the rest 512. -/
def link211 : Link :=
  { link2 with est := { link2.est with
      delivery := put (put (put (Vector.replicate 12 512) 5 1000) 6 900) 7 600 } }

theorem test_chosenRate_2_11 : link211.ceiling blank.tuning = 7 ∧ link211.chosenRate blank.tuning = 6 ∧
    link211.cost blank.tuning = 228 := by decide +kernel

/-- Section 2.11, the probe: the sixteenth OK answer carries rate 7 with the probe mark. -/
theorem test_paramRequest_probe : let t := after (.paramRequest 0 2) (town.setLink 2 (some link211))
    (t.port 0).slot = some (.ok 7 2 true) ∧ (t.link 2).map (·.est.probe) = some 0 := by decide +kernel

/-- Section 2.11, report 1: S[7] goes from 600 to 706. -/
theorem test_reportTake_outcome : (((after (.reportTake 0) ((town.setLink 2 (some link211)).setPort 0
    { town.port 0 with reports := [.outcome 2 0x020000000002 7 1 1] })).link 2).map (fun l => l.est.delivery.get 7)) =
    some 706 := by decide +kernel

/-- Section 2.12, report 12: 39 falls to 30, the cost saturates, ONE_WAY is added. -/
theorem test_takeOutcome_oneWay : let l := ({ link2 with state := .degraded, pinned := some 6, est := { link2.est with
      delivery := put link2.est.delivery 6 39 } } : Link).takeOutcome blank.tuning 0 6 1 false
    l.est.delivery.get 6 = 30 ∧ l.cost blank.tuning = 65535 ∧ l.events.byte = 16 := by decide +kernel

/-! ### Destinations and candidates (chapter 3) -/

/-- Section 3.12, time 20,040: a candidate on the Probation link goes to the head; the active candidate stays. -/
theorem test_addCandidate : let t := after .addCandidate (host 0x30 [0, 9, 0, 50, 0, 0] town)
    answer t = some ⟨.ok, [2, 2]⟩ ∧ (t.dest 0).map (·.chain) = some [2, 0, 1] ∧ destView t 0 = some (some 0, 1) := by
  decide +kernel

/-- Section 3.12, time 20,030. -/
theorem test_addCandidate_duplicate : answer (after .addCandidate (host 0x30 [0, 2, 0, 100, 0, 0] town)) =
    some ⟨.duplicate, []⟩ := by decide +kernel

/-- Section 3.12, time 20,050: a saturated remainder makes the active candidate unusable, and 1 is selected. -/
theorem test_updateCandidate : let t := after .updateCandidate (host 0x31 [0, 1, 0xFF, 0xFF, 0, 0] town)
    answer t = some ⟨.ok, [2]⟩ ∧ destView t 0 = some (some 1, 2) := by decide +kernel

/-- Section 3.12, time 20,060, and R66: the chain closes up and the reference count falls. -/
theorem test_removeCandidate : let t := after .removeCandidate (host 0x32 [0] town)
    answer t = some ⟨.ok, [0, 2]⟩ ∧ (t.dest 0).map (·.chain) = some [1] ∧ (t.link 2).map (·.refs) = some 0 := by
  decide +kernel

/-- Section 3.12, time 20,070. -/
theorem test_removeDestination : let t := after .removeDestination (host 0x22 [0] (town.setChanged 0 true))
    answer t = some ⟨.ok, []⟩ ∧ t.dest 0 = none ∧ t.cand 1 = none ∧ t.changed.get 0 = false := by decide +kernel

theorem test_findDestination : answer (after .findDestination (host 0x21 [0x0a, 0x3c, 0x55, 0x10, 0x02, 0x7e] town)) =
    some ⟨.ok, [0, 2]⟩ := by decide +kernel

theorem test_addDestination_group : answer (after .addDestination (host 0x20 [0x01, 0, 0x5e, 0, 0, 0xfb] town)) =
    some ⟨.badValue, []⟩ := by decide +kernel

/-- R172: state, address, chain length, four slots, active, last switch time, switch count: 21 bytes. -/
theorem test_readDestination : answer (after .readDestination (host 0x23 [0] town)) =
    some ⟨.ok, [2, 0x0a, 0x3c, 0x55, 0x10, 0x02, 0x7e, 2, 0, 1, 0, 0, 1, 0, 1, 0, 0, 0x4e, 0x2a, 0, 1]⟩ := by
  decide +kernel

/-- R172: in use, destination, link, remainder, last path cost, position, active mark. -/
theorem test_readCandidate : answer (after .readCandidate (host 0x33 [1] town)) =
    some ⟨.ok, [1, 0, 5, 0x01, 0x2C, 0xFF, 0xFF, 2, 0]⟩ := by decide +kernel

theorem test_setCursor_end : answer (after .setCursor (host 0x40 [0, 32, 1] town)) = some ⟨.badValue, []⟩ := by
  decide +kernel

theorem test_readAtCursor : let t := after .readAtCursor (host 0x41 [] { town with cursor := ⟨.candidates, 1, true⟩ })
    answer t = some ⟨.ok, [2, 0, 1, 1, 0, 5, 0x01, 0x2C, 0xFF, 0xFF, 2, 0]⟩ ∧ t.cursor.index = 2 := by decide +kernel

/-! ### Path resolution and the Forwarding Port (chapters 4 and 5) -/

/-- Section 4.9, time 20,500: 531 × 16 is not below 605 × 14, so the active candidate stays. -/
theorem test_pathQuery_marginFails : (after (.pathQuery 10 0x0a3c5510027e) (at_ 20500 town)).queries =
    [⟨10, 0x0a3c5510027e, some ⟨10, .ok 2 0 0x020000000002 605⟩⟩] := by decide +kernel

/-- Section 4.9, time 22,010: S[9] is 700, margin and hold-down pass, and candidate 1 becomes active. -/
theorem test_pathQuery_switch : let t := after (.pathQuery 10 0x0a3c5510027e) (at_ 22010 (town.setLink 5
      (some { link5 with est := { link5.est with delivery := put link5.est.delivery 9 700 } })))
    destView t 0 = some (some 1, 2) ∧ (t.cand 1).map (·.lastCost) = some 498 := by decide +kernel

/-- Section 5.7: answer 11 passes and tag 12, a group address, is answered UNKNOWN; R173's 12 bytes. -/
theorem test_pathAnswer : ((after .pathAnswer { town with
      queries := [⟨11, 0, some ⟨11, .noPath⟩⟩, ⟨12, 0x01005e0000fb, none⟩] }).queries.map
        (fun q => q.answer.map PathAnswer.bytes)) = [some [12, 2, 0, 0, 0, 0, 0, 0, 0, 0, 0, 0]] := by decide +kernel

/-- Section 4.10: of two usable candidates at one cost the nearer to the head becomes active. -/
theorem test_cheapest_tie : cheapest (fun c => if c = 23 then 900 else 540) [21, 22, 23] = some 21 := by decide

/-! ### The Radio Ports (chapter 6) -/

/-- The second row of R91, the evaluation taken first: an Unreachable destination with a candidate on link 9, just come Up, is
Resolved on it by the evaluation, with one switch, and the notice then leaves it. -/
theorem test_evaluation_before_notice : let u := ((town.setLink 9 (some { link9 with state := .up })).setCand 1
      (some { cand1 with link := 9 })).setDest 0 (some { dest0 with chain := [1], active := none })
    destView ((u.evaluateDest 0).finishRise 9) 0 = some (some 1, 2) ∧
    (u.evaluateDest 0).pathResult 0 = .ok 9 0 0x020000000009 660 := by decide +kernel

/-- Section 6.9: a report at a full queue is dropped, counted and flagged. -/
theorem test_heardReport_full : let t := after (.heardReport 0 0x020000000009 30 1 1) (town.setPort 0
      { town.port 0 with reports := List.replicate 16 (.unrecognised []), dropped := 1 })
    (t.port 0).reports.length = 16 ∧ (t.port 0).dropped = 2 ∧ (t.port 0).overflow = true := by decide +kernel

theorem test_outcomeReport : ((after (.outcomeReport 1 2 3 12 0 0) town).port 1).reports = [.outcome 2 3 12 0 0] := by
  decide +kernel

theorem test_unrecognisedReport_absent : ((after (.unrecognisedReport 2 [9]) town).port 2).reports = [] := by decide +kernel

/-- Section 6.9, time 30,021: a report whose peer is another's is discarded. -/
theorem test_reportTake_peerMismatch : let t := after (.reportTake 0) (town.setPort 0
      { town.port 0 with reports := [.outcome 2 0x020000000005 7 1 1] })
    t.link 2 = some link2 ∧ (t.port 0).reports = [] := by decide +kernel

/-- Section 6.9, time 30,004. -/
theorem test_paramRequest_probation : ((after (.paramRequest 0 9) town).port 0).slot = some (.probation 2) := by
  decide +kernel

theorem test_paramAnswer : ((after (.paramAnswer 0) (after (.paramRequest 0 9) town)).port 0).slot = none := by
  decide +kernel

theorem test_flushReports : answer (after .flushReports (host 0x55 [1] (town.setPort 1
    { town.port 1 with reports := [.unrecognised [], .unrecognised [], .unrecognised []] }))) = some ⟨.ok, [3]⟩ := by
  decide +kernel

/-- Section 6.9, time 30,001. -/
theorem test_readPortStatus : let t := after .readPortStatus (host 0x54 [1] (town.setPort 1
      { town.port 1 with dropped := 2, overflow := true }))
    answer t = some ⟨.ok, [1, 0, 0, 2, 1]⟩ ∧ (t.port 1).overflow = false ∧ (t.port 1).dropped = 2 := by decide +kernel

/-! ### Jobs (chapter 7) -/

/-- A state with a job of a kind at an index, one record visited before it. -/
def working (j : JobSelector) (next : Nat) : State := { town with job := .running ⟨j, next, 1, 0⟩ }

theorem test_startJob : (after .startJob (host 0x60 [1, 1] town)).job = .running ⟨.retuneRadio 1, 0, 0, 0⟩ := by
  decide +kernel

theorem test_startJob_noRadio : answer (after .startJob (host 0x60 [0, 4, 15] town)) = some ⟨.noRadio, []⟩ := by
  decide +kernel

/-- Section 7.10, time 50,006: the link is reset to Probation, and destination 0 reselected onto its other candidate. -/
theorem test_retuneRadioVisit : let t := after .retuneRadioVisit (working (.retuneRadio 0) 2)
    linkView t 2 = some (.probation, 0) ∧ destView t 0 = some (some 1, 2) ∧
      t.job = .running ⟨.retuneRadio 0, 3, 2, 1⟩ := by decide +kernel

theorem test_retireLinksVisit : let t := after .retireLinksVisit (working (.retireLinks 1 2) 2)
    t.link 2 = none ∧ t.cand 0 = none ∧ t.job = .running ⟨.retireLinks 1 2, 3, 2, 1⟩ := by decide +kernel

theorem test_pruneDestinationsVisit_last : (after .pruneDestinationsVisit (working (.pruneDestinations 3) 127)).job =
    .noticePending ⟨.pruneDestinations, .done, 2, 0⟩ := by decide +kernel

/-- Section 7.10, "Had the host sent STOP JOB at 50,007". -/
theorem test_stopJob : (after .stopJob (host 0x61 [] { town with job := .running ⟨.retuneRadio 1, 6, 6, 2⟩ })).job =
    .noticePending ⟨.retuneRadio, .stopped, 6, 2⟩ := by decide +kernel

theorem test_readJobState : answer (after .readJobState (host 0x62 [] (working (.retuneRadio 0) 2))) =
    some ⟨.ok, [1, 1, 2]⟩ := by decide +kernel

theorem test_readJobNotice : let t := after .readJobNotice (host 0x56 []
      { town with job := .noticePending ⟨.retuneRadio, .done, 32, 4⟩ })
    answer t = some ⟨.ok, [1, 0, 32, 4]⟩ ∧ t.job = .idle := by decide +kernel

/-! ### Notices (chapter 8) -/

/-- Section 8.8's part at 60,005: link 2 with WENT_DOWN, destinations 0 and 2 changed, both enabled. -/
def noticed : State :=
  (((({ town with params := put (put town.params 16 1) 19 1 }.setLink 2
    (some { link2 with state := .down, deadline := none, events := { wentDown := true } })).setChanged 0 true).setChanged
      2 true))

/-- Section 8.8, time 60,005: link events come before changes. -/
theorem test_readSummary : answer (after .readSummary (host 0x50 [] noticed)) = some ⟨.ok, [0, 0, 1, 2, 2, 3, 2, 1]⟩ := by
  decide +kernel

theorem test_nextEventLink : answer (after .nextEventLink (host 0x51 [] noticed)) = some ⟨.ok, [1, 2]⟩ := by
  decide +kernel

/-- Section 8.8, time 60,006. -/
theorem test_readLinkEvents : let t := after .readLinkEvents (host 0x52 [2] noticed)
    answer t = some ⟨.ok, [8]⟩ ∧ t.firstCause = .changes ∧ t.notice = true := by decide +kernel

/-- Section 8.8, time 60,010: after the link's events are read, taking the changes withdraws the line. -/
theorem test_takeChanges : let t := after .takeChanges (host 0x53 [] (noticed.setLink 2 (some link2)))
    answer t = some ⟨.ok, [2, 0, 0, 2]⟩ ∧ t.notice = false := by decide +kernel

/-! ### Witnesses: the tables of `town` -/

theorem blank_link (i : LinkId) : blank.link i = none := get_replicate none i
theorem blank_dest (d : DestId) : blank.dest d = none := get_replicate none d
theorem blank_cand (c : CandId) : blank.cand c = none := get_replicate none c

theorem town_link {i : LinkId} {l : Link} (h : town.link i = some l) :
    (i = 2 ∧ l = link2) ∨ (i = 5 ∧ l = link5) ∨ (i = 9 ∧ l = link9) := by
  simp only [town, link_setCand, link_setDest, link_setLink, blank_link] at h
  split at h
  · cases h; simp [*]
  · split at h
    · cases h; simp [*]
    · split at h
      · cases h; simp [*]
      · cases h

theorem oneDue_link {i : LinkId} {l : Link} (h : oneDue.link i = some l) : (i = 2 ∧ l = link2) ∨
    (i = 5 ∧ l = { link5 with deadline := some 21000 }) ∨ (i = 9 ∧ l = { link9 with deadline := some 21000 }) := by
  simp only [oneDue, link_setLink] at h
  split at h
  · cases h; simp [*]
  · split at h
    · cases h; simp [*]
    · rcases town_link h with ⟨rfl, rfl⟩ | ⟨rfl, rfl⟩ | ⟨rfl, rfl⟩ <;> first | contradiction | simp

theorem town_dest {d : DestId} {r : Dest} (h : town.dest d = some r) : d = 0 ∧ r = dest0 := by
  simp only [town, dest_setCand, dest_setDest, dest_setLink, blank_dest] at h
  split at h
  · cases h; simp [*]
  · cases h

theorem town_cand {c : CandId} {k : Cand} (h : town.cand c = some k) : (c = 0 ∧ k = cand0) ∨ (c = 1 ∧ k = cand1) := by
  simp only [town, cand_setCand, cand_setDest, cand_setLink, blank_cand] at h
  split at h
  · cases h; simp [*]
  · split at h
    · cases h; simp [*]
    · cases h

theorem town_link2 : town.link 2 = some link2 := by decide +kernel
theorem oneDue_link2 : oneDue.link 2 = some link2 := by decide +kernel
theorem town_dest0 : town.dest 0 = some dest0 := by decide +kernel
theorem town_cand0 : town.cand 0 = some cand0 := by decide +kernel

theorem town_chainSound : town.chainSound 0 dest0 := by
  refine ⟨by decide, by decide, ?_, ?_, ?_⟩
  · intro c hc
    have : c = 0 ∨ c = 1 := by simpa [dest0] using hc
    rcases this with rfl | rfl
    · exact ⟨cand0, town_cand0, rfl⟩
    · exact ⟨cand1, by decide +kernel, rfl⟩
  · intro c _ e _ k k' h h' hl
    rcases town_cand h with ⟨rfl, rfl⟩ | ⟨rfl, rfl⟩ <;> rcases town_cand h' with ⟨rfl, rfl⟩ | ⟨rfl, rfl⟩
    · rfl
    · exact absurd hl (by decide)
    · exact absurd hl (by decide)
    · rfl
  · intro a h
    have : a = 0 := by simpa [dest0] using h.symm
    subst this; exact ⟨by decide, rfl⟩

/-! ### Witnesses: the laws of every step -/

/-- `town` with a tick waiting meets every law that the statements of the last group assume. -/
theorem witness_laws : ({ town with pending := [.millisecondTick] } : State).pending = [.millisecondTick] ∧
    town.paramsInRange ∧ town.profileInRange ∧ town.queuesBounded ∧ town.headHeld ∧ town.refsExact ∧
    town.estimatesBounded ∧ town.linksSound ∧ town.pathsSound := by
  refine ⟨rfl, ?_, ?_, ?_, trivial, ?_, ?_, ?_, ?_, ?_⟩
  · unfold State.paramsInRange paramAllowed; decide +kernel
  · unfold State.profileInRange; decide +kernel
  · unfold State.queuesBounded; decide +kernel
  · unfold State.refsExact; decide +kernel
  · intro i l h
    rcases town_link h with ⟨-, rfl⟩ | ⟨-, rfl⟩ | ⟨-, rfl⟩ <;>
      exact ⟨by decide +kernel, fun a h => by cases h; decide, by decide⟩
  · intro i l h
    rcases town_link h with ⟨-, rfl⟩ | ⟨-, rfl⟩ | ⟨-, rfl⟩ <;>
      exact ⟨⟨by decide, by decide, by decide, fun b h => by cases h⟩, ⟨rfl, 19900, rfl, by decide, by decide⟩, by decide,
        by decide⟩
  · intro d r h
    obtain ⟨rfl, rfl⟩ := town_dest h
    exact town_chainSound
  · intro c k h
    rcases town_cand h with ⟨rfl, rfl⟩ | ⟨rfl, rfl⟩ <;> exact ⟨dest0, town_dest0, by decide⟩

/-- `town` meets the laws of R3, R51, R88, R107, R142, R149 and R158. -/
theorem witness_laws_tables : town.linksDistinct ∧ town.linksOnPresentPorts ∧ town.destsDistinct ∧ town.changedInUse ∧
    town.activesOnUsableLinks ∧ (host 0x13 [2] town).frameSound ∧ town.cursor.index ≤ town.cursor.table.size := by
  refine ⟨?_, ?_, ?_, ?_, ?_, ⟨by simp [host], ?_⟩, by decide⟩
  · intro i j l m h h' _ hp
    rcases town_link h with ⟨rfl, rfl⟩ | ⟨rfl, rfl⟩ | ⟨rfl, rfl⟩ <;>
      rcases town_link h' with ⟨rfl, rfl⟩ | ⟨rfl, rfl⟩ | ⟨rfl, rfl⟩ <;> first | rfl | exact absurd hp (by decide)
  · intro i l h
    rcases town_link h with ⟨-, rfl⟩ | ⟨-, rfl⟩ | ⟨-, rfl⟩ <;> decide +kernel
  · intro d e r q h h' _
    rw [(town_dest h).1, (town_dest h').1]
  · intro d h
    exact absurd h (by rw [show town.changed.get d = false from get_replicate _ d]; decide)
  · intro d r a h ha
    obtain ⟨rfl, rfl⟩ := town_dest h
    cases ha
    exact ⟨cand0, link2, town_cand0, town_link2, .inl rfl⟩
  · intro h hh
    cases hh
    decide

/-- Every deadline ahead of the count; and one at the count, its expiry waiting behind another event (R14). -/
theorem witness_laws_deadlines : town.deadlinesAhead ∧
    ({ at_ 20500 oneDue with pending := [.reportTake 0, .silenceDeadlineExpiry 2] } : State).deadlinesAhead := by
  refine ⟨fun i l x h hx => .inl ?_, fun i l x h hx => ?_⟩
  · rcases town_link h with ⟨-, rfl⟩ | ⟨-, rfl⟩ | ⟨-, rfl⟩ <;> cases hx <;> decide
  · rcases oneDue_link h with ⟨rfl, rfl⟩ | ⟨rfl, rfl⟩ | ⟨rfl, rfl⟩ <;> cases hx <;> decide +kernel

/-- `town` meets the laws of R24, R49, R54 and R1's addresses, one of its links Retiring, with a job that has visited 31 of 32
links, a STOPPED notice and a DONE one (R121, R135). -/
theorem witness_laws_figures : town.figuresInRange ∧ town.stationsOnly ∧
    (town.setLink 5 (some link5.retire)).retiringNamed ∧ link5.retire.state = .retiring ∧
    ({ town with job := .running ⟨.retuneRadio 0, 31, 31, 1⟩ } : State).jobSound ∧
    ({ town with job := .noticePending ⟨.retuneRadio, .stopped, 31, 1⟩ } : State).jobSound ∧
    ({ town with job := .noticePending ⟨.pruneDestinations, .done, 128, 128⟩ } : State).jobSound := by
  refine ⟨⟨fun d r h => ?_, fun c k h => ?_⟩, ⟨fun i l h => ?_, fun d r h => ?_⟩, fun i l h _ => ?_, by decide,
    ⟨by decide, by decide, by decide⟩, ⟨by decide, by decide⟩, ⟨by decide, rfl⟩⟩
  · rw [(town_dest h).2]; decide
  · rcases town_cand h with ⟨-, rfl⟩ | ⟨-, rfl⟩ <;> decide
  · rcases town_link h with ⟨-, rfl⟩ | ⟨-, rfl⟩ | ⟨-, rfl⟩ <;> decide
  · rw [(town_dest h).2]; decide
  · rw [link_setLink] at h
    split at h
    · cases h; decide
    · rcases town_link h with ⟨-, rfl⟩ | ⟨-, rfl⟩ | ⟨-, rfl⟩ <;> first | decide | contradiction

/-- A part in Configuring with a link just added, and a part held in reset with an ignored frame. -/
theorem witness_laws_reset : (({ blank with part := .configuring } : State).setLink 9
      (some (Link.fresh 0 2 3 .follow))).quietInConfiguring ∧
    ({ State.reset with frame := .ignored } : State).power ≠ .running ∧
    ({ State.reset with frame := .ignored } : State).heldInReset := by
  refine ⟨fun _ => ⟨fun i l h => ?_, fun d r h => ?_, fun d => get_replicate _ d⟩, by decide, fun _ => ⟨?_, .inr rfl⟩⟩
  · rw [link_setLink] at h
    split at h
    · cases h; exact ⟨.inl rfl, rfl, rfl⟩
    · rw [show ({ blank with part := .configuring } : State).link i = none from blank_link i] at h; cases h
  · rw [show (({ blank with part := .configuring } : State).setLink 9 (some (Link.fresh 0 2 3 .follow))).dest d = none from
      blank_dest d] at h
    cases h
  · exact ⟨rfl, fun i => get_replicate _ i, fun d => get_replicate _ d, fun c => get_replicate _ c, rfl, by decide +kernel,
      rfl, fun d => get_replicate _ d, rfl, rfl, rfl, rfl, rfl, rfl⟩

theorem witness_StepTakesTheFrontEvent :
    ({ town with pending := [.csWithdrawn, .softReset] } : State).pending = .csWithdrawn :: [.softReset] ∧
    town.pending = [] := ⟨rfl, rfl⟩

theorem witness_OnlyTheirEventsWriteTheSettings : ∃ t, exec .millisecondTick town = .next t ∧
    isReset .millisecondTick = false ∧ t.now ≠ town.now :=
  ⟨_, millisecondTick_running rfl, rfl, by decide +kernel⟩

/-- A PATH ANSWER held at the head and a PARAM ANSWER held in a slot, with an event that is not their taking. -/
theorem witness_OnlyTheirEvents_held : let q : Query := ⟨10, 1, some ⟨10, .unknown⟩⟩
    let s := ({ town with queries := [q] } : State).setPort 0 { town.port 0 with slot := some .unavailable }
    s.queries = q :: [] ∧ q.answer ≠ none ∧ (s.port 0).slot = some .unavailable ∧
    ∃ t, exec (.silenceDeadlineExpiry 2) s = .next t := ⟨rfl, by decide, rfl, _, rfl⟩

theorem witness_EverySwitchIsBooked : ∃ t r', exec (.silenceDeadlineExpiry 2) (at_ 20500 town) = .next t ∧
    (at_ 20500 town).dest 0 = some dest0 ∧ t.dest 0 = some r' ∧ r'.active ≠ dest0.active :=
  ⟨_, ⟨0x0a3c5510027e, [0, 1], some 1, some 20500, 2⟩, rfl, town_dest0, by decide +kernel, by decide⟩

theorem witness_RefusalChangesNothing : ∃ t a, (host 0x63 [] town).frame = .waiting ∧
    exec .unknownCommand (host 0x63 [] town) = .next t ∧ t.frame = .answering a 0 ∧ a.status ≠ .ok :=
  ⟨_, ⟨.unknownCommand, []⟩, rfl, rfl, rfl, by decide⟩

/-! ### Witnesses: frames, configuration, resets -/

/-- Argument lengths of 0 and 255; a frame in each phase; a command in hand with CS withdrawn, and a reset. -/
theorem witness_FramesTakeOneCommand : (255 : Byte).toNat = (List.replicate 255 (0 : Byte)).length ∧
    (0 : Byte).toNat = ([] : List Byte).length ∧ blank.power = .running ∧ blank.hand = none ∧ blank.frame = .closed ∧
    blank.armed = false ∧ ({ host 1 [] blank with frame := .closed } : State).hand ≠ none ∧ State.reset.power ≠ .running ∧
    State.reset.frame = .closed ∧ ({ blank with armed := true } : State).armed = true ∧
    (after (.commandTaken true []) blank).frame = .code ∧
    (after (.commandTaken true [4]) blank).frame = .length 4 ∧
    (after (.commandTaken true [4, 3, 0]) blank).frame = .arguments 4 3 [0] ∧
    ({ blank with frame := .answering ⟨.ok, [7]⟩ 3 } : State).frame = .answering ⟨.ok, [7]⟩ 3 ∧
    ({ blank with frame := .afterAnswer } : State).frame = .afterAnswer := by
  decide +kernel

theorem witness_FramingIsCheckedFirst : (host 0x63 [] town).hand = some ⟨0x63, []⟩ ∧
    (∀ row ∈ commandTable, row.2.1 ≠ 0x63) ∧ (host 0x13 [2, 0] town).hand = some ⟨0x13, [2, 0]⟩ ∧
    (.readLink, 0x13, 1) ∈ commandTable ∧ ¬ startJobLengthOk [] ∧ ¬ startJobLengthOk [0, 1] ∧
    startJobLengthOk [0, 1, 1] ∧ startJobLengthOk [3] ∧ (host 0x60 [3] town).frame = .waiting := by
  unfold startJobLengthOk; decide +kernel

theorem witness_IdentityAndTime : (host 0x01 [] town).hand = some ⟨0x01, []⟩ ∧ (host 0x02 [] town).hand = some ⟨0x02, []⟩ ∧
    town.power = .running ∧ State.reset.power ≠ .running := by decide +kernel

/-- Each clause at the ends of its range: a filter depth, the two thresholds, the last number. -/
theorem witness_SetParameterClampsAndWrites : (host 0x04 [22, 0, 0] town).hand = some ⟨0x04, [22, 0, 0]⟩ ∧
    (0 : ParamNo).val ≤ 1 ∧ (8 : Nat) = (if 9 ≤ 1 then 1 else if 9 ≤ 3 then 2 else if 9 ≤ 7 then 4 else 8) ∧
    800 ≤ town.param 9 ∧ ¬ 801 ≤ town.param 9 ∧ town.param 8 ≤ 1200 ∧ ¬ town.param 8 ≤ 1199 ∧
    (21 : Byte).toNat = (21 : ParamNo).val ∧ (host 0x05 [21] town).hand = some ⟨0x05, [21]⟩ ∧ town.param 21 ≤ 65535 := by
  decide +kernel

/-- The bytes of a profile of equal entries: airtime 2,000, minimum SNR 63. -/
def profileBytes (m : Byte) : List Byte := (List.replicate 12 [0x07, 0xD0, m]).flatten

theorem witness_ConfiguringCommands : (profileBytes 63).length = 36 ∧ (∀ r : Rate, ((Vector.replicate 12
      (⟨2000, 63⟩ : RateEntry)).get r).airtime = ((profileBytes 63).getD (3 * r.val) 0).toNat * 256 +
        ((profileBytes 63).getD (3 * r.val + 1) 0).toNat ∧
      ((Vector.replicate 12 (⟨2000, 63⟩ : RateEntry)).get r).minSnr =
        ((profileBytes 63).getD (3 * r.val + 2) 0).toNat) ∧
    ({ town with profile := Vector.replicate 12 ⟨2000, 63⟩ } : State).profileInRange ∧
    ¬ ({ town with profile := Vector.replicate 12 ⟨2000, 64⟩ } : State).profileInRange ∧
    ({ town with part := .configuring } : State).part = .configuring ∧ town.part = .operational := by
  unfold State.profileInRange; decide +kernel

theorem witness_SoftReset : (host 0x07 [] town).hand = some ⟨0x07, []⟩ ∧ (host 0x07 [] town).frame = .waiting ∧
    ({ host 0x07 [] town with frame := .closed } : State).frame = .closed ∧
    ({ town with armed := true } : State).armed = true ∧ town.frame = .closed ∧
    ({ host 0x07 [] town with frame := .ignored } : State).frame = .ignored ∧
    ({ town with frame := .answering ⟨.ok, []⟩ 0 } : State).frame ≠ .closed := by decide +kernel

/-! ### Witnesses: links -/

/-- A power-on reset in the middle of a frame. -/
theorem witness_PowerOnReset : (after (.commandTaken true [0x13, 1]) town).frame ≠ .closed := by decide +kernel

theorem witness_AddLink : (0x021a7c004e91 : Addr) = (0x02 : Byte) ++ (0x1a : Byte) ++ (0x7c : Byte) ++ (0 : Byte) ++
      (0x4e : Byte) ++ (0x91 : Byte) ∧
    (1 : Byte).toNat = (1 : Radio).val ∧ (7 : Byte).toNat = (7 : Sector).val ∧ (1 : Byte) = SectorMode.follow.code ∧
    (0x02 : Byte).getLsbD 0 = false ∧ (town.port 1).present = true ∧ (town.port 2).present = false ∧
    town.link 0 = none ∧ (∀ j < (0 : LinkId), town.link j ≠ none) := by decide +kernel

theorem witness_AddLink_free : (∀ j l, town.link j = some l → ¬ (l.radio = 1 ∧ l.peer = 0x021a7c004e91)) ∧
    (∃ j l, town.link j = some l ∧ l.radio = 0 ∧ l.peer = 0x020000000002) ∧
    ∀ j, ({ town with links := Vector.replicate 32 (some link2) } : State).link j ≠ none := by
  refine ⟨fun j l h => ?_, ⟨2, link2, town_link2, rfl, rfl⟩, fun j => ?_⟩
  · rcases town_link h with ⟨-, rfl⟩ | ⟨-, rfl⟩ | ⟨-, rfl⟩ <;> decide
  · rw [show ({ town with links := Vector.replicate 32 (some link2) } : State).link j = some link2 from get_replicate _ j]
    simp

/-- The id, the mask's three bits set and clear, the last sector, both modes, a pin above 11 and none. -/
theorem witness_UpdateLink : (host 0x11 [2, 7, 7, 1, 1, 12] town).hand = some ⟨0x11, [2, 7, 7, 1, 1, 12]⟩ ∧
    (2 : Byte).toNat = (2 : LinkId).val ∧ (7 : Byte).getLsbD 0 = true ∧ (7 : Byte).getLsbD 1 = true ∧
    (7 : Byte).getLsbD 2 = true ∧ (8 : Byte).getLsbD 0 = false ∧ (7 : Byte).toNat = (7 : Sector).val ∧
    (1 : Byte).toNat ≤ 1 ∧ (1 : Byte) = SectorMode.follow.code ∧ (11 : Rate).val = min (12 : Byte).toNat 11 ∧
    town.link 2 = some link2 ∧ link2.state ≠ .retiring ∧ (7 : Sector) ≠ link2.sector ∧ town.link 31 = none ∧
    link2.retire.state = .retiring := by decide +kernel

theorem witness_RetireLink : (host 0x12 [2, 0] town).hand = some ⟨0x12, [2, 0]⟩ ∧
    (host 0x12 [2, 1] town).hand = some ⟨0x12, [2, 1]⟩ ∧ (2 : Byte).toNat = (2 : LinkId).val ∧
    town.link 2 = some link2 ∧ link2.state ≠ .retiring ∧ town.link 31 = none ∧ (1 : Byte) ≠ 0 ∧
    link2.state = .up ∧ ({ link2 with refs := 0 } : Link).refs = 0 ∧ town.link 9 = some link9 ∧ link9.refs = 0 ∧
    link9.state = .probation ∧ town.activeOn 2 0 = true ∧ town.activeOn 5 0 = false := by decide +kernel

theorem witness_ReadLink : (host 0x13 [31] town).hand = some ⟨0x13, [31]⟩ ∧ (31 : Byte).toNat = (31 : LinkId).val ∧
    town.link 31 = none ∧ town.link 2 = some link2 := by decide +kernel

theorem witness_ReadDestinationAndCandidate : (host 0x23 [0] town).hand = some ⟨0x23, [0]⟩ ∧
    town.dest 0 = some dest0 ∧ town.dest 127 = none ∧ dest0.chain.length ≤ 4 ∧ (host 0x33 [1] town).hand = some ⟨0x33, [1]⟩ ∧
    town.cand 1 = some cand1 ∧ town.dest cand1.dest = some dest0 ∧ town.cand 255 = none ∧
    dest0.chain = [0] ++ 1 :: [] ∧ (1 : CandId) ∉ [(0 : CandId)] := by decide +kernel

theorem witness_SilenceDeadlineExpiry : (at_ 20500 town).part = .operational ∧ (at_ 20500 town).link 2 = some link2 ∧
    link2.deadline = some (at_ 20500 town).now ∧ (at_ 20500 town).link 9 = some link9 ∧ link9.state = .probation ∧
    (at_ 20500 town).activeOn 9 0 = false ∧
    (at_ 20500 town).activeOn 2 0 = true ∧ link2.state = .up := by decide +kernel

/-- A tick with no link to expire, and one with link 2 alone; an expiry that is not due. -/
theorem witness_ExpiresAtRise : town.power = .running ∧ (∀ i, ¬ town.dueAt (town.now + 1) i) ∧
    (∀ i, ¬ town.expiresAtRise i) ∧ ¬ town.dueAt town.now 2 ∧ (at_ 20499 oneDue).power = .running ∧
    (at_ 20499 oneDue).expiresAtRise 2 ∧ ∀ j, j ≠ 2 → ¬ (at_ 20499 oneDue).expiresAtRise j := by
  have hn (t : Time) (ht : (20500 : Time) ≠ t) (i : LinkId) : ¬ town.dueAt t i := by
    rintro ⟨-, l, h, hd⟩
    rcases town_link h with ⟨-, rfl⟩ | ⟨-, rfl⟩ | ⟨-, rfl⟩ <;> exact ht (Option.some.inj hd)
  refine ⟨rfl, hn _ (by decide +kernel), fun i h => hn _ (by decide +kernel) i h.1, hn _ (by decide +kernel) 2, rfl,
    ⟨⟨rfl, link2, oneDue_link2, by decide +kernel⟩, by decide +kernel⟩, ?_⟩
  rintro j hj ⟨⟨-, l, h, hd⟩, -⟩
  rcases oneDue_link h with ⟨rfl, rfl⟩ | ⟨-, rfl⟩ | ⟨-, rfl⟩
  · exact hj rfl
  · exact absurd hd (by decide +kernel)
  · exact absurd hd (by decide +kernel)

/-! ### Witnesses: destinations and candidates -/

theorem witness_Destinations : (0x0a3c5510027e : Addr) = (0x0a : Byte) ++ (0x3c : Byte) ++ (0x55 : Byte) ++ (0x10 : Byte) ++
      (0x02 : Byte) ++ (0x7e : Byte) ∧
    (0x0a : Byte).getLsbD 0 = false ∧ town.dest 0 = some dest0 ∧ dest0.address = 0x0a3c5510027e ∧
    town.dest 1 = none ∧ (∀ e < (1 : DestId), town.dest e ≠ none) := by decide +kernel

theorem witness_Destinations_unique : (∀ e r, town.dest e = some r → r.address = 0x0a3c5510027e → e = 0) ∧
    (∀ d r, town.dest d = some r → r.address ≠ 0x0a3c55100c31) ∧
    ∀ d, ({ town with dests := Vector.replicate 128 (some dest0) } : State).dest d ≠ none := by
  refine ⟨fun e r h _ => (town_dest h).1, fun d r h => ?_, fun d => ?_⟩
  · rw [(town_dest h).2]; decide
  · rw [show ({ town with dests := Vector.replicate 128 (some dest0) } : State).dest d = some dest0 from get_replicate _ d]
    simp

theorem witness_RemoveDestination : (host 0x22 [0] town).hand = some ⟨0x22, [0]⟩ ∧ (host 0x22 [0] town).dest 0 = some dest0 ∧
    (host 0x22 [0] town).chainSound 0 dest0 ∧ (∃ c ∈ dest0.chain, town.candNames 2 c = true) ∧
    (∀ c ∈ dest0.chain, town.candNames 9 c = false) ∧ town.dest 127 = none ∧
    town.link 2 = some link2 :=
  ⟨rfl, town_dest0, town_chainSound, ⟨0, by decide, by decide +kernel⟩, by decide +kernel, by decide +kernel, town_link2⟩

/-- A candidate on link 9, placed at the head, at the tail, and after candidate 0. -/
theorem witness_AddCandidate : (host 0x30 [0, 9, 0, 50, 2, 0] town).hand = some ⟨0x30, [0, 9, 0, 50, 2, 0]⟩ ∧
    town.link 9 = some link9 ∧ link9.state ≠ .retiring ∧ (∀ m ∈ dest0.chain, ∀ k, town.cand m = some k → k.link ≠ 9) ∧
    dest0.chain.length < 4 ∧ town.cand 2 = none ∧ (∀ e < (2 : CandId), town.cand e ≠ none) ∧
    (0 : CandId).val = (0 : Byte).toNat ∧ (0 : CandId) ∉ ([] : List CandId) ∧ dest0.chain = [] ++ 0 :: [1] ∧
    dest0.active = some 0 ∧ town.candUsable 0 = true ∧ ({ dest0 with active := none } : Dest).active = none ∧
    ((0 : CandId) ≠ 2 ∧ (town.setLink 2 (some link2.expire)).candUsable 0 = false) := by
  refine ⟨rfl, by decide +kernel, by decide, fun m _ k h => ?_, by decide, by decide +kernel, by decide +kernel, rfl,
    by decide, rfl, rfl, by decide +kernel, rfl, by decide +kernel⟩
  rcases town_cand h with ⟨-, rfl⟩ | ⟨-, rfl⟩ <;> decide

/-- One state for each refusal of R61: link 2 is already named; candidate 2 is not of the chain; a full chain; a full pool. -/
theorem witness_AddCandidateRefusals : (∃ m ∈ dest0.chain, ∃ k, town.cand m = some k ∧ k.link = 2) ∧
    (∀ a ∈ dest0.chain, a.val ≠ (2 : Byte).toNat) ∧ (∃ a ∈ dest0.chain, a.val = (1 : Byte).toNat) ∧
    4 ≤ ({ dest0 with chain := [0, 1, 2, 3] } : Dest).chain.length ∧
    (∀ c, ({ town with cands := Vector.replicate 256 (some cand0) } : State).cand c ≠ none) ∧
    town.dest 127 = none ∧ town.link 31 = none ∧ link2.retire.state = .retiring := by
  refine ⟨⟨0, by decide +kernel, cand0, town_cand0, rfl⟩, by decide +kernel, by decide +kernel, by decide, fun c => ?_,
    by decide +kernel, by decide +kernel, rfl⟩
  rw [show ({ town with cands := Vector.replicate 256 (some cand0) } : State).cand c = some cand0 from get_replicate _ c]
  simp

/-- Candidate 1 moved to the head, to the tail and after candidate 0; repriced; neither. -/
theorem witness_UpdateCandidate : (host 0x31 [1, 3, 0, 9, 2, 0] town).hand = some ⟨0x31, [1, 3, 0, 9, 2, 0]⟩ ∧
    (1 : Byte).toNat = (1 : CandId).val ∧ town.cand 1 = some cand1 ∧ town.dest cand1.dest = some dest0 ∧
    (3 : Byte).getLsbD 0 = true ∧ (3 : Byte).getLsbD 1 = true ∧ (4 : Byte).getLsbD 0 = false ∧
    (4 : Byte).getLsbD 1 = false ∧ (2 : Byte).toNat ≤ 2 ∧ 2 < (3 : Byte).toNat ∧ (1 : CandId) ∈ dest0.chain ∧
    (0 : CandId) ≠ 1 ∧ dest0.chain.erase 1 = [] ++ 0 :: [] ∧ (∀ a ∈ dest0.chain, a.val ≠ (2 : Byte).toNat) ∧
    town.cand 255 = none ∧ dest0.active = some 0 ∧ town.candUsable 0 = true ∧
    town.cand 0 = some cand0 ∧ (town.setCand 0 (some { cand0 with remainder := 65535 })).candUsable 0 = false ∧
    (town.setCand 1 (some { cand1 with remainder := 9 })).candUsable 0 = true ∧
    (town.setCand 0 (some { cand0 with remainder := 9 })).candUsable 0 = true := by
  decide +kernel

theorem witness_RemoveCandidate : (host 0x32 [1] town).hand = some ⟨0x32, [1]⟩ ∧ town.cand 1 = some cand1 ∧
    town.dest cand1.dest = some dest0 ∧ town.link cand1.link = some link5 ∧ town.cand 255 = none ∧
    (0 : CandId) ∈ dest0.chain.erase 1 ∧ dest0.active = some 0 ∧ town.candUsable 0 = true ∧
    ({ dest0 with chain := [1] } : Dest).chain.erase 1 = [] ∧ dest0.chain.erase 0 ≠ [] ∧
    (0 : CandId) ∉ dest0.chain.erase 0 ∧ ({ dest0 with active := none } : Dest).active = none ∧
    (town.setCand 1 none).candUsable 0 = true := by decide +kernel

/-- Each table's last index and the first beyond it; a record at the cursor, records above it, and none. -/
theorem witness_Cursor : (host 0x40 [0, 31, 1] town).hand = some ⟨0x40, [0, 31, 1]⟩ ∧ (2 : Byte) = CursorTable.candidates.code ∧
    (255 : Byte).toNat < 256 ∧ 31 < (32 : Byte).toNat ∧ 127 < (128 : Byte).toNat ∧ (1 : Byte).toNat ≤ 1 ∧
    town.inUse .links 5 = true ∧ (∀ j, 3 ≤ j → j < 5 → town.inUse .links j = false) ∧
    ({ town with cursor := ⟨.links, 31, false⟩ } : State).cursor.index < CursorTable.links.size ∧
    ((host 0x13 [31] town).hand = some ⟨0x13, [31]⟩ ∧ (31 : Byte).toNat < 32) ∧
    ((host 0x23 [127] town).hand = some ⟨0x23, [127]⟩ ∧ (127 : Byte).toNat < 128) ∧
    (host 0x33 [255] town).hand = some ⟨0x33, [255]⟩ := by
  refine ⟨rfl, rfl, by decide, by decide, by decide, by decide, by decide +kernel, fun j h h' => ?_, by decide,
    ⟨rfl, by decide⟩, ⟨rfl, by decide⟩, rfl⟩
  have : j = 3 ∨ j = 4 := by omega
  rcases this with rfl | rfl <;> decide +kernel

theorem witness_Cursor_end : ∀ k, 128 ≤ k → town.inUse .destinations k = false := fun k h => dif_neg (by omega)

/-! ### Witnesses: notices and jobs -/

theorem witness_Summary : (([1, 2] : List Byte) = [1, BitVec.ofNat 8 (2 : LinkId).val] ∧ noticed.hasEnabledEvent 2 = true ∧
      ∀ j < (2 : LinkId), noticed.hasEnabledEvent j = false) ∧ (∀ i, town.hasEnabledEvent i = false) ∧
    (host 0x50 [] noticed).hand = some ⟨0x50, []⟩ ∧ (host 0x51 [] noticed).hand = some ⟨0x51, []⟩ ∧
    noticed.power = .running ∧ ({ town with params := put town.params 21 1 } : State).param 21 ≠ 0 := by decide +kernel

theorem witness_ReadLinkEvents : (host 0x52 [2] noticed).hand = some ⟨0x52, [2]⟩ ∧ (noticed.link 2).isSome = true ∧
    noticed.link 31 = none ∧ (31 : Byte).toNat = (31 : LinkId).val := by decide +kernel

theorem witness_TakeChanges : (host 0x53 [] noticed).hand = some ⟨0x53, []⟩ := rfl

theorem witness_PortStatusAndFlush : (host 0x54 [2] town).hand = some ⟨0x54, [2]⟩ ∧
    (host 0x55 [2] town).hand = some ⟨0x55, [2]⟩ ∧ (2 : Byte).toNat = (2 : Radio).val ∧ (town.port 2).present = false ∧
    (town.port 1).present = true ∧ (town.port 1).dropped ≤ 65535 := by decide +kernel

/-- Each kind's masks and radio at the ends of their ranges. -/
theorem witness_StartJob : (host 0x60 [0, 3, 15] town).hand = some ⟨0x60, [0, 3, 15]⟩ ∧ startJobLengthOk [0, 3, 15] ∧
    startJobLengthOk [1, 2] ∧ startJobLengthOk [2, 3] ∧ startJobLengthOk [3, 9] ∧ town.part = .operational ∧
    town.job = .idle ∧ (∀ p : Radio, (3 : Byte).getLsbD p.val = true → (town.port p).present = true) ∧
    (∃ p : Radio, (7 : Byte).getLsbD p.val = true ∧ (town.port p).present = false) ∧
    (working (.retuneRadio 0) 2).job = .running ⟨.retuneRadio 0, 2, 1, 0⟩ := by
  unfold startJobLengthOk; decide +kernel

theorem witness_JobStopStateAndNotice : (host 0x61 [] (working (.retuneRadio 0) 2)).hand = some ⟨0x61, []⟩ ∧
    (host 0x62 [] (working (.retuneRadio 0) 2)).job = .running ⟨.retuneRadio 0, 2, 1, 0⟩ ∧
    (host 0x56 [] { town with job := .noticePending ⟨.retuneRadio, .done, 32, 4⟩ }).hand = some ⟨0x56, []⟩ ∧
    town.job = .idle := by decide +kernel

/-- A matching record at the walk's next index, a record that does not match, and the last index. -/
theorem witness_RetireLinksVisit : (working (.retireLinks 1 2) 2).job = .running ⟨.retireLinks 1 2, 2, 1, 0⟩ ∧
    town.link 2 = some link2 ∧ (1 : BitVec 3).getLsbD link2.radio.val = true ∧ link2.state = .up ∧
    (2 : BitVec 4).getLsbD 1 = true ∧ town.link 31 = none ∧ (1 : BitVec 4).getLsbD 1 = false ∧
    (∃ c, town.candNames 2 c = true) := by
  refine ⟨rfl, town_link2, by decide, rfl, by decide, by decide +kernel, by decide, 0, by decide +kernel⟩

theorem witness_RetuneRadioVisit : (working (.retuneRadio 0) 2).job = .running ⟨.retuneRadio 0, 2, 1, 0⟩ ∧
    town.link 2 = some link2 ∧ link2.radio = 0 ∧ link2.state ≠ .retiring ∧ town.activeOn 9 0 = false ∧
    town.link 31 = none ∧ link2.radio ≠ 1 ∧ link2.state = .up ∧ link9.state = .probation := by decide +kernel

theorem witness_PruneDestinationsVisit : let s := working (.pruneDestinations 2) 0
    s.job = .running ⟨.pruneDestinations 2, 0, 1, 0⟩ ∧ s.dest 0 = some dest0 ∧ s.chainSound 0 dest0 ∧
    dest0.state = .resolved ∧ ({ dest0 with active := none } : Dest).state = .unreachable ∧
    (2 : BitVec 2).getLsbD 1 = true ∧ (2 : BitVec 2).getLsbD 0 = false :=
  ⟨rfl, town_dest0, town_chainSound, by decide, by decide, by decide, by decide⟩

/-- A destination that a PRUNE DESTINATIONS job matches, with a chain whose link is Down. -/
theorem witness_PruneDestinationsVisit_match : ∃ (s : State) (r : Dest), s.dest 0 = some r ∧ s.chainSound 0 r ∧
    r.state = .unreachable := by
  refine ⟨town.setDest 0 (some { dest0 with active := none }), { dest0 with active := none }, ?_, ?_, by decide⟩
  · rw [dest_setDest]; simp
  · obtain ⟨h1, h2, h3, h4, -⟩ := town_chainSound
    exact ⟨h1, h2, h3, h4, fun a h => by cases h⟩

/-! ### Witnesses: resolution and the ports -/

theorem witness_Usability : town.cand 0 = some cand0 ∧ town.link cand0.link = some link2 ∧ town.candCost 0 = 605 ∧
    town.candUsable 0 = true := by decide +kernel

/-- At 22,010 the margin of candidate 1 at cost 498 passes and the hold-down has elapsed (section 4.9). -/
theorem witness_SwitchTest : let s := at_ 22010 (town.setLink 5
      (some { link5 with est := { link5.est with delivery := put link5.est.delivery 9 700 } }))
    s.dest 0 = some dest0 ∧ dest0.active = some 0 ∧ (0 : CandId) ∈ dest0.chain ∧ s.candUsable 0 = true ∧
    dest0.lastSwitch = some 20010 ∧ (1 : CandId) ∈ dest0.chain ∧ s.candUsable 1 = true ∧
    s.candCost 1 * 16 < s.candCost 0 * (16 - s.param 3) ∧ s.param 4 ≤ (s.now - 20010).toNat := by decide +kernel

theorem witness_PathQueryIntake : town.queryReady = true ∧ town.queries = [] ∧ State.reset.queryReady = false ∧
    ({ town with part := .configuring } : State).part = .configuring ∧
    (0x0a3c5510027e : Addr).getLsbD 40 = false ∧ (0x01005e0000fb : Addr).getLsbD 40 = true ∧
    town.dest 0 = some dest0 ∧ (List.replicate 7 (⟨1, 2, none⟩ : Query)).length < 8 ∧
    ({ town with queries := List.replicate 7 ⟨1, 2, none⟩ } : State).queryReady = true := by decide +kernel

theorem witness_PathAnswer : let s : State := { town with queries := [⟨10, 1, some ⟨10, .unknown⟩⟩, ⟨11, 2, none⟩] }
    s.queries = ⟨10, 1, some ⟨10, .unknown⟩⟩ :: [⟨11, 2, none⟩] ∧ s.part = .operational ∧ town.dest 0 = some dest0 ∧
    dest0.address ≠ 2 ∧ (0x01005e0000fb : Addr).getLsbD 40 = true ∧ dest0.address.getLsbD 40 = false ∧
    (∀ e r, town.dest e = some r → r.address = dest0.address → e = 0) ∧ ({ s with part := .configuring } : State).part =
      .configuring := by
  refine ⟨rfl, rfl, town_dest0, by decide, by decide, by decide, fun e r h _ => (town_dest h).1, rfl⟩

theorem witness_OkAnswers : town.dest 0 = some dest0 ∧ town.chainSound 0 dest0 ∧
    (town.evaluateDest 0).pathResult 0 = .ok 2 0 0x020000000002 605 := ⟨town_dest0, town_chainSound, by decide +kernel⟩

theorem witness_ParamExchange : town.requestReady 0 = true ∧ town.requestReady 2 = false ∧ town.part = .operational ∧
    31 < (32 : Byte).toNat ∧ town.link 31 = none ∧ town.link 9 = some link9 ∧ link9.state = .probation ∧
    town.link 2 = some link2 ∧ link2.state = .up ∧ link2.radio = 0 := by decide +kernel

theorem witness_Reports : (Instr.unrecognisedReport 0 [9]).wellFormed = true ∧ town.power = .running ∧
    (town.port 0).present = true ∧ (town.port 0).reports.length < 16 ∧
    16 ≤ (List.replicate 16 (Report.unrecognised [])).length ∧ (town.port 2).present = false ∧
    State.reset.power ≠ .running := by decide +kernel

/-- A report for each reason to discard one: unrecognised, rate 12, link 32, sector 8, another peer. -/
theorem witness_DiscardedReports : (town.setPort 0 { town.port 0 with reports := [.unrecognised [9]] }).port 0 =
      { town.port 0 with reports := [.unrecognised [9]] } ∧ 11 < (12 : Byte).toNat ∧ 31 < (32 : Byte).toNat ∧
    7 < (8 : Byte).toNat ∧ ∀ i l, town.link i = some l → l.radio = 0 → l.peer = 3 → l.state = .retiring := by
  refine ⟨by decide +kernel, by decide, by decide, by decide, fun i l h _ hp => ?_⟩
  rcases town_link h with ⟨-, rfl⟩ | ⟨-, rfl⟩ | ⟨-, rfl⟩ <;> exact absurd hp (by decide)

theorem witness_OutcomeReport : town.part = .operational ∧ (town.setPort 0 { town.port 0 with
      reports := [.outcome 2 0x020000000002 11 1 1] }).port 0 = { town.port 0 with
      reports := .outcome 2 0x020000000002 11 1 1 :: [] } ∧ (2 : Byte).toNat = (2 : LinkId).val ∧
    town.link 2 = some link2 ∧ link2.radio = 0 ∧ link2.peer = 0x020000000002 ∧ link2.state = .up ∧
    (11 : Byte).toNat = (11 : Rate).val := by decide +kernel

/-- A third hearing in Probation, a hearing that is not yet enough, and a first one from Down. -/
theorem witness_HeardReport : town.part = .operational ∧ (7 : Byte).toNat ≤ 7 ∧ town.link 9 = some link9 ∧
    link9.state = .probation ∧ link9.radio = 0 ∧ link9.peer = 0x020000000009 ∧ 3 = min (link9.heard + 1) 8 ∧
    town.param 7 ≤ 3 ∧ 1 < town.param 7 ∧ link9.expire.state = .down ∧ town.waitsOn 9 0 = false ∧
    ((town.setDest 0 (some { dest0 with active := none })).setCand 1 (some { cand1 with link := 9 })).waitsOn 9 0 = true ∧
    ((1 : Byte) != 0) = true ∧ ((0 : Byte) != 0) = false := by decide +kernel

theorem witness_HeardReport_unique : (∀ j l, town.link j = some l → l.radio = 0 → l.peer = 0x020000000009 → j = 9) ∧
    (∀ j l, town.link j = some l → l.radio = 0 → l.peer = 0x020000000002 → j = 2) := by
  refine ⟨fun j l h _ hp => ?_, fun j l h _ hp => ?_⟩ <;>
    rcases town_link h with ⟨rfl, rfl⟩ | ⟨rfl, rfl⟩ | ⟨rfl, rfl⟩ <;> first | rfl | exact absurd hp (by decide)

/-- Gaps of 9, 10, 2,000 and 2,001 ms; a first and a third agreeing beacon; the sector's own beacon. -/
theorem witness_HeardBeacon : town.part = .operational ∧ (7 : Byte).toNat = (7 : Sector).val ∧ town.link 2 = some link2 ∧
    link2.state = .up ∧ link2.mode = .follow ∧ (7 : Sector) ≠ link2.sector ∧ link2.followSector ≠ some 7 ∧
    ((20000 - 19991 : Time).toNat < 10 ∧ 10 ≤ (20000 - 19990 : Time).toNat ∧ (20000 - 18000 : Time).toNat ≤ 2000 ∧
      2000 < (20000 - 17999 : Time).toNat) ∧
    3 ≤ ({ link2 with gapCount := 3 } : Link).gapCount ∧ 2 ≤ ({ link2 with agree := 2 } : Link).agree := by decide +kernel

/-! ### Witnesses: the Link Estimator -/

theorem witness_DeliverySample : 1 ≤ 1 ∧ 8 ≤ 8 ∧ deliverySample (clampAttempts 8) true = 128 := by decide

theorem witness_Filter : moveToward 600 1024 4 = 706 ∧ moveToward 900 0 4 = 675 ∧ moveToward 3 0 4 = 3 := by decide

/-- Section 2.5's examples: averages of 106 and 0 with the reset profile, and no average. -/
theorem witness_Ceiling : link2.est.snr = some 106 ∧ link2.ceiling blank.tuning = 7 ∧ blank.tuning.get 11 ≤ 11 ∧
    rateCeiling blank.tuning (some 144) = 10 ∧ rateCeiling blank.tuning (some 0) = 0 ∧
    rateCeiling blank.tuning none = 3 := by decide +kernel

theorem witness_RateCost : rateCost 180 600 = 308 ∧ rateCost 230 1000 = 236 ∧ rateCost 2000 31 = 65535 := by decide

theorem witness_ChosenRate : link211.pinned = none ∧ link211.chosenRate blank.tuning = 6 ∧
    ({ link211 with pinned := some 4 } : Link).chosenRate blank.tuning = 4 := by decide +kernel

theorem witness_Evaluation : link2.state ≠ .retiring ∧ link2.cost blank.tuning ≤ blank.tuning.get 8 ∧
    ({ link2 with pinned := some 6 } : Link).cost blank.tuning > blank.tuning.get 8 := by decide +kernel

theorem witness_ImmediateSelection : town.dest 0 = some dest0 ∧ ({ dest0 with chain := [] } : Dest).chain = [] :=
  ⟨town_dest0, rfl⟩

end Sys2Proof.Tests
end

section
/-! The Link Estimator's figures (chapter 2): the delivery sample (R32), the rate ceiling (R36), the rate cost (R37) and
the chosen rate (R38), each function's behaviour said once, and the obligations about them. -/

namespace Sys2Proof.Machine

/-! ### The delivery sample (R32) -/

@[simp] theorem deliverySample_acked (a : Nat) : deliverySample a true = 1024 / a := rfl

@[simp] theorem deliverySample_unacked (a : Nat) : deliverySample a false = 0 := rfl

theorem clampAttempts_of_inRange {a : Nat} (hlow : 1 ≤ a) (hhigh : a ≤ 8) : clampAttempts a = a := by
  rw [clampAttempts, min_eq_left hhigh, max_eq_right hlow]

/-- Settles O47: within 1 to 8 the clamp leaves the attempts alone; the table of R32 and the clamped ends are closed
facts. -/
theorem deliverySampleFromAttempts : Obligations.DeliverySampleFromAttempts := by
  refine ⟨fun a hlow hhigh => ?_, fun a => deliverySample_unacked _, by decide, by decide, by decide⟩
  rw [clampAttempts_of_inRange hlow hhigh, deliverySample_acked]

/-! ### The rate ceiling (R36) -/

/-- The last index that passes a test is the greatest one. -/
theorem isGreatest_of_getLast?_filter_finRange {n : Nat} {p : Fin n → Bool} {i : Fin n}
    (h : ((List.finRange n).filter p).getLast? = some i) : IsGreatest {j | p j = true} i := by
  refine ⟨(List.mem_filter.1 (List.mem_of_getLast? h)).2, fun j hj => ?_⟩
  have hsorted : ((List.finRange n).filter p).Pairwise (· ≤ ·) :=
    (List.sortedLT_finRange n).pairwise.imp le_of_lt |>.filter p
  have hmem : j ∈ (List.finRange n).filter p := List.mem_filter.2 ⟨List.mem_finRange j, hj⟩
  rw [List.getLast?_eq_getLast_of_ne_nil (List.ne_nil_of_mem hmem), Option.some.injEq] at h
  exact h ▸ hsorted.rel_getLast hmem

/-- The rates whose minimum SNR is at most floor(average / 4) less the margin, the difference taken in the integers. -/
def Tuning.cleared (t : Tuning) (avg : Nat) : Set Rate :=
  {r | ((t.profile.get r).minSnr : Int) ≤ (avg / 4 : Nat) - (t.get Param.snrMargin : Int)}

/-- The ceiling's own test adds the margin on the other side, and so needs no negative number. -/
theorem mem_cleared {t : Tuning} {avg : Nat} {r : Rate} :
    r ∈ t.cleared avg ↔ (t.profile.get r).minSnr + t.get Param.snrMargin ≤ avg / 4 := by
  simp only [Tuning.cleared, Set.mem_ofPred_eq]
  omega

theorem rateCeiling_none {t : Tuning} (h : t.get Param.defaultCeiling ≤ 11) :
    (rateCeiling t none).val = t.get Param.defaultCeiling :=
  min_eq_left h

/-- With an SNR average, either no rate qualifies and the ceiling is 0, or it is the greatest of those that do. -/
theorem rateCeiling_some_cases (t : Tuning) (avg : Nat) :
    (t.cleared avg = ∅ ∧ rateCeiling t (some avg) = 0) ∨
      IsGreatest (t.cleared avg) (rateCeiling t (some avg)) := by
  have hset : t.cleared avg =
      {r | decide ((t.profile.get r).minSnr + t.get Param.snrMargin ≤ avg / 4) = true} := by
    ext r
    rw [mem_cleared, Set.mem_ofPred_eq, decide_eq_true_eq]
  rw [hset]
  unfold rateCeiling
  dsimp only
  cases hlast : ((List.finRange 12).filter
      (fun r => (t.profile.get r).minSnr + t.get Param.snrMargin ≤ avg / 4)).getLast? with
  | some r => exact .inr (isGreatest_of_getLast?_filter_finRange hlast)
  | none =>
    rw [List.getLast?_eq_none_iff, List.filter_eq_nil_iff] at hlast
    exact .inl ⟨Set.eq_empty_of_forall_notMem fun r => hlast r (List.mem_finRange r), rfl⟩

/-- Settles O49: the default ceiling by its range, and with an average the two cases of `rateCeiling_some_cases`. -/
theorem ceilingIsTheHighestRateCleared : Obligations.CeilingIsTheHighestRateCleared := by
  intro t l
  refine ⟨fun hsnr hrange => ?_, fun avg hsnr => ?_⟩
  · rw [Link.ceiling, hsnr]
    exact rateCeiling_none hrange
  · rw [Link.ceiling, hsnr]
    rcases rateCeiling_some_cases t avg with ⟨hnone, hzero⟩ | ⟨hclears, hupper⟩
    · have hnot (r : Rate) : r ∉ t.cleared avg := hnone ▸ Set.notMem_empty r
      exact ⟨fun r hr => absurd hr (hnot r), fun ⟨r, hr⟩ => absurd hr (hnot r), fun _ => hzero⟩
    · exact ⟨fun r hr => hupper hr, fun _ => hclears, fun hnot => absurd hclears (hnot _)⟩

/-! ### The rate cost (R37) -/

theorem rateCost_of_unusable (airtime : Nat) {estimate : Nat} (h : estimate < 32) :
    rateCost airtime estimate = 65535 :=
  if_pos h

theorem rateCost_of_usable (airtime : Nat) {estimate : Nat} (h : 32 ≤ estimate) :
    rateCost airtime estimate = airtime * 1024 ⌈/⌉ estimate := by
  rw [Nat.ceilDiv_eq_add_pred_div]
  exact if_neg (not_lt.2 h)

/-- An unsaturated rate cost is the least integer not below `airtime × 1024 / estimate`. -/
theorem rateCost_le_iff (airtime : Nat) {estimate : Nat} (h : 32 ≤ estimate) (n : Nat) :
    rateCost airtime estimate ≤ n ↔ airtime * 1024 ≤ n * estimate := by
  rw [rateCost_of_usable airtime h, ceilDiv_le_iff_le_mul (by omega), mul_comm n]

theorem rateCost_pos {airtime estimate : Nat} (hT : 1 ≤ airtime) (hS : 32 ≤ estimate) :
    1 ≤ rateCost airtime estimate := by
  rw [Nat.one_le_iff_ne_zero, Ne, ← Nat.le_zero, rateCost_le_iff airtime hS]
  omega

theorem rateCost_le_64000 {airtime estimate : Nat} (hT : airtime ≤ 2000) (hS : 32 ≤ estimate) :
    rateCost airtime estimate ≤ 64000 := by
  rw [rateCost_le_iff airtime hS]
  omega

/-- At the initial estimate a rate costs twice its airtime. -/
theorem rateCost_initialEstimate (airtime : Nat) : rateCost airtime 512 = 2 * airtime :=
  eq_of_forall_ge_iff fun n => by
    rw [rateCost_le_iff airtime (by decide)]
    omega

/-- Settles O50: every clause but saturation follows from `rateCost_le_iff`. -/
theorem rateCostRoundsUpAndSaturates : Obligations.RateCostRoundsUpAndSaturates := by
  intro T S hT1 hT2000 _
  exact ⟨rateCost_of_unusable T, fun hS => ⟨rateCost_le_iff T hS, rateCost_pos hT1 hS, rateCost_le_64000 hT2000 hS⟩,
    by omega, by decide, by decide, rateCost_initialEstimate T⟩

/-! ### The chosen rate (R38) -/

theorem mem_ratesUpTo {c r : Rate} : r ∈ ratesUpTo c ↔ r ≤ c := by
  simp [ratesUpTo]

theorem ratesUpTo_sorted (c : Rate) : (ratesUpTo c).Pairwise (· < ·) :=
  (List.sortedLT_finRange 12).pairwise.filter _

theorem chosenRate_of_pinned {t : Tuning} {l : Link} {r : Rate} (h : l.pinned = some r) : l.chosenRate t = r := by
  rw [Link.chosenRate, h]

/-- With no pin the chosen rate is a rate up to the ceiling of least cost, and every higher one costs more. -/
theorem chosenRate_spec_of_unpinned (t : Tuning) {l : Link} (h : l.pinned = none) :
    l.chosenRate t ≤ l.ceiling t ∧
    (∀ r : Rate, r ≤ l.ceiling t → l.rateCostAt t (l.chosenRate t) ≤ l.rateCostAt t r) ∧
    (∀ r : Rate, r ≤ l.ceiling t → l.chosenRate t < r → l.rateCostAt t (l.chosenRate t) < l.rateCostAt t r) := by
  obtain ⟨best, hbest, hmem, hleast, hhighest⟩ := leastCostRate_spec (l.rateCostAt t) (ratesUpTo (l.ceiling t))
    (ratesUpTo_sorted _) (List.ne_nil_of_mem (mem_ratesUpTo.2 le_rfl))
  have hchosen : l.chosenRate t = best := by
    rw [Link.chosenRate, h, hbest, Option.getD_some]
  simp only [mem_ratesUpTo] at hmem hleast hhighest
  rw [hchosen]
  exact ⟨hmem, hleast, hhighest⟩

/-- Settles O51: the pin by definition, the rest by `chosenRate_spec_of_unpinned`; were the chosen rate of an all-saturated
link below the ceiling, the ceiling would cost more than 65,535. -/
theorem chosenRateIsTheHighestOfLeastCost : Obligations.ChosenRateIsTheHighestOfLeastCost := by
  intro t l
  refine ⟨rfl, fun _ => chosenRate_of_pinned, fun hunpinned => ?_⟩
  obtain ⟨hle, hleast, hhighest⟩ := chosenRate_spec_of_unpinned t hunpinned
  refine ⟨hle, hleast, hhighest, fun hsaturated => hle.eq_of_not_lt fun hlt => ?_⟩
  have hless := hhighest (l.ceiling t) le_rfl hlt
  rw [hsaturated _ hle, hsaturated _ le_rfl] at hless
  exact lt_irrefl _ hless

end Sys2Proof.Machine
end

section
/-! Path resolution of one destination (chapter 4): path cost and usability (R73, R74), what making a candidate active
leaves (R75, R78), the cheapest usable member (R76) and the switch test (R81 to R85), and the obligations about them. -/

namespace Sys2Proof.Machine

/-! ### Path cost and usability (R73, R74) -/

theorem pathCost_eq_ite (linkCost remainder : Nat) : pathCost linkCost remainder =
    if linkCost + remainder < 65535 then linkCost + remainder else 65535 := by
  simp only [pathCost, Config.saturated]
  split <;> omega

theorem isUsable_iff {state : LinkState} : state.isUsable = true ↔ state = .up ∨ state = .degraded := by
  cases state <;> decide

theorem candCost_eq_pathCost {s : State} {c : CandId} {k : Cand} {l : Link} (hk : s.cand c = some k)
    (hl : s.link k.link = some l) : s.candCost c = pathCost (l.cost s.tuning) k.remainder := by
  simp only [State.candCost, hk, hl]

theorem candUsable_iff {s : State} {c : CandId} {k : Cand} {l : Link} (hk : s.cand c = some k)
    (hl : s.link k.link = some l) : s.candUsable c = true ↔
      (l.state = .up ∨ l.state = .degraded) ∧ l.cost s.tuning < 65535 ∧ s.candCost c < 65535 := by
  rw [candCost_eq_pathCost hk hl, ← isUsable_iff]
  simp only [State.candUsable, hk, hl, Bool.and_eq_true, decide_eq_true_eq, and_assoc]
  rfl

/-- Settles O34: the saturating sum as a case split, and the three conditions of `candUsable_iff`. -/
theorem usabilityByStateAndCosts : Obligations.UsabilityByStateAndCosts := by
  intro s c k l hk hl
  exact ⟨(candCost_eq_pathCost hk hl).trans (pathCost_eq_ite _ _), candUsable_iff hk hl⟩

/-! ### A choice made active, with the chain's path costs written (R75, R78) -/

theorem Dest.withActive_of_ne (r : Dest) (now : Time) {x : Option CandId} (h : x ≠ r.active) :
    r.withActive now x = { r with active := x, lastSwitch := some now, switchCount := min (r.switchCount + 1) 65535 } :=
  if_neg h.symm

/-- What a selection or an evaluation of destination `d` leaves when it makes `x` the active candidate of the record `r`,
which becomes `r'`: the switch is booked exactly when `x` is new, every member's path cost is written, and nothing else
changes. It is `State.reselects` with the choice and the costs written fixed. -/
structure State.makesActive (s t : State) (d : DestId) (r r' : Dest) (x : Option CandId) : Prop where
  dest_self : t.dest d = some r'
  active : r'.active = x
  address : r'.address = r.address
  chain : r'.chain = r.chain
  kept : x = r.active → r' = r ∧ t.changed = s.changed
  booked : x ≠ r.active → r'.lastSwitch = some s.now ∧ r'.switchCount = min (r.switchCount + 1) 65535 ∧
    ∀ e, t.changed.get e = (if e = d then true else s.changed.get e)
  cand_mem : ∀ c ∈ r.chain, ∀ k, s.cand c = some k → t.cand c = some { k with lastCost := s.candCost c }
  cand_notMem : ∀ c, c ∉ r.chain → t.cand c = s.cand c
  dest_ne : ∀ e, e ≠ d → t.dest e = s.dest e
  pathsOnly : s.pathsOnly t

theorem refreshCosts_setActive_makesActive {s : State} {d : DestId} {r : Dest} (hr : s.dest d = some r)
    (x : Option CandId) :
    s.makesActive ((s.refreshCosts r.chain).setActive d x) d r (r.withActive s.now x) x := by
  have hcosts := refreshCosts_pathsOnly s r.chain
  have hr' : (s.refreshCosts r.chain).dest d = some r := by rw [refreshCosts_dest, hr]
  constructor
  case dest_self => rw [setActive_dest, if_pos rfl, hr', State.pathsOnly_now hcosts, Option.map_some]
  case active => exact Dest.withActive_active ..
  case address => exact Dest.withActive_address ..
  case chain => exact Dest.withActive_chain ..
  case kept =>
    rintro rfl
    exact ⟨r.withActive_self s.now, by rw [setActive_self hr', refreshCosts_changed]⟩
  case booked =>
    intro hne
    rw [r.withActive_of_ne s.now hne]
    refine ⟨rfl, rfl, fun e => ?_⟩
    simp [setActive_changed, hr, hne.symm]
  case cand_mem =>
    intro c hc k hk
    rw [setActive_cand, refreshCosts_cand, if_pos hc, hk, Option.map_some]
  case cand_notMem =>
    intro c hc
    rw [setActive_cand, refreshCosts_cand, if_neg hc]
  case dest_ne =>
    intro e he
    rw [setActive_dest, if_neg he, refreshCosts_dest]
  case pathsOnly => exact State.pathsOnly_trans hcosts (setActive_pathsOnly ..)

/-! ### The cheapest of those members that pass a test (R76, R83) -/

theorem cheapest_filter_eq_none {cost : CandId → Nat} {p : CandId → Bool} {cs : List CandId}
    (h : cheapest cost (cs.filter p) = none) : ∀ c ∈ cs, p c = false := by
  simpa [List.filter_eq_nil_iff] using cheapest_eq_none.1 h

/-- The cheapest that passes the test beats each such member nearer the head, and is no dearer than any behind it. -/
theorem cheapest_filter_eq_some {cost : CandId → Nat} {p : CandId → Bool} {cs : List CandId} {a : CandId}
    (h : cheapest cost (cs.filter p) = some a) : p a = true ∧ ∃ xs ys, cs = xs ++ a :: ys ∧
      (∀ c ∈ xs, p c = true → cost a < cost c) ∧ ∀ c ∈ ys, p c = true → cost a ≤ cost c := by
  obtain ⟨us, vs, hsplit, hus, hvs⟩ := cheapest_eq_some h
  obtain ⟨xs, ys, hcs, hxs, hys⟩ := filter_split hsplit
  exact ⟨(List.mem_filter.1 (cheapest_mem h)).2, xs, ys, hcs, fun c hc hp => hus c (hxs c hc hp),
    fun c hc hp => hvs c (hys c hc hp)⟩

/-- Settles O35: immediate selection makes the cheapest usable member active (`selectNow_eq`), which is absent only when
no member is usable. -/
theorem immediateSelectionTakesTheCheapestUsable : Obligations.ImmediateSelectionTakesTheCheapestUsable := by
  intro s d r hr
  generalize hx : cheapest s.candCost (r.chain.filter s.candUsable) = x
  have h := refreshCosts_setActive_makesActive hr x
  have hchosen : (x = none ∧ ∀ c ∈ r.chain, s.candUsable c = false) ∨
      ∃ xs ys a, r.chain = xs ++ a :: ys ∧ x = some a ∧ s.candUsable a = true ∧
        (∀ c ∈ xs, s.candUsable c = true → s.candCost a < s.candCost c) ∧
        (∀ c ∈ ys, s.candUsable c = true → s.candCost a ≤ s.candCost c) := by
    cases x with
    | none => exact .inl ⟨rfl, cheapest_filter_eq_none hx⟩
    | some a =>
      obtain ⟨husable, xs, ys, hsplit, hhead, htail⟩ := cheapest_filter_eq_some hx
      exact .inr ⟨xs, ys, a, hsplit, rfl, husable, hhead, htail⟩
  refine ⟨_, r.withActive s.now x, (selectNow_eq s d r hr).trans (by rw [hx]), h.dest_self, h.address, h.chain, ?_⟩
  rw [h.active]
  exact ⟨hchosen, h.kept, h.booked, h.cand_mem, h.cand_notMem, h.dest_ne, h.pathsOnly⟩

/-! ### The switch test (R81 to R83, R85) -/

/-- Candidate `b` passes both parts of the switch test against the active candidate `a`: the margin (R81), and the
hold-down since the last switch at `t0` (R82). -/
def State.passesSwitchTest (s : State) (t0 : Time) (a b : CandId) : Prop :=
  s.candCost b * 16 < s.candCost a * (16 - s.param 3) ∧ s.param 4 ≤ (s.now - t0).toNat

theorem passesSwitchTest_iff {s : State} {r : Dest} {t0 : Time} (ht : r.lastSwitch = some t0) (a b : CandId) :
    (marginPasses (s.param Param.hysteresis) (s.candCost a) (s.candCost b) && s.holdDownElapsed r) = true ↔
      s.passesSwitchTest t0 a b := by
  simp only [marginPasses, State.holdDownElapsed, ht, Bool.and_eq_true, decide_eq_true_eq]
  rfl

/-- A cheaper candidate passes the switch test wherever a dearer one does. -/
theorem State.passesSwitchTest.of_le {s : State} {t0 : Time} {a b c : CandId} (h : s.passesSwitchTest t0 a c)
    (hle : s.candCost b ≤ s.candCost c) : s.passesSwitchTest t0 a b :=
  ⟨(Nat.mul_le_mul_right 16 hle).trans_lt h.1, h.2⟩

theorem challenger_eq_some {s : State} {r : Dest} {a b : CandId} (h : s.challenger r a = some b) :
    s.candUsable b = true ∧ b ≠ a ∧ ∃ xs ys, r.chain = xs ++ b :: ys ∧
      (∀ c ∈ xs, c ≠ a → s.candUsable c = true → s.candCost b < s.candCost c) ∧
      ∀ c ∈ ys, c ≠ a → s.candUsable c = true → s.candCost b ≤ s.candCost c := by
  obtain ⟨hb, xs, ys, hsplit, hhead, htail⟩ := cheapest_filter_eq_some h
  simp only [Bool.and_eq_true, bne_iff_ne] at hb hhead htail
  exact ⟨hb.1, hb.2, xs, ys, hsplit, fun c hc hne hu => hhead c hc ⟨hu, hne⟩, fun c hc hne hu => htail c hc ⟨hu, hne⟩⟩

/-- Beside another usable member there is a challenger, and it is no dearer than that member. -/
theorem exists_challenger_le {s : State} {r : Dest} {a c : CandId} (hc : c ∈ r.chain) (hne : c ≠ a)
    (hu : s.candUsable c = true) : ∃ b, s.challenger r a = some b ∧ s.candCost b ≤ s.candCost c := by
  have hmem : c ∈ r.chain.filter (fun c => s.candUsable c && c != a) := by simp [hc, hne, hu]
  cases hb : s.challenger r a with
  | none => exact absurd (cheapest_eq_none.1 hb) (List.ne_nil_of_mem hmem)
  | some b => exact ⟨b, rfl, cheapest_le hb c hmem⟩

/-- A full evaluation with a usable active candidate either switches to the challenger, which passes the switch test, or
keeps the active candidate, and then no challenger passes. -/
theorem evaluatedActive_cases {s : State} {r : Dest} {a : CandId} {t0 : Time} (ha : r.active = some a)
    (hmem : a ∈ r.chain) (hu : s.candUsable a = true) (ht : r.lastSwitch = some t0) :
    (∃ b, s.challenger r a = some b ∧ s.passesSwitchTest t0 a b ∧ s.evaluatedActive r = some b) ∨
      ((∀ b, s.challenger r a = some b → ¬ s.passesSwitchTest t0 a b) ∧ s.evaluatedActive r = some a) := by
  have hne : ¬ r.chain.isEmpty = true := fun h => List.ne_nil_of_mem hmem (List.isEmpty_iff.1 h)
  simp only [State.evaluatedActive, if_neg hne, ha, if_pos hu]
  cases hb : s.challenger r a with
  | none => exact .inr ⟨nofun, rfl⟩
  | some b =>
    by_cases hpass : s.passesSwitchTest t0 a b
    · exact .inl ⟨b, rfl, hpass, if_pos ((passesSwitchTest_iff ht a b).2 hpass)⟩
    · exact .inr ⟨by rintro _ ⟨⟩; exact hpass, if_neg fun h => hpass ((passesSwitchTest_iff ht a b).1 h)⟩

/-- Settles O36: a full evaluation makes its choice active (`evaluateDest_eq`), and the choice is one of the two cases of
`evaluatedActive_cases`; when it is the old one, no other usable member passes, for the challenger is no dearer. -/
theorem switchTestNeedsMarginAndHoldDown : Obligations.SwitchTestNeedsMarginAndHoldDown := by
  intro s d r a t0 hr ha hmem hu ht
  have h := refreshCosts_setActive_makesActive hr (s.evaluatedActive r)
  rw [← evaluateDest_eq s d r hr] at h
  rcases evaluatedActive_cases ha hmem hu ht with ⟨b, hb, hpass, hx⟩ | ⟨hfails, hx⟩
  · rw [hx] at h
    obtain ⟨husable, hne, hleast⟩ := challenger_eq_some hb
    have hnew : some b ≠ r.active := by simpa [ha] using hne
    exact ⟨_, _, b, rfl, h.dest_self, h.active, h.address, h.chain, fun heq => absurd heq hne,
      fun _ => ⟨husable, hpass.1, hpass.2, hleast, h.booked hnew⟩, fun _ _ _ _ _ _ => hne,
      h.cand_mem, h.cand_notMem, h.dest_ne, h.pathsOnly⟩
  · rw [hx] at h
    have hnone : ∀ c ∈ r.chain, c ≠ a → s.candUsable c = true → ¬ s.passesSwitchTest t0 a c := by
      intro c hc hne hcu hpass
      obtain ⟨b, hb, hle⟩ := exists_challenger_le hc hne hcu
      exact hfails b hb (hpass.of_le hle)
    exact ⟨_, _, a, rfl, h.dest_self, h.active, h.address, h.chain, fun _ => h.kept ha.symm,
      fun hne => absurd rfl hne, fun c hc hne hcu hmargin hheld => absurd ⟨hmargin, hheld⟩ (hnone c hc hne hcu),
      h.cand_mem, h.cand_notMem, h.dest_ne, h.pathsOnly⟩

end Sys2Proof.Machine
end

section
/-! The Job Engine's host commands (chapter 7): the selector that a START JOB's bytes name (R123, R171), START JOB's
checks in the order of R122, each of the four rules said once by the condition of the engine, and the obligations about
them. -/

namespace Sys2Proof.Machine

/-! ### Replies -/

theorem refuse_finish (s : State) (e : Status) : (s.refuse e).finish = s.giveAnswer ⟨e, []⟩ := rfl

theorem ok_finish (s : State) (results : List Byte) : (s.ok results).finish = s.giveAnswer ⟨.ok, results⟩ := rfl

/-! ### Masks and selectors (R123, R171) -/

theorem maskOf_eq_none {k : Nat} {b : Byte} (h : b = 0 ∨ 2 ^ k ≤ b.toNat) : maskOf k b = none := by
  unfold maskOf
  rcases h with h | h
  · rw [if_pos h]
  · rw [if_neg (Nat.not_lt.2 h), ite_self]

theorem maskOf_eq_some {k : Nat} {b : Byte} (hlow : 1 ≤ b.toNat) (hhigh : b.toNat < 2 ^ k) :
    maskOf k b = some (b.setWidth k) := by
  have hne : b ≠ 0 := by rintro rfl; simp at hlow
  rw [maskOf, if_neg hne, if_pos hhigh, BitVec.ofNat_toNat]

theorem selectorOf_eq_none_of_kind {kind : Byte} (h : 2 < kind.toNat) (rest : List Byte) :
    selectorOf (kind :: rest) = none := by
  have hkind : kind ≠ 0 ∧ kind ≠ 1 ∧ kind ≠ 2 := by
    refine ⟨?_, ?_, ?_⟩ <;> rintro rfl <;> simp at h
  obtain ⟨h0, h1, h2⟩ := hkind
  unfold selectorOf
  split
  next heq => cases heq; rw [if_neg h1, if_neg h2]
  next heq => cases heq; rw [if_neg h0]
  next => rfl

theorem selectorOf_retireLinks_eq_none {a b : Byte} (h : a = 0 ∨ 7 < a.toNat ∨ b = 0 ∨ 15 < b.toNat) :
    selectorOf [0, a, b] = none := by
  have hmask : maskOf 3 a = none ∨ maskOf 4 b = none := by
    rcases h with h | h | h | h
    · exact .inl (maskOf_eq_none (.inl h))
    · exact .inl (maskOf_eq_none (.inr h))
    · exact .inr (maskOf_eq_none (.inl h))
    · exact .inr (maskOf_eq_none (.inr h))
  rcases hmask with h | h <;> simp [selectorOf, h]

theorem selectorOf_retireLinks {a b : Byte} (ha : 1 ≤ a.toNat) (ha' : a.toNat ≤ 7) (hb : 1 ≤ b.toNat)
    (hb' : b.toNat ≤ 15) : selectorOf [0, a, b] = some (.retireLinks (a.setWidth 3) (b.setWidth 4)) := by
  have hradios : maskOf 3 a = some (a.setWidth 3) := maskOf_eq_some ha (Nat.lt_succ_of_le ha')
  have hstates : maskOf 4 b = some (b.setWidth 4) := maskOf_eq_some hb (Nat.lt_succ_of_le hb')
  simp [selectorOf, hradios, hstates]

theorem selectorOf_retuneRadio_eq_none {a : Byte} (h : 2 < a.toNat) : selectorOf [1, a] = none :=
  congrArg (Option.map JobSelector.retuneRadio) (idOf_eq_none h)

theorem selectorOf_retuneRadio {a : Byte} {p : Radio} (h : a.toNat = p.val) :
    selectorOf [1, a] = some (.retuneRadio p) :=
  congrArg (Option.map JobSelector.retuneRadio) (idOf_eq_some h)

theorem selectorOf_pruneDestinations_eq_none {a : Byte} (h : a = 0 ∨ 3 < a.toNat) : selectorOf [2, a] = none :=
  congrArg (Option.map JobSelector.pruneDestinations) (maskOf_eq_none h)

theorem selectorOf_pruneDestinations {a : Byte} (ha : 1 ≤ a.toNat) (ha' : a.toNat ≤ 3) :
    selectorOf [2, a] = some (.pruneDestinations (a.setWidth 2)) :=
  congrArg (Option.map JobSelector.pruneDestinations) (maskOf_eq_some ha (Nat.lt_succ_of_le ha'))

/-- The radios of a RETIRE LINKS mask byte are all present exactly when no bit of the byte names an absent port (R123). -/
theorem radiosPresent_retireLinks (s : State) (a : Byte) (states : BitVec 4) :
    s.radiosPresent (.retireLinks (a.setWidth 3) states) = true ↔
      ∀ p : Radio, a.getLsbD p.val = true → (s.port p).present = true := by
  simp [State.radiosPresent, ← Bool.not_eq_true, imp_iff_not_or]

/-! ### START JOB (R122 to R124) -/

theorem startJobLengthFits_of_ok {args : List Byte} (h : startJobLengthOk args) : startJobLengthFits args = true := by
  unfold startJobLengthFits
  split
  next => exact h.elim
  next kind rest =>
    obtain ⟨hthree, htwo⟩ := h
    split_ifs with hzero hkind
    · exact beq_iff_eq.2 (hthree hzero)
    · exact beq_iff_eq.2 (htwo (by simpa using hkind))
    · rfl

theorem exec_startJob {s : State} {args : List Byte} (hhand : s.hand = some ⟨0x60, args⟩)
    (hlen : startJobLengthOk args) : exec .startJob s = .next (startJob args s).finish :=
  carryOut_eq (code := Code.startJob) (rule := startJob) hhand (startJobLengthFits_of_ok hlen)

theorem startJob_configuring {s : State} (h : s.part = .configuring) (args : List Byte) :
    startJob args s = s.refuse .wrongState := by
  simp only [startJob, h]

theorem startJob_running {s : State} {ctx : JobContext} (hpart : s.part = .operational) (hjob : s.job = .running ctx)
    (args : List Byte) : startJob args s = s.refuse .busy := by
  simp only [startJob, hpart, hjob]

theorem startJob_noticePending {s : State} {n : JobNotice} (hpart : s.part = .operational)
    (hjob : s.job = .noticePending n) (args : List Byte) : startJob args s = s.refuse .noticeUnread := by
  simp only [startJob, hpart, hjob]

section Idle

variable {s : State} {args : List Byte} {j : JobSelector} (hpart : s.part = .operational) (hjob : s.job = .idle)
include hpart hjob

theorem startJob_badValue (hsel : selectorOf args = none) : startJob args s = s.refuse .badValue := by
  simp only [startJob, hpart, hjob, hsel]

theorem startJob_noRadio (hsel : selectorOf args = some j) (hradio : s.radiosPresent j ≠ true) :
    startJob args s = s.refuse .noRadio := by
  simp only [startJob, hpart, hjob, hsel, if_neg hradio]

theorem startJob_accepted (hsel : selectorOf args = some j) (hradio : s.radiosPresent j = true) :
    startJob args s = ({ s with job := .running (JobContext.start j) }.flushForJob j).ok [] := by
  simp only [startJob, hpart, hjob, hsel, if_pos hradio]

end Idle

/-- Settles O29: the checks of R122 are the cases of `startJob`; for an idle engine the outcome turns on the selector the
bytes name and on the presence of its radios. -/
theorem startJobFormsAContext : Obligations.StartJobFormsAContext := by
  intro s args hhand hlen
  rw [exec_startJob hhand hlen]
  refine ⟨fun hpart => ?wrongState, fun hpart => ⟨fun ctx hjob => ?busy, fun n hjob => ?noticeUnread, fun hjob =>
    ⟨?noKind, ?retireLinks, ?retuneRadio, ?pruneDestinations⟩⟩⟩
  case wrongState => rw [startJob_configuring hpart, refuse_finish]
  case busy => rw [startJob_running hpart hjob, refuse_finish]
  case noticeUnread => rw [startJob_noticePending hpart hjob, refuse_finish]
  case noKind =>
    rintro kind rest rfl hkind
    rw [startJob_badValue hpart hjob (selectorOf_eq_none_of_kind hkind rest), refuse_finish]
  case retireLinks =>
    rintro a b rfl
    refine ⟨fun hbad => ?_, fun ha ha' hb hb' => ⟨fun ⟨p, hp, habsent⟩ => ?_, fun hpresent => ?_⟩⟩
    · rw [startJob_badValue hpart hjob (selectorOf_retireLinks_eq_none hbad), refuse_finish]
    · have hradio : s.radiosPresent (.retireLinks (a.setWidth 3) (b.setWidth 4)) ≠ true := fun h =>
        ne_true_of_eq_false habsent ((radiosPresent_retireLinks s a _).1 h p hp)
      rw [startJob_noRadio hpart hjob (selectorOf_retireLinks ha ha' hb hb') hradio, refuse_finish]
    · have hradio := (radiosPresent_retireLinks s a (b.setWidth 4)).2 hpresent
      rw [startJob_accepted hpart hjob (selectorOf_retireLinks ha ha' hb hb') hradio, ok_finish]
      rfl
  case retuneRadio =>
    rintro a rfl
    refine ⟨fun hbad => ?_, fun p hp => ⟨fun habsent => ?_, fun hpresent => ?_⟩⟩
    · rw [startJob_badValue hpart hjob (selectorOf_retuneRadio_eq_none hbad), refuse_finish]
    · rw [startJob_noRadio hpart hjob (selectorOf_retuneRadio hp) (ne_true_of_eq_false habsent), refuse_finish]
    · rw [startJob_accepted hpart hjob (selectorOf_retuneRadio hp) hpresent, ok_finish]
      rfl
  case pruneDestinations =>
    rintro a rfl
    refine ⟨fun hbad => ?_, fun ha ha' => ?_⟩
    · rw [startJob_badValue hpart hjob (selectorOf_pruneDestinations_eq_none hbad), refuse_finish]
    · rw [startJob_accepted hpart hjob (selectorOf_pruneDestinations ha ha') rfl, ok_finish]
      rfl

/-! ### STOP JOB, READ JOB STATE and READ JOB NOTICE (R132 to R134) -/

theorem exec_stopJob {s : State} (hhand : s.hand = some ⟨0x61, []⟩) :
    exec .stopJob s = .next (stopJob [] s).finish :=
  carryOut_eq (code := Code.stopJob) (rule := stopJob) hhand rfl

theorem exec_readJobState {s : State} (hhand : s.hand = some ⟨0x62, []⟩) :
    exec .readJobState s = .next (readJobState [] s).finish :=
  carryOut_eq (code := Code.readJobState) (rule := readJobState) hhand rfl

theorem exec_readJobNotice {s : State} (hhand : s.hand = some ⟨0x56, []⟩) :
    exec .readJobNotice s = .next (readJobNotice [] s).finish :=
  carryOut_eq (code := Code.readJobNotice) (rule := readJobNotice) hhand rfl

theorem stopJob_running {s : State} {ctx : JobContext} (h : s.job = .running ctx) (args : List Byte) :
    stopJob args s = { s with job := .noticePending (ctx.notice .stopped) }.ok [] := by
  simp only [stopJob, h]

theorem stopJob_notRunning {s : State} (h : ∀ ctx, s.job ≠ .running ctx) (args : List Byte) :
    stopJob args s = s.refuse .notRunning := by
  unfold stopJob
  split
  next ctx hjob => exact absurd hjob (h ctx)
  next => rfl
  next => rfl

theorem readJobState_running {s : State} {ctx : JobContext} (h : s.job = .running ctx) (args : List Byte) :
    readJobState args s = s.ok [1, ctx.selector.kind.code, byteOf ctx.next] := by
  simp only [readJobState, h]

theorem readJobState_notRunning {s : State} (h : ∀ ctx, s.job ≠ .running ctx) (args : List Byte) :
    readJobState args s = s.ok [0, 0, 0] := by
  unfold readJobState
  split
  next ctx hjob => exact absurd hjob (h ctx)
  next => rfl
  next => rfl

theorem readJobNotice_noticePending {s : State} {n : JobNotice} (h : s.job = .noticePending n) (args : List Byte) :
    readJobNotice args s =
      { s with job := .idle }.ok [n.kind.code, n.code.code, byteOf n.visited, byteOf n.actedOn] := by
  simp only [readJobNotice, h]

theorem readJobNotice_noNotice {s : State} (h : ∀ n, s.job ≠ .noticePending n) (args : List Byte) :
    readJobNotice args s = s.refuse .notRunning := by
  unfold readJobNotice
  split
  next n hjob => exact absurd hjob (h n)
  next => rfl
  next => rfl

/-- Settles O30: each of the three commands answers by its rule, which has one case for the condition of the engine that it
asks for and one for the others. -/
theorem jobStopStateAndNotice : Obligations.JobStopStateAndNotice := by
  refine ⟨rfl, rfl, fun s hhand => ?stopJob, fun s hhand => ?readJobState, fun s hhand => ?readJobNotice⟩
  case stopJob =>
    rw [exec_stopJob hhand]
    exact ⟨fun ctx hjob => by rw [stopJob_running hjob, ok_finish]; rfl,
      fun hjob => by rw [stopJob_notRunning hjob, refuse_finish]⟩
  case readJobState =>
    rw [exec_readJobState hhand]
    exact ⟨fun ctx hjob => by rw [readJobState_running hjob, ok_finish]; rfl,
      fun hjob => by rw [readJobState_notRunning hjob, ok_finish]⟩
  case readJobNotice =>
    rw [exec_readJobNotice hhand]
    exact ⟨fun n hjob => by rw [readJobNotice_noticePending hjob, ok_finish]; rfl,
      fun hjob => by rw [readJobNotice_noNotice hjob, refuse_finish]⟩

end Sys2Proof.Machine
end

section
/-! The Notice Unit (chapter 8): each cause of the NOTICE line said once in the words of the statements (R138 to R145),
what TAKE CHANGES takes and what it leaves of the changed-destination set (R142, R143), and the obligations about them. -/

namespace Sys2Proof.Machine

/-! ### The causes (R138 to R145) -/

theorem enabled_iff {s : State} {p : ParamNo} : s.enabled p = true ↔ s.param p ≠ 0 := bne_iff_ne

/-- A pending cause counts when its enable is on, the enable being a parameter other than 0 (R138). -/
theorem enabled_and_iff {s : State} {p : ParamNo} {cause : Bool} {P : Prop} (h : cause = true ↔ P) :
    (s.enabled p && cause) = true ↔ P ∧ s.param p ≠ 0 := by
  rw [Bool.and_eq_true, enabled_iff, h, and_comm]

theorem EventSet.meets_iff {e f : EventSet} : e.meets f = true ↔ ∃ k, e.holds k = true ∧ f.holds k = true := by
  simp only [EventSet.meets, Bool.or_eq_true, Bool.and_eq_true]
  constructor
  · rintro (((((h | h) | h) | h) | h) | h)
    exacts [⟨.cameUp, h⟩, ⟨.degraded, h⟩, ⟨.recovered, h⟩, ⟨.wentDown, h⟩, ⟨.oneWay, h⟩, ⟨.sectorMoved, h⟩]
  · rintro ⟨k, h⟩
    cases k <;> simp only [EventSet.holds] at h <;> simp only [h, and_self, true_or, or_true]

/-- A link with an enabled event is a link in use whose pending set holds a kind that is enabled (R141). -/
theorem hasEnabledEvent_iff {s : State} {i : LinkId} : s.hasEnabledEvent i = true ↔
    ∃ l k, s.link i = some l ∧ l.events.holds k = true ∧ s.enabledEvents.holds k = true := by
  unfold State.hasEnabledEvent State.link
  cases s.links.get i with
  | none => simp
  | some l => simp [EventSet.meets_iff]

theorem mem_changedList {s : State} {d : DestId} : d ∈ s.changedList ↔ s.changed.get d = true := by
  simp [State.changedList]

theorem changesPending_iff {s : State} : (!s.changedList.isEmpty) = true ↔ ∃ d, s.changed.get d = true := by
  simp only [Bool.not_eq_true', List.isEmpty_eq_false_iff_exists_mem, mem_changedList]

theorem jobNoticePending_iff {s : State} : s.jobNoticePending = true ↔ ∃ n, s.job = .noticePending n := by
  unfold State.jobNoticePending
  cases s.job <;> simp

theorem overflowPending_iff {s : State} :
    ((List.finRange 3).any fun p => (s.ports.get p).overflow) = true ↔ ∃ p, (s.port p).overflow = true := by
  simp [State.port]

/-- Settles O24: the line is the disjunction of its four causes, each read by its own lemma. -/
theorem noticeFollowsItsCauses : Obligations.NoticeFollowsItsCauses := by
  intro s
  have hlinks : (List.finRange 32).any s.hasEnabledEvent = true ↔
      ∃ i l k, s.link i = some l ∧ l.events.holds k = true ∧ s.enabledEvents.holds k = true := by
    simp [hasEnabledEvent_iff]
  simp only [State.notice, Bool.and_eq_true (s.power == _), Bool.or_eq_true, beq_iff_eq, or_assoc, hlinks,
    enabled_and_iff changesPending_iff, enabled_and_iff jobNoticePending_iff, enabled_and_iff overflowPending_iff]
  rfl

/-! ### TAKE CHANGES (R142, R143) -/

theorem changedList_sorted (s : State) : s.changedList.Pairwise (· < ·) :=
  (List.sortedLT_finRange 128).pairwise.filter _

theorem takenChanges_sorted (s : State) : s.takenChanges.Pairwise (· < ·) :=
  (changedList_sorted s).sublist (List.take_sublist _ _)

theorem length_takenChanges (s : State) : s.takenChanges.length = min 8 s.changedList.length := List.length_take

theorem changed_of_mem_takenChanges {s : State} {d : DestId} (h : d ∈ s.takenChanges) : s.changed.get d = true :=
  mem_changedList.1 (List.mem_of_mem_take h)

/-- Every index taken is lower than every index that remains. -/
theorem takenChanges_lt_remaining {s : State} {e d : DestId} (he : e ∈ s.takenChanges)
    (hd : d ∈ s.changedList.drop 8) : e < d := by
  have hsorted := changedList_sorted s
  rw [← List.take_append_drop 8 s.changedList, List.pairwise_append] at hsorted
  obtain ⟨-, -, hlt⟩ := hsorted
  exact hlt e he d hd

/-- The members not taken are those after the first eight. -/
theorem mem_remaining {s : State} {d : DestId} :
    d ∈ s.changedList.drop 8 ↔ s.changed.get d = true ∧ d ∉ s.takenChanges := by
  refine ⟨fun h => ⟨mem_changedList.1 (List.mem_of_mem_drop h),
    fun htaken => lt_irrefl d (takenChanges_lt_remaining htaken h)⟩, fun ⟨h, htaken⟩ => ?_⟩
  rw [← mem_changedList, ← List.take_append_drop 8 s.changedList, List.mem_append] at h
  exact h.resolve_left htaken

/-- Indices remain only when eight are taken. -/
theorem length_takenChanges_of_mem_remaining {s : State} {d : DestId} (h : d ∈ s.changedList.drop 8) :
    s.takenChanges.length = 8 := by
  have hpos := List.length_pos_of_mem h
  rw [List.length_drop] at hpos
  rw [length_takenChanges]
  omega

/-- A set that has lost exactly the indices taken lists what stood after them. -/
theorem changedList_eq_drop {s t : State}
    (h : ∀ d, t.changed.get d = true ↔ s.changed.get d = true ∧ d ∉ s.takenChanges) :
    t.changedList = s.changedList.drop 8 :=
  (changedList_sorted t).eq_of_mem_iff ((changedList_sorted s).sublist (List.drop_sublist _ _)) fun d => by
    rw [mem_changedList, h, mem_remaining]

/-- TAKE CHANGES' rule as one equation: the taken indices leave the set, which is all that changes, and the answer
counts what they leave. -/
theorem takeChanges_eq (args : List Byte) (s : State) : ∃ ch : Vector Bool 128,
    (∀ d, ch.get d = true ↔ s.changed.get d = true ∧ d ∉ s.takenChanges) ∧
    takeChanges args s = { s with changed := ch }.ok
      ([byteOf s.takenChanges.length, byteOf ({ s with changed := ch } : State).changedList.length] ++
        s.takenChanges.map (fun (d : DestId) => byteOf d.val)) := by
  obtain ⟨ch, hstate, hget⟩ := foldl_setChanged s.takenChanges s
  have hmem (d : DestId) : ch.get d = true ↔ s.changed.get d = true ∧ d ∉ s.takenChanges := by simp [hget]
  have hlist : ({ s with changed := ch } : State).changedList = s.changedList.drop 8 := changedList_eq_drop hmem
  have hcount : s.changedList.length - s.takenChanges.length = (s.changedList.drop 8).length := by
    rw [length_takenChanges, List.length_drop]
    omega
  refine ⟨ch, hmem, ?_⟩
  rw [hlist, ← hcount, ← hstate]
  rfl

theorem exec_takeChanges {s : State} (hhand : s.hand = some ⟨0x53, []⟩) :
    exec .takeChanges s = .next (takeChanges [] s).finish :=
  carryOut_eq (code := Code.takeChanges) (rule := takeChanges) hhand rfl

/-- Settles O27: the equation of `takeChanges_eq`, with the indices that remain those after the first eight. -/
theorem takeChangesReturnsTheLowest : Obligations.TakeChangesReturnsTheLowest := by
  intro s hhand
  obtain ⟨ch, hmem, hrule⟩ := takeChanges_eq [] s
  refine ⟨{ s with changed := ch }, s.takenChanges, ({ s with changed := ch } : State).changedList.length,
    ?_, takenChanges_sorted s, ?_, fun d => changed_of_mem_takenChanges, hmem, fun d hd => ?_, rfl, rfl⟩
  · rw [exec_takeChanges hhand, hrule, ok_finish]
    rfl
  · exact (length_takenChanges s).trans_le (min_le_left _ _)
  · have hremains := mem_remaining.2 ((hmem d).1 hd)
    exact ⟨length_takenChanges_of_mem_remaining hremains, fun e he => takenChanges_lt_remaining he hremains⟩

end Sys2Proof.Machine
end


section
/-! What one event can do, said once: the effect of an accepted host command, the effect of every other event, and the
inversion of `exec` into these, from which the laws that every step keeps are derived. -/

namespace Sys2Proof.Machine

/-! ### Accepted arguments -/

theorem word16_le (hi lo : Byte) : word16 hi lo ≤ 65535 := by
  have := hi.isLt
  have := lo.isLt
  unfold word16
  omega

/-- A Boolean condition that a search refused everywhere is false at each index. -/
theorem eq_false_of_find?_eq_none {n : Nat} {p : Fin n → Bool} (h : (List.finRange n).find? p = none) (i : Fin n) :
    p i = false := by
  simpa using List.find?_eq_none.1 h i (List.mem_finRange i)

theorem findLink_eq_none {s : State} {r : Radio} {peer : Addr} (h : s.findLink r peer = none) {i : LinkId} {l : Link}
    (hl : s.link i = some l) (hr : l.radio = r) : l.peer ≠ peer := by
  intro hp
  have := eq_false_of_find?_eq_none h i
  simp [State.linkMatches, hl, hr, hp] at this

theorem findDest_eq_none {s : State} {a : Addr} (hg : isGroup a = false) (h : s.findDest a = none) {d : DestId} {r : Dest}
    (hr : s.dest d = some r) : r.address ≠ a := by
  intro ha
  rw [State.findDest, hg] at h
  have := eq_false_of_find?_eq_none h d
  simp [State.destMatches, hr, ha] at this

/-! ### The effect of an accepted host command -/

/-- What a host command answered OK does to the part, the giving of its answer apart: one constructor for each form of
effect, the commands that only read sharing one. -/
inductive State.carriesOut : Instr → State → State → Prop
  | read (c : Instr) (s : State) : carriesOut c s s
  | loadRateProfile {s : State} {es : List RateEntry} {p : Vector RateEntry 12} (hp : profileOf es = some p)
      (hvalid : profileValid es = true) : carriesOut .loadRateProfile s { s with profile := p }
  | setParameter {s : State} {p : ParamNo} {x : Nat} (h : crossesThresholds s p (clampParam p x) = false) :
      carriesOut .setParameter s { s with params := put s.params p (clampParam p x) }
  | goOperational {s : State} : carriesOut .goOperational s { s with part := .operational }
  | arm {s : State} : carriesOut .resetPart s { s with armed := true }
  | softReset {s : State} (h : s.frame.carrierEnded = true) : carriesOut .resetPart s s.softReset
  | addLink {s : State} {i : LinkId} {r : Radio} {peer : Addr} {h : Sector} {m : SectorMode}
      (hvacant : s.vacantLink = some i)
      (hpresent : (s.port r).present = true) (hpeer : isGroup peer = false) (hfind : s.findLink r peer = none) :
      carriesOut .addLink s (s.setLink i (some (Link.fresh r peer h m)))
  | updateLink {s : State} {i : LinkId} {l : Link} (mask : Byte) (h : Option Sector) (m : Option SectorMode)
      (pin : Option Rate) (hl : s.link i = some l) (hr : l.state ≠ .retiring) :
      carriesOut .updateLink s (s.setLink i (some (l.writeMasked s.tuning mask h m pin)))
  | retireCascade {s : State} {i : LinkId} {l : Link} (hl : s.link i = some l) :
      carriesOut .retireLink s (s.retireCascade i)
  | retireAlone {s : State} {i : LinkId} {l : Link} (hl : s.link i = some l) :
      carriesOut .retireLink s (s.retireAlone i)
  | addDestination {s : State} {d : DestId} {a : Addr} (hvacant : s.vacantDest = some d) (ha : isGroup a = false)
      (hfind : s.findDest a = none) : carriesOut .addDestination s (s.setDest d (some (Dest.fresh a)))
  | removeDestination {s : State} {d : DestId} {r : Dest} (hr : s.dest d = some r) :
      carriesOut .removeDestination s (s.removeDest d)
  | addCandidate {s : State} {d : DestId} {i : LinkId} {r : Dest} {l : Link} {c : CandId} {n : Nat} {p : Placement}
      (hr : s.dest d = some r) (hl : s.link i = some l) (hstate : l.state ≠ .retiring)
      (hnames : s.chainNames r.chain i = false) (hlen : r.chain.length < 4) (hc : s.cand c = none) (hn : n ≤ 65535) :
      carriesOut .addCandidate s (s.enlist c d i n p)
  | updateCandidate {s : State} {c : CandId} {k : Cand} {n : Nat} (mask : Byte) (p : Option Placement)
      (hk : s.cand c = some k) (hn : n ≤ 65535) : carriesOut .updateCandidate s (s.rewriteCand c k.dest mask n p)
  | removeCandidate {s : State} {c : CandId} {k : Cand} (hk : s.cand c = some k) :
      carriesOut .removeCandidate s (s.removeCand c)
  | moveCursor {c : Instr} {s : State} {u : Cursor} (hc : c = .setCursor ∨ c = .readAtCursor)
      (hu : u.index ≤ u.table.size) : carriesOut c s { s with cursor := u }
  | readLinkEvents {s : State} {i : LinkId} {l : Link} (hl : s.link i = some l) :
      carriesOut .readLinkEvents s (s.setLink i (some { l with events := {} }))
  | takeChanges {s : State} {ch : Vector Bool 128} (h : ∀ d, ch.get d = true → s.changed.get d = true) :
      carriesOut .takeChanges s { s with changed := ch }
  | readPortStatus (s : State) (p : Radio) :
      carriesOut .readPortStatus s (s.setPort p { s.port p with overflow := false })
  | flushReports (s : State) (p : Radio) : carriesOut .flushReports s (s.setPort p (s.port p).flush)
  | readJobNotice {s : State} : carriesOut .readJobNotice s { s with job := .idle }
  | startJob {s : State} (j : JobSelector) (hpart : s.part = .operational) :
      carriesOut .startJob s ({ s with job := .running (JobContext.start j) }.flushForJob j)
  | stopJob {s : State} {ctx : JobContext} (h : s.job = .running ctx) :
      carriesOut .stopJob s { s with job := .noticePending (ctx.notice .stopped) }

/-- A rule either refuses and changes nothing, or answers OK after the effect of its command. -/
def Reply.obeys (c : Instr) (s : State) (r : Reply) : Prop :=
  r.refused s ∨ ∃ u rs, s.carriesOut c u ∧ r = u.ok rs

theorem Reply.obeys_refuse (c : Instr) (s : State) {e : Status} (h : e ≠ .ok) : (s.refuse e).obeys c s :=
  .inl (refuse_refused s e h)

theorem Reply.obeys_ok {c : Instr} {s u : State} (h : s.carriesOut c u) (rs : List Byte) : (u.ok rs).obeys c s :=
  .inr ⟨u, rs, h, rfl⟩

theorem Reply.obeys_read {c : Instr} {s : State} {r : Reply} (h : r.refused s ∨ ∃ rs, r = s.ok rs) : r.obeys c s :=
  h.imp_right fun ⟨rs, h⟩ => ⟨s, rs, .read c s, h⟩

/-! ### The rules, each by the effect of its command -/

theorem loadRateProfile_obeys (args : List Byte) (s : State) : (loadRateProfile args s).obeys .loadRateProfile s :=
  (loadRateProfile_cases args s).imp_right fun ⟨_, _, hp, hvalid, h⟩ => ⟨_, _, .loadRateProfile hp hvalid, h⟩

theorem setParameter_obeys (args : List Byte) (s : State) : (setParameter args s).obeys .setParameter s :=
  (setParameter_cases args s).imp_right fun ⟨_, _, hcross, h⟩ => ⟨_, _, .setParameter hcross, h⟩

theorem goOperational_obeys (args : List Byte) (s : State) : (goOperational args s).obeys .goOperational s :=
  (goOperational_cases args s).imp_right fun ⟨_, h⟩ => ⟨_, _, .goOperational, h⟩

theorem resetPart_obeys (args : List Byte) (s : State) : (resetPart args s).obeys .resetPart s := by
  rcases resetPart_cases args s with ⟨hf, h⟩ | ⟨-, h⟩
  · exact h ▸ Reply.obeys_ok (.softReset hf) []
  · exact h ▸ Reply.obeys_ok .arm []

theorem addLink_obeys (args : List Byte) (s : State) : (addLink args s).obeys .addLink s := by
  unfold addLink
  split
  case h_2 => exact Reply.obeys_refuse _ _ (by decide)
  split
  case h_2 => exact Reply.obeys_refuse _ _ (by decide)
  dsimp only
  split
  case isTrue => exact Reply.obeys_refuse _ _ (by decide)
  next hpeer =>
  split
  case isTrue => exact Reply.obeys_refuse _ _ (by decide)
  next hpresent =>
  split
  case isTrue => exact Reply.obeys_refuse _ _ (by decide)
  next hfind =>
  split
  case h_1 => exact Reply.obeys_refuse _ _ (by decide)
  next i hi =>
  exact Reply.obeys_ok (.addLink hi (by simpa using hpresent) (by simpa using hpeer)
    (by simpa using hfind)) _

theorem updateLink_obeys (args : List Byte) (s : State) : (updateLink args s).obeys .updateLink s :=
  (updateLink_cases args s).imp_right fun ⟨_, _, mask, h, m, pin, hl, hr, heq⟩ =>
    ⟨_, _, .updateLink mask h m pin hl hr, heq⟩

theorem retireLink_obeys (args : List Byte) (s : State) : (retireLink args s).obeys .retireLink s := by
  refine (retireLink_cases args s).imp_right ?_
  rintro ⟨i, l, t, hl, rfl | rfl, h⟩
  · exact ⟨_, _, .retireCascade hl, h⟩
  · exact ⟨_, _, .retireAlone hl, h⟩

theorem addDestination_obeys (args : List Byte) (s : State) : (addDestination args s).obeys .addDestination s := by
  unfold addDestination
  split
  case h_2 => exact Reply.obeys_refuse _ _ (by decide)
  dsimp only
  split
  case isTrue => exact Reply.obeys_refuse _ _ (by decide)
  next ha =>
  split
  case isTrue => exact Reply.obeys_refuse _ _ (by decide)
  next hfind =>
  split
  case h_1 => exact Reply.obeys_refuse _ _ (by decide)
  next d hd =>
  exact Reply.obeys_ok (.addDestination hd (by simpa using ha) (by simpa using hfind)) _

theorem removeDestination_obeys (args : List Byte) (s : State) :
    (removeDestination args s).obeys .removeDestination s :=
  (removeDestination_cases args s).imp_right fun ⟨_, _, hr, h⟩ => ⟨_, _, .removeDestination hr, h⟩

theorem addCandidate_obeys (args : List Byte) (s : State) : (addCandidate args s).obeys .addCandidate s := by
  unfold addCandidate
  split
  case h_2 => exact Reply.obeys_refuse _ _ (by decide)
  split
  case h_2 => exact Reply.obeys_refuse _ _ (by decide)
  split
  case h_1 => exact Reply.obeys_refuse _ _ (by decide)
  next r hr =>
  split
  case h_1 => exact Reply.obeys_refuse _ _ (by decide)
  next l hl =>
  split
  case isTrue => exact Reply.obeys_refuse _ _ (by decide)
  next hstate =>
  split
  case isTrue => exact Reply.obeys_refuse _ _ (by decide)
  next hnames =>
  split
  case isTrue => exact Reply.obeys_refuse _ _ (by decide)
  next hlen =>
  split
  case isTrue => exact Reply.obeys_refuse _ _ (by decide)
  split
  case h_1 => exact Reply.obeys_refuse _ _ (by decide)
  next c hc =>
  exact Reply.obeys_ok (.addCandidate hr hl hstate (by simpa using hnames) (by simpa [Config.chainCapacity] using hlen)
    (freeCand_eq_some hc) (word16_le _ _)) _

theorem updateCandidate_obeys (args : List Byte) (s : State) : (updateCandidate args s).obeys .updateCandidate s := by
  unfold updateCandidate
  split
  case h_2 => exact Reply.obeys_refuse _ _ (by decide)
  dsimp only
  split
  case isTrue => exact Reply.obeys_refuse _ _ (by decide)
  split
  case h_1 => exact Reply.obeys_refuse _ _ (by decide)
  next k hk =>
  split
  case isTrue => exact Reply.obeys_refuse _ _ (by decide)
  split
  case isTrue => exact Reply.obeys_refuse _ _ (by decide)
  exact Reply.obeys_ok (.updateCandidate _ _ hk (word16_le _ _)) _

theorem removeCandidate_obeys (args : List Byte) (s : State) : (removeCandidate args s).obeys .removeCandidate s :=
  (removeCandidate_cases args s).imp_right fun ⟨_, _, hk, h⟩ => ⟨_, _, .removeCandidate hk, h⟩

theorem setCursor_obeys (args : List Byte) (s : State) : (setCursor args s).obeys .setCursor s := by
  unfold setCursor
  split
  case h_2 => exact Reply.obeys_refuse _ _ (by decide)
  split
  case h_2 => exact Reply.obeys_refuse _ _ (by decide)
  split
  case isFalse => exact Reply.obeys_refuse _ _ (by decide)
  next h =>
  exact Reply.obeys_ok (.moveCursor (.inl rfl) h.le) _

/-- The search of READ AT CURSOR stays within the table (R160). -/
theorem nextInUse_lt {s : State} {t : CursorTable} {from_ k : Nat} (h : s.nextInUse t from_ = some k) : k < t.size :=
  List.mem_range.1 (List.mem_of_find?_eq_some h)

theorem readAtCursor_obeys (args : List Byte) (s : State) : (readAtCursor args s).obeys .readAtCursor s := by
  unfold readAtCursor
  dsimp only
  split
  · split
    · next k hk =>
      exact Reply.obeys_ok (.moveCursor (u := { s.cursor with index := k + 1 }) (.inr rfl) (nextInUse_lt hk)) _
    · exact Reply.obeys_ok (.moveCursor (u := { s.cursor with index := s.cursor.table.size }) (.inr rfl) le_rfl) _
  · split
    · exact Reply.obeys_ok (.read _ s) _
    · exact Reply.obeys_ok (.read _ s) _

theorem readLinkEvents_obeys (args : List Byte) (s : State) : (readLinkEvents args s).obeys .readLinkEvents s :=
  (readLinkEvents_cases args s).imp_right fun ⟨_, _, hl, h⟩ => ⟨_, _, .readLinkEvents hl, h⟩

theorem takeChanges_obeys (args : List Byte) (s : State) : (takeChanges args s).obeys .takeChanges s := by
  obtain ⟨ch, hget, h⟩ := takeChanges_eq args s
  exact h ▸ Reply.obeys_ok (.takeChanges fun d hd => ((hget d).1 hd).1) _

theorem readPortStatus_obeys (args : List Byte) (s : State) : (readPortStatus args s).obeys .readPortStatus s :=
  (readPortStatus_cases args s).imp_right fun ⟨p, _, h⟩ => ⟨_, _, .readPortStatus s p, h⟩

theorem flushReports_obeys (args : List Byte) (s : State) : (flushReports args s).obeys .flushReports s :=
  (flushReports_cases args s).imp_right fun ⟨p, _, _, h⟩ => ⟨_, _, .flushReports s p, h⟩

theorem readJobNotice_obeys (args : List Byte) (s : State) : (readJobNotice args s).obeys .readJobNotice s :=
  (readJobNotice_cases args s).imp_right fun ⟨_, _, _, h⟩ => ⟨_, _, .readJobNotice, h⟩

theorem startJob_obeys (args : List Byte) (s : State) : (startJob args s).obeys .startJob s :=
  (startJob_cases args s).imp_right fun ⟨j, hpart, _, _, h⟩ => ⟨_, _, .startJob j hpart, h⟩

theorem stopJob_obeys (args : List Byte) (s : State) : (stopJob args s).obeys .stopJob s :=
  (stopJob_cases args s).imp_right fun ⟨_, hjob, h⟩ => ⟨_, _, .stopJob hjob, h⟩

/-! ### The effect of every other event -/

/-- What an event of the Control Port's frame does (R149 to R152). -/
inductive State.frames : Instr → State → State → Prop
  | commandTaken (s : State) (begins : Bool) (bytes : List Byte) : frames (.commandTaken begins bytes) s
      (bytes.foldl State.clockByte (if begins then s.beginFrame else s))
  | ignoredFrame {s : State} (h : s.receivesFrames = false) : frames .ignoredFrame s s.beginFrame
  | withdrawn (c : Instr) (s : State) : frames c s { s with frame := .closed }

/-- What an event that is neither a host command nor one of the frame does, where it takes place: one constructor for each
form of effect. -/
inductive State.undergoes : Instr → State → State → Prop
  | softReset {s : State} (h : s.frame.carrierEnded = true) : undergoes .softReset s s.softReset
  | powerOnReset (s : State) : undergoes .powerOnReset s
      { State.reset with frame := s.frame.afterReset, pending := s.pending }
  | powerOnResetEnd {s : State} (b0 b1 b2 : Bool) (h : s.power = .inReset) : undergoes (.powerOnResetEnd b0 b1 b2) s
      { s with
        power := .initialising
        ports := #v[Port.afterReset b0, Port.afterReset b1, Port.afterReset b2] }
  | initialisationEnd {s : State} (h : s.power = .initialising) :
      undergoes .initialisationEnd s { s with power := .running }
  | queryWaits {s : State} (tag : Byte) (a : Addr) (hready : s.queryReady = true) (hq : s.queries ≠ []) :
      undergoes (.pathQuery tag a) s { s with queries := s.queries ++ [⟨tag, a, none⟩] }
  | queryResolved {s : State} (tag : Byte) (a : Addr) (hready : s.queryReady = true) (hq : s.queries = []) :
      undergoes (.pathQuery tag a) s { s with queries := [⟨tag, a, none⟩] }.resolveHead
  | pathAnswer {s : State} {q : Query} {rest : List Query} (hq : s.queries = q :: rest) :
      undergoes .pathAnswer s { s with queries := rest }.resolveHead
  | paramRequest {s : State} {p : Radio} (id : Byte) (h : s.requestReady p = true) :
      undergoes (.paramRequest p id) s (s.answerRequest p id)
  | paramAnswer (s : State) (p : Radio) : undergoes (.paramAnswer p) s (s.setPort p { s.port p with slot := none })
  | report {c : Instr} {s : State} {p : Radio} (r : Report) (hc : ∀ b0 b1 b2, c ≠ .powerOnResetEnd b0 b1 b2)
      (h : s.reportReady p = true) : undergoes c s (s.setPort p ((s.port p).receive r))
  | reportDiscarded {s : State} {p : Radio} {r : Report} {rest : List Report} (hr : (s.port p).reports = r :: rest) :
      undergoes (.reportTake p) s (s.setPort p { s.port p with reports := rest })
  | reportHandled {s : State} {p : Radio} {r : Report} {rest : List Report} (hpart : s.part = .operational)
      (hr : (s.port p).reports = r :: rest) :
      undergoes (.reportTake p) s ((s.setPort p { s.port p with reports := rest }).handleReport p r)
  | tick {s : State} (h : s.power = .running) :
      undergoes .millisecondTick s ({ s with now := s.now + 1 }.expireDue s.expiresNow)
  | expiry (s : State) (i : LinkId) : undergoes (.silenceDeadlineExpiry i) s (s.expireLink i)
  | retireVisit {s : State} {ctx : JobContext} {i : LinkId} {l : Link} (hjob : s.job = .running ctx)
      (hkind : ctx.selector.kind = .retireLinks) (hi : ctx.next = i.val) (hl : s.link i = some l) :
      undergoes .retireLinksVisit s ((s.retireCascade i).moveOn ctx 32 true)
  | retuneVisit {s : State} {ctx : JobContext} {i : LinkId} {l : Link} (hjob : s.job = .running ctx)
      (hkind : ctx.selector.kind = .retuneRadio) (hi : ctx.next = i.val) (hl : s.link i = some l)
      (hstate : l.state ≠ .retiring) : undergoes .retuneRadioVisit s ((s.retuneLink i).moveOn ctx 32 true)
  | pruneVisit {s : State} {ctx : JobContext} {d : DestId} {r : Dest} (hjob : s.job = .running ctx)
      (hkind : ctx.selector.kind = .pruneDestinations) (hd : ctx.next = d.val) (hr : s.dest d = some r) :
      undergoes .pruneDestinationsVisit s ((s.removeDest d).moveOn ctx 128 true)
  | passingVisit {c : Instr} {s : State} {ctx : JobContext} (hc : ∀ b0 b1 b2, c ≠ .powerOnResetEnd b0 b1 b2)
      (hjob : s.job = .running ctx) (hnext : ctx.next < ctx.selector.kind.tableSize) :
      undergoes c s (s.moveOn ctx ctx.selector.kind.tableSize false)

/-! ### The inversion of `exec` -/

/-- Everything one event can come to. -/
inductive State.becomes (c : Instr) (s : State) : State → Prop
  | unmoved : becomes c s s
  | refused {h : Command} {e : Status} (hhand : s.hand = some h) (he : e ≠ .ok) : becomes c s (s.giveAnswer ⟨e, []⟩)
  | answered {h : Command} {u : State} (rs : List Byte) (hhand : s.hand = some h) (hu : s.carriesOut c u) :
      becomes c s (u.giveAnswer ⟨.ok, rs⟩)
  | framed {t : State} (h : s.frames c t) : becomes c s t
  | undergone {t : State} (h : s.undergoes c t) : becomes c s t

theorem carryOut_becomes {c : Instr} {code : Byte} {rule : List Byte → State → Reply} {s t : State}
    (hrule : ∀ args s, (rule args s).obeys c s) (h : carryOut code rule s = .next t) : s.becomes c t := by
  rcases carryOut_cases code rule s with h' | ⟨cmd, hhand, -, ⟨-, h'⟩ | ⟨-, h'⟩⟩ <;> rw [h'] at h <;> cases h
  · exact .unmoved
  · exact .refused hhand (e := .badLength) (by decide)
  · rcases hrule cmd.args s with ⟨e, he, hr⟩ | ⟨u, rs, hu, hr⟩ <;> rw [hr]
    · exact .refused hhand he
    · exact .answered rs hhand hu

theorem passReport_becomes {c : Instr} (s : State) (p : Radio) (r : Report)
    (hc : ∀ b0 b1 b2, c ≠ .powerOnResetEnd b0 b1 b2) : s.becomes c (s.passReport p r) := by
  unfold State.passReport
  split
  · next h => exact .undergone (.report r hc h)
  · exact .unmoved

theorem execUnknownCommand_becomes {c : Instr} {s t : State} (h : execUnknownCommand s = .next t) : s.becomes c t := by
  unfold execUnknownCommand at h
  split at h
  · cases h; exact .unmoved
  · next cmd hhand =>
    split at h <;> cases h
    · exact .unmoved
    · exact .refused hhand (e := .unknownCommand) (by decide)

theorem execPathQuery_becomes {tag : Byte} {a : Addr} {s t : State} (h : execPathQuery tag a s = .next t) :
    s.becomes (.pathQuery tag a) t := by
  unfold execPathQuery at h
  split at h
  case isFalse => cases h; exact .unmoved
  next hready =>
  cases h
  split
  · next hq =>
    rw [List.isEmpty_iff] at hq
    rw [hq]
    exact .undergone (.queryResolved tag a hready hq)
  · next hq => exact .undergone (.queryWaits tag a hready (by simpa using hq))

theorem execPathAnswer_becomes {s t : State} (h : execPathAnswer s = .next t) : s.becomes .pathAnswer t := by
  unfold execPathAnswer at h
  split at h
  · cases h; exact .unmoved
  · next q rest hq =>
    split at h <;> cases h
    · exact .unmoved
    · exact .undergone (.pathAnswer hq)

theorem execReportTake_becomes {p : Radio} {s t : State} (h : execReportTake p s = .next t) :
    s.becomes (.reportTake p) t := by
  unfold execReportTake at h
  split at h
  · cases h; exact .unmoved
  · next r rest hr =>
    dsimp only at h
    split at h <;> cases h
    · exact .undergone (.reportDiscarded hr)
    · next hpart => exact .undergone (.reportHandled hpart hr)

/-- A visit that acts on no record, its table's size given as the event gives it. -/
theorem passingVisit_of_size {c : Instr} {s : State} {ctx : JobContext} {size : Nat}
    (hc : ∀ b0 b1 b2, c ≠ .powerOnResetEnd b0 b1 b2) (hjob : s.job = .running ctx)
    (hsize : ctx.selector.kind.tableSize = size) (hnext : ctx.next < size) :
    s.undergoes c (s.moveOn ctx size false) := by
  subst hsize
  exact .passingVisit hc hjob hnext

theorem execRetireLinksVisit_becomes {s t : State} (h : execRetireLinksVisit s = .next t) :
    s.becomes .retireLinksVisit t := by
  unfold execRetireLinksVisit at h
  split at h
  case h_2 | h_3 => cases h; exact .unmoved
  next ctx hjob =>
  split at h
  case h_2 | h_3 => cases h; exact .unmoved
  next radios states hsel =>
  have hkind : ctx.selector.kind = .retireLinks := by rw [hsel]; rfl
  split at h
  case isFalse => cases h; exact .unmoved
  next hlt =>
  split at h <;> cases h
  · next hm =>
    obtain ⟨l, hl, -⟩ := (Option.any_eq_true _ _).1 hm
    exact .undergone (.retireVisit hjob hkind rfl hl)
  · exact .undergone (passingVisit_of_size (by simp) hjob (by rw [hkind]; rfl) hlt)

theorem execRetuneRadioVisit_becomes {s t : State} (h : execRetuneRadioVisit s = .next t) :
    s.becomes .retuneRadioVisit t := by
  unfold execRetuneRadioVisit at h
  split at h
  case h_2 | h_3 => cases h; exact .unmoved
  next ctx hjob =>
  split at h
  case h_2 | h_3 => cases h; exact .unmoved
  next radio hsel =>
  have hkind : ctx.selector.kind = .retuneRadio := by rw [hsel]; rfl
  split at h
  case isFalse => cases h; exact .unmoved
  next hlt =>
  split at h <;> cases h
  · next hm =>
    obtain ⟨l, hl, hmatch⟩ := (Option.any_eq_true _ _).1 hm
    have hstate : l.state ≠ .retiring := by simp [Link.matchesRetune] at hmatch; exact hmatch.2
    exact .undergone (.retuneVisit hjob hkind rfl hl hstate)
  · exact .undergone (passingVisit_of_size (by simp) hjob (by rw [hkind]; rfl) hlt)

theorem execPruneDestinationsVisit_becomes {s t : State} (h : execPruneDestinationsVisit s = .next t) :
    s.becomes .pruneDestinationsVisit t := by
  unfold execPruneDestinationsVisit at h
  split at h
  case h_2 | h_3 => cases h; exact .unmoved
  next ctx hjob =>
  split at h
  case h_2 | h_3 => cases h; exact .unmoved
  next states hsel =>
  have hkind : ctx.selector.kind = .pruneDestinations := by rw [hsel]; rfl
  split at h
  case isFalse => cases h; exact .unmoved
  next hlt =>
  split at h <;> cases h
  · next hm =>
    obtain ⟨r, hr, -⟩ := (Option.any_eq_true _ _).1 hm
    exact .undergone (.pruneVisit hjob hkind rfl hr)
  · exact .undergone (passingVisit_of_size (by simp) hjob (by rw [hkind]; rfl) hlt)

/-- An event that takes place under a condition, and otherwise changes nothing. -/
theorem becomes_ite {c : Instr} {s t u : State} {p : Prop} [Decidable p] (hu : p → s.becomes c u)
    (h : (if p then .next u else .next s : Host.Outcome State Fault Refusal) = .next t) : s.becomes c t := by
  split at h <;> cases h
  · next hp => exact hu hp
  · exact .unmoved

theorem exec_becomes {c : Instr} {s t : State} (h : exec c s = .next t) : s.becomes c t := by
  cases c
  case commandTaken begins bytes => cases h; exact .framed (.commandTaken s begins bytes)
  case ignoredFrame =>
    cases h
    split
    · exact .unmoved
    · next hr => exact .framed (.ignoredFrame (by simpa using hr))
  case abortedFrame =>
    cases h
    split
    · exact .framed (.withdrawn _ s)
    · exact .unmoved
  case csWithdrawn => cases h; exact .framed (.withdrawn _ s)
  case unknownCommand => exact execUnknownCommand_becomes h
  case readIdentity | readTime | readSummary | nextEventLink =>
    exact carryOut_becomes (fun _ s => Reply.obeys_ok (.read _ s) _) h
  case loadRateProfile => exact carryOut_becomes loadRateProfile_obeys h
  case setParameter => exact carryOut_becomes setParameter_obeys h
  case getParameter => exact carryOut_becomes (fun args s => Reply.obeys_read (getParameter_cases args s)) h
  case goOperational => exact carryOut_becomes goOperational_obeys h
  case resetPart => exact carryOut_becomes resetPart_obeys h
  case addLink => exact carryOut_becomes addLink_obeys h
  case updateLink => exact carryOut_becomes updateLink_obeys h
  case retireLink => exact carryOut_becomes retireLink_obeys h
  case readLink => exact carryOut_becomes (fun args s => Reply.obeys_read (readLink_cases args s)) h
  case addDestination => exact carryOut_becomes addDestination_obeys h
  case findDestination => exact carryOut_becomes (fun args s => Reply.obeys_read (findDestination_cases args s)) h
  case removeDestination => exact carryOut_becomes removeDestination_obeys h
  case readDestination => exact carryOut_becomes (fun args s => Reply.obeys_read (readDestination_cases args s)) h
  case addCandidate => exact carryOut_becomes addCandidate_obeys h
  case updateCandidate => exact carryOut_becomes updateCandidate_obeys h
  case removeCandidate => exact carryOut_becomes removeCandidate_obeys h
  case readCandidate => exact carryOut_becomes (fun args s => Reply.obeys_read (readCandidate_cases args s)) h
  case setCursor => exact carryOut_becomes setCursor_obeys h
  case readAtCursor => exact carryOut_becomes readAtCursor_obeys h
  case readLinkEvents => exact carryOut_becomes readLinkEvents_obeys h
  case takeChanges => exact carryOut_becomes takeChanges_obeys h
  case readPortStatus => exact carryOut_becomes readPortStatus_obeys h
  case flushReports => exact carryOut_becomes flushReports_obeys h
  case readJobNotice => exact carryOut_becomes readJobNotice_obeys h
  case startJob => exact carryOut_becomes startJob_obeys h
  case stopJob => exact carryOut_becomes stopJob_obeys h
  case readJobState => exact carryOut_becomes (fun args s => Reply.obeys_read (.inr (readJobState_cases args s))) h
  case pathQuery tag a => exact execPathQuery_becomes h
  case pathAnswer => exact execPathAnswer_becomes h
  case malformedQuery | malformedRequest => cases h; exact .unmoved
  case paramRequest p id => exact becomes_ite (fun hp => .undergone (.paramRequest id hp)) h
  case paramAnswer p => cases h; exact .undergone (.paramAnswer s p)
  case outcomeReport | heardReport | unrecognisedReport => cases h; exact passReport_becomes s _ _ (by simp)
  case reportTake p => exact execReportTake_becomes h
  case millisecondTick => exact becomes_ite (fun hp => .undergone (.tick hp)) h
  case silenceDeadlineExpiry i => cases h; exact .undergone (.expiry s i)
  case retireLinksVisit => exact execRetireLinksVisit_becomes h
  case retuneRadioVisit => exact execRetuneRadioVisit_becomes h
  case pruneDestinationsVisit => exact execPruneDestinationsVisit_becomes h
  case softReset =>
    exact becomes_ite (fun hp => .undergone (.softReset (Bool.and_eq_true_iff.1 hp).2)) h
  case powerOnReset => cases h; exact .undergone (.powerOnReset s)
  case powerOnResetEnd b0 b1 b2 => exact becomes_ite (fun hp => .undergone (.powerOnResetEnd b0 b1 b2 hp)) h
  case initialisationEnd => exact becomes_ite (fun hp => .undergone (.initialisationEnd hp)) h

end Sys2Proof.Machine
end


section
/-! The Path Table's and the Path Resolver's operations as sequences of elementary writes: whatever is true of each write is
true of all of them, which gives the laws that hold record by record. -/

namespace Sys2Proof.Machine

/-! ### Elementary writes -/

/-- `t` is what a sequence of the elementary writes of the Path Table and the Path Resolver makes of `s`: path costs written,
active candidates set with their bookkeeping, chains edited, candidates repriced or freed, references dropped, links made Vacant, and
destinations removed. -/
inductive State.reworks (s : State) : State → Prop
  | refl : reworks s s
  | refresh {t : State} (c : CandId) (h : s.reworks t) : reworks s (t.refreshCost c)
  | activate {t : State} (d : DestId) (a : Option CandId) (h : s.reworks t)
      (ha : ∀ r, t.dest d = some r → a = r.active ∨ a = none ∨ ∃ c, a = some c ∧ t.candUsable c = true) :
      reworks s (t.setActive d a)
  | rechain {t : State} (d : DestId) (f : List CandId → List CandId) (h : s.reworks t) :
      reworks s (t.updateDest d (fun r => { r with chain := f r.chain }))
  | reprice {t : State} (c : CandId) {n : Nat} (hn : n ≤ 65535) (h : s.reworks t) :
      reworks s (t.updateCand c (fun k => { k with remainder := n }))
  | free {t : State} (c : CandId) (h : s.reworks t) : reworks s (t.setCand c none)
  | dereference {t : State} (i : LinkId) (h : s.reworks t) : reworks s (t.dropReference i)
  | vacate {t : State} (i : LinkId) (h : s.reworks t) : reworks s (t.setLink i none)
  | clear {t : State} (d : DestId) (h : s.reworks t) :
      reworks s (t.updateDest d (fun r => { r with active := none, lastSwitch := none, switchCount := 0 }))
  | remove {t : State} (d : DestId) (h : s.reworks t) : reworks s ((t.setDest d none).setChanged d false)

theorem State.reworks.trans {s t u : State} (h : s.reworks t) (k : t.reworks u) : s.reworks u := by
  induction k with
  | refl => exact h
  | refresh c _ ih => exact ih.refresh c
  | activate d a _ ha ih => exact ih.activate d a ha
  | rechain d f _ ih => exact ih.rechain d f
  | reprice c hn _ ih => exact ih.reprice c hn
  | free c _ ih => exact ih.free c
  | dereference i _ ih => exact ih.dereference i
  | vacate i _ ih => exact ih.vacate i
  | clear d _ ih => exact ih.clear d
  | remove d _ ih => exact ih.remove d

/-- A fold whose every step is a rework is one. -/
theorem foldl_reworks {α : Type} {f : State → α → State} (hf : ∀ (s : State) (a : α), s.reworks (f s a)) (as : List α) (s : State) :
    s.reworks (as.foldl f s) := by
  induction as generalizing s with
  | nil => exact .refl
  | cons a as ih => exact (hf s a).trans (ih _)

/-! ### The operations are such sequences -/

theorem refreshCosts_reworks (s : State) (cs : List CandId) : s.reworks (s.refreshCosts cs) :=
  foldl_reworks (fun _ c => State.reworks.refl.refresh c) cs s

/-- A choice among the usable members of a chain made active, path costs written first. -/
theorem refreshCosts_setActive_reworks (s : State) (d : DestId) (cs : List CandId) (a : Option CandId)
    (ha : ∀ c, a = some c → s.candUsable c = true) : s.reworks ((s.refreshCosts cs).setActive d a) := by
  refine (refreshCosts_reworks s cs).activate d a fun r _ => ?_
  cases a with
  | none => exact .inr (.inl rfl)
  | some c =>
    have husable : (s.refreshCosts cs).candUsable c = s.candUsable c :=
      candUsable_congr (refreshCosts_sameButCost s cs c) (State.pathsOnly_link (refreshCosts_pathsOnly s cs))
        (State.pathsOnly_tuning (refreshCosts_pathsOnly s cs))
    exact .inr (.inr ⟨c, rfl, husable.trans (ha c rfl)⟩)

theorem selectNow_reworks (s : State) (d : DestId) : s.reworks (s.selectNow d) := by
  cases hr : s.dest d with
  | none => simpa [State.selectNow, hr] using State.reworks.refl
  | some r =>
    rw [selectNow_eq s d r hr]
    exact refreshCosts_setActive_reworks s d _ _ fun c hc => (List.mem_filter.1 (cheapest_mem hc)).2

theorem chainEditCheck_reworks (s : State) (d : DestId) : s.reworks (s.chainEditCheck d) := by
  unfold State.chainEditCheck
  split
  · exact .refl
  · split
    · exact selectNow_reworks s d
    · split
      · exact State.reworks.refl.refresh _
      · exact selectNow_reworks s d

theorem switchTest_reworks (s : State) (d : DestId) (r : Dest) (a : CandId) : s.reworks (s.switchTest d r a) := by
  unfold State.switchTest
  split
  · exact refreshCosts_reworks s _
  · next b hb =>
    split
    · exact refreshCosts_setActive_reworks s d _ _ fun c hc => Option.some.inj hc ▸ (challenger_eq_some hb).1
    · exact refreshCosts_reworks s _

theorem evaluateDest_reworks (s : State) (d : DestId) : s.reworks (s.evaluateDest d) := by
  unfold State.evaluateDest
  split
  · exact .refl
  · split
    · exact .refl
    · split
      · exact selectNow_reworks s d
      · split
        · exact switchTest_reworks s d _ _
        · exact selectNow_reworks s d

theorem selectNow_ite_reworks (s : State) (d : DestId) (p : Bool) : s.reworks (if p then s.selectNow d else s) := by
  split
  · exact selectNow_reworks s d
  · exact .refl

theorem usableLost_reworks (s : State) (i : LinkId) : s.reworks (s.usableLost i) :=
  foldl_reworks (fun s d => selectNow_ite_reworks s d _) _ s

theorem usableGained_reworks (s : State) (i : LinkId) : s.reworks (s.usableGained i) :=
  foldl_reworks (fun s d => selectNow_ite_reworks s d _) _ s

theorem detach_reworks (s : State) (c : CandId) : s.reworks (s.detach c) := by
  unfold State.detach
  split
  · exact .refl
  · next k _ => exact ((State.reworks.refl.rechain k.dest (·.erase c)).free c).dereference k.link

theorem afterRemoval_reworks (s : State) (d : DestId) : s.reworks (s.afterRemoval d) := by
  unfold State.afterRemoval
  split
  · exact .refl
  · split
    · exact State.reworks.refl.activate d none fun _ _ => .inr (.inl rfl)
    · exact chainEditCheck_reworks s d

theorem removeCand_reworks (s : State) (c : CandId) : s.reworks (s.removeCand c) := by
  unfold State.removeCand
  split
  · exact .refl
  · exact (detach_reworks s c).trans (afterRemoval_reworks _ _)

theorem rewriteCand_reworks (s : State) (c : CandId) (d : DestId) (mask : Byte) {n : Nat} (p : Option Placement)
    (hn : n ≤ 65535) : s.reworks (s.rewriteCand c d mask n p) := by
  have hmove (p : Placement) : s.reworks (s.moveCand c d p) :=
    State.reworks.refl.rechain d fun chain => placeIn p c (chain.erase c)
  have hmoved : s.reworks (match mask.getLsbD 1, p with | true, some q => s.moveCand c d q | _, _ => s) := by
    split
    · exact hmove _
    · exact .refl
  unfold State.rewriteCand
  dsimp only
  split
  · exact (hmoved.reprice c hn).trans (chainEditCheck_reworks _ d)
  · exact hmoved

theorem removeDest_reworks (s : State) (d : DestId) : s.reworks (s.removeDest d) := by
  unfold State.removeDest
  split
  · exact .refl
  · next r hr =>
    have hclear : s.updateDest d (fun r => { r with active := none, lastSwitch := none, switchCount := 0 }) =
        s.setDest d (some { r with active := none, lastSwitch := none, switchCount := 0 }) := by
      simp [State.updateDest, hr]
    exact (hclear ▸ State.reworks.refl.clear d |>.trans (foldl_reworks detach_reworks _ _)).remove d

theorem removeCandsOf_reworks (s : State) (i : LinkId) : s.reworks (s.removeCandsOf i) := by
  refine foldl_reworks (fun s c => ?_) _ s
  split
  · exact removeCand_reworks s c
  · exact .refl

theorem vacateLink_reworks (s : State) (i : LinkId) (before : LinkState) : s.reworks (s.vacateLink i before) := by
  have hvacant : s.reworks (s.setLink i none) := State.reworks.refl.vacate i
  unfold State.vacateLink
  split
  · exact hvacant.trans (usableLost_reworks _ i)
  · exact hvacant

theorem retireCascade_reworks (s : State) (i : LinkId) : s.reworks (s.retireCascade i) := by
  unfold State.retireCascade
  split
  · exact .refl
  · exact (removeCandsOf_reworks s i).trans (vacateLink_reworks _ i _)

/-! ### What such a sequence keeps -/

theorem State.reworks.tablesOnly {s t : State} (h : s.reworks t) : s.tablesOnly t := by
  induction h with
  | refl => rfl
  | refresh c _ ih => exact State.tablesOnly_trans ih (State.pathsOnly_tablesOnly (refreshCost_pathsOnly _ c))
  | activate d a _ _ ih => exact State.tablesOnly_trans ih (State.pathsOnly_tablesOnly (setActive_pathsOnly _ d a))
  | rechain d f _ ih => exact State.tablesOnly_trans ih (State.pathsOnly_tablesOnly (updateDest_pathsOnly _ d _))
  | reprice c _ _ ih => exact State.tablesOnly_trans ih (State.pathsOnly_tablesOnly (updateCand_pathsOnly _ c _))
  | free c _ ih => exact State.tablesOnly_trans ih rfl
  | dereference i _ ih => exact State.tablesOnly_trans ih (dropReference_tablesOnly _ i)
  | vacate i _ ih => exact State.tablesOnly_trans ih rfl
  | clear d _ ih => exact State.tablesOnly_trans ih (State.pathsOnly_tablesOnly (updateDest_pathsOnly _ d _))
  | remove d _ ih => exact State.tablesOnly_trans ih rfl

/-- A link record keeps everything but its reference count, which stays above 0 for a Retiring link (R20, R24). -/
def Link.rereferenced (l l' : Link) : Prop :=
  ∃ n, l' = { l with refs := n } ∧ (l.state = .retiring → 1 ≤ l.refs → 1 ≤ n)

theorem Link.rereferenced_rfl (l : Link) : l.rereferenced l := ⟨l.refs, rfl, fun _ h => h⟩

theorem Link.rereferenced_of_dropped {l l' : Link} (h : l.dropped = some l') : l.rereferenced l' := by
  unfold Link.dropped at h
  split at h <;> cases h
  next hkeep =>
  refine ⟨l.refs - 1, rfl, fun hr _ => ?_⟩
  have : ¬ l.refs ≤ 1 := fun h => hkeep ⟨hr, h⟩
  omega

theorem Link.rereferenced_trans {l m n : Link} (h : l.rereferenced m) (k : m.rereferenced n) : l.rereferenced n := by
  obtain ⟨_, rfl, hx⟩ := h
  obtain ⟨y, rfl, hy⟩ := k
  exact ⟨y, rfl, fun hr h1 => hy hr (hx hr h1)⟩

theorem State.reworks.link {s t : State} (h : s.reworks t) (i : LinkId) (l' : Link) (hl : t.link i = some l') :
    ∃ l, s.link i = some l ∧ l.rereferenced l' := by
  induction h generalizing l' with
  | refl => exact ⟨l', hl, l'.rereferenced_rfl⟩
  | refresh c _ ih => exact ih l' (by rwa [State.pathsOnly_link (refreshCost_pathsOnly _ c)] at hl)
  | activate d a _ _ ih => exact ih l' (by rwa [State.pathsOnly_link (setActive_pathsOnly _ d a)] at hl)
  | rechain d f _ ih => exact ih l' (by rwa [State.pathsOnly_link (updateDest_pathsOnly _ d _)] at hl)
  | reprice c _ _ ih => exact ih l' (by rwa [State.pathsOnly_link (updateCand_pathsOnly _ c _)] at hl)
  | free c _ ih => exact ih l' hl
  | dereference j _ ih =>
    rw [dropReference_link] at hl
    split at hl
    · next hj =>
      subst hj
      obtain ⟨m, hm, hdrop⟩ := Option.bind_eq_some_iff.1 hl
      obtain ⟨l, hl, hre⟩ := ih m hm
      exact ⟨l, hl, Link.rereferenced_trans hre (Link.rereferenced_of_dropped hdrop)⟩
    · exact ih l' hl
  | vacate j _ ih =>
    rw [link_setLink] at hl
    split at hl
    · cases hl
    · exact ih l' hl
  | clear d _ ih => exact ih l' (by rwa [State.pathsOnly_link (updateDest_pathsOnly _ d _)] at hl)
  | remove d _ ih => exact ih l' hl

/-- A destination record keeps its address and the range of its switch count (R49). -/
def Dest.sameAddress (r r' : Dest) : Prop := r'.address = r.address ∧ (r.switchCount ≤ 65535 → r'.switchCount ≤ 65535)

theorem Dest.withActive_sameAddress (r : Dest) (now : Time) (a : Option CandId) : r.sameAddress (r.withActive now a) := by
  refine ⟨r.withActive_address now a, fun h => ?_⟩
  rcases r.withActive_booked now a with he | ⟨-, -, he⟩
  · rwa [he]
  · omega

theorem State.reworks.dest {s t : State} (h : s.reworks t) (d : DestId) (r' : Dest) (hr : t.dest d = some r') :
    ∃ r, s.dest d = some r ∧ r.sameAddress r' := by
  induction h generalizing r' with
  | refl => exact ⟨r', hr, rfl, id⟩
  | refresh c _ ih => exact ih r' (by rwa [refreshCost_dest] at hr)
  | activate e a _ _ ih =>
    rw [setActive_dest] at hr
    split at hr
    · next he =>
      obtain ⟨q, hq, rfl⟩ := Option.map_eq_some_iff.1 hr
      obtain ⟨r, hr, hsame⟩ := ih q (he ▸ hq)
      exact ⟨r, hr, (q.withActive_sameAddress _ a).1.trans hsame.1, fun hc => (q.withActive_sameAddress _ a).2 (hsame.2 hc)⟩
    · exact ih r' hr
  | rechain e f _ ih =>
    rw [updateDest_dest] at hr
    split at hr
    · next he =>
      obtain ⟨q, hq, rfl⟩ := Option.map_eq_some_iff.1 hr
      exact ih q (he ▸ hq)
    · exact ih r' hr
  | reprice c _ _ ih => exact ih r' (by rwa [updateCand_dest] at hr)
  | free c _ ih => exact ih r' hr
  | dereference i _ ih => exact ih r' (by rwa [dropReference_dest] at hr)
  | vacate i _ ih => exact ih r' hr
  | clear e _ ih =>
    rw [updateDest_dest] at hr
    split at hr
    · next he =>
      obtain ⟨q, hq, rfl⟩ := Option.map_eq_some_iff.1 hr
      obtain ⟨r, hr, hsame⟩ := ih q (he ▸ hq)
      exact ⟨r, hr, hsame.1, fun _ => Nat.zero_le _⟩
    · exact ih r' hr
  | remove e _ ih =>
    rw [dest_setChanged, dest_setDest] at hr
    split at hr
    · cases hr
    · exact ih r' hr

theorem candCost_le (s : State) (c : CandId) : s.candCost c ≤ 65535 := by
  unfold State.candCost
  split
  · split
    · exact min_le_right _ _
    · exact le_rfl
  · exact le_rfl

/-- A candidate in use keeps the range of its remainder cost and of its last path cost (R54). -/
theorem State.reworks.cand {s t : State} (h : s.reworks t) (c : CandId) (k' : Cand) (hk : t.cand c = some k') :
    ∃ k, s.cand c = some k ∧ (k.remainder ≤ 65535 → k'.remainder ≤ 65535) ∧ (k.lastCost ≤ 65535 → k'.lastCost ≤ 65535) := by
  induction h generalizing k' with
  | refl => exact ⟨k', hk, id, id⟩
  | refresh e _ ih =>
    rw [refreshCost_cand] at hk
    split at hk
    · next he =>
      obtain ⟨q, hq, rfl⟩ := Option.map_eq_some_iff.1 hk
      obtain ⟨k, hk, hrem, -⟩ := ih q (he ▸ hq)
      exact ⟨k, hk, hrem, fun _ => candCost_le _ _⟩
    · exact ih k' hk
  | activate d a _ _ ih => exact ih k' (by rwa [setActive_cand] at hk)
  | rechain d f _ ih => exact ih k' (by rwa [updateDest_cand] at hk)
  | reprice e hn _ ih =>
    rw [updateCand_cand] at hk
    split at hk
    · next he =>
      obtain ⟨q, hq, rfl⟩ := Option.map_eq_some_iff.1 hk
      obtain ⟨k, hk, -, hlast⟩ := ih q (he ▸ hq)
      exact ⟨k, hk, fun _ => hn, hlast⟩
    · exact ih k' hk
  | free e _ ih =>
    rw [cand_setCand] at hk
    split at hk
    · cases hk
    · exact ih k' hk
  | dereference i _ ih => exact ih k' (by rwa [dropReference_cand] at hk)
  | vacate i _ ih => exact ih k' hk
  | clear d _ ih => exact ih k' (by rwa [updateDest_cand] at hk)
  | remove d _ ih => exact ih k' hk

theorem updateDest_dest_ne_none {s : State} {d e : DestId} {f : Dest → Dest} :
    (s.updateDest d f).dest e ≠ none ↔ s.dest e ≠ none := by
  rw [updateDest_dest]
  split
  · next h => rw [h]; simp
  · rfl

theorem State.reworks.changedInUse {s t : State} (h : s.reworks t) (hs : s.changedInUse) : t.changedInUse := by
  induction h with
  | refl => exact hs
  | refresh c _ ih => exact fun d hd => by rw [refreshCost_dest]; exact ih d (by rwa [refreshCost_changed] at hd)
  | activate e a _ _ ih =>
    intro d hd
    rw [setActive_changed] at hd
    rw [setActive_dest]
    split at hd
    · next hset =>
      obtain ⟨rfl, r, hr, -⟩ := hset
      simp [hr]
    · split
      · next he => simpa [he] using ih d hd
      · exact ih d hd
  | rechain e f _ ih => exact fun d hd => updateDest_dest_ne_none.2 (ih d (by rwa [updateDest_changed] at hd))
  | reprice c _ _ ih => exact fun d hd => by rw [updateCand_dest]; exact ih d (by rwa [updateCand_changed] at hd)
  | free c _ ih => exact ih
  | dereference i _ ih =>
    exact fun d hd => by rw [dropReference_dest]; exact ih d (by rwa [dropReference_changed] at hd)
  | vacate i _ ih => exact ih
  | clear e _ ih => exact fun d hd => updateDest_dest_ne_none.2 (ih d (by rwa [updateDest_changed] at hd))
  | remove e _ ih =>
    intro d hd
    rw [changed_setChanged] at hd
    rw [dest_setChanged, dest_setDest]
    split at hd
    · cases hd
    · next hne => rw [if_neg hne]; exact ih d hd

end Sys2Proof.Machine
end


section
/-! What one event can do to the tables, said once: at most one operation of the Link Table, the Path Table or the Path
Resolver. -/

namespace Sys2Proof.Machine

/-! ### What a step on a link record keeps -/

/-- The record is still that of the same station, named as often, and in the same state but for a change between Up and
Degraded. -/
structure Link.keepsStanding (l l' : Link) : Prop where
  radio : l'.radio = l.radio
  peer : l'.peer = l.peer
  refs : l'.refs = l.refs
  state : l'.state = l.state ∨ (l.state.isUsable = true ∧ l'.state.isUsable = true)

theorem Link.keepsStanding_rfl (l : Link) : l.keepsStanding l := ⟨rfl, rfl, rfl, .inl rfl⟩

theorem Link.keepsStanding_trans {l m n : Link} (h : l.keepsStanding m) (k : m.keepsStanding n) : l.keepsStanding n := by
  refine ⟨k.radio.trans h.radio, k.peer.trans h.peer, k.refs.trans h.refs, ?_⟩
  rcases k.state with hmn | ⟨hm, hn⟩
  · rw [hmn]; exact h.state
  · rcases h.state with hlm | ⟨hl, -⟩
    · exact .inr ⟨hlm ▸ hm, hn⟩
    · exact .inr ⟨hl, hn⟩

theorem Link.keepsStanding.isUsable {l l' : Link} (h : l.keepsStanding l') : l'.state.isUsable = l.state.isUsable := by
  rcases h.state with h | ⟨hl, hl'⟩
  · rw [h]
  · rw [hl, hl']

theorem Link.keepsStanding.eq_of_unusable {l l' : Link} (h : l.keepsStanding l') (hl : l.state.isUsable = false) :
    l'.state = l.state := h.state.resolve_right fun hu => by simp [hl] at hu

theorem evaluate_keepsStanding (t : Tuning) (l : Link) : l.keepsStanding (l.evaluate t) := by
  obtain ⟨st, ev, ow, h, hst⟩ := evaluate_spec t l
  rw [h]
  refine ⟨rfl, rfl, rfl, ?_⟩
  rcases hst with hst | ⟨hl, rfl⟩ | ⟨hl, rfl⟩
  · exact .inl hst
  · exact .inr ⟨by rw [hl]; rfl, rfl⟩
  · exact .inr ⟨by rw [hl]; rfl, rfl⟩

theorem changeSector_keepsStanding (t : Tuning) (h : Sector) (l : Link) : l.keepsStanding (l.changeSector t h) :=
  Link.keepsStanding_trans (m := { l with sector := h }.clearFollow.resetEstimates) ⟨rfl, rfl, rfl, .inl rfl⟩
    (evaluate_keepsStanding t _)

theorem measureBeacon_keepsStanding (now : Time) (l : Link) : l.keepsStanding (l.measureBeacon now) := by
  obtain ⟨gs, gc, iv, h, -⟩ := measureBeacon_cases now l
  rw [h]
  exact ⟨rfl, rfl, rfl, .inl rfl⟩

theorem followBeacon_keepsStanding (t : Tuning) (h : Sector) (l : Link) : l.keepsStanding (l.followBeacon t h) := by
  unfold Link.followBeacon
  split
  · exact l.keepsStanding_rfl
  · split
    · exact ⟨rfl, rfl, rfl, .inl rfl⟩
    · generalize (if l.followSector = some h then l.agree + 1 else 1) = n
      dsimp only
      split
      · exact Link.keepsStanding_trans (m := l.addEvent .sectorMoved) ⟨rfl, rfl, rfl, .inl rfl⟩
          (changeSector_keepsStanding t h _)
      · exact ⟨rfl, rfl, rfl, .inl rfl⟩

theorem hear_keepsStanding (t : Tuning) (now : Time) (x : Nat) (h : Sector) (b : Bool) (l : Link) :
    l.keepsStanding (l.hear t now x h b) := by
  have hlast : l.keepsStanding { l with lastHeard := some now } := ⟨rfl, rfl, rfl, .inl rfl⟩
  have hsample (m : Link) : m.keepsStanding ((m.sampleSnr t (x * 4)).evaluate t) :=
    Link.keepsStanding_trans (m := m.sampleSnr t (x * 4)) ⟨rfl, rfl, rfl, .inl rfl⟩ (evaluate_keepsStanding t _)
  unfold Link.hear
  refine Link.keepsStanding_trans ?_ (hsample _)
  split
  · exact Link.keepsStanding_trans hlast
      (Link.keepsStanding_trans (measureBeacon_keepsStanding now _) (followBeacon_keepsStanding t h _))
  · exact hlast

theorem takeOutcome_keepsStanding (t : Tuning) (now : Time) (r : Rate) (n : Nat) (acked : Bool) (l : Link) :
    l.keepsStanding (l.takeOutcome t now r n acked) := by
  unfold Link.takeOutcome
  refine Link.keepsStanding_trans ?_ (evaluate_keepsStanding t _)
  split <;> exact ⟨rfl, rfl, rfl, .inl rfl⟩

theorem writeMasked_keepsStanding (t : Tuning) (mask : Byte) (h : Option Sector) (m : Option SectorMode)
    (pin : Option Rate) (l : Link) : l.keepsStanding (l.writeMasked t mask h m pin) := by
  have hsector (h : Sector) (l : Link) : l.keepsStanding (l.writeSector t h) := by
    unfold Link.writeSector
    split
    · exact l.keepsStanding_rfl
    · exact changeSector_keepsStanding t h l
  have hmode (m : SectorMode) (l : Link) : l.keepsStanding (l.writeMode m) := by
    unfold Link.writeMode
    split <;> exact ⟨rfl, rfl, rfl, .inl rfl⟩
  have hpin (l : Link) : l.keepsStanding (l.writePin t pin) := by
    unfold Link.writePin
    split
    · exact l.keepsStanding_rfl
    · exact Link.keepsStanding_trans (m := { l with pinned := pin }) ⟨rfl, rfl, rfl, .inl rfl⟩ (evaluate_keepsStanding t _)
  have hfirst : l.keepsStanding (match mask.getLsbD 0, h with | true, some h => l.writeSector t h | _, _ => l) := by
    split
    · exact hsector _ l
    · exact l.keepsStanding_rfl
  have hsecond (l : Link) : l.keepsStanding (match mask.getLsbD 1, m with | true, some m => l.writeMode m | _, _ => l) := by
    split
    · exact hmode _ l
    · exact l.keepsStanding_rfl
  have hthird (l : Link) : l.keepsStanding (if mask.getLsbD 2 then l.writePin t pin else l) := by
    split
    · exact hpin l
    · exact l.keepsStanding_rfl
  exact Link.keepsStanding_trans (Link.keepsStanding_trans hfirst (hsecond _)) (hthird _)

/-! ### What an event does to a link record -/

/-- The record of a link that a HEARD REPORT is handled against came Up with it (R8, R9). -/
def Link.rises (t : Tuning) (now : Time) (x : Nat) (h : Sector) (b : Bool) (l : Link) : Bool :=
  !(l.hear t now x h b).state.isUsable && ((l.hear t now x h b).countHearing t).state.isUsable

/-- The record of a link once a HEARD REPORT has been handled against it (R6). -/
def Link.afterHeard (t : Tuning) (now : Time) (x : Nat) (h : Sector) (b : Bool) (l : Link) : Link :=
  let counted := (l.hear t now x h b).countHearing t
  (if l.rises t now x h b then counted.evaluate t else counted).computeDeadline t

/-- What an event makes of the record of a link in use, `none` for Vacant; the state gives the time, the part state and the
figures of the Control Port. -/
inductive Link.moves (s : State) (l : Link) : Option Link → Prop
  | masked (mask : Byte) (h : Option Sector) (m : Option SectorMode) (pin : Option Rate) (hr : l.state ≠ .retiring) :
      moves s l (some (l.writeMasked s.tuning mask h m pin))
  | eventsRead : moves s l (some { l with events := {} })
  | okAnswer (hpart : s.part = .operational) (hu : l.state.isUsable = true) :
      moves s l (some (l.afterOkAnswer s.tuning))
  | outcome (r : Rate) (n : Nat) (acked : Bool) (hpart : s.part = .operational)
      (hstate : l.state.mayHoldDeadline = true) :
      moves s l (some (l.takeOutcome s.tuning s.now r (clampAttempts n) acked))
  | heard {x : Nat} (h : Sector) (b : Bool) (hpart : s.part = .operational) (hr : l.state ≠ .retiring) (hx : x ≤ 63) :
      moves s l (some (l.afterHeard s.tuning s.now x h b))
  | expired (hpart : s.part = .operational) (hd : l.deadline = some s.now) : moves s l (some l.expire)
  | retired (hr : l.state ≠ .retiring) (hrefs : l.refs ≠ 0) : moves s l (some l.retire)
  | retuned (hr : l.state ≠ .retiring) : moves s l (some l.retune)
  | vacated (hrefs : l.refs = 0) : moves s l none

/-- The record is in use and usable. -/
def usableRecord (x : Option Link) : Bool := x.any (·.state.isUsable)

@[simp] theorem usableRecord_some (l : Link) : usableRecord (some l) = l.state.isUsable := rfl
@[simp] theorem usableRecord_none : usableRecord none = false := rfl

/-- The record `x` written for the link `i`, which held `l`, with the notice that its loss or gain of usability sends (R18,
R19). -/
def State.moveLink (s : State) (i : LinkId) (l : Link) (x : Option Link) : State :=
  if l.state.isUsable && !usableRecord x then (s.setLink i x).usableLost i
  else if !l.state.isUsable && usableRecord x then (s.setLink i x).usableGained i
  else s.setLink i x

theorem moveLink_of_same {l : Link} {x : Option Link} (h : usableRecord x = l.state.isUsable) (s : State) (i : LinkId) :
    s.moveLink i l x = s.setLink i x := by
  simp [State.moveLink, h]

theorem moveLink_of_unusable {x : Option Link} (h : usableRecord x = false) (s : State) (i : LinkId) (l : Link) :
    s.moveLink i l x = if l.state.isUsable then (s.setLink i x).usableLost i else s.setLink i x := by
  simp [State.moveLink, h]

theorem moveLink_linkWritten (s : State) (i : LinkId) (l : Link) (x : Option Link) :
    s.linkWritten (s.moveLink i l x) i x := by
  unfold State.moveLink
  split
  · exact (lost_linkWritten s i x).1
  · split
    · exact (gained_linkWritten s i x).1
    · exact setLink_linkWritten s i x

/-- The notice alone works on the Path Table. -/
theorem moveLink_reworks (s : State) (i : LinkId) (l : Link) (x : Option Link) :
    (s.setLink i x).reworks (s.moveLink i l x) := by
  unfold State.moveLink
  split
  · exact usableLost_reworks _ i
  · split
    · exact usableGained_reworks _ i
    · exact .refl

/-! ### Each operation on one link as such a move -/

theorem vacateLink_eq_moveLink (s : State) (i : LinkId) (l : Link) : s.vacateLink i l.state = s.moveLink i l none := by
  rw [moveLink_of_unusable usableRecord_none]
  rfl

theorem retireAlone_moves {s : State} {i : LinkId} {l : Link} (hl : s.link i = some l) :
    s.retireAlone i = s ∨ ∃ x, Link.moves s l x ∧ s.retireAlone i = s.moveLink i l x := by
  unfold State.retireAlone
  simp only [hl]
  split
  · exact .inl rfl
  · next hr =>
    split
    · next hrefs => exact .inr ⟨none, .vacated hrefs, vacateLink_eq_moveLink s i l⟩
    · next hrefs =>
      refine .inr ⟨some l.retire, .retired hr hrefs, ?_⟩
      rw [moveLink_of_unusable (x := some l.retire) rfl]

theorem expireLink_moves (s : State) (i : LinkId) :
    s.expireLink i = s ∨ ∃ l, s.link i = some l ∧ Link.moves s l (some l.expire) ∧
      s.expireLink i = s.moveLink i l (some l.expire) := by
  by_cases hdue : s.dueAt s.now i
  · obtain ⟨hpart, l, hl, hd⟩ := hdue
    refine .inr ⟨l, hl, .expired hpart hd, ?_⟩
    rw [expireLink_of_due hl hpart hd, moveLink_of_unusable (x := some l.expire) rfl]
  · exact .inl (expireLink_of_not_due hdue)

theorem retuneLink_eq {s : State} {i : LinkId} {l : Link} (hl : s.link i = some l) :
    s.retuneLink i = s.moveLink i l (some l.retune) := by
  rw [moveLink_of_unusable (x := some l.retune) rfl]
  simp [State.retuneLink, hl]

/-! ### A link heard (R6) -/

theorem countHearing_of_usable {t : Tuning} {l : Link} (h : l.state.isUsable = true) : l.countHearing t = l := by
  unfold Link.countHearing
  rcases isUsable_iff.1 h with h | h <;> rw [h]

theorem afterHeard_isUsable (t : Tuning) (now : Time) (x : Nat) (h : Sector) (b : Bool) (l : Link) :
    (l.afterHeard t now x h b).state.isUsable = ((l.hear t now x h b).countHearing t).state.isUsable := by
  unfold Link.afterHeard
  dsimp only
  split
  · exact evaluate_isUsable _ _
  · rfl

theorem rises_eq (t : Tuning) (now : Time) (x : Nat) (h : Sector) (b : Bool) (l : Link) :
    l.rises t now x h b = (!l.state.isUsable && (l.afterHeard t now x h b).state.isUsable) := by
  rw [afterHeard_isUsable, Link.rises, (hear_keepsStanding t now x h b l).isUsable]

@[simp] theorem setLink_tuning (s : State) (i : LinkId) (x : Option Link) : (s.setLink i x).tuning = s.tuning := rfl

/-- What follows a link's coming Up, in one: its record evaluated with its deadline, and the notice (R8, R19). -/
theorem finishRise_setLink (s : State) (i : LinkId) (m : Link) : (s.setLink i (some m)).finishRise i =
    (s.setLink i (some ((m.evaluate s.tuning).computeDeadline s.tuning))).usableGained i := by
  obtain ⟨-, hlink, -⟩ := (gained_linkWritten s i (some m)).1
  have hi : ((s.setLink i (some m)).usableGained i).link i = some m := by simpa using hlink i
  have hwritten : (s.setLink i (some m)).finishRise i = ((s.setLink i (some m)).usableGained i).setLink i
      (some ((m.evaluate s.tuning).computeDeadline s.tuning)) := by
    simp only [State.finishRise, State.updateLink, hi, setLink_tuning]
  rw [hwritten, usableGained_setLink (evaluate_alike s.tuning m)]

/-- The handling of a heard link writes its record with the notice of its rise, in one (R6, R8, R19). -/
theorem handleHeard_eq {s : State} {i : LinkId} {l : Link} (hl : s.link i = some l) (x : Nat) (h : Sector) (b : Bool) :
    s.handleHeard i x h b = s.moveLink i l (some (l.afterHeard s.tuning s.now x h b)) := by
  have hrises := rises_eq s.tuning s.now x h b l
  have hstands := (hear_keepsStanding s.tuning s.now x h b l).isUsable
  have hunfold : s.handleHeard i x h b = if l.rises s.tuning s.now x h b then
      (s.setLink i (some ((l.hear s.tuning s.now x h b).countHearing s.tuning))).finishRise i
      else s.setLink i (some (((l.hear s.tuning s.now x h b).countHearing s.tuning).computeDeadline s.tuning)) := by
    simp only [State.handleHeard, hl]
    rfl
  rw [hunfold]
  cases hr : l.rises s.tuning s.now x h b
  · have hsame : usableRecord (some (l.afterHeard s.tuning s.now x h b)) = l.state.isUsable := by
      rw [usableRecord_some]
      cases hu : l.state.isUsable
      · simpa [hr, hu] using hrises.symm
      · rw [afterHeard_isUsable, countHearing_of_usable (hstands.trans hu), hstands, hu]
    rw [moveLink_of_same hsame]
    simp [Link.afterHeard, hr]
  · have hu : l.state.isUsable = false ∧ (l.afterHeard s.tuning s.now x h b).state.isUsable = true := by
      simpa [hr] using hrises.symm
    have hmove (y : Option Link) (hy : usableRecord y = true) : s.moveLink i l y = (s.setLink i y).usableGained i := by
      simp [State.moveLink, hu.1, hy]
    rw [if_pos rfl, finishRise_setLink, hmove (some _) hu.2]
    simp [Link.afterHeard, hr]

/-- Every rewriting of a record that keeps its standing is a move with no notice. -/
theorem setLink_eq_moveLink {l l' : Link} (h : l.keepsStanding l') (s : State) (i : LinkId) :
    s.setLink i (some l') = s.moveLink i l (some l') :=
  (moveLink_of_same (x := some l') h.isUsable s i).symm

/-! ### What one event does to the tables -/

/-- Of the part only the query queue and the report queues differ, which no operation on the tables reads or writes. -/
structure State.besideTables (s t : State) : Prop where
  only : t = { s with queries := t.queries, ports := t.ports }
  present : ∀ p, (t.port p).present = (s.port p).present

theorem State.besideTables_rfl (s : State) : s.besideTables s := ⟨rfl, fun _ => rfl⟩

/-- The four tables and the Timebase count are the same. -/
structure State.sameTables (s t : State) : Prop where
  links : t.links = s.links
  dests : t.dests = s.dests
  cands : t.cands = s.cands
  changed : t.changed = s.changed
  now : t.now = s.now

theorem State.sameTables_rfl (s : State) : s.sameTables s := ⟨rfl, rfl, rfl, rfl, rfl⟩

/-- What an event does to the tables: one constructor for each operation. -/
inductive State.retables (s : State) : State → Prop
  | unmoved : retables s s
  | cleared : retables s State.reset
  | linkAdded {i : LinkId} {r : Radio} {peer : Addr} (h : Sector) (m : SectorMode) (hvacant : s.vacantLink = some i)
      (hpresent : (s.port r).present = true) (hpeer : isGroup peer = false) (hfind : s.findLink r peer = none) :
      retables s (s.setLink i (some (Link.fresh r peer h m)))
  | linkMoved {i : LinkId} {l : Link} {x : Option Link} (hl : s.link i = some l) (hm : Link.moves s l x) :
      retables s (s.moveLink i l x)
  | cascade {i : LinkId} {l : Link} (hl : s.link i = some l) : retables s (s.retireCascade i)
  | rise (is : List LinkId) : retables s ({ s with now := s.now + 1 }.expireDue is)
  | destAdded {d : DestId} {a : Addr} (hvacant : s.vacantDest = some d) (ha : isGroup a = false) (hfind : s.findDest a = none) :
      retables s (s.setDest d (some (Dest.fresh a)))
  | destRemoved {d : DestId} {r : Dest} (hr : s.dest d = some r) : retables s (s.removeDest d)
  | candAdded {d : DestId} {i : LinkId} {r : Dest} {l : Link} {c : CandId} {n : Nat} (p : Placement)
      (hr : s.dest d = some r) (hl : s.link i = some l) (hstate : l.state ≠ .retiring)
      (hnames : s.chainNames r.chain i = false) (hlen : r.chain.length < 4) (hc : s.cand c = none) (hn : n ≤ 65535) :
      retables s (s.enlist c d i n p)
  | candRewritten {c : CandId} {k : Cand} {n : Nat} (mask : Byte) (p : Option Placement) (hk : s.cand c = some k)
      (hn : n ≤ 65535) : retables s (s.rewriteCand c k.dest mask n p)
  | candRemoved {c : CandId} {k : Cand} (hk : s.cand c = some k) : retables s (s.removeCand c)
  | evaluated (d : DestId) : retables s (s.evaluateDest d)
  | changesTaken {ch : Vector Bool 128} (h : ∀ d, ch.get d = true → s.changed.get d = true) :
      retables s { s with changed := ch }

theorem State.carriesOut.retables {c : Instr} {s u : State} (h : s.carriesOut c u) :
    ∃ v, s.retables v ∧ v.sameTables u := by
  cases h with
  | read | loadRateProfile | setParameter | goOperational | arm | moveCursor | readPortStatus | flushReports
  | readJobNotice | stopJob => exact ⟨s, .unmoved, rfl, rfl, rfl, rfl, rfl⟩
  | startJob j => cases j <;> exact ⟨s, .unmoved, rfl, rfl, rfl, rfl, rfl⟩
  | softReset => exact ⟨_, .cleared, rfl, rfl, rfl, rfl, rfl⟩
  | addLink hvacant hpresent hpeer hfind =>
    exact ⟨_, .linkAdded _ _ hvacant hpresent hpeer hfind, State.sameTables_rfl _⟩
  | @updateLink _ i l mask h m pin hl hr =>
    rw [setLink_eq_moveLink (writeMasked_keepsStanding s.tuning mask h m pin l)]
    exact ⟨_, .linkMoved hl (.masked mask h m pin hr), State.sameTables_rfl _⟩
  | retireCascade hl => exact ⟨_, .cascade hl, State.sameTables_rfl _⟩
  | retireAlone hl =>
    rcases retireAlone_moves hl with h | ⟨x, hm, h⟩ <;> rw [h]
    · exact ⟨s, .unmoved, State.sameTables_rfl s⟩
    · exact ⟨_, .linkMoved hl hm, State.sameTables_rfl _⟩
  | addDestination hvacant ha hfind => exact ⟨_, .destAdded hvacant ha hfind, State.sameTables_rfl _⟩
  | removeDestination hr => exact ⟨_, .destRemoved hr, State.sameTables_rfl _⟩
  | addCandidate hr hl hstate hnames hlen hc hn =>
    exact ⟨_, .candAdded _ hr hl hstate hnames hlen hc hn, State.sameTables_rfl _⟩
  | updateCandidate mask p hk hn => exact ⟨_, .candRewritten mask p hk hn, State.sameTables_rfl _⟩
  | removeCandidate hk => exact ⟨_, .candRemoved hk, State.sameTables_rfl _⟩
  | @readLinkEvents _ i l hl =>
    rw [setLink_eq_moveLink (l := l) (l' := { l with events := {} }) ⟨rfl, rfl, rfl, .inl rfl⟩]
    exact ⟨_, .linkMoved hl .eventsRead, State.sameTables_rfl _⟩
  | takeChanges h => exact ⟨_, .changesTaken h, State.sameTables_rfl _⟩

/-- The handling of a report writes at most one link record (R113 to R115). -/
theorem handleReport_retables {s : State} (hpart : s.part = .operational) (p : Radio) (r : Report) :
    s.retables (s.handleReport p r) := by
  cases r with
  | outcome id peer rate attempts acked =>
    show s.retables (s.takeOutcome p id peer rate attempts acked)
    unfold State.takeOutcome
    split
    · next q i l hq ha =>
      obtain ⟨-, hl, hr, hd, -⟩ := askedLink_eq_some ha
      split
      · rw [setLink_eq_moveLink (takeOutcome_keepsStanding s.tuning s.now q _ _ l)]
        refine .linkMoved hl (.outcome q _ _ hpart ?_)
        cases hstate : l.state <;> simp_all [LinkState.mayHoldDeadline]
      · exact .unmoved
    · exact .unmoved
  | heard peer snr sector beacon =>
    show s.retables (s.takeHeard p peer snr sector beacon)
    unfold State.takeHeard
    split
    · next h i hh hf =>
      split
      · next l hl =>
        split
        · exact .unmoved
        · next hr =>
          rw [handleHeard_eq hl]
          exact .linkMoved hl (.heard h _ hpart hr (min_le_right _ _))
      · exact .unmoved
    · exact .unmoved
  | unrecognised bytes => exact .unmoved

/-- Resolving the head of the query queue evaluates at most one destination (R97). -/
theorem resolveHead_retables (s : State) : ∃ v, s.retables v ∧ v.sameTables s.resolveHead := by
  rcases resolveHead_cases s with h | ⟨q, rest, a, u, -, -, -, h, hu⟩
  · exact ⟨s, .unmoved, h.symm ▸ State.sameTables_rfl s⟩
  · rw [h]
    rcases hu with rfl | ⟨d, -, -, rfl⟩
    · exact ⟨_, .unmoved, rfl, rfl, rfl, rfl, rfl⟩
    · exact ⟨_, .evaluated d, rfl, rfl, rfl, rfl, rfl⟩

/-- A PARAM REQUEST moves at most the asked link's probe counter (R41, R109). -/
theorem answerRequest_retables (s : State) (p : Radio) (id : Byte) :
    ∃ v, s.retables v ∧ v.sameTables (s.answerRequest p id) := by
  have hheld (a : ParamAnswer) : ∃ v, s.retables v ∧ v.sameTables (s.holdAnswer p a) := ⟨s, .unmoved, rfl, rfl, rfl, rfl, rfl⟩
  unfold State.answerRequest
  split
  · exact hheld _
  · next hpart =>
    split
    · exact hheld _
    · next i l ha =>
      obtain ⟨-, hl, hr, hd, -⟩ := askedLink_eq_some ha
      split
      · exact hheld _
      · next hprobation =>
        have hu : l.state.isUsable = true := by cases hstate : l.state <;> simp_all [LinkState.isUsable]
        rw [setLink_eq_moveLink (l := l) (l' := l.afterOkAnswer s.tuning) ⟨rfl, rfl, rfl, .inl rfl⟩]
        exact ⟨_, .linkMoved hl (.okAnswer hpart hu), rfl, rfl, rfl, rfl, rfl⟩

theorem State.undergoes.retables {c : Instr} {s t : State} (h : s.undergoes c t) :
    ∃ u v, s.besideTables u ∧ u.retables v ∧ v.sameTables t := by
  cases h with
  | softReset | powerOnReset => exact ⟨s, _, s.besideTables_rfl, .cleared, rfl, rfl, rfl, rfl, rfl⟩
  | powerOnResetEnd | initialisationEnd | queryWaits | paramAnswer | report | reportDiscarded | passingVisit =>
    exact ⟨s, _, s.besideTables_rfl, .unmoved, rfl, rfl, rfl, rfl, rfl⟩
  | queryResolved tag a =>
    obtain ⟨v, hv, hsame⟩ := resolveHead_retables { s with queries := [⟨tag, a, none⟩] }
    exact ⟨{ s with queries := [⟨tag, a, none⟩] }, v, ⟨rfl, fun _ => rfl⟩, hv, hsame⟩
  | @pathAnswer _ _ rest =>
    obtain ⟨v, hv, hsame⟩ := resolveHead_retables { s with queries := rest }
    exact ⟨{ s with queries := rest }, v, ⟨rfl, fun _ => rfl⟩, hv, hsame⟩
  | paramRequest id =>
    obtain ⟨v, hv, hsame⟩ := answerRequest_retables s _ id
    exact ⟨s, v, s.besideTables_rfl, hv, hsame⟩
  | @reportHandled _ p r rest hpart =>
    have htaken := handleReport_retables (s := s.setPort p { s.port p with reports := rest }) hpart p r
    refine ⟨s.setPort p { s.port p with reports := rest }, _, ⟨rfl, fun o => ?_⟩, htaken, State.sameTables_rfl _⟩
    rw [port_setPort]
    split
    · next ho => rw [ho]
    · rfl
  | tick => exact ⟨s, _, s.besideTables_rfl, .rise _, State.sameTables_rfl _⟩
  | expiry _ i =>
    rcases expireLink_moves s i with h | ⟨l, hl, hm, h⟩ <;> rw [h]
    · exact ⟨s, s, s.besideTables_rfl, .unmoved, State.sameTables_rfl s⟩
    · exact ⟨s, _, s.besideTables_rfl, .linkMoved hl hm, State.sameTables_rfl _⟩
  | retireVisit _ _ _ hl => exact ⟨s, _, s.besideTables_rfl, .cascade hl, rfl, rfl, rfl, rfl, rfl⟩
  | retuneVisit _ _ _ hl hr =>
    rw [retuneLink_eq hl]
    exact ⟨s, _, s.besideTables_rfl, .linkMoved hl (.retuned hr), rfl, rfl, rfl, rfl, rfl⟩
  | pruneVisit _ _ _ hr => exact ⟨s, _, s.besideTables_rfl, .destRemoved hr, rfl, rfl, rfl, rfl, rfl⟩

theorem beginFrame_only (s : State) : s.beginFrame = { s with frame := s.beginFrame.frame } := by
  unfold State.beginFrame
  split <;> rfl

theorem State.frames.only {c : Instr} {s t : State} (h : s.frames c t) :
    t = { s with frame := t.frame, hand := t.hand } := by
  cases h with
  | commandTaken _ begins bytes =>
    rw [foldl_clockByte_only]
    cases begins
    · rfl
    · rw [if_pos rfl, beginFrame_only]
  | ignoredFrame h => rw [beginFrame_only]
  | withdrawn => rfl

theorem exec_retables {c : Instr} {s t : State} (h : exec c s = .next t) :
    ∃ u v, s.besideTables u ∧ u.retables v ∧ v.sameTables t := by
  cases exec_becomes h with
  | unmoved | refused => exact ⟨s, s, s.besideTables_rfl, .unmoved, rfl, rfl, rfl, rfl, rfl⟩
  | answered rs _ hu =>
    obtain ⟨v, hv, hsame⟩ := hu.retables
    exact ⟨s, v, s.besideTables_rfl, hv, hsame.links, hsame.dests, hsame.cands, hsame.changed, hsame.now⟩
  | framed hf =>
    rw [hf.only]
    exact ⟨s, s, s.besideTables_rfl, .unmoved, rfl, rfl, rfl, rfl, rfl⟩
  | undergone hu => exact hu.retables

end Sys2Proof.Machine
end


section
/-! The part's settings: what one event can write of the part state, the parameters, the rate profile, the Timebase count
and the cursor, and the obligations about who writes them and in what range they stay. -/

namespace Sys2Proof.Machine

/-! ### The settings that one event writes -/

/-- Part state, parameters, rate profile, Timebase count and cursor. -/
structure Settings where
  part : PartState
  params : Vector Nat 22
  profile : Vector RateEntry 12
  now : Time
  cursor : Cursor

def State.settings (s : State) : Settings := ⟨s.part, s.params, s.profile, s.now, s.cursor⟩

/-- What an event can do to the settings: leave them, write one of them, or reset them all. -/
inductive State.settles (c : Instr) (s : State) (t : Settings) : Prop
  | kept (h : t = s.settings)
  | part (hc : c = .goOperational) (h : t = { s.settings with part := .operational })
  | params {p : ParamNo} {x : Nat} (hc : c = .setParameter) (hcross : crossesThresholds s p (clampParam p x) = false)
      (h : t = { s.settings with params := put s.params p (clampParam p x) })
  | profile {es : List RateEntry} {v : Vector RateEntry 12} (hc : c = .loadRateProfile) (hv : profileOf es = some v)
      (hvalid : profileValid es = true) (h : t = { s.settings with profile := v })
  | now (hc : c = .millisecondTick) (h : t = { s.settings with now := s.now + 1 })
  | cursor {u : Cursor} (hc : c = .setCursor ∨ c = .readAtCursor) (hu : u.index ≤ u.table.size)
      (h : t = { s.settings with cursor := u })
  | reset (hc : isReset c = true) (h : t = State.reset.settings)

theorem State.tablesOnly.settings {s t : State} (h : s.tablesOnly t) : t.settings = s.settings := by rw [h]; rfl

theorem State.carriesOut.settles {c : Instr} {s u : State} (h : s.carriesOut c u) : s.settles c u.settings := by
  have hwork {u : State} (h : s.reworks u) : s.settles c u.settings := .kept h.tablesOnly.settings
  cases h with
  | read | arm | addLink | updateLink | addDestination | readLinkEvents | takeChanges | readPortStatus | flushReports
  | readJobNotice | stopJob => exact .kept rfl
  | startJob j => cases j <;> exact .kept rfl
  | loadRateProfile hp hvalid => exact .profile rfl hp hvalid rfl
  | setParameter hcross => exact .params rfl hcross rfl
  | goOperational => exact .part rfl rfl
  | softReset => exact .reset rfl rfl
  | moveCursor hc hu => exact .cursor hc hu rfl
  | retireCascade => exact hwork (retireCascade_reworks s _)
  | retireAlone hl =>
    rcases retireAlone_moves hl with h | ⟨x, -, h⟩ <;> rw [h]
    · exact .kept rfl
    · exact .kept (moveLink_linkWritten s _ _ x).1.settings
  | removeDestination => exact hwork (removeDest_reworks s _)
  | addCandidate => exact .kept (enlist_tablesOnly s _ _ _ _ _).settings
  | updateCandidate mask p hk => exact .kept (State.pathsOnly_tablesOnly (rewriteCand_spec s _ _ mask _ p hk).1).settings
  | removeCandidate => exact hwork (removeCand_reworks s _)

theorem resolveHead_settings (s : State) : s.resolveHead.settings = s.settings := by
  rcases resolveHead_cases s with h | ⟨q, rest, a, u, -, -, -, h, rfl | ⟨d, -, -, rfl⟩⟩ <;> rw [h]
  · rfl
  · exact (evaluateDest_reworks s d).tablesOnly.settings

theorem answerRequest_settings (s : State) (p : Radio) (id : Byte) : (s.answerRequest p id).settings = s.settings := by
  unfold State.answerRequest
  split
  · rfl
  · split
    · rfl
    · split <;> rfl

theorem handleReport_settings (s : State) (p : Radio) (r : Report) : (s.handleReport p r).settings = s.settings := by
  rcases handleReport_cases s p r with h | ⟨i, l, l', -, hw, -⟩
  · rw [h]
  · exact hw.1.settings

theorem expireLink_settings (s : State) (i : LinkId) : (s.expireLink i).settings = s.settings := by
  rcases expireLink_moves s i with h | ⟨l, -, -, h⟩ <;> rw [h]
  exact (moveLink_linkWritten s i l _).1.settings

theorem State.undergoes.settles {c : Instr} {s t : State} (h : s.undergoes c t) : s.settles c t.settings := by
  cases h with
  | softReset | powerOnReset => exact .reset rfl rfl
  | powerOnResetEnd | initialisationEnd | queryWaits | paramAnswer | report | reportDiscarded | passingVisit =>
    exact .kept rfl
  | queryResolved | pathAnswer => exact .kept (resolveHead_settings _)
  | paramRequest id => exact .kept (answerRequest_settings s _ id)
  | reportHandled => exact .kept (handleReport_settings _ _ _)
  | tick => exact .now rfl (expireDue_spec _ _).1.settings
  | expiry _ i => exact .kept (expireLink_settings s i)
  | retireVisit => exact .kept (retireCascade_reworks s _).tablesOnly.settings
  | retuneVisit _ _ _ hl =>
    rw [retuneLink_eq hl]
    exact .kept (moveLink_linkWritten s _ _ _).1.settings
  | pruneVisit => exact .kept (removeDest_reworks s _).tablesOnly.settings

theorem exec_settles {c : Instr} {s t : State} (h : exec c s = .next t) : s.settles c t.settings := by
  cases exec_becomes h with
  | unmoved | refused => exact .kept rfl
  | answered rs _ hu => exact hu.settles
  | framed hf => rw [hf.only]; exact .kept rfl
  | undergone hu => exact hu.settles

/-! ### The ranges of the settings (R29, R166, R167) -/

theorem clampParam_allowed (p : ParamNo) (x : Nat) : paramAllowed p (clampParam p x) := by
  have hbounds : Param.lowest.get p ≤ Param.highest.get p := by revert p; decide
  unfold clampParam
  split
  · next hdepth =>
    have hlow : Param.lowest.get p = 1 ∧ Param.highest.get p = 8 := by rcases hdepth with rfl | rfl <;> decide
    have hclamp : clampDepth x = 1 ∨ clampDepth x = 2 ∨ clampDepth x = 4 ∨ clampDepth x = 8 := by
      unfold clampDepth
      split_ifs <;> simp
    exact ⟨by omega, by omega, fun _ => hclamp⟩
  · next hdepth => exact ⟨le_max_left _ _, max_le hbounds (min_le_right _ _), fun h => absurd h hdepth⟩

theorem param_put (s : State) (p q : ParamNo) (v : Nat) :
    ({ s with params := put s.params p v } : State).param q = if q = p then v else s.param q := get_put _ _ _ _

/-- A write that the guard of R167 lets through leaves the recover threshold below the degrade threshold. -/
theorem thresholds_of_not_crossing {s : State} {p : ParamNo} {v : Nat}
    (h : s.param Param.recoverThreshold < s.param Param.degradeThreshold) (hcross : crossesThresholds s p v = false) :
    ({ s with params := put s.params p v } : State).param Param.recoverThreshold <
      ({ s with params := put s.params p v } : State).param Param.degradeThreshold := by
  have hdistinct : Param.recoverThreshold ≠ Param.degradeThreshold := by decide
  simp only [crossesThresholds, Bool.or_eq_false_iff, Bool.and_eq_false_imp, beq_iff_eq, decide_eq_false_iff_not,
    not_le] at hcross
  rw [param_put, param_put]
  split
  · next hp => rw [if_neg (hp ▸ hdistinct.symm)]; exact hcross.2 hp.symm
  · split
    · next hp => exact hcross.1 hp.symm
    · exact h

theorem setParameter_paramsInRange {s : State} {p : ParamNo} {x : Nat} (hs : s.paramsInRange)
    (hcross : crossesThresholds s p (clampParam p x) = false) :
    ({ s with params := put s.params p (clampParam p x) } : State).paramsInRange := by
  refine ⟨fun q => ?_, thresholds_of_not_crossing hs.2 hcross⟩
  rw [param_put]
  split
  · next h => exact h ▸ clampParam_allowed p x
  · exact hs.1 q

/-- The check of R30 on a list of entries. -/
theorem profileValid_iff {es : List RateEntry} : profileValid es = true ↔
    (∀ e ∈ es, 1 ≤ e.airtime ∧ e.airtime ≤ 2000 ∧ e.minSnr ≤ 63) ∧ es.Pairwise (fun a b => a.minSnr ≤ b.minSnr) := by
  have hrise : snrsRise es = true ↔ es.Pairwise (fun a b => a.minSnr ≤ b.minSnr) := by
    have htrans : IsTrans RateEntry (fun a b => a.minSnr ≤ b.minSnr) := ⟨fun _ _ _ => le_trans⟩
    rw [← List.isChain_iff_pairwise]
    induction es with
    | nil => simp [snrsRise]
    | cons a es ih =>
      cases es with
      | nil => simp [snrsRise]
      | cons b es =>
        rw [snrsRise, Bool.and_eq_true, decide_eq_true_iff, List.isChain_cons_cons]
        exact and_congr_right fun _ => ih
  rw [profileValid, Bool.and_eq_true, hrise]
  simp [and_assoc]

/-- A profile lists the entries it was made of. -/
theorem profileOf_eq_some {es : List RateEntry} {v : Vector RateEntry 12} (h : profileOf es = some v) :
    es = List.ofFn v.get := by
  unfold profileOf at h
  split at h <;> cases h
  next hlen =>
  refine List.ext_getElem (by simpa using hlen) fun n _ _ => ?_
  rw [List.getElem_ofFn]
  rfl

/-- The profile that a list of twelve entries gives obeys R29 exactly when the list passes R30's check. -/
theorem profileInRange_iff (s : State) {es : List RateEntry} {v : Vector RateEntry 12} (h : profileOf es = some v) :
    ({ s with profile := v } : State).profileInRange ↔ profileValid es = true := by
  rw [profileValid_iff, profileOf_eq_some h, List.forall_mem_ofFn_iff, List.pairwise_ofFn]
  refine and_congr_right fun _ => ⟨fun hle i j hij => hle i j hij.le, fun hlt r q hrq => ?_⟩
  rcases hrq.eq_or_lt with rfl | hlt'
  · exact le_rfl
  · exact hlt hlt'

/-- A step takes some event, or changes nothing (log entry 2). -/
theorem step_cases {s t : State} (h : step s = .next t) :
    t = s ∨ ∃ c rest, s.pending = c :: rest ∧ exec c { s with pending := rest } = .next t := by
  unfold step at h
  split at h
  · cases h; exact .inl rfl
  · next c rest hp => exact .inr ⟨c, rest, hp, h⟩

/-- What every event keeps, whatever waits in the queue of events, every step keeps. -/
theorem step_keeps {P : State → Prop} (hpending : ∀ s rest, P s → P { s with pending := rest })
    (hexec : ∀ c s t, exec c s = .next t → P s → P t) {s t : State} (hs : P s) (h : step s = .next t) : P t := by
  rcases step_cases h with rfl | ⟨c, rest, -, hc⟩
  · exact hs
  · exact hexec c _ t hc (hpending s rest hs)

theorem State.paramsInRange_congr {s t : State} (h : t.params = s.params) (hs : s.paramsInRange) : t.paramsInRange := by
  unfold State.paramsInRange State.param at *
  rwa [h]

theorem State.profileInRange_congr {s t : State} (h : t.profile = s.profile) (hs : s.profileInRange) :
    t.profileInRange := by
  unfold State.profileInRange at *
  rwa [h]

theorem reset_paramsInRange : State.reset.paramsInRange := by
  refine ⟨?_, by decide⟩
  unfold paramAllowed
  decide

theorem reset_profileInRange : State.reset.profileInRange := by
  unfold State.profileInRange
  decide

theorem exec_paramsInRange {c : Instr} {s t : State} (h : exec c s = .next t) (hs : s.paramsInRange) :
    t.paramsInRange := by
  cases exec_settles h with
  | kept h | part _ h | profile _ _ _ h | now _ h | cursor _ _ h =>
    exact State.paramsInRange_congr (congrArg Settings.params h) hs
  | params _ hcross h =>
    exact State.paramsInRange_congr (s := { s with params := _ }) (congrArg Settings.params h)
      (setParameter_paramsInRange hs hcross)
  | reset _ h => exact State.paramsInRange_congr (congrArg Settings.params h) reset_paramsInRange

theorem exec_profileInRange {c : Instr} {s t : State} (h : exec c s = .next t) (hs : s.profileInRange) :
    t.profileInRange := by
  cases exec_settles h with
  | kept h | part _ h | params _ _ h | now _ h | cursor _ _ h =>
    exact State.profileInRange_congr (congrArg Settings.profile h) hs
  | profile _ hv hvalid h =>
    exact State.profileInRange_congr (s := { s with profile := _ }) (congrArg Settings.profile h)
      ((profileInRange_iff s hv).2 hvalid)
  | reset _ h => exact State.profileInRange_congr (congrArg Settings.profile h) reset_profileInRange

/-- Settles O54: of the settings an event writes one or resets them all (`exec_settles`); a parameter is written clamped and
guarded, a rate profile checked, and the reset values are in range. -/
theorem settingsStayInRange : Obligations.SettingsStayInRange :=
  fun _ _ hparams hprofile h =>
    ⟨step_keeps (fun _ _ hs => hs) (fun _ _ _ => exec_paramsInRange) hparams h,
      step_keeps (fun _ _ hs => hs) (fun _ _ _ => exec_profileInRange) hprofile h⟩

/-! ### Presence, and answers that wait to be taken (R86, R97, R107, R110) -/

/-- From `s` to `t` by the event `c`, presence, the answer held at the head of the query queue and the answers held in the
request slots stay, each but for the events that write it. -/
structure State.keepsHeld (c : Instr) (s t : State) : Prop where
  present : (∀ b0 b1 b2, c ≠ .powerOnResetEnd b0 b1 b2) → ∀ p, (t.port p).present = (s.port p).present
  head : c ≠ .pathAnswer → ∀ q rest, s.queries = q :: rest → q.answer ≠ none → ∃ rest', t.queries = q :: rest'
  slot : ∀ p a, (s.port p).slot = some a → c ≠ .paramAnswer p → (∀ b0 b1 b2, c ≠ .powerOnResetEnd b0 b1 b2) →
    (t.port p).slot = some a

theorem State.keepsHeld_of_eq {c : Instr} {s t : State} (hp : t.ports = s.ports) (hq : t.queries = s.queries) :
    s.keepsHeld c t := by
  have hport (p : Radio) : t.port p = s.port p := congrArg (fun v => v.get p) hp
  exact ⟨fun _ p => by rw [hport], fun _ q rest h _ => ⟨rest, hq.trans h⟩, fun p a h _ _ => by rw [hport, h]⟩

theorem State.tablesOnly.keepsHeld {c : Instr} {s t : State} (h : s.tablesOnly t) : s.keepsHeld c t :=
  State.keepsHeld_of_eq (by rw [h]) (by rw [h])

/-- A port written with its presence, and with the answer that its slot held. -/
theorem setPort_keepsHeld {c : Instr} {s : State} {p : Radio} {q : Port} (hpresent : q.present = (s.port p).present)
    (hslot : ∀ a, (s.port p).slot = some a → c ≠ .paramAnswer p → q.slot = some a) : s.keepsHeld c (s.setPort p q) := by
  refine ⟨fun _ o => ?_, fun _ q' rest h _ => ⟨rest, h⟩, fun o a h hc _ => ?_⟩ <;> rw [port_setPort] <;> split
  · next ho => rw [ho, hpresent]
  · rfl
  · next ho => subst ho; exact hslot a h hc
  · exact h

theorem State.keepsHeld_trans {c : Instr} {s t u : State} (h : s.keepsHeld c t) (k : t.keepsHeld c u) :
    s.keepsHeld c u where
  present hc p := (k.present hc p).trans (h.present hc p)
  head hc q rest hq ha := by
    obtain ⟨rest', hq'⟩ := h.head hc q rest hq ha
    exact k.head hc q rest' hq' ha
  slot p a hs hc hend := k.slot p a (h.slot p a hs hc hend) hc hend

theorem State.carriesOut.keepsHeld {c : Instr} {s u : State} (h : s.carriesOut c u) (hc : isReset c = false) :
    s.keepsHeld c u := by
  cases h with
  | read | arm | addLink | updateLink | addDestination | readLinkEvents | takeChanges | readJobNotice | stopJob
  | loadRateProfile | setParameter | goOperational | moveCursor => exact State.keepsHeld_of_eq rfl rfl
  | readPortStatus _ p => exact setPort_keepsHeld rfl fun _ h _ => h
  | flushReports _ p => exact setPort_keepsHeld rfl fun _ h _ => h
  | startJob j =>
    cases j with
    | retuneRadio p =>
      refine State.keepsHeld_trans ?_ (setPort_keepsHeld rfl fun _ h _ => h)
      exact State.keepsHeld_of_eq rfl rfl
    | retireLinks | pruneDestinations => exact State.keepsHeld_of_eq rfl rfl
  | softReset => cases hc
  | retireCascade => exact (retireCascade_reworks s _).tablesOnly.keepsHeld
  | retireAlone hl =>
    rcases retireAlone_moves hl with h | ⟨x, -, h⟩ <;> rw [h]
    · exact State.keepsHeld_of_eq rfl rfl
    · exact (moveLink_linkWritten s _ _ x).1.keepsHeld
  | removeDestination => exact (removeDest_reworks s _).tablesOnly.keepsHeld
  | addCandidate => exact (enlist_tablesOnly s _ _ _ _ _).keepsHeld
  | updateCandidate mask p hk => exact (State.pathsOnly_tablesOnly (rewriteCand_spec s _ _ mask _ p hk).1).keepsHeld
  | removeCandidate => exact (removeCand_reworks s _).tablesOnly.keepsHeld

/-- Resolving the head changes the query queue in its head alone, and only where that waits. -/
theorem resolveHead_keepsHeld {c : Instr} (s : State) : s.keepsHeld c s.resolveHead := by
  rcases resolveHead_cases s with h | ⟨q, rest, a, u, hq, ha, -, h, hu⟩ <;> rw [h]
  · exact State.keepsHeld_of_eq rfl rfl
  · have hports : u.ports = s.ports := by
      rcases hu with rfl | ⟨d, -, -, rfl⟩
      · rfl
      · rw [(evaluateDest_reworks s d).tablesOnly]
    have hheld := State.keepsHeld_of_eq (c := c) (t := { s with ports := u.ports }) hports rfl
    refine ⟨hheld.present, fun _ q' rest' hq' ha' => ?_, hheld.slot⟩
    rw [hq] at hq'
    cases hq'
    exact absurd ha ha'

theorem holdAnswer_keepsHeld {c : Instr} {s : State} {p : Radio} (h : s.requestReady p = true) (a : ParamAnswer) :
    s.keepsHeld c (s.holdAnswer p a) := by
  refine setPort_keepsHeld rfl fun b hb _ => ?_
  have hempty : (s.port p).slot.isNone = true := (Bool.and_eq_true_iff.1 h).2
  simp [hb] at hempty

theorem answerRequest_keepsHeld {c : Instr} {s : State} {p : Radio} (h : s.requestReady p = true) (id : Byte) :
    s.keepsHeld c (s.answerRequest p id) := by
  unfold State.answerRequest
  split
  · exact holdAnswer_keepsHeld h _
  · split
    · exact holdAnswer_keepsHeld h _
    · next i l _ =>
      split
      · exact holdAnswer_keepsHeld h _
      · refine State.keepsHeld_trans ?_ (holdAnswer_keepsHeld (s := s.setLink i (some (l.afterOkAnswer s.tuning))) h _)
        exact State.keepsHeld_of_eq rfl rfl

theorem handleReport_keepsHeld {c : Instr} (s : State) (p : Radio) (r : Report) : s.keepsHeld c (s.handleReport p r) := by
  rcases handleReport_cases s p r with h | ⟨i, l, l', -, hw, -⟩
  · rw [h]; exact State.keepsHeld_of_eq rfl rfl
  · exact hw.1.keepsHeld

theorem State.undergoes.keepsHeld {c : Instr} {s t : State} (h : s.undergoes c t) (hc : isReset c = false) :
    s.keepsHeld c t := by
  cases h with
  | softReset | powerOnReset => cases hc
  | powerOnResetEnd b0 b1 b2 =>
    exact ⟨fun h => absurd rfl (h b0 b1 b2), fun _ q rest h _ => ⟨rest, h⟩, fun _ _ _ _ h => absurd rfl (h b0 b1 b2)⟩
  | initialisationEnd | passingVisit => exact State.keepsHeld_of_eq rfl rfl
  | queryWaits tag a =>
    have hheld := State.keepsHeld_of_eq (c := .pathQuery tag a) (s := s) rfl rfl
    exact ⟨hheld.present, fun _ q rest hq _ => ⟨_, by rw [hq]; rfl⟩, hheld.slot⟩
  | queryResolved tag a _ hq =>
    have hheld := State.keepsHeld_of_eq (c := .pathQuery tag a) (s := s) rfl rfl
    refine State.keepsHeld_trans ?_ (resolveHead_keepsHeld _)
    exact ⟨hheld.present, fun _ q rest hq' _ => absurd (hq.symm.trans hq') (List.cons_ne_nil q rest).symm, hheld.slot⟩
  | @pathAnswer _ _ rest =>
    have hheld := State.keepsHeld_of_eq (c := .pathAnswer) (s := s) rfl rfl
    exact State.keepsHeld_trans (t := { s with queries := rest }) ⟨hheld.present, fun h => absurd rfl h, hheld.slot⟩
      (resolveHead_keepsHeld _)
  | paramRequest id h => exact answerRequest_keepsHeld h id
  | paramAnswer _ p => exact setPort_keepsHeld rfl fun _ _ h => absurd rfl h
  | @report _ _ p r =>
    have hreceive : ((s.port p).receive r).present = (s.port p).present ∧
        ((s.port p).receive r).slot = (s.port p).slot := by
      unfold Port.receive
      split <;> exact ⟨rfl, rfl⟩
    exact setPort_keepsHeld hreceive.1 fun a h _ => hreceive.2.trans h
  | reportDiscarded => exact setPort_keepsHeld rfl fun _ h _ => h
  | reportHandled =>
    refine State.keepsHeld_trans ?_ (handleReport_keepsHeld _ _ _)
    exact setPort_keepsHeld rfl fun _ h _ => h
  | tick =>
    refine State.keepsHeld_trans ?_ (expireDue_spec _ _).1.keepsHeld
    exact State.keepsHeld_of_eq rfl rfl
  | expiry _ i =>
    rcases expireLink_moves s i with h | ⟨l, -, -, h⟩ <;> rw [h]
    · exact State.keepsHeld_of_eq rfl rfl
    · exact (moveLink_linkWritten s i l _).1.keepsHeld
  | retireVisit =>
    exact State.keepsHeld_trans (retireCascade_reworks s _).tablesOnly.keepsHeld (State.keepsHeld_of_eq rfl rfl)
  | retuneVisit _ _ _ hl =>
    rw [retuneLink_eq hl]
    exact State.keepsHeld_trans (moveLink_linkWritten s _ _ _).1.keepsHeld (State.keepsHeld_of_eq rfl rfl)
  | pruneVisit =>
    exact State.keepsHeld_trans (removeDest_reworks s _).tablesOnly.keepsHeld (State.keepsHeld_of_eq rfl rfl)

theorem exec_keepsHeld {c : Instr} {s t : State} (h : exec c s = .next t) (hc : isReset c = false) : s.keepsHeld c t := by
  cases exec_becomes h with
  | unmoved | refused => exact State.keepsHeld_of_eq rfl rfl
  | answered rs _ hu => exact State.keepsHeld_trans (hu.keepsHeld hc) (State.keepsHeld_of_eq rfl rfl)
  | framed hf => rw [hf.only]; exact State.keepsHeld_of_eq rfl rfl
  | undergone hu => exact hu.keepsHeld hc

/-- Settles O53: the settings by `exec_settles`, whose constructors name the event that writes each, and presence and the
answers held by `exec_keepsHeld`. -/
theorem onlyTheirEventsWriteTheSettings : Obligations.OnlyTheirEventsWriteTheSettings := by
  intro c s t h hc
  have hheld := exec_keepsHeld h hc
  have hpresent : (∃ p, (t.port p).present ≠ (s.port p).present) → ∃ b0 b1 b2, c = .powerOnResetEnd b0 b1 b2 := by
    rintro ⟨p, hp⟩
    by_contra hno
    exact hp (hheld.present (fun b0 b1 b2 hc => hno ⟨b0, b1, b2, hc⟩) p)
  have hkeeps : (t.part ≠ s.part → c = .goOperational) ∧ (t.params ≠ s.params → c = .setParameter) ∧
      (t.profile ≠ s.profile → c = .loadRateProfile) ∧ (t.now ≠ s.now → c = .millisecondTick) ∧
      (t.cursor ≠ s.cursor → c = .setCursor ∨ c = .readAtCursor) := by
    cases exec_settles h with
    | kept h =>
      obtain ⟨hpart, hparams, hprofile, hnow, hcursor⟩ := Settings.mk.inj h
      exact ⟨absurd hpart, absurd hparams, absurd hprofile, absurd hnow, absurd hcursor⟩
    | part hc h =>
      obtain ⟨_, hparams, hprofile, hnow, hcursor⟩ := Settings.mk.inj h
      exact ⟨fun _ => hc, absurd hparams, absurd hprofile, absurd hnow, absurd hcursor⟩
    | params hc _ h =>
      obtain ⟨hpart, _, hprofile, hnow, hcursor⟩ := Settings.mk.inj h
      exact ⟨absurd hpart, fun _ => hc, absurd hprofile, absurd hnow, absurd hcursor⟩
    | profile hc _ _ h =>
      obtain ⟨hpart, hparams, _, hnow, hcursor⟩ := Settings.mk.inj h
      exact ⟨absurd hpart, absurd hparams, fun _ => hc, absurd hnow, absurd hcursor⟩
    | now hc h =>
      obtain ⟨hpart, hparams, hprofile, _, hcursor⟩ := Settings.mk.inj h
      exact ⟨absurd hpart, absurd hparams, absurd hprofile, fun _ => hc, absurd hcursor⟩
    | cursor hc _ h =>
      obtain ⟨hpart, hparams, hprofile, hnow, _⟩ := Settings.mk.inj h
      exact ⟨absurd hpart, absurd hparams, absurd hprofile, absurd hnow, fun _ => hc⟩
    | reset hr => rw [hc] at hr; cases hr
  obtain ⟨hpart, hparams, hprofile, hnow, hcursor⟩ := hkeeps
  exact ⟨hpart, hparams, hprofile, hnow, hcursor, hpresent, fun q rest hq ha hne => hheld.head hne q rest hq ha, hheld.slot⟩

end Sys2Proof.Machine
end


section
/-! The Control Port under one event: power, the frame in progress and the command in hand, and the obligations about
refusals and about what stays in hand. -/

namespace Sys2Proof.Machine

/-! ### What commands and other events leave of the Control Port -/

/-- From `s` to `t` the power state, the frame in progress, the command in hand and the queue of waiting events stay. -/
structure State.sameControl (s t : State) : Prop where
  power : t.power = s.power
  frame : t.frame = s.frame
  hand : t.hand = s.hand
  pending : t.pending = s.pending

theorem State.sameControl_rfl (s : State) : s.sameControl s := ⟨rfl, rfl, rfl, rfl⟩

theorem State.sameControl_trans {s t u : State} (h : s.sameControl t) (k : t.sameControl u) : s.sameControl u :=
  ⟨k.power.trans h.power, k.frame.trans h.frame, k.hand.trans h.hand, k.pending.trans h.pending⟩

theorem State.tablesOnly.sameControl {s t : State} (h : s.tablesOnly t) : s.sameControl t := by
  rw [h]; exact ⟨rfl, rfl, rfl, rfl⟩

theorem Frame.carrierEnded_iff {f : Frame} : f.carrierEnded = true ↔ f = .closed ∨ f = .ignored := by
  simp [Frame.carrierEnded]

theorem Frame.afterReset_eq (f : Frame) : f.afterReset = .closed ∨ f.afterReset = .ignored := by
  unfold Frame.afterReset
  split
  · exact .inl rfl
  · exact .inr rfl

theorem Frame.afterReset_of_carrierEnded {f : Frame} (h : f.carrierEnded = true) : f.afterReset = f := by
  rcases Frame.carrierEnded_iff.1 h with rfl | rfl <;> rfl

theorem State.reworks.sameControl {s t : State} (h : s.reworks t) : s.sameControl t := h.tablesOnly.sameControl

/-- An accepted command leaves the Control Port alone, or is the RESET PART whose frame has ended. -/
theorem State.carriesOut.control {c : Instr} {s u : State} (h : s.carriesOut c u) :
    s.sameControl u ∨ s.frame.carrierEnded = true ∧ u = s.softReset := by
  cases h with
  | softReset h => exact .inr ⟨h, rfl⟩
  | read | arm | addLink | updateLink | addDestination | readLinkEvents | takeChanges | readJobNotice | stopJob
  | loadRateProfile | setParameter | goOperational | moveCursor | readPortStatus | flushReports =>
    exact .inl ⟨rfl, rfl, rfl, rfl⟩
  | startJob j => cases j <;> exact .inl ⟨rfl, rfl, rfl, rfl⟩
  | retireCascade => exact .inl (retireCascade_reworks s _).sameControl
  | retireAlone hl =>
    rcases retireAlone_moves hl with h | ⟨x, -, h⟩ <;> rw [h]
    · exact .inl ⟨rfl, rfl, rfl, rfl⟩
    · exact .inl (moveLink_linkWritten s _ _ x).1.sameControl
  | removeDestination => exact .inl (removeDest_reworks s _).sameControl
  | addCandidate => exact .inl (enlist_tablesOnly s _ _ _ _ _).sameControl
  | updateCandidate mask p hk => exact .inl (State.pathsOnly_tablesOnly (rewriteCand_spec s _ _ mask _ p hk).1).sameControl
  | removeCandidate => exact .inl (removeCand_reworks s _).sameControl

theorem resolveHead_sameControl (s : State) : s.sameControl s.resolveHead := by
  rcases resolveHead_cases s with h | ⟨q, rest, a, u, -, -, -, h, rfl | ⟨d, -, -, rfl⟩⟩ <;> rw [h]
  · exact s.sameControl_rfl
  · exact ⟨rfl, rfl, rfl, rfl⟩
  · obtain ⟨hpower, hframe, hhand, hpending⟩ := (evaluateDest_reworks s d).sameControl
    exact ⟨hpower, hframe, hhand, hpending⟩

theorem answerRequest_sameControl (s : State) (p : Radio) (id : Byte) : s.sameControl (s.answerRequest p id) := by
  unfold State.answerRequest
  split
  · exact ⟨rfl, rfl, rfl, rfl⟩
  · split
    · exact ⟨rfl, rfl, rfl, rfl⟩
    · split <;> exact ⟨rfl, rfl, rfl, rfl⟩

theorem handleReport_sameControl (s : State) (p : Radio) (r : Report) : s.sameControl (s.handleReport p r) := by
  rcases handleReport_cases s p r with h | ⟨i, l, l', -, hw, -⟩
  · rw [h]; exact s.sameControl_rfl
  · exact hw.1.sameControl

theorem moveOn_sameControl (s : State) (ctx : JobContext) (size : Nat) (acted : Bool) :
    s.sameControl (s.moveOn ctx size acted) := ⟨rfl, rfl, rfl, rfl⟩

/-- A soft or a power-on reset has taken `s` to `t`. -/
def State.resetsTo (s t : State) : Prop :=
  t = s.softReset ∨ t = { State.reset with frame := s.frame.afterReset, pending := s.pending }

theorem State.resetsTo.control {s t : State} (h : s.resetsTo t) :
    t.hand = none ∧ t.frame = s.frame.afterReset ∧ t.pending = s.pending := by
  rcases h with rfl | rfl <;> exact ⟨rfl, rfl, rfl⟩

/-- What an event that is neither a host command nor one of the frame leaves of the Control Port: all of it, but for the resets
and for the ends of a reset and of initialisation, which move the power state on. -/
theorem State.undergoes.control {c : Instr} {s t : State} (h : s.undergoes c t) : s.sameControl t ∨
    (s.power ≠ .running ∧ t.frame = s.frame ∧ t.hand = s.hand ∧ t.pending = s.pending) ∨
      s.resetsTo t := by
  cases h with
  | softReset => exact .inr (.inr (.inl rfl))
  | powerOnReset => exact .inr (.inr (.inr rfl))
  | powerOnResetEnd _ _ _ h | initialisationEnd h => exact .inr (.inl ⟨by rw [h]; decide, rfl, rfl, rfl⟩)
  | queryWaits | paramAnswer | report | reportDiscarded | passingVisit => exact .inl ⟨rfl, rfl, rfl, rfl⟩
  | queryResolved =>
    refine .inl (State.sameControl_trans ?_ (resolveHead_sameControl _))
    exact ⟨rfl, rfl, rfl, rfl⟩
  | pathAnswer =>
    refine .inl (State.sameControl_trans ?_ (resolveHead_sameControl _))
    exact ⟨rfl, rfl, rfl, rfl⟩
  | paramRequest => exact .inl (answerRequest_sameControl s _ _)
  | reportHandled =>
    refine .inl (State.sameControl_trans ?_ (handleReport_sameControl _ _ _))
    exact ⟨rfl, rfl, rfl, rfl⟩
  | tick =>
    refine .inl (State.sameControl_trans ?_ (expireDue_spec _ _).1.sameControl)
    exact ⟨rfl, rfl, rfl, rfl⟩
  | expiry _ i =>
    rcases expireLink_moves s i with h | ⟨l, -, -, h⟩ <;> rw [h]
    · exact .inl s.sameControl_rfl
    · exact .inl (moveLink_linkWritten s i l _).1.sameControl
  | retireVisit => exact .inl (State.sameControl_trans (retireCascade_reworks s _).sameControl (moveOn_sameControl _ _ _ _))
  | retuneVisit _ _ _ hl =>
    rw [retuneLink_eq hl]
    exact .inl (State.sameControl_trans (moveLink_linkWritten s _ _ _).1.sameControl (moveOn_sameControl _ _ _ _))
  | pruneVisit => exact .inl (State.sameControl_trans (removeDest_reworks s _).sameControl (moveOn_sameControl _ _ _ _))

/-! ### Answers other than OK (R150, R154) -/

theorem beginFrame_of_open {s : State} (h : s.frame ≠ .closed) : s.beginFrame = s := if_neg h

theorem giveAnswer_of_waiting {s : State} (h : s.frame = .waiting) (a : Answer) :
    s.giveAnswer a = { s with hand := none, frame := .answering a 0 } := by
  rw [State.giveAnswer, if_pos h]

/-- While a command waits to be carried out, no event of the frame forms an answer. -/
theorem State.frames.not_answering {c : Instr} {s t : State} (h : s.frames c t) (hs : s.frame = .waiting) (a : Answer) (n : Nat) :
    t.frame ≠ .answering a n := by
  have hopen : s.frame ≠ .closed := by rw [hs]; decide
  cases h with
  | commandTaken _ begins bytes =>
    have hbegin : (if begins then s.beginFrame else s) = s := by
      cases begins
      · rfl
      · exact beginFrame_of_open hopen
    rw [hbegin, foldl_clockByte_idle bytes (.inr (.inl hs)), hs]
    nofun
  | ignoredFrame =>
    rw [beginFrame_of_open hopen, hs]
    nofun
  | withdrawn => nofun

/-- Settles O4: of the things an event can come to (`exec_becomes`) only a refusal forms an answer other than OK, and it
changes nothing else. -/
theorem refusalChangesNothing : Obligations.RefusalChangesNothing := by
  intro c s t a hwaiting h hanswer hstatus
  cases exec_becomes h with
  | unmoved => rw [hwaiting] at hanswer; cases hanswer
  | refused hhand he =>
    rw [giveAnswer_of_waiting hwaiting] at hanswer ⊢
    cases hanswer
    exact ⟨rfl, rfl⟩
  | @answered _ u rs hhand hu =>
    rcases hu.control with hsame | ⟨hended, -⟩
    · rw [giveAnswer_of_waiting (hsame.frame.trans hwaiting)] at hanswer
      cases hanswer
      exact absurd rfl hstatus
    · rw [hwaiting] at hended
      cases hended
  | framed hf => exact absurd hanswer (hf.not_answering hwaiting a 0)
  | undergone hu =>
    rcases hu.control with hsame | ⟨-, hframe, -⟩ | hreset
    · rw [hsame.frame, hwaiting] at hanswer; cases hanswer
    · rw [hframe, hwaiting] at hanswer; cases hanswer
    · rw [hreset.control.2.1, hwaiting] at hanswer; cases hanswer

end Sys2Proof.Machine
end


section
/-! The switch bookkeeping of every event (R78), drawn from the bookkeeping of the one operation it does to the tables. -/

namespace Sys2Proof.Machine

/-- Every destination in use before and after keeps its active candidate, or its switch is booked at the Timebase count of
`t`. -/
def State.booksSwitches (s t : State) : Prop :=
  ∀ d r r', s.dest d = some r → t.dest d = some r' → r'.active ≠ r.active →
    r'.lastSwitch = some t.now ∧ t.changed.get d = true ∧ min (r.switchCount + 1) 65535 ≤ r'.switchCount

theorem State.booksSwitches_of_active_eq {s t : State}
    (h : ∀ d r r', s.dest d = some r → t.dest d = some r' → r'.active = r.active) : s.booksSwitches t :=
  fun d r r' hr hr' hne => absurd (h d r r' hr hr') hne

theorem State.booksSwitches_of_dest_eq {s t : State} (h : ∀ d, s.dest d ≠ none → t.dest d = s.dest d) :
    s.booksSwitches t := by
  refine State.booksSwitches_of_active_eq fun d r r' hr hr' => ?_
  rw [h d (by simp [hr]), hr] at hr'
  cases hr'
  rfl

theorem State.booksSwitches_of_booked {s t : State} (hnow : t.now = s.now) (h : ∀ d, s.booked t d) : s.booksSwitches t := by
  intro d r r' hr hr' hne
  obtain ⟨q, hq, -, ⟨hactive, -⟩ | hbooked⟩ := h d r' hr'
  · rw [hr] at hq
    cases hq
    exact absurd hactive hne
  · rw [hr] at hq
    cases hq
    rwa [hnow]

theorem State.pathsReselected.booksSwitches {s t : State} (hnow : t.now = s.now) (h : s.pathsReselected t) :
    s.booksSwitches t :=
  State.booksSwitches_of_booked hnow fun d => (h.1 d).booked

@[simp] theorem reset_link (i : LinkId) : State.reset.link i = none := by
  simp [State.link, State.reset, Vector.get]

@[simp] theorem reset_dest (d : DestId) : State.reset.dest d = none := by
  simp [State.dest, State.reset, Vector.get]

@[simp] theorem reset_cand (c : CandId) : State.reset.cand c = none := by
  simp [State.cand, State.reset, Vector.get]

@[simp] theorem reset_changed (d : DestId) : State.reset.changed.get d = false := by
  simp [State.reset, Vector.get]

@[simp] theorem reset_port (p : Radio) : State.reset.port p = Port.afterReset false := by
  fin_cases p <;> rfl

theorem State.tablesOnly.now {s t : State} (h : s.tablesOnly t) : t.now = s.now := by rw [h]

theorem State.retables.booksSwitches {s t : State} (h : s.retables t) : s.booksSwitches t := by
  cases h with
  | unmoved | linkAdded | changesTaken => exact State.booksSwitches_of_dest_eq fun _ _ => rfl
  | cleared => exact fun d r r' _ hr' => by simp at hr'
  | @linkMoved i l x hl hm =>
    obtain ⟨htables, -, hreselected, -⟩ := moveLink_linkWritten s i l x
    exact hreselected.booksSwitches htables.now
  | cascade hl =>
    obtain ⟨htables, -, -, -, hbooked, -⟩ := retireCascade_spec s _ _ hl
    exact State.booksSwitches_of_booked htables.now hbooked
  | rise is =>
    obtain ⟨htables, -, hreselected, -⟩ := expireDue_spec { s with now := s.now + 1 } is
    exact State.pathsReselected.booksSwitches (s := { s with now := s.now + 1 }) htables.now hreselected
  | @destAdded d a hvacant =>
    refine State.booksSwitches_of_dest_eq fun e he => ?_
    rw [dest_setDest, if_neg (by rintro rfl; exact he (vacantDest_eq_some hvacant))]
  | destRemoved hr =>
    obtain ⟨htables, -, -, -, hbooked, -⟩ := removeDest_spec s _ _ hr
    exact State.booksSwitches_of_booked htables.now hbooked
  | @candAdded d i _ _ c n p =>
    exact State.booksSwitches_of_booked (enlist_tablesOnly s c d i n p).now fun e => enlist_booked s c d e i n p
  | candRewritten mask p hk =>
    obtain ⟨hpaths, hbooked, -⟩ := rewriteCand_spec s _ _ mask _ p hk
    exact State.booksSwitches_of_booked (State.pathsOnly_now hpaths) hbooked
  | candRemoved =>
    exact State.booksSwitches_of_booked (removeCand_reworks s _).tablesOnly.now (removeCand_booked s _)
  | evaluated d =>
    have h := evaluateDest_reselects s d
    exact h.pathsReselected.booksSwitches (State.pathsOnly_now h.pathsOnly)

/-- Settles O37: one event does at most one operation to the tables (`exec_retables`), and each books its switches. -/
theorem everySwitchIsBooked : Obligations.EverySwitchIsBooked := by
  intro c s t d r r' h hr hr' hne
  obtain ⟨u, v, hu, huv, hvt⟩ := exec_retables h
  have hdest : u.dest d = some r := by rw [hu.only]; exact hr
  have hdest' : v.dest d = some r' := by rw [← hr', State.dest, State.dest, hvt.dests]
  rw [hvt.now, hvt.changed]
  exact huv.booksSwitches d r r' hdest hdest' hne

end Sys2Proof.Machine
end


section
/-! The bounds of the queues, of the frame in progress, of the job and of the cursor, each kept by every event, and the
obligation about them. -/

namespace Sys2Proof.Machine

/-! ### The report queues (R107, R112, R116) -/

/-- A port within its bounds: at most 16 reports, a dropped count in range, and nothing held while it is absent. -/
def Port.lawful (p : Port) : Prop :=
  p.reports.length ≤ 16 ∧ p.dropped ≤ 65535 ∧ (p.present = false → p = Port.afterReset false)

theorem Port.afterReset_lawful (b : Bool) : (Port.afterReset b).lawful :=
  ⟨Nat.zero_le _, Nat.zero_le _, fun h => congrArg Port.afterReset h⟩

theorem Port.lawful.statusRead {p : Port} (h : p.lawful) : ({ p with overflow := false } : Port).lawful := by
  obtain ⟨hlen, hdropped, habsent⟩ := h
  exact ⟨hlen, hdropped, fun hp => by rw [habsent hp]; rfl⟩

theorem Port.lawful.flush {p : Port} (h : p.lawful) : p.flush.lawful := by
  obtain ⟨-, -, habsent⟩ := h
  exact ⟨Nat.zero_le _, Nat.zero_le _, fun hp => by rw [habsent hp]; rfl⟩

theorem Port.lawful.slotEmptied {p : Port} (h : p.lawful) : ({ p with slot := none } : Port).lawful := by
  obtain ⟨hlen, hdropped, habsent⟩ := h
  exact ⟨hlen, hdropped, fun hp => by rw [habsent hp]; rfl⟩

theorem Port.lawful.slotFilled {p : Port} (h : p.lawful) (hp : p.present = true) (a : ParamAnswer) :
    ({ p with slot := some a } : Port).lawful := by
  obtain ⟨hlen, hdropped, -⟩ := h
  exact ⟨hlen, hdropped, fun habsent => by simp [hp] at habsent⟩

theorem Port.lawful.taken {p : Port} (h : p.lawful) {r : Report} {rest : List Report} (hr : p.reports = r :: rest) :
    ({ p with reports := rest } : Port).lawful := by
  obtain ⟨hlen, hdropped, habsent⟩ := h
  rw [hr, List.length_cons] at hlen
  refine ⟨Nat.le_of_succ_le hlen, hdropped, fun hp => ?_⟩
  rw [habsent hp] at hr
  cases hr

theorem Port.lawful.receive {p : Port} (h : p.lawful) (hp : p.present = true) (r : Report) : (p.receive r).lawful := by
  obtain ⟨hlen, hdropped, -⟩ := h
  unfold Port.receive
  split
  · next hroom =>
    exact ⟨by rw [List.length_append]; exact hroom, hdropped, fun habsent => by simp [hp] at habsent⟩
  · exact ⟨hlen, min_le_right _ _, fun habsent => by simp [hp] at habsent⟩

/-- Every port is within its bounds. -/
def State.portsLawful (s : State) : Prop := ∀ p, (s.port p).lawful

theorem State.portsLawful_congr {s t : State} (h : t.ports = s.ports) (hs : s.portsLawful) : t.portsLawful := by
  intro p
  rw [State.port, h]
  exact hs p

theorem State.tablesOnly.portsLawful {s t : State} (h : s.tablesOnly t) (hs : s.portsLawful) : t.portsLawful :=
  State.portsLawful_congr (by rw [h]) hs

theorem setPort_portsLawful {s : State} {p : Radio} {q : Port} (hs : s.portsLawful) (hq : q.lawful) :
    (s.setPort p q).portsLawful := by
  intro o
  rw [port_setPort]
  split
  · exact hq
  · exact hs o

theorem ports_afterReset_lawful {s : State} {b0 b1 b2 : Bool}
    (h : s.ports = #v[Port.afterReset b0, Port.afterReset b1, Port.afterReset b2]) : s.portsLawful := by
  intro p
  rw [State.port, h]
  fin_cases p
  · exact Port.afterReset_lawful b0
  · exact Port.afterReset_lawful b1
  · exact Port.afterReset_lawful b2

theorem State.carriesOut.portsLawful {c : Instr} {s u : State} (h : s.carriesOut c u) (hs : s.portsLawful) :
    u.portsLawful := by
  cases h with
  | read | arm | addLink | updateLink | addDestination | readLinkEvents | takeChanges | readJobNotice | stopJob
  | loadRateProfile | setParameter | goOperational | moveCursor => exact hs
  | readPortStatus _ p => exact setPort_portsLawful hs (hs p).statusRead
  | flushReports _ p => exact setPort_portsLawful hs (hs p).flush
  | startJob j =>
    cases j with
    | retuneRadio p => exact setPort_portsLawful (s := { s with job := _ }) hs (hs p).flush
    | retireLinks | pruneDestinations => exact hs
  | softReset => exact ports_afterReset_lawful rfl
  | retireCascade => exact (retireCascade_reworks s _).tablesOnly.portsLawful hs
  | retireAlone hl =>
    rcases retireAlone_moves hl with h | ⟨x, -, h⟩ <;> rw [h]
    · exact hs
    · exact (moveLink_linkWritten s _ _ x).1.portsLawful hs
  | removeDestination => exact (removeDest_reworks s _).tablesOnly.portsLawful hs
  | addCandidate => exact (enlist_tablesOnly s _ _ _ _ _).portsLawful hs
  | updateCandidate mask p hk =>
    exact (State.pathsOnly_tablesOnly (rewriteCand_spec s _ _ mask _ p hk).1).portsLawful hs
  | removeCandidate => exact (removeCand_reworks s _).tablesOnly.portsLawful hs

theorem requestReady_iff {s : State} {p : Radio} :
    s.requestReady p = true ↔ s.power = .running ∧ (s.port p).present = true ∧ (s.port p).slot = none := by
  simp [State.requestReady, State.port, and_assoc]

theorem reportReady_iff {s : State} {p : Radio} :
    s.reportReady p = true ↔ s.power = .running ∧ (s.port p).present = true := by
  simp [State.reportReady, State.port]

theorem queryReady_iff {s : State} : s.queryReady = true ↔ s.power = .running ∧ s.queries.length < 8 := by
  simp only [State.queryReady, Bool.and_eq_true, beq_iff_eq, decide_eq_true_eq]
  rfl

theorem resolveHead_ports (s : State) : s.resolveHead.ports = s.ports := by
  rcases resolveHead_cases s with h | ⟨q, rest, a, u, -, -, -, h, rfl | ⟨d, -, -, rfl⟩⟩ <;> rw [h]
  show (s.evaluateDest d).ports = s.ports
  rw [(evaluateDest_reworks s d).tablesOnly]

theorem answerRequest_portsLawful {s : State} {p : Radio} (id : Byte) (h : s.requestReady p = true)
    (hs : s.portsLawful) : (s.answerRequest p id).portsLawful := by
  have hheld (a : ParamAnswer) : (s.holdAnswer p a).portsLawful :=
    setPort_portsLawful hs ((hs p).slotFilled (requestReady_iff.1 h).2.1 a)
  unfold State.answerRequest
  split
  · exact hheld _
  · split
    · exact hheld _
    · split <;> exact hheld _

theorem handleReport_portsLawful {s : State} (p : Radio) (r : Report) (hs : s.portsLawful) :
    (s.handleReport p r).portsLawful := by
  rcases handleReport_cases s p r with h | ⟨i, l, l', -, hw, -⟩
  · rwa [h]
  · exact hw.1.portsLawful hs

theorem State.undergoes.portsLawful {c : Instr} {s t : State} (h : s.undergoes c t) (hs : s.portsLawful) :
    t.portsLawful := by
  cases h with
  | softReset | powerOnReset | powerOnResetEnd => exact ports_afterReset_lawful rfl
  | initialisationEnd | queryWaits | passingVisit => exact hs
  | queryResolved => exact State.portsLawful_congr (resolveHead_ports _) hs
  | pathAnswer => exact State.portsLawful_congr (resolveHead_ports _) hs
  | paramRequest id h => exact answerRequest_portsLawful id h hs
  | paramAnswer _ p => exact setPort_portsLawful hs (hs p).slotEmptied
  | @report _ _ p r _ h => exact setPort_portsLawful hs ((hs p).receive (reportReady_iff.1 h).2 r)
  | @reportDiscarded _ p _ _ hr => exact setPort_portsLawful hs ((hs p).taken hr)
  | @reportHandled _ p r _ _ hr => exact handleReport_portsLawful p r (setPort_portsLawful hs ((hs p).taken hr))
  | tick => exact (expireDue_spec _ _).1.portsLawful hs
  | expiry _ i =>
    rcases expireLink_moves s i with h | ⟨l, -, -, h⟩ <;> rw [h]
    · exact hs
    · exact (moveLink_linkWritten s i l _).1.portsLawful hs
  | retireVisit => exact (retireCascade_reworks s _).tablesOnly.portsLawful hs
  | retuneVisit _ _ _ hl =>
    rw [retuneLink_eq hl]
    exact (moveLink_linkWritten s _ _ _).1.portsLawful hs
  | pruneVisit => exact (removeDest_reworks s _).tablesOnly.portsLawful hs

theorem exec_portsLawful {c : Instr} {s t : State} (h : exec c s = .next t) (hs : s.portsLawful) : t.portsLawful := by
  cases exec_becomes h with
  | unmoved | refused => exact hs
  | answered rs _ hu => exact hu.portsLawful hs
  | framed hf => rw [hf.only]; exact hs
  | undergone hu => exact hu.portsLawful hs

/-! ### The query queue (R94, R97) -/

/-- The query queue holds at most 8 entries, and its head alone an answer. -/
def State.queriesHeld (s : State) : Prop := s.queries.length ≤ 8 ∧ s.headHeld

theorem State.queriesHeld_congr {s t : State} (h : t.queries = s.queries) (hs : s.queriesHeld) : t.queriesHeld := by
  unfold State.queriesHeld State.headHeld at *
  rwa [h]

theorem State.queriesHeld_of_nil {s : State} (h : s.queries = []) : s.queriesHeld := by
  simp [State.queriesHeld, State.headHeld, h]

theorem State.queriesHeld_cons {s : State} {q : Query} {rest : List Query} (h : s.queries = q :: rest) :
    s.queriesHeld ↔ rest.length < 8 ∧ q.answer.isSome = true ∧ ∀ w ∈ rest, w.answer = none := by
  simp [State.queriesHeld, State.headHeld, h]

theorem State.tablesOnly.queriesHeld {s t : State} (h : s.tablesOnly t) (hs : s.queriesHeld) : t.queriesHeld :=
  State.queriesHeld_congr (by rw [h]) hs

/-- Among entries that wait, resolving the head leaves the head alone answered. -/
theorem resolveHead_queriesHeld {s : State} (hlen : s.queries.length ≤ 8) (hwait : ∀ w ∈ s.queries, w.answer = none) :
    s.resolveHead.queriesHeld := by
  cases hq : s.queries with
  | nil => rw [resolveHead_nil s hq]; exact State.queriesHeld_of_nil hq
  | cons q rest =>
    rw [hq] at hlen hwait
    rw [resolveHead_waiting s q rest hq (hwait q (by simp)), State.queriesHeld_cons rfl]
    exact ⟨hlen, rfl, fun w hw => hwait w (by simp [hw])⟩

theorem State.carriesOut.queriesHeld {c : Instr} {s u : State} (h : s.carriesOut c u) (hs : s.queriesHeld) :
    u.queriesHeld := by
  cases h with
  | read | arm | addLink | updateLink | addDestination | readLinkEvents | takeChanges | readJobNotice | stopJob
  | loadRateProfile | setParameter | goOperational | moveCursor | readPortStatus | flushReports => exact hs
  | startJob j => cases j <;> exact hs
  | softReset => exact State.queriesHeld_of_nil rfl
  | retireCascade => exact (retireCascade_reworks s _).tablesOnly.queriesHeld hs
  | retireAlone hl =>
    rcases retireAlone_moves hl with h | ⟨x, -, h⟩ <;> rw [h]
    · exact hs
    · exact (moveLink_linkWritten s _ _ x).1.queriesHeld hs
  | removeDestination => exact (removeDest_reworks s _).tablesOnly.queriesHeld hs
  | addCandidate => exact (enlist_tablesOnly s _ _ _ _ _).queriesHeld hs
  | updateCandidate mask p hk =>
    exact (State.pathsOnly_tablesOnly (rewriteCand_spec s _ _ mask _ p hk).1).queriesHeld hs
  | removeCandidate => exact (removeCand_reworks s _).tablesOnly.queriesHeld hs

theorem answerRequest_queries (s : State) (p : Radio) (id : Byte) : (s.answerRequest p id).queries = s.queries := by
  unfold State.answerRequest
  split
  · rfl
  · split
    · rfl
    · split <;> rfl

theorem handleReport_queries (s : State) (p : Radio) (r : Report) : (s.handleReport p r).queries = s.queries := by
  rcases handleReport_cases s p r with h | ⟨i, l, l', -, hw, -⟩
  · rw [h]
  · rw [hw.1]

theorem State.undergoes.queriesHeld {c : Instr} {s t : State} (h : s.undergoes c t) (hs : s.queriesHeld) :
    t.queriesHeld := by
  cases h with
  | softReset | powerOnReset => exact State.queriesHeld_of_nil rfl
  | powerOnResetEnd | initialisationEnd | passingVisit | paramAnswer | report | reportDiscarded => exact hs
  | queryWaits tag a hready hq =>
    obtain ⟨q, rest, hqs⟩ := List.exists_cons_of_ne_nil hq
    obtain ⟨-, hanswer, hwait⟩ := (State.queriesHeld_cons hqs).1 hs
    have hlen := (queryReady_iff.1 hready).2
    rw [State.queriesHeld_cons (q := q) (rest := rest ++ [⟨tag, a, none⟩]) (by simp [hqs])]
    refine ⟨by simp [hqs] at hlen ⊢; omega, hanswer, fun w hw => ?_⟩
    rcases List.mem_append.1 hw with hw | hw
    · exact hwait w hw
    · rw [List.mem_singleton.1 hw]
  | queryResolved => exact resolveHead_queriesHeld (by simp) (by simp)
  | pathAnswer hq =>
    obtain ⟨hlen, -, hwait⟩ := (State.queriesHeld_cons hq).1 hs
    exact resolveHead_queriesHeld hlen.le hwait
  | paramRequest => exact State.queriesHeld_congr (answerRequest_queries s _ _) hs
  | reportHandled => exact State.queriesHeld_congr (handleReport_queries _ _ _) hs
  | tick => exact (expireDue_spec _ _).1.queriesHeld hs
  | expiry _ i =>
    rcases expireLink_moves s i with h | ⟨l, -, -, h⟩ <;> rw [h]
    · exact hs
    · exact (moveLink_linkWritten s i l _).1.queriesHeld hs
  | retireVisit => exact (retireCascade_reworks s _).tablesOnly.queriesHeld hs
  | retuneVisit _ _ _ hl =>
    rw [retuneLink_eq hl]
    exact (moveLink_linkWritten s _ _ _).1.queriesHeld hs
  | pruneVisit => exact (removeDest_reworks s _).tablesOnly.queriesHeld hs

theorem exec_queriesHeld {c : Instr} {s t : State} (h : exec c s = .next t) (hs : s.queriesHeld) : t.queriesHeld := by
  cases exec_becomes h with
  | unmoved | refused => exact hs
  | answered rs _ hu => exact hu.queriesHeld hs
  | framed hf => rw [hf.only]; exact hs
  | undergone hu => exact hu.queriesHeld hs

/-! ### The frame in progress (R149, R152) -/

/-- A byte clocked keeps the frame within its length. -/
theorem clockByte_frameSound {s : State} (b : Byte) (hs : s.frameSound) : (s.clockByte b).frameSound := by
  obtain ⟨hframe, hargs⟩ := hs
  have htaken (code : Byte) (args : List Byte) (h : args.length ≤ 255) : (s.takeCommand code args).frameSound :=
    ⟨nofun, by rintro _ ⟨⟩; exact h⟩
  unfold State.clockByte
  split
  · next h =>
    rw [h] at hframe
    exact ⟨hframe, hargs⟩
  · next code h =>
    rw [h] at hframe
    split
    · exact htaken code [] (Nat.zero_le _)
    · next hb =>
      have hpos : b.toNat ≠ 0 := fun h => hb (BitVec.eq_of_toNat_eq h)
      have hlt := b.isLt
      exact ⟨⟨hframe.1, hframe.2, Nat.pos_of_ne_zero hpos, by omega⟩, hargs⟩
  · next code n received h =>
    rw [h] at hframe
    obtain ⟨hhand, hpower, hlt, hle⟩ := hframe
    split
    · exact htaken code _ (by simp; omega)
    · exact ⟨⟨hhand, hpower, by simp; omega, hle⟩, hargs⟩
  · next a sent h =>
    rw [h] at hframe
    rw [length_answerBytes]
    split
    · exact ⟨hframe.1, hargs⟩
    · exact ⟨⟨hframe.1, by omega⟩, hargs⟩
  all_goals exact ⟨hframe, hargs⟩

theorem foldl_clockByte_frameSound (bytes : List Byte) {s : State} (hs : s.frameSound) :
    (bytes.foldl State.clockByte s).frameSound := by
  induction bytes generalizing s with
  | nil => exact hs
  | cons b bs ih => exact ih (clockByte_frameSound b hs)

theorem beginFrame_frameSound {s : State} (hs : s.frameSound) : s.beginFrame.frameSound := by
  unfold State.beginFrame
  split
  · cases hr : s.receivesFrames
    · exact ⟨trivial, hs.2⟩
    · obtain ⟨hpower, hhand, -⟩ := receivesFrames_iff.1 hr
      exact ⟨⟨hhand, hpower⟩, hs.2⟩
  · exact hs

theorem State.frames.frameSound {c : Instr} {s t : State} (h : s.frames c t) (hs : s.frameSound) : t.frameSound := by
  cases h with
  | commandTaken _ begins bytes =>
    refine foldl_clockByte_frameSound bytes ?_
    split
    · exact beginFrame_frameSound hs
    · exact hs
  | ignoredFrame => exact beginFrame_frameSound hs
  | withdrawn => exact ⟨trivial, hs.2⟩

theorem State.sameControl.frameSound {s t : State} (h : s.sameControl t) (hs : s.frameSound) : t.frameSound := by
  unfold State.frameSound at *
  rw [h.frame, h.hand, h.power]
  exact hs

/-- An answer of at most any length leaves the hand with the command carried out. -/
theorem giveAnswer_frameSound {s : State} {h : Command} (a : Answer) (hhand : s.hand = some h) (hs : s.frameSound) :
    (s.giveAnswer a).frameSound := by
  obtain ⟨hframe, -⟩ := hs
  refine ⟨?_, nofun⟩
  unfold State.giveAnswer
  cases hf : s.frame <;> simp_all

theorem frameSound_of_emptyHanded {s t : State} (hhand : t.hand = none) (hframe : t.frame = s.frame.afterReset) :
    t.frameSound := by
  rcases s.frame.afterReset_eq with h | h <;> rw [h] at hframe <;> simp [State.frameSound, hframe, hhand]

/-- While the part does not run, no frame is received, and its going on leaves a sound frame sound. -/
theorem frameSound_of_not_running {s t : State} (hpower : s.power ≠ .running) (hframe : t.frame = s.frame)
    (hhand : t.hand = s.hand) (hs : s.frameSound) : t.frameSound := by
  unfold State.frameSound at *
  rw [hframe, hhand]
  obtain ⟨hs, hargs⟩ := hs
  refine ⟨?_, hargs⟩
  cases hf : s.frame with
  | code | length => rw [hf] at hs; exact absurd hs.2 hpower
  | arguments => rw [hf] at hs; exact absurd hs.2.1 hpower
  | closed | waiting | answering | afterAnswer | ignored => rw [hf] at hs; exact hs

theorem exec_frameSound {c : Instr} {s t : State} (h : exec c s = .next t) (hs : s.frameSound) : t.frameSound := by
  cases exec_becomes h with
  | unmoved => exact hs
  | refused hhand => exact giveAnswer_frameSound _ hhand hs
  | answered rs hhand hu =>
    rcases hu.control with hsame | ⟨hended, rfl⟩
    · exact giveAnswer_frameSound _ (hsame.hand.trans hhand) (hsame.frameSound hs)
    · have hframe : s.softReset.frame = s.frame.afterReset := rfl
      refine frameSound_of_emptyHanded (s := s) rfl ?_
      rw [State.giveAnswer, if_neg]
      · exact hframe
      · rcases s.frame.afterReset_eq with h | h <;> rw [hframe, h] <;> decide
  | framed hf => exact hf.frameSound hs
  | undergone hu =>
    rcases hu.control with hsame | ⟨hpower, hframe, hhand, -⟩ | hreset
    · exact hsame.frameSound hs
    · exact frameSound_of_not_running hpower hframe hhand hs
    · exact frameSound_of_emptyHanded hreset.control.1 hreset.control.2.1

/-! ### The job (R121, R135) -/

/-- A job's context within its table, with its counts. -/
def JobContext.sound (c : JobContext) : Prop :=
  c.next < c.selector.kind.tableSize ∧ c.visited = c.next ∧ c.actedOn ≤ c.visited

theorem State.jobSound_running {s : State} {c : JobContext} (h : s.job = .running c) : s.jobSound ↔ c.sound := by
  rw [State.jobSound, h]
  rfl

theorem State.jobSound_congr {s t : State} (h : t.job = s.job) (hs : s.jobSound) : t.jobSound := by
  unfold State.jobSound at *
  rwa [h]

theorem State.tablesOnly.jobSound {s t : State} (h : s.tablesOnly t) (hs : s.jobSound) : t.jobSound :=
  State.jobSound_congr (by rw [h]) hs

theorem JobContext.start_sound (j : JobSelector) : (JobContext.start j).sound := by
  have hpos : 0 < j.kind.tableSize := by cases j.kind <;> decide
  exact ⟨hpos, rfl, le_rfl⟩

/-- A visit moves a sound walk on by one index, the last one ending it with a notice that counts the whole table (R125). -/
theorem moveOn_jobSound (s : State) {c : JobContext} {size : Nat} (acted : Bool)
    (hsize : c.selector.kind.tableSize = size) (hc : c.sound) : (s.moveOn c size acted).jobSound := by
  obtain ⟨hnext, hvisited, hacted⟩ := hc
  have hone : acted.toNat ≤ 1 := Bool.toNat_le acted
  unfold State.moveOn State.jobSound
  dsimp only
  split
  case h_1 heq => split at heq <;> cases heq
  case h_2 c' heq =>
    split at heq <;> cases heq
    next hmore => exact ⟨by show c.next + 1 < _; dsimp only; omega, by dsimp only; omega, by dsimp only; omega⟩
  case h_3 n heq =>
    split at heq <;> cases heq
    next hend => exact ⟨by dsimp only [JobContext.notice]; omega, by dsimp only [JobContext.notice]; omega⟩

theorem State.carriesOut.jobSound {c : Instr} {s u : State} (h : s.carriesOut c u) (hs : s.jobSound) : u.jobSound := by
  cases h with
  | read | arm | addLink | updateLink | addDestination | readLinkEvents | takeChanges
  | loadRateProfile | setParameter | goOperational | moveCursor | readPortStatus | flushReports => exact hs
  | readJobNotice | softReset => exact trivial
  | startJob j =>
    have hjob : ({ s with job := .running (JobContext.start j) }.flushForJob j).job = .running (JobContext.start j) := by
      cases j <;> rfl
    exact (State.jobSound_running hjob).2 (JobContext.start_sound j)
  | stopJob hjob =>
    obtain ⟨hnext, hvisited, hacted⟩ := (State.jobSound_running hjob).1 hs
    exact ⟨hacted, hvisited.trans_lt hnext⟩
  | retireCascade => exact (retireCascade_reworks s _).tablesOnly.jobSound hs
  | retireAlone hl =>
    rcases retireAlone_moves hl with h | ⟨x, -, h⟩ <;> rw [h]
    · exact hs
    · exact (moveLink_linkWritten s _ _ x).1.jobSound hs
  | removeDestination => exact (removeDest_reworks s _).tablesOnly.jobSound hs
  | addCandidate => exact (enlist_tablesOnly s _ _ _ _ _).jobSound hs
  | updateCandidate mask p hk =>
    exact (State.pathsOnly_tablesOnly (rewriteCand_spec s _ _ mask _ p hk).1).jobSound hs
  | removeCandidate => exact (removeCand_reworks s _).tablesOnly.jobSound hs

theorem resolveHead_job (s : State) : s.resolveHead.job = s.job := by
  rcases resolveHead_cases s with h | ⟨q, rest, a, u, -, -, -, h, rfl | ⟨d, -, -, rfl⟩⟩ <;> rw [h]
  show (s.evaluateDest d).job = s.job
  rw [(evaluateDest_reworks s d).tablesOnly]

theorem answerRequest_job (s : State) (p : Radio) (id : Byte) : (s.answerRequest p id).job = s.job := by
  unfold State.answerRequest
  split
  · rfl
  · split
    · rfl
    · split <;> rfl

theorem State.undergoes.jobSound {c : Instr} {s t : State} (h : s.undergoes c t) (hs : s.jobSound) : t.jobSound := by
  cases h with
  | softReset | powerOnReset => exact trivial
  | powerOnResetEnd | initialisationEnd | queryWaits | paramAnswer | report | reportDiscarded => exact hs
  | queryResolved => exact State.jobSound_congr (resolveHead_job _) hs
  | pathAnswer => exact State.jobSound_congr (resolveHead_job _) hs
  | paramRequest => exact State.jobSound_congr (answerRequest_job s _ _) hs
  | @reportHandled _ p r rest =>
    rcases handleReport_cases (s.setPort p { s.port p with reports := rest }) p r with h | ⟨i, l, l', -, hw, -⟩
    · rw [h]; exact hs
    · exact hw.1.jobSound hs
  | tick => exact (expireDue_spec _ _).1.jobSound hs
  | expiry _ i =>
    rcases expireLink_moves s i with h | ⟨l, -, -, h⟩ <;> rw [h]
    · exact hs
    · exact (moveLink_linkWritten s i l _).1.jobSound hs
  | retireVisit hjob hkind => exact moveOn_jobSound _ _ (by rw [hkind]; rfl) ((State.jobSound_running hjob).1 hs)
  | retuneVisit hjob hkind => exact moveOn_jobSound _ _ (by rw [hkind]; rfl) ((State.jobSound_running hjob).1 hs)
  | pruneVisit hjob hkind => exact moveOn_jobSound _ _ (by rw [hkind]; rfl) ((State.jobSound_running hjob).1 hs)
  | passingVisit _ hjob => exact moveOn_jobSound _ _ rfl ((State.jobSound_running hjob).1 hs)

theorem exec_jobSound {c : Instr} {s t : State} (h : exec c s = .next t) (hs : s.jobSound) : t.jobSound := by
  cases exec_becomes h with
  | unmoved | refused => exact hs
  | answered rs _ hu => exact hu.jobSound hs
  | framed hf => rw [hf.only]; exact hs
  | undergone hu => exact hu.jobSound hs

/-! ### The cursor (R158) -/

/-- The cursor's index does not pass its table's size. -/
def State.cursorInTable (s : State) : Prop := s.cursor.index ≤ s.cursor.table.size

theorem exec_cursorInTable {c : Instr} {s t : State} (h : exec c s = .next t) (hs : s.cursorInTable) : t.cursorInTable := by
  have hcongr {x : Cursor} (hx : t.cursor = x) (hle : x.index ≤ x.table.size) : t.cursorInTable := by
    rwa [State.cursorInTable, hx]
  cases exec_settles h with
  | kept h | part _ h | params _ _ h | profile _ _ _ h | now _ h => exact hcongr (congrArg Settings.cursor h) hs
  | cursor _ hu h => exact hcongr (congrArg Settings.cursor h) hu
  | reset _ h => exact hcongr (congrArg Settings.cursor h) (Nat.zero_le _)

theorem queuesBounded_headHeld_iff {s : State} : s.queuesBounded ∧ s.headHeld ↔ s.portsLawful ∧ s.queriesHeld :=
  ⟨fun ⟨⟨hlen, hports⟩, hheld⟩ => ⟨hports, hlen, hheld⟩, fun ⟨hports, hlen, hheld⟩ => ⟨⟨hlen, hports⟩, hheld⟩⟩

/-- Settles O55: each of the four bounds is kept by every event, and so by every step. -/
theorem queuesStayWithinBounds : Obligations.QueuesStayWithinBounds := by
  refine ⟨fun s t hbounded hheld h => ?_, fun s t hs h => ?_, fun s t hs h => ?_, fun s t hs h => ?_⟩
  · obtain ⟨hports, hqueries⟩ := queuesBounded_headHeld_iff.1 ⟨hbounded, hheld⟩
    exact queuesBounded_headHeld_iff.2
      ⟨step_keeps (fun _ _ hs => hs) (fun _ _ _ => exec_portsLawful) hports h,
        step_keeps (fun _ _ hs => hs) (fun _ _ _ => exec_queriesHeld) hqueries h⟩
  · exact step_keeps (fun _ _ hs => hs) (fun _ _ _ => exec_frameSound) hs h
  · exact step_keeps (fun _ _ hs => hs) (fun _ _ _ => exec_jobSound) hs h
  · exact step_keeps (P := State.cursorInTable) (fun _ _ hs => hs) (fun _ _ _ => exec_cursorInTable) hs h

end Sys2Proof.Machine
end


section
/-! The link records under one event: where the record of a link in use afterwards comes from, and the laws that hold
record by record. -/

namespace Sys2Proof.Machine

/-! ### Where a link's record comes from -/

theorem Link.moves.congr {s t : State} {l : Link} {x : Option Link} (h : Link.moves s l x) (htuning : t.tuning = s.tuning)
    (hnow : t.now = s.now) (hpart : t.part = s.part) : Link.moves t l x := by
  cases h with
  | masked mask h m pin hr => exact htuning ▸ .masked mask h m pin hr
  | eventsRead => exact .eventsRead
  | okAnswer hp hu => exact htuning ▸ .okAnswer (hpart.trans hp) hu
  | outcome r n acked hp hstate => exact htuning ▸ hnow ▸ .outcome r n acked (hpart.trans hp) hstate
  | heard h b hp hr hx => exact htuning ▸ hnow ▸ .heard h b (hpart.trans hp) hr hx
  | expired hp hd => exact .expired (hpart.trans hp) (hnow ▸ hd)
  | retired hr hrefs => exact .retired hr hrefs
  | retuned hr => exact .retuned hr
  | vacated hrefs => exact .vacated hrefs

/-- What the record of link `i` can be after an event, if it is in use: its record before with another reference count, that
record moved, that record expired at the rise of the count, or a fresh one. -/
inductive State.linkBecomes (s : State) (i : LinkId) : Link → Prop
  | kept {l l' : Link} (hl : s.link i = some l) (h : l.rereferenced l') : linkBecomes s i l'
  | moved {l l' : Link} (hl : s.link i = some l) (h : Link.moves s l (some l')) : linkBecomes s i l'
  | risen {l : Link} (hl : s.link i = some l) (hpart : s.part = .operational) (hd : l.deadline = some (s.now + 1)) :
      linkBecomes s i l.expire
  | added {r : Radio} {peer : Addr} (h : Sector) (m : SectorMode) (hvacant : s.vacantLink = some i)
      (hpresent : (s.port r).present = true) (hpeer : isGroup peer = false) (hfind : s.findLink r peer = none) :
      linkBecomes s i (Link.fresh r peer h m)

theorem State.linkBecomes.of_besideTables {s u : State} {i : LinkId} {l : Link} (h : u.linkBecomes i l)
    (hu : s.besideTables u) : s.linkBecomes i l := by
  have hlink : u.link i = s.link i := by rw [hu.only]; rfl
  have htuning : u.tuning = s.tuning := by rw [hu.only]; rfl
  have hnow : u.now = s.now := by rw [hu.only]
  have hpart : u.part = s.part := by rw [hu.only]
  cases h with
  | kept hl h => exact .kept (hlink ▸ hl) h
  | moved hl h => exact .moved (hlink ▸ hl) (h.congr htuning.symm hnow.symm hpart.symm)
  | risen hl hp hd => exact .risen (hlink ▸ hl) (hpart ▸ hp) (hnow ▸ hd)
  | @added r peer h m hvacant hpresent hpeer hfind =>
    have hvacantLink : u.vacantLink = s.vacantLink := by rw [hu.only]; rfl
    have hfindLink : u.findLink r peer = s.findLink r peer := by rw [hu.only]; rfl
    exact .added h m (hvacantLink ▸ hvacant) (hu.present r ▸ hpresent) hpeer (hfindLink ▸ hfind)

theorem State.linkBecomes_of_eq {s t : State} {i : LinkId} {l : Link} (h : t.link i = s.link i) (hl : t.link i = some l) :
    s.linkBecomes i l :=
  .kept (h ▸ hl) l.rereferenced_rfl

theorem State.reworks.linkBecomes {s t : State} {i : LinkId} {l : Link} (h : s.reworks t) (hl : t.link i = some l) :
    s.linkBecomes i l := by
  obtain ⟨l0, hl0, hre⟩ := h.link i l hl
  exact .kept hl0 hre

theorem enlist_link (s : State) (c : CandId) (d : DestId) (i : LinkId) (n : Nat) (p : Placement) (j : LinkId) :
    (s.enlist c d i n p).link j =
      if j = i then (s.link i).map (fun l => { l with refs := l.refs + 1 }) else s.link j := by
  rw [enlist_eq, State.pathsOnly_link (chainEditCheck_reselects _ d).pathsOnly, enlisted_link]

theorem State.retables.linkBecomes {s v : State} (h : s.retables v) {i : LinkId} {l : Link} (hl : v.link i = some l) :
    s.linkBecomes i l := by
  cases h with
  | unmoved | destAdded | changesTaken => exact State.linkBecomes_of_eq rfl hl
  | cleared => simp at hl
  | @linkAdded j r peer h m hvacant hpresent hpeer hfind =>
    rw [link_setLink] at hl
    split at hl
    · next hj => cases hl; exact .added h m (hj ▸ hvacant) hpresent hpeer hfind
    · exact State.linkBecomes_of_eq rfl hl
  | @linkMoved j l0 x hl0 hm =>
    rw [(moveLink_linkWritten s j l0 x).2.1] at hl
    split at hl
    · next hj => subst hj hl; exact .moved hl0 hm
    · exact State.linkBecomes_of_eq rfl hl
  | cascade => exact (retireCascade_reworks s _).linkBecomes hl
  | rise is =>
    rw [(expireDue_spec { s with now := s.now + 1 } is).2.1] at hl
    split at hl
    · next hdue =>
      obtain ⟨l0, hl0, rfl⟩ := Option.map_eq_some_iff.1 hl
      unfold Link.expired
      split
      · next hd => exact .risen hl0 hdue.1 (due_eq_true.1 hd)
      · exact .kept hl0 l0.rereferenced_rfl
    · exact State.linkBecomes_of_eq rfl hl
  | destRemoved => exact (removeDest_reworks s _).linkBecomes hl
  | @candAdded d j r l0 c n p hr hl0 =>
    rw [enlist_link] at hl
    split at hl
    · next hj =>
      rw [hl0] at hl
      cases hl
      exact .kept (hj ▸ hl0) ⟨_, rfl, fun _ _ => Nat.le_add_left 1 _⟩
    · exact State.linkBecomes_of_eq rfl hl
  | candRewritten mask p hk =>
    rw [State.pathsOnly_link (rewriteCand_spec s _ _ mask _ p hk).1] at hl
    exact State.linkBecomes_of_eq rfl hl
  | candRemoved => exact (removeCand_reworks s _).linkBecomes hl
  | evaluated d => exact (evaluateDest_reworks s d).linkBecomes hl

/-- Where the record of a link in use after an event comes from. -/
theorem exec_link {c : Instr} {s t : State} (h : exec c s = .next t) {i : LinkId} {l : Link} (hl : t.link i = some l) :
    s.linkBecomes i l := by
  obtain ⟨u, v, hu, huv, hvt⟩ := exec_retables h
  have hlink : v.link i = some l := by rw [← hl, State.link, State.link, hvt.links]
  exact (huv.linkBecomes hlink).of_besideTables hu

/-! ### What every move of a record keeps -/

theorem countHearing_stands (t : Tuning) (l : Link) :
    (l.countHearing t).radio = l.radio ∧ (l.countHearing t).peer = l.peer ∧
      (l.countHearing t).lastHeard = l.lastHeard ∧ ((l.countHearing t).state = .retiring → l.state = .retiring) := by
  have hclimb (m : Link) : (m.climb t).radio = m.radio ∧ (m.climb t).peer = m.peer ∧
      (m.climb t).lastHeard = m.lastHeard ∧ ((m.climb t).state = .retiring → m.state = .retiring) := by
    unfold Link.climb
    split
    · exact ⟨rfl, rfl, rfl, nofun⟩
    · exact ⟨rfl, rfl, rfl, id⟩
  unfold Link.countHearing
  split
  · next h =>
    obtain ⟨hradio, hpeer, hlast, hstate⟩ := hclimb { l with heard := min (l.heard + 1) Config.heardLimit }
    exact ⟨hradio, hpeer, hlast, hstate⟩
  · next h =>
    obtain ⟨hradio, hpeer, hlast, hstate⟩ := hclimb { l with state := .probation, heard := 1 }
    exact ⟨hradio, hpeer, hlast, fun hr => nomatch hstate hr⟩
  all_goals exact ⟨rfl, rfl, rfl, id⟩

theorem evaluate_state_retiring {t : Tuning} {l : Link} (h : (l.evaluate t).state = .retiring) : l.state = .retiring := by
  rcases (evaluate_keepsStanding t l).state with he | ⟨-, hu⟩
  · rw [← he, h]
  · rw [h] at hu; cases hu

/-- A heard record is still that of the same station, heard now, and not Retiring if it was not. -/
theorem afterHeard_stands (t : Tuning) (now : Time) (x : Nat) (h : Sector) (b : Bool) (l : Link) :
    (l.afterHeard t now x h b).radio = l.radio ∧ (l.afterHeard t now x h b).peer = l.peer ∧
      (l.afterHeard t now x h b).refs = l.refs ∧ (l.afterHeard t now x h b).lastHeard = (l.hear t now x h b).lastHeard ∧
      ((l.afterHeard t now x h b).state = .retiring → l.state = .retiring) := by
  have hheard := hear_keepsStanding t now x h b l
  obtain ⟨hradio, hpeer, hlast, hstate⟩ := countHearing_stands t (l.hear t now x h b)
  have hretiring : (l.hear t now x h b).state = .retiring → l.state = .retiring := by
    rcases hheard.state with he | ⟨-, hu⟩
    · rw [he]; exact id
    · intro hr; rw [hr] at hu; cases hu
  unfold Link.afterHeard
  dsimp only
  split
  · exact ⟨by simpa [Link.computeDeadline] using hradio.trans hheard.radio,
      by simpa [Link.computeDeadline] using hpeer.trans hheard.peer, by simp,
      by simpa [Link.computeDeadline] using hlast, fun hr => hretiring (hstate (evaluate_state_retiring hr))⟩
  · exact ⟨hradio.trans hheard.radio, hpeer.trans hheard.peer, by simp, hlast, fun hr => hretiring (hstate hr)⟩

/-- A move leaves the station and the reference count of a record, and makes it Retiring only if it was or is named. -/
theorem Link.moves.stands {s : State} {l l' : Link} (h : Link.moves s l (some l')) :
    l'.radio = l.radio ∧ l'.peer = l.peer ∧ l'.refs = l.refs ∧
      (l'.state = .retiring → l.state = .retiring ∨ l.refs ≠ 0) := by
  have hkeeps {m : Link} (hm : l.keepsStanding m) : m.radio = l.radio ∧ m.peer = l.peer ∧ m.refs = l.refs ∧
      (m.state = .retiring → l.state = .retiring ∨ l.refs ≠ 0) := by
    refine ⟨hm.radio, hm.peer, hm.refs, fun hr => ?_⟩
    rcases hm.state with he | ⟨-, hu⟩
    · exact .inl (he.symm.trans hr)
    · rw [hr] at hu; cases hu
  cases h with
  | masked mask h m pin => exact hkeeps (writeMasked_keepsStanding s.tuning mask h m pin l)
  | eventsRead | okAnswer => exact hkeeps ⟨rfl, rfl, rfl, .inl rfl⟩
  | outcome r n acked => exact hkeeps (takeOutcome_keepsStanding s.tuning s.now r _ acked l)
  | heard h b =>
    obtain ⟨hradio, hpeer, hrefs, -, hstate⟩ := afterHeard_stands s.tuning s.now _ h b l
    exact ⟨hradio, hpeer, hrefs, fun hr => .inl (hstate hr)⟩
  | expired | retuned => exact ⟨rfl, rfl, rfl, nofun⟩
  | retired _ hrefs => exact ⟨rfl, rfl, rfl, fun _ => .inr hrefs⟩

/-- A link in use after an event was in use before with the same radio and peer, or is fresh. -/
theorem State.linkBecomes.station {s : State} {i : LinkId} {l' : Link} (h : s.linkBecomes i l') :
    (∃ l, s.link i = some l ∧ l'.radio = l.radio ∧ l'.peer = l.peer) ∨
      (s.vacantLink = some i ∧ (s.port l'.radio).present = true ∧ isGroup l'.peer = false ∧
        s.findLink l'.radio l'.peer = none) := by
  cases h with
  | kept hl h => obtain ⟨n, rfl, -⟩ := h; exact .inl ⟨_, hl, rfl, rfl⟩
  | moved hl h => exact .inl ⟨_, hl, h.stands.1, h.stands.2.1⟩
  | risen hl => exact .inl ⟨_, hl, rfl, rfl⟩
  | added h m hvacant hpresent hpeer hfind => exact .inr ⟨hvacant, hpresent, hpeer, hfind⟩

end Sys2Proof.Machine
end


section
/-! The laws of the link records that every event keeps: the estimator's bounds, the deadlines and beacon measurements, the
stations, and the obligation about the estimator. -/

namespace Sys2Proof.Machine

/-! ### The estimator's bounds (R27, R33, R34, R41) -/

theorem State.paramsInRange.probeInterval_le {s : State} (h : s.paramsInRange) :
    s.tuning.get Param.probeInterval ≤ 64 :=
  (h.1 Param.probeInterval).2.1

theorem State.paramsInRange.lossLimit {s : State} (h : s.paramsInRange) :
    3 ≤ s.tuning.get Param.lossLimit ∧ s.tuning.get Param.lossLimit ≤ 15 :=
  ⟨(h.1 Param.lossLimit).1, (h.1 Param.lossLimit).2.1⟩

theorem State.paramsInRange.nominalBeacon {s : State} (h : s.paramsInRange) :
    10 ≤ s.tuning.get Param.nominalBeacon ∧ s.tuning.get Param.nominalBeacon ≤ 2000 :=
  ⟨(h.1 Param.nominalBeacon).1, (h.1 Param.nominalBeacon).2.1⟩

theorem afterHeard_bounded (t : Tuning) (now : Time) {x : Nat} (h : Sector) (b : Bool) {l : Link} (hx : x ≤ 63)
    (hl : l.est.bounded) : (l.afterHeard t now x h b).est.bounded := by
  have hcounted : ((l.hear t now x h b).countHearing t).est.bounded := by
    rw [countHearing_est]
    exact hear_bounded t now h b hx hl
  unfold Link.afterHeard
  dsimp only
  split
  · exact evaluate_bounded t hcounted
  · exact hcounted

theorem Link.moves.bounded {s : State} {l l' : Link} (h : Link.moves s l (some l')) (hs : s.paramsInRange)
    (hl : l.est.bounded) : l'.est.bounded := by
  cases h with
  | masked mask h m pin => exact writeMasked_bounded s.tuning mask h m pin hl
  | eventsRead | expired | retired => exact hl
  | okAnswer => exact afterOkAnswer_bounded s.tuning hs.probeInterval_le hl
  | outcome r n acked => exact takeOutcome_bounded s.tuning s.now r n acked hl
  | heard h b _ _ hx => exact afterHeard_bounded s.tuning s.now h b hx hl
  | retuned => exact Estimator.initial_bounded

theorem exec_estimatesBounded {c : Instr} {s t : State} (h : exec c s = .next t) (hp : s.paramsInRange)
    (hs : s.estimatesBounded) : t.estimatesBounded := by
  intro i l' hl'
  cases exec_link h hl' with
  | kept hl hre =>
    have hbefore := hs i _ hl
    obtain ⟨n, rfl, -⟩ := hre
    exact hbefore
  | moved hl hm => exact hm.bounded hp (hs i _ hl)
  | risen hl =>
    have hbefore := hs i _ hl
    exact hbefore
  | added => exact Estimator.initial_bounded

/-- What holds beside parameters in range, every step keeps if every event does. -/
theorem step_keeps_inRange {P : State → Prop} (hpending : ∀ s rest, P s → P { s with pending := rest })
    (hexec : ∀ c s t, exec c s = .next t → s.paramsInRange → P s → P t) {s t : State} (hp : s.paramsInRange) (hs : P s)
    (h : step s = .next t) : P t := by
  rcases step_cases h with rfl | ⟨c, rest, -, hc⟩
  · exact hs
  · exact hexec c _ t hc hp (hpending s rest hs)

/-- Settles O57: every record after an event is one from before, moved at most once (`exec_link`), and every move keeps the
bounds. -/
theorem estimatesStayWithinBounds : Obligations.EstimatesStayWithinBounds :=
  fun _ _ hp hs h => step_keeps_inRange (fun _ _ hs => hs) (fun _ _ _ => exec_estimatesBounded) hp hs h

/-! ### Deadlines and beacon measurements (R10, R12) -/

theorem afterHeard_sound {s : State} (hs : s.paramsInRange) (x : Nat) (h : Sector) (b : Bool) {l : Link} (hl : l.sound) :
    (l.afterHeard s.tuning s.now x h b).sound := by
  have hcounted := countHearing_counted s.tuning (hear_counted s.tuning s.now x h b hl.counted)
  unfold Link.afterHeard
  dsimp only
  split
  · obtain ⟨hbeacons, hheard, hagree⟩ := evaluate_counted s.tuning hcounted
    exact computeDeadline_sound s.tuning hbeacons hheard hagree hs.lossLimit hs.nominalBeacon
  · obtain ⟨hbeacons, hheard, hagree⟩ := hcounted
    exact computeDeadline_sound s.tuning hbeacons hheard hagree hs.lossLimit hs.nominalBeacon

theorem Link.moves.sound {s : State} {l l' : Link} (h : Link.moves s l (some l')) (hs : s.paramsInRange)
    (hl : l.sound) : l'.sound := by
  cases h with
  | masked mask h m pin => exact writeMasked_sound s.tuning mask h m pin hl
  | eventsRead | okAnswer => exact hl
  | outcome r n acked => exact takeOutcome_sound s.tuning s.now r _ acked hl hs.lossLimit hs.nominalBeacon
  | heard h b => exact afterHeard_sound hs _ h b hl
  | expired => exact expire_sound hl
  | retired => exact retire_sound hl
  | retuned => exact retune_sound hl

theorem exec_linksSound {c : Instr} {s t : State} (h : exec c s = .next t) (hp : s.paramsInRange) (hs : s.linksSound) :
    t.linksSound := by
  intro i l' hl'
  cases exec_link h hl' with
  | kept hl hre =>
    have hbefore := hs i _ hl
    obtain ⟨n, rfl, -⟩ := hre
    exact hbefore
  | moved hl hm => exact hm.sound hp (hs i _ hl)
  | risen hl => exact expire_sound (hs i _ hl)
  | added h m => exact fresh_sound _ _ h m

/-! ### Stations (R1, R3) -/

theorem exec_linksDistinct {c : Instr} {s t : State} (h : exec c s = .next t) (hs : s.linksDistinct) :
    t.linksDistinct := by
  intro i j l m hl hm hradio hpeer
  rcases (exec_link h hl).station with ⟨l0, hl0, hlr, hlp⟩ | ⟨hi, -, -, hlnone⟩ <;>
    rcases (exec_link h hm).station with ⟨m0, hm0, hmr, hmp⟩ | ⟨hj, -, -, hmnone⟩
  · exact hs i j l0 m0 hl0 hm0 (by rw [← hlr, hradio, hmr]) (by rw [← hlp, hpeer, hmp])
  · rw [← hradio, ← hpeer] at hmnone
    exact absurd hlp.symm (findLink_eq_none hmnone hl0 hlr.symm)
  · rw [hradio, hpeer] at hlnone
    exact absurd hmp.symm (findLink_eq_none hlnone hm0 hmr.symm)
  · exact Option.some.inj (hi.symm.trans hj)

end Sys2Proof.Machine
end


section
/-! The two resets and initialisation (chapter 10): what they leave, that every block keeps its reset state until the part
runs, and the obligations about them. -/

namespace Sys2Proof.Machine

/-! ### The reset values (R168) -/

theorem atResetValues_of_reset {f : Frame} {w : Power} {ports : Vector Port 3} {q : List Instr}
    (hports : ∀ p, ports.get p = Port.afterReset (ports.get p).present) :
    ({ State.reset with power := w, frame := f, ports := ports, pending := q } : State).atResetValues :=
  ⟨rfl, reset_link, reset_dest, reset_cand, rfl, hports, rfl, reset_changed, rfl, rfl, rfl, rfl, rfl, rfl⟩

theorem sampledPorts_get (b0 b1 b2 : Bool) (p : Radio) :
    #v[Port.afterReset b0, Port.afterReset b1, Port.afterReset b2].get p =
      Port.afterReset (#v[Port.afterReset b0, Port.afterReset b1, Port.afterReset b2].get p).present := by
  fin_cases p <;> rfl

theorem softReset_atResetValues (s : State) : s.softReset.atResetValues :=
  atResetValues_of_reset (sampledPorts_get _ _ _)

theorem powerOnReset_atResetValues (s : State) :
    ({ State.reset with frame := s.frame.afterReset, pending := s.pending } : State).atResetValues :=
  atResetValues_of_reset fun p => by rw [show State.reset.ports.get p = _ from reset_port p]; rfl

theorem powerOnResetEnd_atResetValues {s : State} (hs : s.atResetValues) (b0 b1 b2 : Bool) (w : Power) :
    ({ s with power := w, ports := #v[Port.afterReset b0, Port.afterReset b1, Port.afterReset b2] } : State).atResetValues := by
  obtain ⟨hpart, hlinks, hdests, hcands, hqueries, -, hrest⟩ := hs
  exact ⟨hpart, hlinks, hdests, hcands, hqueries, sampledPorts_get b0 b1 b2, hrest⟩

theorem State.atResetValues.hand {s : State} (h : s.atResetValues) : s.hand = none := by
  obtain ⟨-, -, -, -, -, -, -, -, -, -, -, -, hhand, -⟩ := h
  exact hhand

theorem State.atResetValues.job {s : State} (h : s.atResetValues) : s.job = .idle := by
  obtain ⟨-, -, -, -, -, -, hjob, -⟩ := h
  exact hjob

theorem State.atResetValues.queries {s : State} (h : s.atResetValues) : s.queries = [] := by
  obtain ⟨-, -, -, -, hqueries, -⟩ := h
  exact hqueries

theorem State.atResetValues.port {s : State} (h : s.atResetValues) (p : Radio) :
    s.port p = Port.afterReset (s.port p).present := by
  obtain ⟨-, -, -, -, -, hports, -⟩ := h
  exact hports p

theorem State.atResetValues.link {s : State} (h : s.atResetValues) (i : LinkId) : s.link i = none := h.2.1 i

/-- Power, frame and the queue of waiting events are none of the reset values. -/
theorem State.atResetValues.control {s : State} (h : s.atResetValues) (w : Power) (f : Frame) (q : List Instr) :
    ({ s with power := w, frame := f, pending := q } : State).atResetValues := h

/-! ### Every block keeps its reset state until the part runs (R169) -/

/-- While the part does not run, a frame closed or ignored stays so, and takes no command (R152). -/
theorem State.frames.of_not_running {c : Instr} {s t : State} (h : s.frames c t) (hpower : s.power ≠ .running)
    (hframe : s.frame = .closed ∨ s.frame = .ignored) :
    ∃ f, t = { s with frame := f } ∧ (f = .closed ∨ f = .ignored) := by
  have hbegin : ∃ f, s.beginFrame = { s with frame := f } ∧ (f = .closed ∨ f = .ignored) := by
    rcases hframe with hclosed | hignored
    · have hr : s.receivesFrames = false := by simp [State.receivesFrames, hpower]
      exact ⟨.ignored, by simp [beginFrame_eq hclosed, hr], .inr rfl⟩
    · exact ⟨s.frame, beginFrame_of_open (by rw [hignored]; decide), .inr hignored⟩
  cases h with
  | commandTaken _ begins bytes =>
    have hstart : ∃ f, (if begins then s.beginFrame else s) = { s with frame := f } ∧ (f = .closed ∨ f = .ignored) := by
      cases begins
      · exact ⟨s.frame, rfl, hframe⟩
      · exact hbegin
    obtain ⟨f, heq, hf⟩ := hstart
    refine ⟨f, ?_, hf⟩
    rw [heq, foldl_clockByte_idle bytes]
    exact hf.elim .inl fun h => .inr (.inr (.inr h))
  | ignoredFrame => exact hbegin
  | withdrawn => exact ⟨.closed, rfl, .inl rfl⟩

/-- With every block at its reset state and the part not running, nothing but resets and the ends of reset and
initialisation does anything. -/
theorem State.undergoes.of_atResetValues {c : Instr} {s t : State} (h : s.undergoes c t) (hpower : s.power ≠ .running)
    (hs : s.atResetValues) : t.power = .running ∨ t.atResetValues := by
  cases h with
  | softReset => exact .inr (softReset_atResetValues s)
  | powerOnReset => exact .inr (powerOnReset_atResetValues s)
  | powerOnResetEnd b0 b1 b2 => exact .inr (powerOnResetEnd_atResetValues hs b0 b1 b2 _)
  | initialisationEnd => exact .inl rfl
  | queryWaits _ _ hready | queryResolved _ _ hready => exact absurd (queryReady_iff.1 hready).1 hpower
  | pathAnswer hq => exact nomatch hs.queries.symm.trans hq
  | paramRequest id h => exact absurd (requestReady_iff.1 h).1 hpower
  | paramAnswer _ p =>
    obtain ⟨hpart, hlinks, hdests, hcands, hqueries, hports, hrest⟩ := hs
    refine .inr ⟨hpart, hlinks, hdests, hcands, hqueries, fun o => ?_, hrest⟩
    rw [port_setPort]
    split
    · rw [hports p]; rfl
    · exact hports o
  | report r _ h => exact absurd (reportReady_iff.1 h).1 hpower
  | reportDiscarded hr | reportHandled _ hr =>
    rw [hs.port] at hr
    cases hr
  | tick h => exact absurd h hpower
  | expiry _ i =>
    rw [expireLink_of_not_due fun ⟨_, l, hl, _⟩ => nomatch (hs.link i).symm.trans hl]
    exact .inr hs
  | retireVisit hjob | retuneVisit hjob | pruneVisit hjob | passingVisit _ hjob => exact nomatch hs.job.symm.trans hjob

theorem exec_heldInReset {c : Instr} {s t : State} (h : exec c s = .next t) (hs : s.heldInReset) : t.heldInReset := by
  intro hpower
  cases exec_becomes h with
  | unmoved => exact hs hpower
  | refused hhand => exact nomatch (hs hpower).1.hand.symm.trans hhand
  | answered rs hhand hu =>
    rcases hu.control with hsame | ⟨hended, rfl⟩
    · have hpower' : s.power ≠ .running := hsame.power ▸ hpower
      exact nomatch (hs hpower').1.hand.symm.trans hhand
    · refine ⟨softReset_atResetValues s, ?_⟩
      rcases s.frame.afterReset_eq with h | h
      · exact .inl (by simp [State.giveAnswer, State.softReset, h])
      · exact .inr (by simp [State.giveAnswer, State.softReset, h])
  | framed hf =>
    have hpower' : s.power ≠ .running := by rw [hf.only] at hpower; exact hpower
    obtain ⟨hvalues, hframe⟩ := hs hpower'
    obtain ⟨f, rfl, hf'⟩ := hf.of_not_running hpower' hframe
    exact ⟨hvalues, hf'⟩
  | undergone hu =>
    rcases hu.control with hsame | ⟨hpower', hframe, -⟩ | hreset
    · have hpower' : s.power ≠ .running := hsame.power ▸ hpower
      obtain ⟨hvalues, hclosed⟩ := hs hpower'
      have ht := (hu.of_atResetValues hpower' hvalues).resolve_left hpower
      exact ⟨ht, hsame.frame ▸ hclosed⟩
    · obtain ⟨hvalues, hclosed⟩ := hs hpower'
      have ht := (hu.of_atResetValues hpower' hvalues).resolve_left hpower
      exact ⟨ht, hframe ▸ hclosed⟩
    · rcases hreset with rfl | rfl
      · exact ⟨softReset_atResetValues s, s.frame.afterReset_eq⟩
      · exact ⟨powerOnReset_atResetValues s, s.frame.afterReset_eq⟩

/-! ### The lines at reset (R107, R145, R169) -/

/-- At the reset values no cause of the NOTICE line is pending. -/
theorem State.atResetValues.notice {s : State} (h : s.atResetValues) : s.notice = false := by
  obtain ⟨-, hlinks, -, -, -, hports, hjob, hchanged, -⟩ := h
  rw [Bool.eq_false_iff, Ne, noticeFollowsItsCauses s]
  rintro ⟨-, ⟨i, l, -, hl, -⟩ | ⟨⟨d, hd⟩, -⟩ | ⟨⟨n, hn⟩, -⟩ | ⟨⟨p, hp⟩, -⟩⟩
  · exact nomatch (hlinks i).symm.trans hl
  · exact nomatch (hchanged d).symm.trans hd
  · exact nomatch hjob.symm.trans hn
  · rw [hports p] at hp
    cases hp

theorem queryReady_of_not_running {s : State} (h : s.power ≠ .running) : s.queryReady = false := by
  rw [Bool.eq_false_iff, Ne, queryReady_iff]
  exact fun hr => h hr.1

theorem requestReady_of_not_running {s : State} (h : s.power ≠ .running) (p : Radio) : s.requestReady p = false := by
  rw [Bool.eq_false_iff, Ne, requestReady_iff]
  exact fun hr => h hr.1

theorem reportReady_of_not_running {s : State} (h : s.power ≠ .running) (p : Radio) : s.reportReady p = false := by
  rw [Bool.eq_false_iff, Ne, reportReady_iff]
  exact fun hr => h hr.1

theorem State.atResetValues.queryReady {s : State} (h : s.atResetValues) (hp : s.power = .running) :
    s.queryReady = true :=
  queryReady_iff.2 ⟨hp, by rw [h.queries]; decide⟩

theorem State.atResetValues.requestReady {s : State} (h : s.atResetValues) (hp : s.power = .running) (p : Radio) :
    s.requestReady p = (s.port p).present := by
  have hslot : (s.port p).slot = none := by rw [h.port p]; rfl
  rw [Bool.eq_iff_iff, requestReady_iff]
  exact ⟨fun hr => hr.2.1, fun hr => ⟨hp, hr, hslot⟩⟩

theorem reportReady_of_running {s : State} (hp : s.power = .running) (p : Radio) :
    s.reportReady p = (s.port p).present := by
  rw [Bool.eq_iff_iff, reportReady_iff]
  exact ⟨fun hr => hr.2, fun hr => ⟨hp, hr⟩⟩

/-! ### The soft reset (R168) -/

theorem softReset_port (s : State) (p : Radio) : (s.softReset.port p).present = (s.port p).present := by
  fin_cases p <;> rfl

theorem softReset_leaves {s : State} (h : s.frame = .closed ∨ s.frame = .ignored) : s.softResetLeaves s.softReset := by
  have hpower : s.softReset.power ≠ .running := nofun
  exact ⟨softReset_atResetValues s, rfl, Frame.afterReset_of_carrierEnded (Frame.carrierEnded_iff.2 h),
    (softReset_atResetValues s).notice, queryReady_of_not_running hpower, rfl,
    fun p => ⟨softReset_port s p, requestReady_of_not_running hpower p, reportReady_of_not_running hpower p⟩⟩

/-- The answer to a RESET PART whose reset has taken effect goes nowhere. -/
theorem softReset_giveAnswer (s : State) (a : Answer) : s.softReset.giveAnswer a = s.softReset := by
  have hframe : s.softReset.frame ≠ .waiting := by
    rcases s.frame.afterReset_eq with h | h <;> rw [show s.softReset.frame = _ from h] <;> decide
  rw [State.giveAnswer, if_neg hframe]
  rfl

/-- The part runs once initialisation has ended with every block at its reset state. -/
theorem initialisationEnd_of_atResetValues {t : State} (ht : t.atResetValues) (hpower : t.power = .initialising) :
    ∃ u, exec .initialisationEnd t = .next u ∧ u = { t with power := .running } ∧ u.queryReady = true ∧
      u.notice = false ∧ ∀ p, u.requestReady p = (t.port p).present ∧ u.reportReady p = (t.port p).present := by
  have hu : ({ t with power := .running } : State).atResetValues := ht
  exact ⟨_, if_pos hpower, rfl, hu.queryReady rfl, hu.notice,
    fun p => ⟨hu.requestReady rfl p, reportReady_of_running rfl p⟩⟩

/-- Settles O8: RESET PART arms, or resets where its frame has ended, and the event SOFT_RESET resets where it has. -/
theorem softResetTakesEffectAfterItsFrame : Obligations.SoftResetTakesEffectAfterItsFrame := by
  refine ⟨fun s hhand => ?_, fun s harmed => ⟨fun hframe => ?_, fun hclosed hignored => ?_⟩⟩
  · have hexec : exec .resetPart s = .next (resetPart [] s).finish := carryOut_eq hhand rfl
    refine ⟨fun hwaiting => ?_, fun hframe => ⟨s.softReset, ?_, softReset_leaves hframe⟩⟩
    · rw [hexec, resetPart, hwaiting]
      rfl
    · rw [hexec, resetPart, if_pos (Frame.carrierEnded_iff.2 hframe), ok_finish, softReset_giveAnswer]
  · have hexec : exec .softReset s = .next s.softReset := by
      show execSoftReset s = _
      simp [execSoftReset, harmed, Frame.carrierEnded_iff.2 hframe]
    obtain ⟨u, hend, hu, hquery, hnotice, hports⟩ :=
      initialisationEnd_of_atResetValues (softReset_atResetValues s) rfl
    refine ⟨_, u, hexec, softReset_leaves hframe, hend, hu, hquery, hnotice, fun p => ?_⟩
    rw [← softReset_port s p]
    exact hports p
  · have hopen : s.frame.carrierEnded = false := by
      rw [Bool.eq_false_iff, Ne, Frame.carrierEnded_iff]
      exact fun h => h.elim hclosed hignored
    show execSoftReset s = _
    simp [execSoftReset, hopen]

/-! ### The power-on reset (R169) -/

/-- Settles O9: the four events of the sequence one after another, each from the reset values, and the law of
`exec_heldInReset` for every step. -/
theorem powerOnResetSequence : Obligations.PowerOnResetSequence := by
  refine ⟨fun s b0 b1 b2 => ?_, fun s t => step_keeps (fun _ _ hs => hs) fun _ _ _ => exec_heldInReset⟩
  obtain ⟨t, ht⟩ : ∃ t : State, t = { State.reset with frame := s.frame.afterReset, pending := s.pending } := ⟨_, rfl⟩
  have htvalues : t.atResetValues := ht ▸ powerOnReset_atResetValues s
  have htpower : t.power = .inReset := by rw [ht]; rfl
  have htrunning : t.power ≠ .running := by rw [htpower]; decide
  obtain ⟨u, hu⟩ : ∃ u : State, u = { t with
      power := .initialising, ports := #v[Port.afterReset b0, Port.afterReset b1, Port.afterReset b2] } := ⟨_, rfl⟩
  have huvalues : u.atResetValues := hu ▸ powerOnResetEnd_atResetValues htvalues b0 b1 b2 _
  have hupower : u.power = .initialising := by rw [hu]
  have hurunning : u.power ≠ .running := by rw [hupower]; decide
  obtain ⟨v, hend, hv, hquery, hnotice, hports⟩ := initialisationEnd_of_atResetValues huvalues hupower
  have hvport (p : Radio) : v.port p = u.port p := by rw [hv]; rfl
  refine ⟨t, u, v, by rw [ht]; rfl, htvalues, htpower, htvalues.notice, queryReady_of_not_running htrunning,
    by rw [ht]; rfl, by rw [ht],
    fun p => ⟨requestReady_of_not_running htrunning p, reportReady_of_not_running htrunning p⟩, ?_, by rw [hu], huvalues,
    ?_, queryReady_of_not_running hurunning,
    fun p => ⟨requestReady_of_not_running hurunning p, reportReady_of_not_running hurunning p⟩, hend, hv, hquery,
    fun p => by rw [hvport]; exact hports p, hnotice, fun bytes hopen => ?_⟩
  · rw [hu]
    exact if_pos htpower
  · rw [hu]
    exact ⟨rfl, rfl, rfl⟩
  · have hframe : v.frame = .ignored := by rw [hv, hu, ht]; exact if_neg hopen
    exact congrArg _ (foldl_clockByte_idle bytes (.inr (.inr (.inr hframe))))

end Sys2Proof.Machine
end


section
/-! The laws of the tables that hold record by record: every operation is a first write and then a sequence of elementary
writes, and what both keep every event keeps. -/

namespace Sys2Proof.Machine

/-! ### Every operation as a first write and elementary writes -/

/-- The first write of an operation on the tables. -/
inductive State.edits (s : State) : State → Prop
  | unmoved : edits s s
  | cleared : edits s State.reset
  | linkAdded {i : LinkId} {r : Radio} {peer : Addr} (h : Sector) (m : SectorMode) (hvacant : s.link i = none)
      (hpeer : isGroup peer = false) : edits s (s.setLink i (some (Link.fresh r peer h m)))
  | linkMoved {i : LinkId} {l : Link} {x : Option Link} (hl : s.link i = some l) (hm : Link.moves s l x) :
      edits s (s.setLink i x)
  | destAdded {d : DestId} {a : Addr} (hvacant : s.dest d = none) (ha : isGroup a = false) (hfind : s.findDest a = none) :
      edits s (s.setDest d (some (Dest.fresh a)))
  | enlisted {i : LinkId} {l : Link} {c : CandId} {n : Nat} (d : DestId) (p : Placement) (hl : s.link i = some l)
      (hn : n ≤ 65535) : edits s (s.enlisted c d i n p)
  | changesTaken {ch : Vector Bool 128} (h : ∀ d, ch.get d = true → s.changed.get d = true) :
      edits s { s with changed := ch }

/-- What first writes, elementary writes and the rise of the count keep, every operation on the tables keeps. -/
theorem State.retables.keeps {P : State → Prop} (hedit : ∀ s w, s.edits w → P s → P w)
    (hrework : ∀ s t, s.reworks t → P s → P t) (hrise : ∀ s : State, P s → P { s with now := s.now + 1 }) {s v : State}
    (h : s.retables v) (hs : P s) : P v := by
  have hmove {s : State} {i : LinkId} {l : Link} {x : Option Link} (hl : s.link i = some l) (hm : Link.moves s l x)
      (hs : P s) : P (s.moveLink i l x) := hrework _ _ (moveLink_reworks s i l x) (hedit _ _ (.linkMoved hl hm) hs)
  have hexpire (is : List LinkId) {s : State} (hs : P s) : P (s.expireDue is) := by
    induction is generalizing s with
    | nil => exact hs
    | cons i is ih =>
      rw [expireDue_cons]
      refine ih ?_
      rcases expireLink_moves s i with h | ⟨l, hl, hm, h⟩ <;> rw [h]
      · exact hs
      · exact hmove hl hm hs
  cases h with
  | unmoved => exact hs
  | cleared => exact hedit _ _ .cleared hs
  | linkAdded h m hvacant _ hpeer => exact hedit _ _ (.linkAdded h m (vacantLink_eq_some hvacant).1 hpeer) hs
  | linkMoved hl hm => exact hmove hl hm hs
  | cascade => exact hrework _ _ (retireCascade_reworks s _) hs
  | rise is => exact hexpire is (hrise s hs)
  | destAdded hvacant ha hfind => exact hedit _ _ (.destAdded (vacantDest_eq_some hvacant) ha hfind) hs
  | destRemoved => exact hrework _ _ (removeDest_reworks s _) hs
  | candAdded p hr hl _ _ _ _ hn =>
    exact hrework _ _ (chainEditCheck_reworks _ _) (hedit _ _ (.enlisted _ p hl hn) hs)
  | candRewritten mask p _ hn => exact hrework _ _ (rewriteCand_reworks s _ _ mask p hn) hs
  | candRemoved => exact hrework _ _ (removeCand_reworks s _) hs
  | evaluated d => exact hrework _ _ (evaluateDest_reworks s d) hs
  | changesTaken h => exact hedit _ _ (.changesTaken h) hs

/-- Two states with the same tables. -/
def State.tablesEq (s t : State) : Prop :=
  t.links = s.links ∧ t.dests = s.dests ∧ t.cands = s.cands ∧ t.changed = s.changed

/-- What first writes and elementary writes keep, and what only the tables decide, every step keeps. -/
theorem step_keeps_tables {P : State → Prop} (hcongr : ∀ s t, s.tablesEq t → P s → P t)
    (hedit : ∀ s w, s.edits w → P s → P w) (hrework : ∀ s t, s.reworks t → P s → P t) {s t : State} (hs : P s)
    (h : step s = .next t) : P t := by
  refine step_keeps (P := P) (fun s rest hs => hcongr s _ ⟨rfl, rfl, rfl, rfl⟩ hs) (fun c s t h hs => ?_) hs h
  obtain ⟨u, v, hu, huv, hvt⟩ := exec_retables h
  have hbeside : s.tablesEq u := by rw [hu.only]; exact ⟨rfl, rfl, rfl, rfl⟩
  have hv : P v := huv.keeps hedit hrework (fun s => hcongr s _ ⟨rfl, rfl, rfl, rfl⟩) (hcongr _ _ hbeside hs)
  exact hcongr _ _ ⟨hvt.links, hvt.dests, hvt.cands, hvt.changed⟩ hv

theorem State.tablesEq.link {s t : State} (h : s.tablesEq t) (i : LinkId) : t.link i = s.link i := by
  rw [State.link, h.1, State.link]

theorem State.tablesEq.dest {s t : State} (h : s.tablesEq t) (d : DestId) : t.dest d = s.dest d := by
  rw [State.dest, h.2.1, State.dest]

theorem State.tablesEq.cand {s t : State} (h : s.tablesEq t) (c : CandId) : t.cand c = s.cand c := by
  rw [State.cand, h.2.2.1, State.cand]

/-! ### Addresses (R1, R49, R51) -/

theorem State.edits.dest {s w : State} (h : s.edits w) {d : DestId} {r' : Dest} (hr : w.dest d = some r') :
    (∃ r, s.dest d = some r ∧ r.sameAddress r') ∨
      (isGroup r'.address = false ∧ s.findDest r'.address = none ∧ s.dest d = none ∧ r'.switchCount ≤ 65535 ∧
        ∀ e, e ≠ d → w.dest e = s.dest e) := by
  cases h with
  | unmoved | linkAdded | linkMoved | changesTaken => exact .inl ⟨r', hr, rfl, id⟩
  | cleared => simp at hr
  | @destAdded e a hvacant ha hfind =>
    rw [dest_setDest] at hr
    split at hr
    · next he =>
      cases hr
      exact .inr ⟨ha, hfind, he ▸ hvacant, Nat.zero_le _, fun f hf => by rw [dest_setDest, if_neg (he ▸ hf)]⟩
    · exact .inl ⟨r', hr, rfl, id⟩
  | enlisted e p =>
    rw [enlisted_dest] at hr
    split at hr
    · next he =>
      obtain ⟨q, hq, rfl⟩ := Option.map_eq_some_iff.1 hr
      exact .inl ⟨q, he ▸ hq, rfl, id⟩
    · exact .inl ⟨r', hr, rfl, id⟩

theorem destsDistinct_of_sameAddress {s t : State}
    (h : ∀ d r', t.dest d = some r' → ∃ r, s.dest d = some r ∧ r.sameAddress r') (hs : s.destsDistinct) :
    t.destsDistinct := by
  intro d e r q hr hq haddr
  obtain ⟨r0, hr0, hra, -⟩ := h d r hr
  obtain ⟨q0, hq0, hqa, -⟩ := h e q hq
  exact hs d e r0 q0 hr0 hq0 (by rw [← hra, haddr, hqa])

theorem State.edits.destsDistinct {s w : State} (h : s.edits w) (hs : s.destsDistinct) : w.destsDistinct := by
  by_cases hold : ∀ d r', w.dest d = some r' → ∃ r, s.dest d = some r ∧ r.sameAddress r'
  · exact destsDistinct_of_sameAddress hold hs
  · obtain ⟨d, r', hr', hnone⟩ : ∃ d r', w.dest d = some r' ∧ ¬ ∃ r, s.dest d = some r ∧ r.sameAddress r' := by
      simpa using hold
    obtain ⟨ha, hfind, -, -, hothers⟩ := (h.dest hr').resolve_left hnone
    have hnew {e : DestId} {q : Dest} (he : e ≠ d) (hq : w.dest e = some q) : q.address ≠ r'.address :=
      findDest_eq_none ha hfind ((hothers e he).symm.trans hq)
    intro e f q p hq hp haddr
    by_cases he : e = d <;> by_cases hf : f = d
    · rw [he, hf]
    · subst he
      cases hr'.symm.trans hq
      exact absurd haddr.symm (hnew hf hp)
    · subst hf
      cases hr'.symm.trans hp
      exact absurd haddr (hnew he hq)
    · exact hs e f q p ((hothers e he).symm.trans hq) ((hothers f hf).symm.trans hp) haddr

theorem step_destsDistinct {s t : State} (hs : s.destsDistinct) (h : step s = .next t) : t.destsDistinct := by
  refine step_keeps_tables (fun s t heq hs => ?_) (fun s w hw => hw.destsDistinct)
    (fun s t ht => destsDistinct_of_sameAddress ht.dest) hs h
  intro d e r q hr hq
  exact hs d e r q (heq.dest d ▸ hr) (heq.dest e ▸ hq)

theorem State.edits.stationsOnly {s w : State} (h : s.edits w) (hs : s.stationsOnly) : w.stationsOnly := by
  obtain ⟨hlinks, hdests⟩ := hs
  have hset {i : LinkId} {x : Option Link} (hx : ∀ l, x = some l → l.peer.getLsbD 40 = false) (j : LinkId) (l : Link)
      (hl : (s.setLink i x).link j = some l) : l.peer.getLsbD 40 = false := by
    rw [link_setLink] at hl
    split at hl
    · exact hx l hl
    · exact hlinks j l hl
  refine ⟨?_, fun d r' hr' => ?_⟩
  · cases h with
    | unmoved | destAdded | changesTaken => exact hlinks
    | cleared => exact fun i l hl => by simp at hl
    | linkAdded h m _ hpeer => exact hset fun l hl => by cases hl; exact hpeer
    | linkMoved hl hm =>
      refine hset fun l' hx => ?_
      subst hx
      rw [hm.stands.2.1]
      exact hlinks _ _ hl
    | @enlisted i l c n d p hl =>
      intro j m hm
      rw [enlisted_link] at hm
      split at hm
      · rw [hl] at hm
        cases hm
        exact hlinks i l hl
      · exact hlinks j m hm
  · rcases h.dest hr' with ⟨r, hr, hsame⟩ | ⟨ha, -⟩
    · rw [hsame.1]
      exact hdests d r hr
    · exact ha

theorem State.reworks.stationsOnly {s t : State} (h : s.reworks t) (hs : s.stationsOnly) : t.stationsOnly := by
  obtain ⟨hlinks, hdests⟩ := hs
  refine ⟨fun i l' hl' => ?_, fun d r' hr' => ?_⟩
  · obtain ⟨l, hl, n, rfl, -⟩ := h.link i l' hl'
    exact hlinks i l hl
  · obtain ⟨r, hr, hsame⟩ := h.dest d r' hr'
    rw [hsame.1]
    exact hdests d r hr

theorem step_stationsOnly {s t : State} (hs : s.stationsOnly) (h : step s = .next t) : t.stationsOnly := by
  refine step_keeps_tables (fun s t heq hs => ?_) (fun s w hw => hw.stationsOnly) (fun s t ht => ht.stationsOnly) hs h
  exact ⟨fun i l hl => hs.1 i l (heq.link i ▸ hl), fun d r hr => hs.2 d r (heq.dest d ▸ hr)⟩

/-! ### The changed-destination set and the figures (R49, R54, R71, R142) -/

theorem State.edits.changedInUse {s w : State} (h : s.edits w) (hs : s.changedInUse) : w.changedInUse := by
  cases h with
  | unmoved | linkAdded | linkMoved => exact hs
  | cleared => exact fun d hd => by simp at hd
  | destAdded =>
    intro e he
    rw [dest_setDest]
    split
    · nofun
    · exact hs e he
  | enlisted d p =>
    intro e he
    rw [enlisted_changed] at he
    rw [enlisted_dest]
    split
    · next hed => simpa [hed] using hs e he
    · exact hs e he
  | changesTaken hch => exact fun d hd => hs d (hch d hd)

theorem step_changedInUse {s t : State} (hs : s.changedInUse) (h : step s = .next t) : t.changedInUse := by
  refine step_keeps_tables (fun s t heq hs d hd => ?_) (fun s w hw => hw.changedInUse) (fun s t ht => ht.changedInUse) hs h
  rw [heq.dest]
  exact hs d (heq.2.2.2 ▸ hd)

theorem State.edits.figuresInRange {s w : State} (h : s.edits w) (hs : s.figuresInRange) : w.figuresInRange := by
  obtain ⟨hdests, hcands⟩ := hs
  refine ⟨fun d r' hr' => ?_, ?_⟩
  · rcases h.dest hr' with ⟨r, hr, hsame⟩ | ⟨-, -, -, hcount, -⟩
    · exact hsame.2 (hdests d r hr)
    · exact hcount
  · cases h with
    | unmoved | linkAdded | linkMoved | destAdded | changesTaken => exact hcands
    | cleared => exact fun c k hk => by simp at hk
    | enlisted d p hl hn =>
      intro e k hk
      rw [enlisted_cand] at hk
      split at hk
      · cases hk; exact ⟨hn, le_rfl⟩
      · exact hcands e k hk

theorem State.reworks.figuresInRange {s t : State} (h : s.reworks t) (hs : s.figuresInRange) : t.figuresInRange := by
  obtain ⟨hdests, hcands⟩ := hs
  refine ⟨fun d r' hr' => ?_, fun c k' hk' => ?_⟩
  · obtain ⟨r, hr, hsame⟩ := h.dest d r' hr'
    exact hsame.2 (hdests d r hr)
  · obtain ⟨k, hk, hrem, hlast⟩ := h.cand c k' hk'
    exact ⟨hrem (hcands c k hk).1, hlast (hcands c k hk).2⟩

theorem step_figuresInRange {s t : State} (hs : s.figuresInRange) (h : step s = .next t) : t.figuresInRange := by
  refine step_keeps_tables (fun s t heq hs => ?_) (fun s w hw => hw.figuresInRange) (fun s t ht => ht.figuresInRange) hs h
  exact ⟨fun d r hr => hs.1 d r (heq.dest d ▸ hr), fun c k hk => hs.2 c k (heq.cand c ▸ hk)⟩

/-! ### Retiring links are named (R24) -/

theorem State.edits.retiringNamed {s w : State} (h : s.edits w) (hs : s.retiringNamed) : w.retiringNamed := by
  have hset {i : LinkId} {x : Option Link} (hx : ∀ l, x = some l → l.state = .retiring → 1 ≤ l.refs) :
      (s.setLink i x).retiringNamed := by
    intro j l hl
    rw [link_setLink] at hl
    split at hl
    · exact hx l hl
    · exact hs j l hl
  cases h with
  | unmoved | destAdded | changesTaken => exact hs
  | cleared => exact fun i l hl => by simp at hl
  | linkAdded => exact hset fun l hl hr => by cases hl; cases hr
  | linkMoved hl hm =>
    refine hset fun l' hx hr => ?_
    subst hx
    obtain ⟨-, -, hrefs, hnamed⟩ := hm.stands
    rw [hrefs]
    rcases hnamed hr with hr | hne
    · exact hs _ _ hl hr
    · exact Nat.one_le_iff_ne_zero.2 hne
  | @enlisted i l c n d p hl =>
    intro j m hm
    rw [enlisted_link] at hm
    split at hm
    · rw [hl] at hm
      cases hm
      exact fun _ => Nat.le_add_left 1 _
    · exact hs j m hm

theorem step_retiringNamed {s t : State} (hs : s.retiringNamed) (h : step s = .next t) : t.retiringNamed := by
  refine step_keeps_tables (fun s t heq hs i l hl => hs i l (heq.link i ▸ hl)) (fun s w hw => hw.retiringNamed)
    (fun s t ht hs i l' hl' => ?_) hs h
  obtain ⟨l, hl, n, rfl, hn⟩ := ht.link i l' hl'
  exact fun hr => hn hr (hs i l hl hr)

/-! ### Reference counts (R20) -/

theorem State.tablesEq.refsExact {s t : State} (h : s.tablesEq t) (hs : s.refsExact) : t.refsExact :=
  refsExact_congr (fun c i => by rw [State.candNames, h.cand, State.candNames]) (fun i => by rw [h.link]) hs

theorem reset_refsExact : State.reset.refsExact := by
  intro i
  have hnone : State.reset.candsNaming i = [] := List.filter_eq_nil_iff.2 fun c _ => by simp [State.candNames]
  rw [hnone, reset_link]
  rfl

theorem linkAdded_refsExact {s : State} {i : LinkId} {l : Link} (hvacant : s.link i = none) (hrefs : l.refs = 0)
    (hs : s.refsExact) : (s.setLink i (some l)).refsExact := by
  intro j
  have hj := hs j
  rw [link_setLink]
  by_cases h : j = i
  · subst h
    rw [hvacant] at hj
    rw [if_pos rfl]
    exact hj.trans hrefs.symm
  · rw [if_neg h]
    exact hj

theorem moveLink_refsExact {s : State} {i : LinkId} {l : Link} {x : Option Link} (hl : s.link i = some l)
    (hm : Link.moves s l x) (hs : s.refsExact) : (s.moveLink i l x).refsExact := by
  have hw := moveLink_linkWritten s i l x
  cases x with
  | some l' => exact hw.refsExact (by rw [hl]; exact congrArg some hm.stands.2.2.1) hs
  | none =>
    have hrefs : l.refs = 0 := by cases hm; assumption
    have hi := hs i
    rw [hl] at hi
    exact hw.refsExact_vacant (List.eq_nil_of_length_eq_zero (hi.trans hrefs)) fun j _ => hs j

theorem State.pathsReselected.refsExact {s t : State} (h : s.pathsReselected t)
    (hlink : ∀ i, (t.link i).map Link.refs = (s.link i).map Link.refs) (hs : s.refsExact) : t.refsExact :=
  refsExact_congr (fun c i => candNames_congr (h.2 c) i) hlink hs

theorem State.retables.refsExact {s v : State} (h : s.retables v) (hs : s.refsExact) : v.refsExact := by
  cases h with
  | unmoved | changesTaken | destAdded => exact hs
  | cleared => exact reset_refsExact
  | linkAdded h m hvacant => exact linkAdded_refsExact (vacantLink_eq_some hvacant).1 rfl hs
  | linkMoved hl hm => exact moveLink_refsExact hl hm hs
  | cascade hl =>
    obtain ⟨-, -, -, -, -, hrefs, -⟩ := retireCascade_spec s _ _ hl
    exact hrefs hs
  | rise is =>
    obtain ⟨-, hlink, hreselected, -⟩ := expireDue_spec { s with now := s.now + 1 } is
    refine State.pathsReselected.refsExact (s := { s with now := s.now + 1 }) hreselected (fun i => ?_) hs
    rw [hlink]
    split
    · rw [Option.map_map]
      exact congrArg (Option.map · _) (funext fun l => expired_refs _ l)
    · rfl
  | destRemoved hr =>
    obtain ⟨-, -, -, -, -, hrefs, -⟩ := removeDest_spec s _ _ hr
    exact hrefs hs
  | candAdded p hr hl _ _ _ hc => exact enlist_refsExact hl hc hs
  | candRewritten mask p hk =>
    obtain ⟨hpaths, -, hnames, -⟩ := rewriteCand_spec s _ _ mask _ p hk
    exact refsExact_congr (fun c i => hnames c i) (fun i => by rw [State.pathsOnly_link hpaths]) hs
  | candRemoved => exact removeCand_refsExact _ hs
  | evaluated d =>
    have h := evaluateDest_reselects s d
    exact State.pathsOnly_refsExact h.pathsOnly h.same hs

/-- What holds of the tables, and every operation keeps, every step keeps. -/
theorem step_keeps_retables {P : State → Prop} (hcongr : ∀ s t, s.tablesEq t → P s → P t)
    (hretables : ∀ s v, s.retables v → P s → P v) {s t : State} (hs : P s) (h : step s = .next t) : P t := by
  refine step_keeps (P := P) (fun s rest hs => hcongr s _ ⟨rfl, rfl, rfl, rfl⟩ hs) (fun c s t h hs => ?_) hs h
  obtain ⟨u, v, hu, huv, hvt⟩ := exec_retables h
  have hbeside : s.tablesEq u := by rw [hu.only]; exact ⟨rfl, rfl, rfl, rfl⟩
  exact hcongr _ _ ⟨hvt.links, hvt.dests, hvt.cands, hvt.changed⟩ (hretables u v huv (hcongr _ _ hbeside hs))

/-- The destination that a candidate in use names. -/
def State.candDest (s : State) (c : CandId) : DestId := ((s.cand c).map Cand.dest).getD 0

/-- Over sound chains each destination has at most one candidate on a link. -/
theorem State.pathsSound.candsNaming_dest_injOn {s : State} (hs : s.pathsSound) {i : LinkId} {c e : CandId} {k q : Cand}
    (hc : s.candNames i c = true) (he : s.candNames i e = true) (hk : s.cand c = some k) (hq : s.cand e = some q)
    (hdest : k.dest = q.dest) : c = e := by
  obtain ⟨hchains, hmembers⟩ := hs
  obtain ⟨r, hr, hcr⟩ := hmembers c k hk
  obtain ⟨r', hr', her⟩ := hmembers e q hq
  rw [← hdest, hr] at hr'
  cases hr'
  obtain ⟨-, -, -, hone, -⟩ := hchains k.dest r hr
  have hki : k.link = i := by simpa [State.candNames, hk] using hc
  have hqi : q.link = i := by simpa [State.candNames, hq] using he
  exact hone c hcr e her k q hk hq (hki.trans hqi.symm)

/-- Settles O56: each operation keeps the counts, first writes and elementary writes keep a Retiring link named, and the
candidates naming a link have destinations all different, of which there are 128. -/
theorem referenceCountsStayExact : Obligations.ReferenceCountsStayExact := by
  refine ⟨fun s t => step_keeps_retables (fun _ _ h => h.refsExact) fun _ _ h => h.refsExact, fun s t => step_retiringNamed,
    fun s i l hexact hsound hl => ?_⟩
  have hcount : (s.candsNaming i).length = l.refs := by
    have h := hexact i
    rw [hl] at h
    exact h
  rw [← hcount]
  have hused (c : CandId) (hc : c ∈ s.candsNaming i) : ∃ k, s.cand c = some k := by
    have hn := mem_candsNaming.1 hc
    cases hk : s.cand c with
    | some k => exact ⟨k, rfl⟩
    | none => simp [State.candNames, hk] at hn
  have hnodup : ((s.candsNaming i).map s.candDest).Nodup := by
    refine List.Nodup.map_on (fun c hc e he heq => ?_) (candsNaming_nodup s i)
    obtain ⟨k, hk⟩ := hused c hc
    obtain ⟨q, hq⟩ := hused e he
    refine hsound.candsNaming_dest_injOn (mem_candsNaming.1 hc) (mem_candsNaming.1 he) hk hq ?_
    simpa [State.candDest, hk, hq] using heq
  calc (s.candsNaming i).length = ((s.candsNaming i).map s.candDest).length := (List.length_map ..).symm
    _ ≤ Fintype.card DestId := hnodup.length_le_card
    _ = 128 := Fintype.card_fin 128

end Sys2Proof.Machine
end


section
/-! Configuring is quiet, links stand on present ports, and no deadline is passed: the laws of the link records that the
part state, the ports and the queue of events enter into, and the obligation about deadlines. -/

namespace Sys2Proof.Machine

/-! ### The events of the resets -/

/-- No link and no destination is in use, and no change is recorded. -/
def State.tablesEmpty (s : State) : Prop :=
  (∀ i, s.link i = none) ∧ (∀ d, s.dest d = none) ∧ ∀ d, s.changed.get d = false

/-- An event by which the part is reset empties the tables, or leaves part state and Timebase count. -/
theorem exec_of_isReset {c : Instr} {s t : State} (h : exec c s = .next t) (hc : isReset c = true) :
    t.tablesEmpty ∨ (t.part = s.part ∧ t.now = s.now) := by
  have hempty : State.reset.tablesEmpty := ⟨reset_link, reset_dest, reset_changed⟩
  cases exec_becomes h with
  | unmoved | refused => exact .inr ⟨rfl, rfl⟩
  | answered rs _ hu =>
    cases hu with
    | read | arm | moveCursor => exact .inr ⟨rfl, rfl⟩
    | softReset => exact .inl hempty
    | _ => cases hc
  | framed hf => rw [hf.only]; exact .inr ⟨rfl, rfl⟩
  | undergone hu =>
    cases hu with
    | softReset | powerOnReset => exact .inl hempty
    | report | passingVisit => exact .inr ⟨rfl, rfl⟩
    | _ => cases hc

/-- After an event other than the tick the count is as it was, or no link is in use. -/
theorem exec_now {c : Instr} {s t : State} (h : exec c s = .next t) (hc : c ≠ .millisecondTick) :
    t.now = s.now ∨ ∀ i, t.link i = none := by
  cases exec_settles h with
  | kept h | part _ h | params _ _ h | profile _ _ _ h | cursor _ _ h => exact .inl (congrArg Settings.now h)
  | now hc' => exact absurd hc' hc
  | reset hr =>
    rcases exec_of_isReset h hr with hempty | ⟨-, hnow⟩
    · exact .inr hempty.1
    · exact .inl hnow

/-- After an event the part is in Configuring only if it was, or if the tables are empty. -/
theorem exec_configuring {c : Instr} {s t : State} (h : exec c s = .next t) (ht : t.part = .configuring) :
    s.part = .configuring ∨ t.tablesEmpty := by
  cases exec_settles h with
  | kept h | params _ _ h | profile _ _ _ h | now _ h | cursor _ _ h =>
    exact .inl ((congrArg Settings.part h).symm.trans ht)
  | part _ h => exact nomatch (congrArg Settings.part h).symm.trans ht
  | reset hr =>
    rcases exec_of_isReset h hr with hempty | ⟨hpart, -⟩
    · exact .inr hempty
    · exact .inl (hpart ▸ ht)

/-! ### Ports and links (R3, R107) -/

/-- Presence is sampled only at the end of a power-on reset, before which no link is in use. -/
theorem exec_present {c : Instr} {s t : State} (h : exec c s = .next t) (hs : s.heldInReset) :
    (∀ p, (t.port p).present = (s.port p).present) ∨ ∀ i, t.link i = none := by
  cases hc : isReset c
  · by_cases hend : ∀ b0 b1 b2, c ≠ .powerOnResetEnd b0 b1 b2
    · exact .inl ((exec_keepsHeld h hc).present hend)
    · obtain ⟨b0, b1, b2, rfl⟩ : ∃ b0 b1 b2, c = .powerOnResetEnd b0 b1 b2 := by
        by_contra hno
        exact hend fun b0 b1 b2 hc => hno ⟨b0, b1, b2, hc⟩
      by_cases hpower : s.power = .inReset
      · have hlink := (hs (by rw [hpower]; decide)).1.link
        cases (if_pos hpower).symm.trans h
        exact .inr hlink
      · cases (if_neg hpower).symm.trans h
        exact .inl fun _ => rfl
  · have hheld (hsame : t.ports = s.ports) (p : Radio) : (t.port p).present = (s.port p).present := by
      rw [State.port, hsame, State.port]
    cases exec_becomes h with
    | unmoved | refused => exact .inl fun _ => rfl
    | answered rs _ hu =>
      cases hu with
      | read | arm | moveCursor => exact .inl fun _ => rfl
      | softReset => exact .inr reset_link
      | _ => cases hc
    | framed hf => exact .inl (hheld (by rw [hf.only]))
    | undergone hu =>
      cases hu with
      | softReset | powerOnReset => exact .inr reset_link
      | passingVisit => exact .inl fun _ => rfl
      | report r _ hready =>
        refine .inl fun o => ?_
        rw [port_setPort]
        split
        · next ho => subst ho; unfold Port.receive; split <;> rfl
        · rfl
      | _ => cases hc

theorem exec_linksOnPresentPorts {c : Instr} {s t : State} (h : exec c s = .next t) (hheld : s.heldInReset)
    (hs : s.linksOnPresentPorts) : t.linksOnPresentPorts := by
  intro i l hl
  rcases exec_present h hheld with hpresent | hnone
  · rw [hpresent]
    rcases (exec_link h hl).station with ⟨l0, hl0, hradio, -⟩ | ⟨-, hpresent, -⟩
    · rw [hradio]
      exact hs i l0 hl0
    · exact hpresent
  · exact nomatch (hnone i).symm.trans hl

/-! ### Configuring is quiet (R70, R164) -/

/-- Every record of a link is as ADD LINK starts it or retired since. -/
def Link.quiet (l : Link) : Prop :=
  (l.state = .probation ∨ l.state = .retiring) ∧ l.lastHeard = none ∧ l.deadline = none

theorem Link.quiet.not_usable {l : Link} (h : l.quiet) : l.state.isUsable = false := by
  rcases h.1 with h | h <;> rw [h] <;> rfl

/-- The part in Configuring, its links quiet, no destination Resolved and no change recorded. -/
structure State.quiet (s : State) : Prop where
  part : s.part = .configuring
  links : ∀ i l, s.link i = some l → l.quiet
  dests : ∀ d r, s.dest d = some r → r.active = none
  changed : ∀ d, s.changed.get d = false

theorem quietInConfiguring_iff {s : State} : s.quietInConfiguring ↔ (s.part = .configuring → s.quiet) :=
  ⟨fun h hp => ⟨hp, (h hp).1, (h hp).2.1, (h hp).2.2⟩, fun h hp => ⟨(h hp).links, (h hp).dests, (h hp).changed⟩⟩

/-- What UPDATE LINK's three writes keep, the whole command keeps. -/
theorem writeMasked_keeps {P : Link → Prop} {t : Tuning} (hsector : ∀ h l, P l → P (l.writeSector t h))
    (hmode : ∀ m l, P l → P (l.writeMode m)) (hpin : ∀ pin l, P l → P (l.writePin t pin)) (mask : Byte)
    (h : Option Sector) (m : Option SectorMode) (pin : Option Rate) {l : Link} (hl : P l) :
    P (l.writeMasked t mask h m pin) := by
  have hfirst : P (match mask.getLsbD 0, h with | true, some h => l.writeSector t h | _, _ => l) := by
    split
    · exact hsector _ l hl
    · exact hl
  have hsecond (l : Link) (hl : P l) : P (match mask.getLsbD 1, m with | true, some m => l.writeMode m | _, _ => l) := by
    split
    · exact hmode _ l hl
    · exact hl
  have hthird (l : Link) (hl : P l) : P (if mask.getLsbD 2 then l.writePin t pin else l) := by
    split
    · exact hpin pin l hl
    · exact hl
  exact hthird _ (hsecond _ hfirst)

theorem writeMasked_deadline (t : Tuning) (mask : Byte) (h : Option Sector) (m : Option SectorMode) (pin : Option Rate)
    (l : Link) : (l.writeMasked t mask h m pin).lastHeard = l.lastHeard ∧
      (l.writeMasked t mask h m pin).deadline = l.deadline := by
  refine writeMasked_keeps (P := fun m => m.lastHeard = l.lastHeard ∧ m.deadline = l.deadline) (fun h l hl => ?_)
    (fun m l hl => ?_) (fun pin l hl => ?_) mask h m pin ⟨rfl, rfl⟩
  · unfold Link.writeSector
    split
    · exact hl
    · simpa [Link.changeSector, Link.clearFollow, Link.resetEstimates] using hl
  · unfold Link.writeMode
    split
    · exact hl
    · exact hl
  · unfold Link.writePin
    split
    · exact hl
    · simpa using hl

theorem Link.moves.quiet {s : State} {l l' : Link} (h : Link.moves s l (some l')) (hs : s.part = .configuring)
    (hl : l.quiet) : l'.quiet := by
  obtain ⟨hstate, hlast, hdead⟩ := hl
  cases h with
  | masked mask h m pin =>
    obtain ⟨hlast', hdead'⟩ := writeMasked_deadline s.tuning mask h m pin l
    have hsame := (writeMasked_keepsStanding s.tuning mask h m pin l).eq_of_unusable (Link.quiet.not_usable ⟨hstate, hlast, hdead⟩)
    exact ⟨by rwa [hsame], hlast'.trans hlast, hdead'.trans hdead⟩
  | eventsRead => exact ⟨hstate, hlast, hdead⟩
  | okAnswer hpart | outcome _ _ _ hpart | heard _ _ hpart | expired hpart => exact nomatch hs.symm.trans hpart
  | retired => exact ⟨.inr rfl, hlast, rfl⟩
  | retuned => exact ⟨.inl rfl, rfl, rfl⟩

theorem candUsable_of_quiet {s : State} (h : ∀ i l, s.link i = some l → l.quiet) (c : CandId) : s.candUsable c = false := by
  unfold State.candUsable
  split
  · split
    · next hl => simp [(h _ _ hl).not_usable]
    · rfl
  · rfl

/-- With no candidate usable, no elementary write makes a candidate active or records a change. -/
theorem State.reworks.quiet {s t : State} (h : s.reworks t) (hs : s.quiet) : t.quiet := by
  have hlinks {t : State} (h : s.reworks t) (i : LinkId) (l' : Link) (hl' : t.link i = some l') : l'.quiet := by
    obtain ⟨l, hl, n, rfl, -⟩ := h.link i l' hl'
    exact hs.links i l hl
  have hupdated {t : State} {d : DestId} {f : Dest → Dest} (hf : ∀ r, r.active = none → (f r).active = none)
      (ht : t.quiet) (e : DestId) (r' : Dest) (hr' : (t.updateDest d f).dest e = some r') : r'.active = none := by
    rw [updateDest_dest] at hr'
    split at hr'
    · obtain ⟨r, hr, rfl⟩ := Option.map_eq_some_iff.1 hr'
      exact hf r (ht.dests d r hr)
    · exact ht.dests e r' hr'
  induction h with
  | refl => exact hs
  | refresh c h ih =>
    exact ⟨by rw [(h.refresh c).tablesOnly]; exact hs.part, hlinks (h.refresh c),
      fun d r hr => ih.dests d r (by rwa [refreshCost_dest] at hr), fun d => by rw [refreshCost_changed]; exact ih.changed d⟩
  | @activate t d a h ha ih =>
    have hsame : t.setActive d a = t := by
      cases hr : t.dest d with
      | none => simp [State.setActive, hr]
      | some r =>
        have hnone := ih.dests d r hr
        rcases ha r hr with rfl | rfl | ⟨c, -, hu⟩
        · exact setActive_self hr
        · rw [← hnone]; exact setActive_self hr
        · rw [candUsable_of_quiet ih.links c] at hu
          cases hu
    rwa [hsame]
  | rechain d f h ih =>
    exact ⟨by rw [(h.rechain d f).tablesOnly]; exact hs.part, hlinks (h.rechain d f), hupdated (fun _ hr => hr) ih,
      fun e => by rw [updateDest_changed]; exact ih.changed e⟩
  | reprice c hn h ih =>
    exact ⟨by rw [(h.reprice c hn).tablesOnly]; exact hs.part, hlinks (h.reprice c hn),
      fun d r hr => ih.dests d r (by rwa [updateCand_dest] at hr), fun d => by rw [updateCand_changed]; exact ih.changed d⟩
  | free c h ih => exact ⟨ih.part, ih.links, ih.dests, ih.changed⟩
  | dereference i h ih =>
    exact ⟨by rw [(h.dereference i).tablesOnly]; exact hs.part, hlinks (h.dereference i),
      fun d r hr => ih.dests d r (by rwa [dropReference_dest] at hr),
      fun d => by rw [dropReference_changed]; exact ih.changed d⟩
  | vacate i h ih => exact ⟨ih.part, hlinks (h.vacate i), ih.dests, ih.changed⟩
  | clear d h ih =>
    exact ⟨by rw [(h.clear d).tablesOnly]; exact hs.part, hlinks (h.clear d), hupdated (fun _ _ => rfl) ih,
      fun e => by rw [updateDest_changed]; exact ih.changed e⟩
  | remove d h ih =>
    refine ⟨ih.part, hlinks (h.remove d), fun e r hr => ?_, fun e => ?_⟩
    · rw [dest_setChanged, dest_setDest] at hr
      split at hr
      · cases hr
      · exact ih.dests e r hr
    · rw [changed_setChanged]
      split
      · rfl
      · exact ih.changed e

theorem reset_quiet : State.reset.quiet :=
  ⟨rfl, fun i l hl => by simp at hl, fun d r hr => by simp at hr, reset_changed⟩

theorem State.edits.quiet {s w : State} (h : s.edits w) (hs : s.quiet) : w.quiet := by
  have hset {i : LinkId} {x : Option Link} (hx : ∀ l, x = some l → l.quiet) : (s.setLink i x).quiet := by
    refine ⟨hs.part, fun j l hl => ?_, hs.dests, hs.changed⟩
    rw [link_setLink] at hl
    split at hl
    · exact hx l hl
    · exact hs.links j l hl
  cases h with
  | unmoved => exact hs
  | cleared => exact reset_quiet
  | linkAdded => exact hset fun l hl => by cases hl; exact ⟨.inl rfl, rfl, rfl⟩
  | linkMoved hl hm =>
    refine hset fun l' hx => ?_
    subst hx
    exact hm.quiet hs.part (hs.links _ _ hl)
  | destAdded =>
    refine ⟨hs.part, hs.links, fun e r hr => ?_, hs.changed⟩
    rw [dest_setDest] at hr
    split at hr
    · cases hr; rfl
    · exact hs.dests e r hr
  | @enlisted i l c n d p hl =>
    refine ⟨by rw [enlisted_tablesOnly s c d i n p]; exact hs.part, fun j m hm => ?_, fun e r hr => ?_,
      fun e => by rw [enlisted_changed]; exact hs.changed e⟩
    · rw [enlisted_link] at hm
      split at hm
      · rw [hl] at hm
        cases hm
        exact hs.links i l hl
      · exact hs.links j m hm
    · rw [enlisted_dest] at hr
      split at hr
      · obtain ⟨q, hq, rfl⟩ := Option.map_eq_some_iff.1 hr
        exact hs.dests d q hq
      · exact hs.dests e r hr
  | changesTaken hch => exact ⟨hs.part, hs.links, hs.dests, fun d => Bool.eq_false_iff.2 fun hd => by simpa [hs.changed d] using hch d hd⟩

theorem exec_quietInConfiguring {c : Instr} {s t : State} (h : exec c s = .next t) (hs : s.quietInConfiguring) :
    t.quietInConfiguring := by
  rw [quietInConfiguring_iff] at hs ⊢
  intro hpart
  rcases exec_configuring h hpart with hconf | ⟨hlinks, hdests, hchanged⟩
  · obtain ⟨u, v, hu, huv, hvt⟩ := exec_retables h
    have hq := hs hconf
    have huq : u.quiet := by rw [hu.only]; exact ⟨hq.part, hq.links, hq.dests, hq.changed⟩
    have hv := huv.keeps (P := State.quiet) (fun _ _ h => h.quiet) (fun _ _ h => h.quiet)
      (fun _ h => ⟨h.part, h.links, h.dests, h.changed⟩) huq
    exact ⟨hpart, fun i l hl => hv.links i l (by rw [← hl, State.link, State.link, hvt.links]),
      fun d r hr => hv.dests d r (by rw [← hr, State.dest, State.dest, hvt.dests]),
      fun d => by rw [hvt.changed]; exact hv.changed d⟩
  · exact ⟨hpart, fun i l hl => (nomatch (hlinks i).symm.trans hl), fun d r hr => (nomatch (hdests d).symm.trans hr),
      hchanged⟩

/-! ### No deadline is passed (R12, R13, R170) -/

theorem takeOutcome_deadline (t : Tuning) (now : Time) (r : Rate) (n : Nat) (acked : Bool) (l : Link) :
    (l.takeOutcome t now r n acked).deadline = l.deadline ∨ (l.takeOutcome t now r n acked).lastHeard = some now := by
  unfold Link.takeOutcome
  cases acked
  · exact .inl (by simp [Link.sampleDelivery])
  · exact .inr (by simp [Link.computeDeadline])

theorem followBeacon_lastHeard (t : Tuning) (h : Sector) (l : Link) : (l.followBeacon t h).lastHeard = l.lastHeard := by
  unfold Link.followBeacon
  split
  · rfl
  · split
    · rfl
    · generalize (if l.followSector = some h then l.agree + 1 else 1) = n
      dsimp only
      split
      · simp [Link.changeSector, Link.clearFollow, Link.resetEstimates, Link.addEvent]
      · rfl

theorem measureBeacon_lastHeard (now : Time) (l : Link) : (l.measureBeacon now).lastHeard = l.lastHeard := by
  obtain ⟨gs, gc, iv, h, -⟩ := measureBeacon_cases now l
  rw [h]

theorem hear_lastHeard (t : Tuning) (now : Time) (x : Nat) (h : Sector) (b : Bool) (l : Link) :
    (l.hear t now x h b).lastHeard = some now := by
  unfold Link.hear
  rw [evaluate_lastHeard]
  show Link.lastHeard (if b then _ else _) = _
  split
  · rw [followBeacon_lastHeard, measureBeacon_lastHeard]
  · rfl

/-- A move leaves the deadline, takes it away, or computes it from now. -/
theorem Link.moves.deadline {s : State} {l l' : Link} (h : Link.moves s l (some l')) :
    l'.deadline = none ∨ l'.deadline = l.deadline ∨ l'.lastHeard = some s.now := by
  cases h with
  | masked mask h m pin => exact .inr (.inl (writeMasked_deadline s.tuning mask h m pin l).2)
  | eventsRead | okAnswer => exact .inr (.inl rfl)
  | outcome r n acked => exact .inr (takeOutcome_deadline s.tuning s.now r _ acked l)
  | heard h b =>
    obtain ⟨-, -, -, hlast, -⟩ := afterHeard_stands s.tuning s.now _ h b l
    exact .inr (.inr (hlast.trans (hear_lastHeard s.tuning s.now _ h b l)))
  | expired | retired | retuned => exact .inl rfl

/-- A sound deadline computed from now lies 1 to 30,000 ms ahead. -/
theorem Link.deadlineSound.ahead {l : Link} {now x : Time} (h : l.deadlineSound) (hlast : l.lastHeard = some now)
    (hx : l.deadline = some x) : 1 ≤ (x - now).toNat ∧ (x - now).toNat ≤ 30000 := by
  unfold Link.deadlineSound at h
  rw [hx] at h
  obtain ⟨-, b, hb, hlow, hhigh⟩ := h
  cases hlast.symm.trans hb
  exact ⟨by omega, hhigh⟩

/-- An expiry that waits behind the event taken, itself no tick and not that expiry, still waits once it is taken. -/
theorem expiresLater_of_cons {s : State} {c : Instr} {rest : List Instr} {i : LinkId} (hp : s.pending = c :: rest)
    (htick : c ≠ .millisecondTick) (hne : c ≠ .silenceDeadlineExpiry i) (h : s.expiresLater i = true) :
    ({ s with pending := rest } : State).expiresLater i = true := by
  have hkeep : (c != .millisecondTick) = true := by simpa using htick
  simp only [State.expiresLater, hp, List.takeWhile_cons, hkeep, if_true, List.contains_cons, Bool.or_eq_true,
    beq_iff_eq] at h
  exact h.resolve_left fun he => hne he.symm

theorem expiresLater_of_tick {s : State} {rest : List Instr} (hp : s.pending = .millisecondTick :: rest) (i : LinkId) :
    s.expiresLater i = false := by
  simp [State.expiresLater, hp]

/-- Every event leaves the queue of waiting events. -/
theorem exec_pending {c : Instr} {s t : State} (h : exec c s = .next t) : t.pending = s.pending := by
  cases exec_becomes h with
  | unmoved | refused => rfl
  | answered rs _ hu =>
    rcases hu.control with hsame | ⟨-, rfl⟩
    · exact hsame.pending
    · rfl
  | framed hf => rw [hf.only]
  | undergone hu =>
    rcases hu.control with hsame | ⟨-, -, -, hpending⟩ | hreset
    · exact hsame.pending
    · exact hpending
    · exact hreset.control.2.2

/-- A deadline's distance from the count, of which one millisecond has passed. -/
theorem toNat_sub_succ {x now : Time} (h : 1 ≤ (x - now).toNat) (hne : x ≠ now + 1) :
    1 ≤ (x - (now + 1)).toNat ∧ (x - (now + 1)).toNat ≤ (x - now).toNat := by
  have hdiff : x - now ≠ 1 := fun he => hne (by rw [← he]; ring)
  have hsub : x - (now + 1) = (x - now) - 1 := by ring
  rw [hsub]
  generalize x - now = y at *
  bv_omega

/-- The tick keeps every deadline ahead: one that is the new count either has expired, or waits for its own event. -/
theorem tick_deadlinesAhead {s t : State} {rest : List Instr} (hp : s.pending = .millisecondTick :: rest)
    (hquiet : s.quietInConfiguring) (hs : s.deadlinesAhead)
    (h : exec .millisecondTick { s with pending := rest } = .next t) : t.deadlinesAhead := by
  have hahead (i : LinkId) (l : Link) (x : Time) (hl : s.link i = some l) (hx : l.deadline = some x) :
      1 ≤ (x - s.now).toNat ∧ (x - s.now).toNat ≤ 30000 :=
    (hs i l x hl hx).resolve_right fun hnow => by simp [expiresLater_of_tick hp i] at hnow
  by_cases hpower : s.power = .running
  · obtain ⟨u, hu, htables, -, -, hlink⟩ := millisecondTick_spec (s := { s with pending := rest }) hpower
    cases hu.symm.trans h
    have hnow : t.now = s.now + 1 := htables.now
    have hpending : t.pending = rest := by rw [htables]
    have hlater (i : LinkId) : t.expiresLater i = ({ s with pending := rest } : State).expiresLater i := by
      rw [State.expiresLater, hpending, State.expiresLater]
    intro i l' x hl' hx
    rw [hnow, hlater]
    rw [hlink] at hl'
    split at hl'
    · obtain ⟨l, hl, rfl⟩ := Option.map_eq_some_iff.1 hl'
      unfold Link.expired at hx
      split at hx
      · cases hx
      · next hdue =>
        obtain ⟨hlow, hhigh⟩ := hahead i l x hl hx
        have hne : x ≠ s.now + 1 := fun he => hdue (due_eq_true.2 (he ▸ hx))
        obtain ⟨hlow', hle⟩ := toNat_sub_succ hlow hne
        exact .inl ⟨hlow', hle.trans hhigh⟩
    · next hnot =>
      obtain ⟨hlow, hhigh⟩ := hahead i l' x hl' hx
      by_cases hne : x = s.now + 1
      · have hpart : s.part = .operational := by
          cases hpart : s.part with
          | operational => rfl
          | configuring => exact nomatch hx.symm.trans ((hquiet hpart).1 i l' hl').2.2
        refine .inr ⟨hne, ?_⟩
        by_contra hl
        exact hnot ⟨hpart, by simpa using hl⟩
      · obtain ⟨hlow', hle⟩ := toNat_sub_succ hlow hne
        exact .inl ⟨hlow', hle.trans hhigh⟩
  · have hidle : exec .millisecondTick { s with pending := rest } = .next { s with pending := rest } := if_neg hpower
    cases hidle.symm.trans h
    exact fun i l x hl hx => .inl (hahead i l x hl hx)

/-- The expiry event of a link whose deadline is the count takes the deadline away. -/
theorem expiry_deadline {s t : State} {i : LinkId} (hquiet : s.quietInConfiguring)
    (h : exec (.silenceDeadlineExpiry i) s = .next t) {l : Link} (hl : t.link i = some l) : l.deadline ≠ some s.now := by
  cases (show exec (.silenceDeadlineExpiry i) s = .next (s.expireLink i) from rfl).symm.trans h
  rcases expireLink_cases s i with ⟨hdue, heq⟩ | ⟨l0, -, -, -, ⟨-, hlink, -⟩, -⟩
  · rw [heq] at hl
    intro hd
    cases hpart : s.part with
    | operational => exact hdue ⟨hpart, l, hl, hd⟩
    | configuring => exact nomatch hd.symm.trans ((hquiet hpart).1 i l hl).2.2
  · rw [hlink, if_pos rfl] at hl
    cases hl
    nofun

theorem step_deadlinesAhead {s t : State} (hparams : s.paramsInRange) (hsound : s.linksSound)
    (hquiet : s.quietInConfiguring) (hs : s.deadlinesAhead) (h : step s = .next t) : t.deadlinesAhead := by
  rcases step_cases h with rfl | ⟨c, rest, hp, hc⟩
  · exact hs
  by_cases htick : c = .millisecondTick
  · subst htick
    exact tick_deadlinesAhead hp hquiet hs hc
  intro i l' x hl' hx
  have hnow : t.now = s.now := (exec_now hc htick).resolve_right fun hnone => nomatch (hnone i).symm.trans hl'
  rw [hnow]
  have hkept {l : Link} (hl : s.link i = some l) (hd : l.deadline = some x) :
      (1 ≤ (x - s.now).toNat ∧ (x - s.now).toNat ≤ 30000) ∨ (x = s.now ∧ t.expiresLater i = true) := by
    rcases hs i l x hl hd with hahead | ⟨hxnow, hlater⟩
    · exact .inl hahead
    · refine .inr ⟨hxnow, ?_⟩
      have hne : c ≠ .silenceDeadlineExpiry i := by
        rintro rfl
        exact expiry_deadline (s := { s with pending := rest }) hquiet hc hl' (hx.trans (congrArg some hxnow))
      rw [State.expiresLater, exec_pending hc]
      exact expiresLater_of_cons hp htick hne hlater
  cases exec_link hc hl' with
  | kept hl hre => obtain ⟨n, rfl, -⟩ := hre; exact hkept hl hx
  | moved hl hm =>
    rcases hm.deadline with hnone | hsame | hlast
    · exact nomatch hnone.symm.trans hx
    · exact hkept hl (hsame ▸ hx)
    · have hsound' := hm.sound (s := { s with pending := rest }) hparams (hsound i _ hl)
      exact .inl (hsound'.2.1.ahead hlast hx)
  | risen => cases hx
  | added => cases hx

/-- Settles O58: the deadlines' laws by the moves of a record and the tick, and the rest by where each record comes from. -/
theorem deadlinesStaySound : Obligations.DeadlinesStaySound :=
  ⟨fun _ _ hp hs h => step_keeps_inRange (P := State.linksSound) (fun _ _ hs => hs) (fun _ _ _ => exec_linksSound) hp hs h,
    fun _ _ hp hsound hquiet hs h => step_deadlinesAhead hp hsound hquiet hs h,
    fun _ _ hs h => step_keeps (fun _ _ hs => hs) (fun _ _ _ => exec_linksDistinct) hs h,
    fun _ _ hheld hs h => (step_keeps (P := fun s => s.heldInReset ∧ s.linksOnPresentPorts) (fun _ _ hs => hs)
      (fun _ _ _ h hs => ⟨exec_heldInReset h hs.1, exec_linksOnPresentPorts h hs.1 hs.2⟩) ⟨hheld, hs⟩ h).2,
    fun _ _ hs h => step_keeps (fun _ _ hs => hs) (fun _ _ _ => exec_quietInConfiguring) hs h⟩

end Sys2Proof.Machine
end


section
/-! Chains and active candidates under one event: the laws of R57 and R72, that every active candidate names a usable link
(R88), and the obligation about the Path Table. -/

namespace Sys2Proof.Machine

/-! ### Sound chains (R54, R57, R72) -/

theorem State.tablesEq.pathsSound {s t : State} (h : s.tablesEq t) (hs : s.pathsSound) : t.pathsSound := by
  have hcand (c : CandId) : sameButCost (s.cand c) (t.cand c) := by rw [h.cand]; exact sameButCost_rfl _
  refine pathsSound_of hs hcand (fun e r hr => ⟨r, h.dest e ▸ hr, rfl, .inl ⟨rfl, rfl⟩⟩) fun e r hr => ⟨r, ?_, rfl⟩
  rw [h.dest, hr]

theorem reset_pathsSound : State.reset.pathsSound :=
  ⟨fun d r hr => by simp at hr, fun c k hk => by simp at hk⟩

theorem destAdded_pathsSound {s : State} {d : DestId} {a : Addr} (hvacant : s.dest d = none) (hs : s.pathsSound) :
    (s.setDest d (some (Dest.fresh a))).pathsSound := by
  obtain ⟨hchains, hmembers⟩ := hs
  refine ⟨fun e r hr => ?_, fun c k hk => ?_⟩
  · rw [dest_setDest] at hr
    split at hr
    · cases hr
      exact ⟨Nat.zero_le _, List.nodup_nil, nofun, nofun, nofun⟩
    · exact hchains e r hr
  · obtain ⟨r, hr, hc⟩ := hmembers c k hk
    have hne : k.dest ≠ d := fun he => nomatch (he ▸ hr).symm.trans hvacant
    exact ⟨r, by rw [dest_setDest, if_neg hne]; exact hr, hc⟩

theorem State.retables.pathsSound {s v : State} (h : s.retables v) (hs : s.pathsSound) : v.pathsSound := by
  cases h with
  | unmoved | linkAdded | changesTaken => exact hs
  | cleared => exact reset_pathsSound
  | @linkMoved i l x => exact (moveLink_linkWritten s i l x).2.2.2 hs
  | cascade hl =>
    obtain ⟨-, -, -, -, -, -, hsound, -⟩ := retireCascade_spec s _ _ hl
    exact hsound hs
  | rise is => exact (expireDue_spec { s with now := s.now + 1 } is).2.2.2 hs
  | destAdded hvacant => exact destAdded_pathsSound (vacantDest_eq_some hvacant) hs
  | destRemoved => exact removeDest_pathsSound _ hs
  | candAdded p hr hl _ hnames hlen hc => exact enlist_pathsSound hr hc hnames hlen hs
  | candRewritten mask p hk =>
    obtain ⟨-, -, -, hsound⟩ := rewriteCand_spec s _ _ mask _ p hk
    exact hsound hs
  | candRemoved => exact removeCand_pathsSound _ hs
  | evaluated d => exact (evaluateDest_reselects s d).pathsSound hs

/-! ### Active candidates on usable links (R88) -/

/-- The candidate is in use and names a link that is Up or Degraded. -/
def State.onUsable (s : State) (a : CandId) : Prop :=
  ∃ k l, s.cand a = some k ∧ s.link k.link = some l ∧ l.state.isUsable = true

/-- The destination's active candidate, if it has one, names a usable link. -/
def State.servedAt (s : State) (d : DestId) : Prop := ∀ r a, s.dest d = some r → r.active = some a → s.onUsable a

theorem activesOnUsableLinks_iff {s : State} : s.activesOnUsableLinks ↔ ∀ d, s.servedAt d := by
  simp only [State.activesOnUsableLinks, State.servedAt, State.onUsable, isUsable_iff]

/-- Every link that is usable in `s` is usable in `t`. -/
def State.keepsUsable (s t : State) : Prop :=
  ∀ i l, s.link i = some l → l.state.isUsable = true → ∃ l', t.link i = some l' ∧ l'.state.isUsable = true

theorem State.keepsUsable_of_eq {s t : State} (h : ∀ i, t.link i = s.link i) : s.keepsUsable t :=
  fun i l hl hu => ⟨l, by rw [h, hl], hu⟩

theorem State.onUsable.keep {s t : State} {a : CandId} (h : s.onUsable a) (hc : sameButCost (s.cand a) (t.cand a))
    (hl : s.keepsUsable t) : t.onUsable a := by
  obtain ⟨k, l, hk, hlink, hu⟩ := h
  obtain ⟨l', hl', hu'⟩ := hl k.link l hlink hu
  rcases sameButCost_iff.1 hc with ⟨hnone, -⟩ | ⟨q, q', hq, hq', -, hlinks, -⟩
  · exact nomatch hnone.symm.trans hk
  · cases hq.symm.trans hk
    exact ⟨q', l', hq', by rw [hlinks]; exact hl', hu'⟩

theorem State.servedAt.keep {s t : State} {d : DestId} (h : s.servedAt d) (hd : t.dest d = s.dest d)
    (hc : ∀ a, s.onUsable a → sameButCost (s.cand a) (t.cand a)) (hl : s.keepsUsable t) : t.servedAt d := by
  intro r a hr ha
  have hbefore := h r a (hd ▸ hr) ha
  exact hbefore.keep (hc a hbefore) hl

theorem onUsable_of_candUsable {s : State} {c : CandId} (h : s.candUsable c = true) : s.onUsable c := by
  unfold State.candUsable at h
  split at h
  · next k hk =>
    split at h
    · next l hl => exact ⟨k, l, hk, hl, by simp at h; exact h.1.1⟩
    · cases h
  · cases h

theorem State.reselects.keepsUsable {s t : State} {d : DestId} (h : s.reselects t d) : s.keepsUsable t :=
  State.keepsUsable_of_eq (State.pathsOnly_link h.pathsOnly)

theorem State.reselects.servedAt {s t : State} {d : DestId} (h : s.reselects t d) {e : DestId} (hs : s.servedAt e) :
    t.servedAt e := by
  by_cases he : e = d
  · subst he
    intro r' a hr' ha
    have hkept (hbefore : s.onUsable a) : t.onUsable a := hbefore.keep (h.same a) h.keepsUsable
    obtain ⟨-, -, -, hnone, hsome⟩ := h
    cases hr : s.dest e with
    | none => rw [hnone hr] at hr'; exact nomatch hr.symm.trans hr'
    | some r =>
      obtain ⟨-, x, hx, hcase, -⟩ := hsome r hr
      cases hr'.symm.trans hx
      rw [Dest.withActive_active] at ha
      refine hkept ?_
      rcases hcase with rfl | rfl | ⟨c, rfl, -, hu⟩
      · exact hs r a hr ha
      · cases ha
      · cases ha; exact onUsable_of_candUsable hu
  · exact hs.keep (h.dest_ne he) (fun a _ => h.same a) h.keepsUsable

theorem selectNow_servedAt (s : State) (d : DestId) : (s.selectNow d).servedAt d := by
  intro r' a hr' ha
  have h := selectNow_reselects s d
  cases hr : s.dest d with
  | none =>
    obtain ⟨-, -, -, hnone, -⟩ := h
    rw [hnone hr] at hr'
    exact nomatch hr.symm.trans hr'
  | some r =>
    have hchosen := refreshCosts_setActive_makesActive hr (cheapest s.candCost (r.chain.filter s.candUsable))
    rw [← selectNow_eq s d r hr] at hchosen
    cases hchosen.dest_self.symm.trans hr'
    have hu := (List.mem_filter.1 (cheapest_mem (hchosen.active.symm.trans ha))).2
    exact (onUsable_of_candUsable hu).keep (h.same a) h.keepsUsable

theorem chainEditCheck_servedAt (s : State) (d : DestId) : (s.chainEditCheck d).servedAt d := by
  have hreselects := chainEditCheck_reselects s d
  unfold State.chainEditCheck
  split
  · next hnone => exact fun r a hr => nomatch hnone.symm.trans hr
  · next r hr =>
    split
    · exact selectNow_servedAt s d
    · next a ha =>
      split
      · next hu =>
        have hkept : s.chainEditCheck d = s.refreshCost a := by simp only [State.chainEditCheck, hr, ha, if_pos hu]
        rw [hkept] at hreselects
        have hserved : s.servedAt d := by
          intro q b hq hb
          cases hr.symm.trans hq
          cases ha.symm.trans hb
          exact onUsable_of_candUsable (Bool.and_eq_true_iff.1 hu).2
        exact hreselects.servedAt hserved
      · exact selectNow_servedAt s d

theorem afterRemoval_servedAt (s : State) (d : DestId) : (s.afterRemoval d).servedAt d := by
  unfold State.afterRemoval
  split
  · next hnone => exact fun r a hr => nomatch hnone.symm.trans hr
  · next r hr =>
    split
    · intro r' a hr' ha
      rw [setActive_dest, if_pos rfl, hr] at hr'
      cases hr'
      rw [Dest.withActive_active] at ha
      cases ha
    · exact chainEditCheck_servedAt s d

/-! ### The notices (R88, R89) -/

theorem setLink_keepsUsable {s : State} {i : LinkId} {x : Option Link}
    (h : ∀ l, s.link i = some l → l.state.isUsable = true → usableRecord x = true) : s.keepsUsable (s.setLink i x) := by
  intro j l hl hu
  rw [link_setLink]
  split
  · next hj =>
    obtain ⟨l', rfl, hu'⟩ := (Option.any_eq_true _ _).1 (h l (hj ▸ hl) hu)
    exact ⟨l', rfl, hu'⟩
  · exact ⟨l, hl, hu⟩

/-- Whatever is written for a link, the destinations whose active candidate does not name it stay served. -/
theorem setLink_servedAt_or {s : State} {d : DestId} (i : LinkId) (x : Option Link) (h : s.servedAt d) :
    (s.setLink i x).servedAt d ∨ (s.setLink i x).activeOn i d = true := by
  by_cases hon : s.activeOn i d = true
  · exact .inr hon
  · refine .inl fun r a hr ha => ?_
    obtain ⟨k, l, hk, hl, hu⟩ := h r a hr ha
    have hne : k.link ≠ i := by
      rintro rfl
      have hrd : s.dest d = some r := hr
      exact hon (by simp [State.activeOn, hrd, ha, State.candNames, hk])
    exact ⟨k, l, hk, by rw [link_setLink, if_neg hne]; exact hl, hu⟩

theorem foldl_selectNow_servedAt_or {p : State → DestId → Bool} {i : LinkId} (ds : List DestId) {s : State}
    (h : ∀ d, s.servedAt d ∨ s.activeOn i d = true) (d : DestId) :
    (ds.foldl (fun s d => if p s d then s.selectNow d else s) s).servedAt d ∨
      (ds.foldl (fun s d => if p s d then s.selectNow d else s) s).activeOn i d = true := by
  induction ds generalizing s with
  | nil => exact h d
  | cons e ds ih =>
    refine ih fun f => ?_
    dsimp only
    split
    · have hr := selectNow_reselects s e
      by_cases hf : f = e
      · subst hf; exact .inl (selectNow_servedAt s f)
      · exact (h f).imp hr.servedAt fun hon => (activeOn_reselects i s _ e f hr hf).trans hon
    · exact h f

theorem foldl_selectNow_servedAt {p : State → DestId → Bool} (ds : List DestId) {s : State} (h : ∀ d, s.servedAt d)
    (d : DestId) : (ds.foldl (fun s d => if p s d then s.selectNow d else s) s).servedAt d := by
  induction ds generalizing s with
  | nil => exact h d
  | cons e ds ih =>
    refine ih fun f => ?_
    dsimp only
    split
    · exact (selectNow_reselects s e).servedAt (h f)
    · exact h f

theorem moveLink_servedAt {s : State} {i : LinkId} {l : Link} (x : Option Link) (hl : s.link i = some l)
    (h : ∀ d, s.servedAt d) (d : DestId) : (s.moveLink i l x).servedAt d := by
  have hset (hx : l.state.isUsable = true → usableRecord x = true) (d : DestId) : (s.setLink i x).servedAt d :=
    (h d).keep rfl (fun a _ => sameButCost_rfl _) (setLink_keepsUsable fun l' hl' hu => by
      cases hl.symm.trans hl'
      exact hx hu)
  unfold State.moveLink
  split
  · next hlost =>
    simp only [Bool.and_eq_true, Bool.not_eq_true'] at hlost
    have hx (l : Link) (hxl : x = some l) : l.state.isUsable = false := by
      have := hlost.2
      rwa [hxl] at this
    have hoff := (usableLost_leaves s i x hx d).2.2
    refine (foldl_selectNow_servedAt_or (List.finRange 128) (fun d => setLink_servedAt_or i x (h d)) d).resolve_right ?_
    exact fun hon => nomatch hoff.symm.trans hon
  · next hlost =>
    have hx : l.state.isUsable = true → usableRecord x = true := by simpa using hlost
    split
    · exact foldl_selectNow_servedAt _ (hset hx) d
    · exact hset hx d

/-! ### Removals and edits of chains -/

theorem dropReference_keepsUsable (s : State) (i : LinkId) : s.keepsUsable (s.dropReference i) := by
  intro j l hl hu
  rw [dropReference_link]
  split
  · next hj =>
    subst hj
    have hr : ¬ (l.state = .retiring ∧ l.refs ≤ 1) := by
      rintro ⟨hr, -⟩
      rw [hr] at hu
      cases hu
    exact ⟨{ l with refs := l.refs - 1 }, by rw [hl]; exact if_neg hr, hu⟩
  · exact ⟨l, hl, hu⟩

theorem detach_keepsUsable (s : State) (c : CandId) : s.keepsUsable (s.detach c) := by
  cases hk : s.cand c with
  | none => rw [detach_free s c hk]; exact State.keepsUsable_of_eq fun _ => rfl
  | some k =>
    intro i l hl hu
    obtain ⟨l', hl', hu'⟩ := dropReference_keepsUsable s k.link i l hl hu
    refine ⟨l', ?_, hu'⟩
    rw [detach_link s c k hk, ← hl', dropReference_link]
    split
    · next hi => rw [hi]
    · rfl

/-- Over sound chains an active candidate names the destination that it serves. -/
theorem State.pathsSound.active_dest {s : State} (hs : s.pathsSound) {d : DestId} {r : Dest} {a : CandId} {k : Cand}
    (hr : s.dest d = some r) (ha : r.active = some a) (hk : s.cand a = some k) : k.dest = d := by
  obtain ⟨-, -, hmember, -, hactive⟩ := hs.1 d r hr
  obtain ⟨q, hq, hdest⟩ := hmember a (hactive a ha).1
  cases hq.symm.trans hk
  exact hdest

theorem removeCand_servedAt {s : State} (c : CandId) (hs : s.pathsSound) (h : ∀ d, s.servedAt d) (d : DestId) :
    (s.removeCand c).servedAt d := by
  cases hk : s.cand c with
  | none =>
    have hsame : s.removeCand c = s := by simp [State.removeCand, hk]
    rw [hsame]
    exact h d
  | some k =>
    rw [removeCand_eq s c k hk]
    by_cases hd : d = k.dest
    · rw [hd]
      exact afterRemoval_servedAt _ _
    · refine (afterRemoval_reselects _ k.dest).servedAt fun r a hr ha => ?_
      have hdest : (s.detach c).dest d = s.dest d := by rw [detach_dest s c k hk, if_neg hd]
      rw [hdest] at hr
      have hne : a ≠ c := by
        rintro rfl
        exact hd (hs.active_dest hr ha hk).symm
      refine (h d r a hr ha).keep ?_ (detach_keepsUsable s c)
      rw [detach_cand, if_neg hne]
      exact sameButCost_rfl _

theorem removeCandsOf_servedAt {s : State} (i : LinkId) (hs : s.pathsSound) (h : ∀ d, s.servedAt d) (d : DestId) :
    (s.removeCandsOf i).servedAt d := by
  unfold State.removeCandsOf
  generalize List.finRange 256 = cs
  induction cs generalizing s with
  | nil => exact h d
  | cons c cs ih =>
    rw [List.foldl_cons]
    split
    · exact ih (removeCand_pathsSound c hs) (removeCand_servedAt c hs h)
    · exact ih hs h

theorem foldl_detach_keepsUsable (cs : List CandId) (s : State) : s.keepsUsable (cs.foldl State.detach s) := by
  induction cs generalizing s with
  | nil => exact State.keepsUsable_of_eq fun _ => rfl
  | cons c cs ih =>
    intro i l hl hu
    obtain ⟨l', hl', hu'⟩ := detach_keepsUsable s c i l hl hu
    exact ih (s.detach c) i l' hl' hu'

theorem removeDest_keepsUsable (s : State) (d : DestId) : s.keepsUsable (s.removeDest d) := by
  unfold State.removeDest
  split
  · exact State.keepsUsable_of_eq fun _ => rfl
  · exact fun i l hl hu => foldl_detach_keepsUsable _ _ i l hl hu

theorem removeDest_servedAt {s : State} {d : DestId} {r : Dest} (hr : s.dest d = some r) (hs : s.pathsSound)
    (h : ∀ e, s.servedAt e) (e : DestId) : (s.removeDest d).servedAt e := by
  obtain ⟨-, hvacant, -, hcand, -, -, -, hdest, -⟩ := removeDest_spec s d r hr
  by_cases he : e = d
  · subst he
    exact fun q a hq => nomatch hvacant.symm.trans hq
  · obtain ⟨-, -, hmember, -, -⟩ := hs.1 d r hr
    have hothers (c : CandId) (hc : c ∈ r.chain) (k : Cand) (hk : s.cand c = some k) : k.dest ≠ e := by
      obtain ⟨q, hq, hqd⟩ := hmember c hc
      cases hq.symm.trans hk
      exact fun hke => he (hke.symm.trans hqd)
    intro q a hq ha
    rw [hdest e he hothers] at hq
    have hbefore := h e q a hq ha
    refine hbefore.keep ?_ (removeDest_keepsUsable s d)
    obtain ⟨k, -, hk, -⟩ := hbefore
    have hnot : a ∉ r.chain := fun hc => hothers a hc k hk (hs.active_dest hq ha hk)
    rw [hcand, if_neg hnot]
    exact sameButCost_rfl _

theorem enlist_servedAt {s : State} {c : CandId} (d : DestId) (i : LinkId) (n : Nat) (p : Placement)
    (hc : s.cand c = none) (h : ∀ e, s.servedAt e) (e : DestId) : (s.enlist c d i n p).servedAt e := by
  rw [enlist_eq]
  by_cases he : e = d
  · rw [he]
    exact chainEditCheck_servedAt _ d
  · refine (chainEditCheck_reselects _ d).servedAt ((h e).keep ?_ (fun a ha => ?_) fun j l hl hu => ?_)
    · rw [enlisted_dest, if_neg he]
    · obtain ⟨k, -, hk, -⟩ := ha
      have hne : a ≠ c := by
        rintro rfl
        exact nomatch hc.symm.trans hk
      rw [enlisted_cand, if_neg hne]
      exact sameButCost_rfl _
    · rw [enlisted_link]
      split
      · next hj =>
        subst hj
        exact ⟨{ l with refs := l.refs + 1 }, by rw [hl]; rfl, hu⟩
      · exact ⟨l, hl, hu⟩

theorem moveCand_servedAt {s : State} (c : CandId) (d : DestId) (p : Placement) (h : ∀ e, s.servedAt e) (e : DestId) :
    (s.moveCand c d p).servedAt e := by
  intro r' a hr' ha
  have hpaths := moveCand_pathsOnly s c d p
  have hcand : (s.moveCand c d p).cand a = s.cand a := by rw [State.moveCand, updateDest_cand]
  have hbefore : s.onUsable a := by
    rw [moveCand_dest] at hr'
    split at hr'
    · obtain ⟨r, hr, rfl⟩ := Option.map_eq_some_iff.1 hr'
      exact h d r a hr ha
    · exact h e r' a hr' ha
  exact hbefore.keep (by rw [hcand]; exact sameButCost_rfl _) (State.keepsUsable_of_eq (State.pathsOnly_link hpaths))

theorem writeRemainder_servedAt {s : State} (c : CandId) (d : DestId) (n : Nat) (h : ∀ e, s.servedAt e) (e : DestId) :
    (s.writeRemainder c d n).servedAt e := by
  unfold State.writeRemainder
  by_cases he : e = d
  · rw [he]
    exact chainEditCheck_servedAt _ d
  · refine (chainEditCheck_reselects _ d).servedAt fun r a hr ha => ?_
    rw [updateCand_dest] at hr
    obtain ⟨k, l, hk, hl, hu⟩ := h e r a hr ha
    have hlink := State.pathsOnly_link (updateCand_pathsOnly s c fun k => { k with remainder := n })
    refine ⟨if a = c then { k with remainder := n } else k, l, ?_, ?_, hu⟩
    · rw [updateCand_cand]
      split
      · next hac => rw [← hac, hk]; rfl
      · exact hk
    · rw [hlink]
      split <;> exact hl

theorem rewriteCand_servedAt {s : State} (c : CandId) (d : DestId) (mask : Byte) (n : Nat) (p : Option Placement)
    (h : ∀ e, s.servedAt e) (e : DestId) : (s.rewriteCand c d mask n p).servedAt e := by
  have hmoved (e : DestId) :
      (match mask.getLsbD 1, p with | true, some q => s.moveCand c d q | _, _ => s).servedAt e := by
    split
    · exact moveCand_servedAt c d _ h e
    · exact h e
  unfold State.rewriteCand
  dsimp only
  split
  · exact writeRemainder_servedAt c d n hmoved e
  · exact hmoved e

theorem expireDue_servedAt (is : List LinkId) {s : State} (h : ∀ d, s.servedAt d) (d : DestId) :
    (s.expireDue is).servedAt d := by
  induction is generalizing s with
  | nil => exact h d
  | cons i is ih =>
    rw [expireDue_cons]
    refine ih fun e => ?_
    rcases expireLink_moves s i with heq | ⟨l, hl, -, heq⟩ <;> rw [heq]
    · exact h e
    · exact moveLink_servedAt _ hl h e

/-- With every candidate on a link removed, no active candidate names it. -/
theorem removeCandsOf_activeOn (s : State) (i : LinkId) (d : DestId) : (s.removeCandsOf i).activeOn i d = false := by
  have hall : ∀ c : CandId, c ∈ List.finRange 256 := List.mem_finRange
  rw [removeCandsOf_eq]
  generalize List.finRange 256 = cs at hall
  obtain ⟨-, hfree, hkept, -⟩ := removeAllOf_spec cs s i
  have hnone (c : CandId) : (s.removeAllOf i cs).candNames i c = false := by
    by_cases hc : s.candNames i c = true
    · simp [State.candNames, hfree c (hall c) hc]
    · rw [candNames_congr (hkept c (.inr (by simpa using hc)))]
      simpa using hc
  unfold State.activeOn
  split
  · split
    · exact hnone _
    · rfl
  · rfl

theorem retireCascade_servedAt {s : State} {i : LinkId} {l : Link} (hl : s.link i = some l) (hs : s.pathsSound)
    (h : ∀ d, s.servedAt d) (d : DestId) : (s.retireCascade i).servedAt d := by
  have hvacant (d : DestId) : ((s.removeCandsOf i).setLink i none).servedAt d := by
    refine (setLink_servedAt_or i none (removeCandsOf_servedAt i hs h d)).resolve_right fun hon => ?_
    rw [activeOn_setLink, removeCandsOf_activeOn] at hon
    cases hon
  simp only [State.retireCascade, hl, State.vacateLink]
  split
  · exact foldl_selectNow_servedAt _ hvacant d
  · exact hvacant d

theorem State.retables.servedAt {s v : State} (h : s.retables v) (hs : s.pathsSound) (hserved : ∀ d, s.servedAt d)
    (d : DestId) : v.servedAt d := by
  cases h with
  | unmoved | changesTaken => exact hserved d
  | cleared => exact fun r a hr => by simp at hr
  | @linkAdded i r peer h m hvacant =>
    refine (hserved d).keep rfl (fun a _ => sameButCost_rfl _) (setLink_keepsUsable fun l hl => ?_)
    exact nomatch (vacantLink_eq_some hvacant).1.symm.trans hl
  | @linkMoved i l x hl => exact moveLink_servedAt x hl hserved d
  | cascade hl => exact retireCascade_servedAt hl hs hserved d
  | rise is => exact expireDue_servedAt is (s := { s with now := s.now + 1 }) hserved d
  | @destAdded e a hvacant =>
    intro r b hr hb
    rw [dest_setDest] at hr
    split at hr
    · cases hr; cases hb
    · exact hserved d r b hr hb
  | destRemoved hr => exact removeDest_servedAt hr hs hserved d
  | candAdded p _ _ _ _ _ hc => exact enlist_servedAt _ _ _ p hc hserved d
  | candRewritten mask p => exact rewriteCand_servedAt _ _ mask _ p hserved d
  | candRemoved => exact removeCand_servedAt _ hs hserved d
  | evaluated e => exact (evaluateDest_reselects s e).servedAt (hserved d)

theorem State.tablesEq.servedAt {s t : State} (h : s.tablesEq t) {d : DestId} (hs : s.servedAt d) : t.servedAt d :=
  hs.keep (h.dest d) (fun a _ => by rw [h.cand]; exact sameButCost_rfl _) (State.keepsUsable_of_eq h.link)

/-- Settles O59: chains and active candidates by what each operation leaves, and the other laws record by record. -/
theorem chainsStaySound : Obligations.ChainsStaySound := by
  refine ⟨fun _ _ => step_keeps_retables (fun _ _ h => h.pathsSound) fun _ _ h => h.pathsSound, fun _ _ => step_destsDistinct,
    fun _ _ => step_changedInUse, fun _ _ => step_figuresInRange, fun _ _ => step_stationsOnly, fun s t hsound hs h => ?_⟩
  rw [activesOnUsableLinks_iff] at hs ⊢
  exact (step_keeps_retables (P := fun s => s.pathsSound ∧ ∀ d, s.servedAt d)
    (fun _ _ h hs => ⟨h.pathsSound hs.1, fun d => h.servedAt (hs.2 d)⟩)
    (fun _ _ h hs => ⟨h.pathsSound hs.1, h.servedAt hs.1 hs.2⟩) ⟨hsound, hs⟩ h).2

end Sys2Proof.Machine
end


section
/-! The step, the frames of the Control Port byte by byte (R149 to R152), framing (R153), identity and time (R155, R156,
R170), the state at reset (R168), and the obligations about them. -/

namespace Sys2Proof.Machine

/-! ### The step -/

/-- Settles O1: the two branches of `step`. -/
theorem stepTakesTheFrontEvent : Obligations.StepTakesTheFrontEvent := by
  refine ⟨fun c s rest hp => ?_, fun s hp => ?_⟩ <;> rw [step, hp]

/-! ### A frame byte by byte (R149) -/

/-- Argument bytes up to the stated length put the command in hand. -/
theorem foldl_clockByte_arguments {code : Byte} {n : Nat} (args : List Byte) {received : List Byte} {s : State}
    (hframe : s.frame = .arguments code n received) (hne : args ≠ []) (hlen : received.length + args.length = n) :
    args.foldl State.clockByte s = s.takeCommand code (received ++ args) := by
  induction args generalizing received s with
  | nil => exact absurd rfl hne
  | cons b bs ih =>
    rw [List.length_cons] at hlen
    rw [List.foldl_cons, clockByte_arguments b hframe]
    cases bs with
    | nil =>
      have hlast : n ≤ received.length + 1 := by simp at hlen; omega
      rw [if_pos hlast]
      rfl
    | cons b' bs' =>
      have hmore : ¬ n ≤ received.length + 1 := by simp at hlen; omega
      rw [if_neg hmore, ih rfl (List.cons_ne_nil b' bs') (by simp at hlen ⊢; omega), List.append_assoc]
      rfl

/-- A whole frame, from its code on, puts its command in hand. -/
theorem foldl_clockByte_frame {s : State} (hframe : s.frame = .code) {code length : Byte} {args : List Byte}
    (hlen : length.toNat = args.length) :
    (code :: length :: args).foldl State.clockByte s = s.takeCommand code args := by
  rw [List.foldl_cons, clockByte_code code hframe, List.foldl_cons, clockByte_length length rfl]
  by_cases hzero : length = 0
  · have hnil : args = [] := List.eq_nil_of_length_eq_zero (by rw [← hlen, hzero]; rfl)
    rw [if_pos hzero, hnil]
    rfl
  · have hne : args ≠ [] := by
      rintro rfl
      exact hzero (BitVec.eq_of_toNat_eq hlen)
    rw [if_neg hzero, foldl_clockByte_arguments args rfl hne (by rw [hlen]; exact Nat.zero_add _)]
    rfl

theorem exec_commandTaken (s : State) (begins : Bool) (bytes : List Byte) : exec (.commandTaken begins bytes) s =
    .next (bytes.foldl State.clockByte (if begins then s.beginFrame else s)) := rfl

theorem exec_ignoredFrame (s : State) : exec .ignoredFrame s = .next (if s.receivesFrames then s else s.beginFrame) := rfl

theorem receivesFrames_eq_false {s : State} (h : s.hand ≠ none ∨ s.power ≠ .running ∨ s.armed = true) :
    s.receivesFrames = false := by
  rw [Bool.eq_false_iff, Ne, receivesFrames_iff]
  rintro ⟨hpower, hhand, harmed⟩
  rcases h with h | h | h
  · exact h hhand
  · exact h hpower
  · exact nomatch harmed.symm.trans h

/-- Settles O2: each phase by the byte that is clocked in it, a whole frame by `foldl_clockByte_frame`, and stretches
compose because a fold does. -/
theorem framesTakeOneCommand : Obligations.FramesTakeOneCommand := by
  refine ⟨fun s hclosed hpower hhand harmed => ?_, fun s bytes hclosed hbusy => ?_, fun s b => ⟨fun hf => ?_,
    fun code hf => ?_, fun code n received hf => ?_, fun a sent hf => ?_, fun hf => ?_⟩, fun s t begins xs ys h => ?_,
    fun s => ⟨?_, fun a sent hf => ?_, fun hopen hanswer => ?_⟩, rfl, fun s p bytes => ⟨fun hf => ?_, rfl, rfl, rfl⟩⟩
  · have hr : s.receivesFrames = true := receivesFrames_iff.2 ⟨hpower, hhand, harmed⟩
    have hbegin : s.beginFrame = { s with frame := .code } := by rw [beginFrame_eq hclosed, if_pos hr]
    refine ⟨congrArg _ hbegin, ?_, fun code length args hlen => ?_⟩
    · rw [exec_ignoredFrame, if_pos hr]
    · rw [exec_commandTaken, if_pos rfl, hbegin, foldl_clockByte_frame rfl hlen]
      rfl
  · have hr := receivesFrames_eq_false hbusy
    have hbegin : s.beginFrame = { s with frame := .ignored } := by
      rw [beginFrame_eq hclosed, hr]
      rfl
    refine ⟨?_, ?_⟩
    · rw [exec_commandTaken, if_pos rfl, hbegin, foldl_clockByte_idle bytes (.inr (.inr (.inr rfl)))]
    · rw [exec_ignoredFrame, hr, hbegin]
      rfl
  · exact congrArg _ (clockByte_code b hf)
  · exact congrArg _ (clockByte_length b hf)
  · refine congrArg _ ((clockByte_arguments b hf).trans ?_)
    by_cases hmore : received.length + 1 < n
    · rw [if_neg (by omega), if_pos hmore]
    · rw [if_pos (by omega), if_neg hmore]
      rfl
  · refine congrArg _ ((clockByte_answering b hf).trans ?_)
    rw [length_answerBytes]
    by_cases hmore : sent + 1 < 3 + a.results.length
    · rw [if_neg (by omega), if_pos hmore]
    · rw [if_pos (by omega), if_neg hmore]
  · exact congrArg _ (clockByte_idle b (.inr hf))
  · cases h
    exact congrArg _ (List.foldl_append ..)
  · unfold State.output
    cases s.frame <;> simp
  · rw [State.output, hf]
    rfl
  · unfold State.output
    cases hf : s.frame with
    | closed => exact absurd hf hopen
    | answering a sent => exact absurd hf (hanswer a sent)
    | _ => rfl
  · have hreceived : s.frame.isReceived = true := by
      rcases hf with hf | ⟨_, hf⟩ | ⟨_, _, _, hf⟩ <;> rw [hf] <;> rfl
    show Host.Outcome.next (if s.frame.isReceived then _ else _) = _
    rw [if_pos hreceived]

/-! ### Framing (R153) -/

theorem carryOut_badLength {code : Byte} {args : List Byte} {rule : List Byte → State → Reply} {s : State}
    (h : s.hand = some ⟨code, args⟩) (hl : lengthFits code args = false) :
    carryOut code rule s = .next (s.giveAnswer ⟨.badLength, []⟩) := by
  simp only [carryOut, h, hl, if_true]
  rfl

theorem exec_readIdentity (s : State) : exec .readIdentity s = carryOut Code.readIdentity (fun _ s =>
    s.ok (bytesOf 2 Config.vendorCode ++ bytesOf 2 Config.partCode ++ [byteOf Config.siliconRevision])) s := rfl

theorem exec_readTime (s : State) :
    exec .readTime s = carryOut Code.readTime (fun _ s => s.ok (bytesOf 4 s.now.toNat)) s := rfl

theorem exec_readSummary (s : State) :
    exec .readSummary s = carryOut Code.readSummary (fun _ s => s.ok s.summaryBytes) s := rfl

theorem exec_nextEventLink (s : State) : exec .nextEventLink s =
    carryOut Code.nextEventLink (fun _ s => s.ok (optionBytes 1 (s.eventLink.map Fin.val))) s := rfl

/-- Every event of the command table carries out the command of its code. -/
theorem exec_eq_carryOut : ∀ row ∈ commandTable, ∃ rule, ∀ s, exec row.1 s = carryOut row.2.1 rule s := by
  simp only [commandTable, List.forall_mem_cons, List.not_mem_nil, false_implies, implies_true, and_true]
  refine ⟨⟨_, exec_readIdentity⟩, ⟨_, exec_readTime⟩, ?_, ?_, ?_, ?_, ?_, ?_, ?_, ?_, ?_, ?_, ?_, ?_, ?_, ?_, ?_, ?_, ?_,
    ?_, ?_, ⟨_, exec_readSummary⟩, ⟨_, exec_nextEventLink⟩, ?_, ?_, ?_, ?_, ?_, ?_, ?_⟩ <;> exact ⟨_, fun _ => rfl⟩

theorem argLength_of_commandTable : ∀ row ∈ commandTable, row.2.1 ≠ Code.startJob ∧ argLength row.2.1 = some row.2.2 := by
  decide

theorem exists_row_of_argLength {code : Byte} (h : (argLength code).isSome = true) :
    ∃ row ∈ commandTable, row.2.1 = code := by
  revert code
  decide

theorem startJobLengthFits_iff {args : List Byte} : startJobLengthFits args = true ↔ startJobLengthOk args := by
  refine ⟨fun h => ?_, startJobLengthFits_of_ok⟩
  unfold startJobLengthFits at h
  unfold startJobLengthOk
  split at h
  · cases h
  · next kind rest =>
    refine ⟨fun h0 => by simpa [h0] using h, fun h12 => ?_⟩
    rcases h12 with rfl | rfl <;> simpa using h

/-- START JOB's rule answers BAD_LENGTH to nothing, for its length was judged before it. -/
theorem startJob_status_ne_badLength (args : List Byte) (s : State) : (startJob args s).status ≠ .badLength := by
  unfold startJob
  split
  · nofun
  · split
    · nofun
    · nofun
    · split
      · nofun
      · split <;> nofun

theorem startJob_frame (args : List Byte) (s : State) : (startJob args s).state.frame = s.frame := by
  rcases startJob_cases args s with ⟨e, -, h⟩ | ⟨j, -, -, -, h⟩ <;> rw [h]
  · rfl
  · cases j <;> rfl

/-- Settles O3: a code outside the table names no command, every event of the table refuses a length that is not its own,
and START JOB's rule, once its length has passed, answers something else. -/
theorem framingIsCheckedFirst : Obligations.FramingIsCheckedFirst := by
  refine ⟨fun s code args hhand hcode hrow => ?_, fun row hrow s args hhand hlen => ?_,
    fun s args hhand => ⟨fun hbad => ?_, fun hok hwaiting h => ?_⟩⟩
  · have hnone : (argLength code).isSome = false := by
      rw [Bool.eq_false_iff]
      intro hsome
      obtain ⟨row, hmem, heq⟩ := exists_row_of_argLength hsome
      exact hrow row hmem heq
    have hnames : namesCommand code = false := by simpa [namesCommand, Code.startJob, hnone] using hcode
    show execUnknownCommand s = _
    simp only [execUnknownCommand, hhand, hnames]
    rfl
  · obtain ⟨rule, hrule⟩ := exec_eq_carryOut row hrow
    obtain ⟨hne, harg⟩ := argLength_of_commandTable row hrow
    rw [hrule]
    refine carryOut_badLength hhand ?_
    rw [lengthFits, if_neg hne, harg]
    simpa using hlen.symm
  · refine carryOut_badLength (code := Code.startJob) hhand ?_
    rw [lengthFits, if_pos rfl, Bool.eq_false_iff]
    exact fun hfits => hbad (startJobLengthFits_iff.1 hfits)
  · rw [exec_startJob hhand hok, Host.Outcome.next.injEq, Reply.finish,
      giveAnswer_of_waiting ((startJob_frame args s).trans hwaiting), giveAnswer_of_waiting hwaiting] at h
    have hframe := congrArg State.frame h
    simp only [Frame.answering.injEq, Answer.mk.injEq] at hframe
    exact startJob_status_ne_badLength args s hframe.1.1

/-! ### Identity and time (R155, R156, R170) -/

/-- Settles O5: the two commands only read, and the tick raises the count (`millisecondTick_spec`), alone where no link
expires. -/
theorem identityAndTime : Obligations.IdentityAndTime := by
  refine ⟨fun s hhand => (exec_readIdentity s).trans (carryOut_eq hhand rfl),
    fun s hhand => ⟨bytesOf 4 s.now.toNat, (exec_readTime s).trans (carryOut_eq hhand rfl),
    length_bytesOf 4 _, valueOf_bytesOf s.now.isLt⟩, fun s => ⟨fun hp hdue => ?_, fun hp => ?_, fun hp => if_neg hp⟩⟩
  · exact millisecondTick_quiet hp fun i hi => hdue i hi.1
  · obtain ⟨t, ht, htables, -⟩ := millisecondTick_spec hp
    refine ⟨t, ht, ?_⟩
    have hnow : t.now = s.now + 1 := htables.now
    rw [hnow]
    split <;> bv_omega

/-! ### The state at reset (R168) -/

theorem reset_atResetValues : State.reset.atResetValues := powerOnReset_atResetValues State.reset

theorem reset_not_link {i : LinkId} {l : Link} (h : State.reset.link i = some l) : False :=
  nomatch (reset_link i).symm.trans h

theorem reset_not_dest {d : DestId} {r : Dest} (h : State.reset.dest d = some r) : False :=
  nomatch (reset_dest d).symm.trans h

theorem reset_not_cand {c : CandId} {k : Cand} (h : State.reset.cand c = some k) : False :=
  nomatch (reset_cand c).symm.trans h

theorem reset_queuesBounded : State.reset.queuesBounded := by
  refine ⟨Nat.zero_le 8, fun p => ?_⟩
  rw [reset_port]
  exact ⟨Nat.zero_le 16, Nat.zero_le 65535, fun _ => rfl⟩

/-- Settles O60: with every table empty the laws about records hold of none; the others are read off the reset values. -/
theorem resetObeysTheLaws : Obligations.ResetObeysTheLaws :=
  ⟨reset_atResetValues, reset_paramsInRange, reset_profileInRange, reset_queuesBounded, trivial, reset_refsExact,
    fun _ _ h => (reset_not_link h).elim, fun _ _ h => (reset_not_link h).elim, reset_pathsSound,
    fun _ _ _ _ h => (reset_not_link h).elim, fun _ _ h => (reset_not_link h).elim,
    quietInConfiguring_iff.2 fun _ => reset_quiet, fun _ _ _ h => (reset_not_link h).elim,
    fun _ _ _ _ h => (reset_not_dest h).elim, fun d h => (nomatch (reset_changed d).symm.trans h),
    fun _ _ _ h => (reset_not_dest h).elim, ⟨trivial, fun _ h => (nomatch h)⟩, fun _ => ⟨reset_atResetValues, .inl rfl⟩,
    trivial, fun _ _ h => (reset_not_link h).elim,
    ⟨fun _ _ h => (reset_not_dest h).elim, fun _ _ h => (reset_not_cand h).elim⟩,
    ⟨fun _ _ h => (reset_not_link h).elim, fun _ _ h => (reset_not_dest h).elim⟩, Nat.zero_le _, reset_atResetValues.notice⟩

end Sys2Proof.Machine
end


section
/-! The filter and the evaluation of the Link Estimator (R33, R34, R43 to R47), the PARAM exchange (R108, R109), reports
passing and reports discarded (R112 to R115), and the obligations about them. -/

namespace Sys2Proof.Machine

/-! ### The filter (R33, R34) -/

/-- Settles O48: on either side of the sample the step is the difference divided by the depth, which is no more than the
difference. -/
theorem filterNeverPassesTheSample : Obligations.FilterNeverPassesTheSample := by
  intro v x n hn
  have hup := Nat.div_le_self (x - v) n
  have hdown := Nat.div_le_self (v - x) n
  refine ⟨fun h => ?_, fun h => ?_, ?_, fun hv hx => ?_⟩
  · rw [moveToward_up n h]
    generalize (x - v) / n = q at hup ⊢
    omega
  · rw [moveToward_down n h]
    generalize (v - x) / n = q at hdown ⊢
    omega
  · rcases le_total v x with h | h
    · rw [moveToward_up 1 h, Nat.div_one]
      omega
    · rw [moveToward_down 1 h, Nat.div_one]
      omega
  · rcases le_total v x with h | h
    · rw [moveToward_up n h, Nat.div_eq_of_lt (by omega), Nat.add_zero]
    · rw [moveToward_down n h, Nat.div_eq_of_lt (by omega), Nat.sub_zero]

/-! ### The evaluation (R43 to R47) -/

theorem oneWayHolds_iff {t : Tuning} {cost : Nat} {l : Link} : l.oneWayHolds t cost = true ↔
    (∃ avg, l.est.snr = some avg ∧ t.get 12 ≤ avg / 4) ∧ cost = 65535 := by
  unfold Link.oneWayHolds
  cases l.est.snr with
  | none => simp
  | some avg =>
    show (decide (t.get 12 ≤ avg / 4) && cost == 65535) = true ↔ _
    simp

/-- What the judgment of the one-way condition makes of the pending events (R46). -/
def Link.oneWayEvents (t : Tuning) (l : Link) : EventSet :=
  if l.oneWayHolds t (l.cost t) && !l.est.oneWay then l.events.insert .oneWay else l.events

theorem oneWayEvents_eq (t : Tuning) (l : Link) :
    l.oneWayEvents t = { l.events with oneWay := (l.oneWayEvents t).oneWay } := by
  unfold Link.oneWayEvents
  split <;> rfl

theorem oneWayEvents_oneWay {t : Tuning} {l : Link} : (l.oneWayEvents t).oneWay = true ↔
    l.events.oneWay = true ∨ (l.oneWayHolds t (l.cost t) = true ∧ l.est.oneWay = false) := by
  unfold Link.oneWayEvents
  split <;> simp_all [EventSet.insert]

/-- Settles O52: the one-way judgment and then the three moves of `evaluate_cases`. -/
theorem evaluationMovesBetweenUpAndDegraded : Obligations.EvaluationMovesBetweenUpAndDegraded := by
  intro t l hr
  obtain ⟨st, ev, e, heq, he, hmoves⟩ := evaluate_cases t l hr
  have he : e = l.oneWayEvents t := he
  have hkept := oneWayEvents_eq t l
  have honeWay := oneWayEvents_oneWay (t := t) (l := l)
  rw [← he] at hkept honeWay
  refine ⟨st, ev, l.oneWayHolds t (l.cost t), heq, oneWayHolds_iff, ?_⟩
  rw [← honeWay]
  have hdegrade : t.get Param.degradeThreshold = t.get 8 := rfl
  have hrecover : t.get Param.recoverThreshold = t.get 9 := rfl
  rw [hdegrade, hrecover] at hmoves
  rcases hmoves with ⟨hup, hcost, rfl, rfl⟩ | ⟨hdegraded, hcost, rfl, rfl⟩ | ⟨rfl, rfl, hup, hdegraded⟩
  · refine ⟨fun _ => ⟨fun _ => ⟨rfl, rfl⟩, fun h => by omega⟩, ?_⟩
    simp only [hup]
    rw [hkept]
    simp [EventSet.insert]
  · simp only [hdegraded]
    rw [hkept]
    simp [EventSet.insert, Nat.not_le.2 hcost]
  · rw [hkept]
    refine ⟨fun h => ⟨fun hc => absurd (hup h) (Nat.not_le.2 hc), fun _ => ⟨h, rfl⟩⟩,
      fun h => ⟨fun hc => absurd (hdegraded h) (Nat.not_le.2 hc), fun _ => ⟨h, rfl⟩⟩, fun _ => rfl, fun _ => rfl,
      fun _ => rfl, Iff.rfl, rfl, rfl, rfl⟩

/-! ### The link a message names (row 2 of R109, R114) -/

theorem askedLink_eq {s : State} {p : Radio} {id : Byte} {i : LinkId} {l : Link} (hid : id.toNat = i.val)
    (hl : s.link i = some l) (hradio : l.radio = p) (hstate : l.state = .probation ∨ l.state = .up ∨ l.state = .degraded) :
    s.askedLink p id = some (i, l) := by
  have hasked : ¬ (l.state = .retiring ∨ l.state = .down ∨ l.radio ≠ p) := by
    rcases hstate with h | h | h <;> simp [h, hradio]
  simp only [State.askedLink, idOf_eq_some hid, hl, if_neg hasked]

theorem askedLink_eq_none {s : State} {p : Radio} {id : Byte} (h : 31 < id.toNat ∨ ∃ i : LinkId, id.toNat = i.val ∧
    (s.link i = none ∨ ∃ l, s.link i = some l ∧ (l.state = .retiring ∨ l.state = .down ∨ l.radio ≠ p))) :
    s.askedLink p id = none := by
  rcases h with hid | ⟨i, hid, hl | ⟨l, hl, hasked⟩⟩
  · simp only [State.askedLink, idOf_eq_none (n := 32) hid]
  · simp only [State.askedLink, idOf_eq_some hid, hl]
  · simp only [State.askedLink, idOf_eq_some hid, hl, if_pos hasked]

/-! ### The PARAM exchange (R108, R109) -/

theorem exec_paramRequest (s : State) (p : Radio) (id : Byte) :
    exec (.paramRequest p id) s = .next (if s.requestReady p then s.answerRequest p id else s) := by
  show execParamRequest p id s = _
  unfold execParamRequest
  split <;> rfl

theorem countProbe_eq (t : Tuning) (l : Link) : l.countProbe t =
    (if t.get 2 ≤ l.est.probe + 1 then 0 else l.est.probe + 1, decide (t.get 2 ≤ l.est.probe + 1)) := by
  unfold Link.countProbe
  rw [show t.get Param.probeInterval = t.get 2 from rfl]
  split <;> simp [*]

theorem answerRate_probe {t : Tuning} {l : Link} : (l.answerRate t).2 = true ↔
    t.get 2 ≤ l.est.probe + 1 ∧ l.pinned = none ∧ (l.chosenRate t).val < (l.ceiling t).val := by
  have hopportunity : (l.countProbe t).2 = true ↔ t.get 2 ≤ l.est.probe + 1 := by
    rw [countProbe_eq]
    exact decide_eq_true_iff
  rw [← hopportunity]
  unfold Link.answerRate
  split
  · next h => exact ⟨fun _ => h, fun _ => rfl⟩
  · next h => exact ⟨fun hfalse => (nomatch hfalse), fun h' => absurd h' h⟩

theorem answerRate_rate (t : Tuning) (l : Link) :
    (l.answerRate t).1.val = (l.chosenRate t).val + if (l.answerRate t).2 then 1 else 0 := by
  unfold Link.answerRate
  split <;> rfl

/-- Settles O41: the rows of R109 in the order in which `answerRequest` asks for them. -/
theorem paramExchange : Obligations.ParamExchange := by
  refine ⟨fun s p id => ⟨fun hbusy => ?_, fun hready hpart => ?_, fun hready hpart => ⟨fun hnone => ?_,
    fun i l hid hl hradio => ⟨fun hstate => ?_, fun hstate => ?_⟩⟩⟩, fun s p => rfl⟩
  · rw [exec_paramRequest, hbusy]
    rfl
  · rw [exec_paramRequest, if_pos hready, State.answerRequest, hpart]
    rfl
  · rw [exec_paramRequest, if_pos hready, State.answerRequest, hpart, askedLink_eq_none hnone]
    rfl
  · rw [exec_paramRequest, if_pos hready, State.answerRequest, hpart, askedLink_eq hid hl hradio (.inl hstate)]
    dsimp only
    rw [if_pos hstate]
    rfl
  · have hprobation : l.state ≠ .probation := by rcases hstate with h | h <;> rw [h] <;> decide
    refine ⟨(l.answerRate s.tuning).1, (l.answerRate s.tuning).2, (l.countProbe s.tuning).1, ?_,
      congrArg Prod.fst (countProbe_eq s.tuning l), answerRate_probe, answerRate_rate s.tuning l⟩
    rw [exec_paramRequest, if_pos hready, State.answerRequest, hpart, askedLink_eq hid hl hradio (.inr hstate)]
    dsimp only
    rw [if_neg hprobation]
    rfl

/-! ### Reports passing (R112) -/

/-- The three kinds of report pass alike: an unrecognised one is read as itself. -/
theorem exec_report {p : Radio} {link : Byte} {peer : Addr} {rate attempts acked snr sector beacon : Byte}
    {bytes : List Byte} {c : Instr} {r : Report}
    (h : (c = .outcomeReport p link peer rate attempts acked ∧ r = .outcome link peer rate attempts acked) ∨
      (c = .heardReport p peer snr sector beacon ∧ r = .heard peer snr sector beacon) ∨
      (c = .unrecognisedReport p bytes ∧ c.wellFormed = true ∧ r = .unrecognised bytes)) (s : State) :
    exec c s = .next (s.passReport p r) := by
  rcases h with ⟨rfl, rfl⟩ | ⟨rfl, rfl⟩ | ⟨rfl, hwf, rfl⟩
  · rfl
  · rfl
  · have hbytes : Report.ofBytes bytes = .unrecognised bytes :=
      Laws.unrecognised_iff bytes |>.1 (by simpa [Instr.wellFormed] using hwf)
    show Host.Outcome.next (s.passReport p (Report.ofBytes bytes)) = _
    rw [hbytes]

/-- Settles O42: a report of any kind passes while the report ready is given, into a queue with room or past a full one. -/
theorem reportsAreQueuedOrDropped : Obligations.ReportsAreQueuedOrDropped := by
  intro s p link peer rate attempts acked snr sector beacon bytes c r hc
  rw [exec_report hc]
  refine ⟨fun hpower hpresent => ?_, fun h => ?_⟩
  · rw [State.passReport, if_pos (reportReady_iff.2 ⟨hpower, hpresent⟩)]
    refine ⟨fun hroom => ?_, fun hfull => ?_⟩
    · rw [Port.receive, if_pos (show _ < Config.reportCapacity from hroom)]
    · rw [Port.receive, if_neg (show ¬ _ < Config.reportCapacity from Nat.not_lt.2 hfull)]
      rfl
  · have hready : ¬ s.reportReady p = true := by
      rw [reportReady_iff]
      rintro ⟨hpower, hpresent⟩
      exact h.elim (fun h => h hpower) fun h => (nomatch h.symm.trans hpresent)
    rw [State.passReport, if_neg hready]

/-! ### The take of a report (R113 to R115) -/

/-- A port with its head report taken. -/
def State.reportTaken (s : State) (p : Radio) (rest : List Report) : State :=
  s.setPort p { s.port p with reports := rest }

@[simp] theorem reportTaken_tuning (s : State) (p : Radio) (rest : List Report) :
    (s.reportTaken p rest).tuning = s.tuning := rfl

theorem exec_reportTake {s : State} {p : Radio} {r : Report} {rest : List Report} (h : (s.port p).reports = r :: rest)
    (hpart : s.part = .operational) : exec (.reportTake p) s = .next ((s.reportTaken p rest).handleReport p r) := by
  show execReportTake p s = _
  simp only [execReportTake, h, hpart]
  rfl

theorem exec_reportTake_configuring {s : State} {p : Radio} {r : Report} {rest : List Report}
    (h : (s.port p).reports = r :: rest) (hpart : s.part = .configuring) :
    exec (.reportTake p) s = .next (s.reportTaken p rest) := by
  show execReportTake p s = _
  simp only [execReportTake, h, hpart]
  rfl

/-- An OUTCOME REPORT that fails a check of R114 is discarded. -/
theorem takeOutcome_discarded {s : State} {p : Radio} {link : Byte} {peer : Addr} {rate attempts acked : Byte}
    (h : 11 < rate.toNat ∨ 31 < link.toNat ∨ ∀ (i : LinkId) l, i.val = link.toNat → s.link i = some l →
      l.state = .retiring ∨ l.state = .down ∨ l.radio ≠ p ∨ l.peer ≠ peer) :
    s.takeOutcome p link peer rate attempts acked = s := by
  unfold State.takeOutcome
  split
  · next r i l hrate hasked =>
    obtain ⟨hid, hl, hretiring, hdown, hradio⟩ := askedLink_eq_some hasked
    refine if_neg fun hpeer => ?_
    rcases h with hr | hlink | hall
    · exact nomatch (idOf_eq_none (n := 12) hr).symm.trans hrate
    · have := i.isLt
      omega
    · rcases hall i l hid.symm hl with h | h | h | h
      · exact hretiring h
      · exact hdown h
      · exact h hradio
      · exact h hpeer
  · rfl

/-- A HEARD REPORT that fails a check of R115 is discarded. -/
theorem takeHeard_discarded {s : State} {p : Radio} {peer : Addr} {snr sector beacon : Byte}
    (h : 7 < sector.toNat ∨ ∀ i l, s.link i = some l → l.radio = p → l.peer = peer → l.state = .retiring) :
    s.takeHeard p peer snr sector beacon = s := by
  unfold State.takeHeard
  split
  · next hs i hsector hfind =>
    split
    · next l hl =>
      refine if_pos ?_
      rcases h with hr | hall
      · exact nomatch (idOf_eq_none (n := 8) hr).symm.trans hsector
      · obtain ⟨l', hl', hradio, hpeer⟩ := findLink_eq_some hfind
        cases hl.symm.trans hl'
        exact hall i l hl hradio hpeer
    · rfl
  · rfl

/-- Settles O43: a take in Configuring, and one whose report its consumer discards, removes the head report alone. -/
theorem discardedReportsChangeNothing : Obligations.DiscardedReportsChangeNothing := by
  refine fun s p => ⟨fun hempty => ?_, fun r rest hqueue h => ?_⟩
  · show execReportTake p s = _
    rw [execReportTake, hempty]
  · cases hpart : s.part with
    | configuring => exact exec_reportTake_configuring hqueue hpart
    | operational =>
      rw [exec_reportTake hqueue hpart]
      refine congrArg _ ?_
      rcases h with h | ⟨bytes, rfl⟩ | ⟨link, peer, rate, attempts, acked, rfl, h⟩ | ⟨peer, snr, sector, beacon, rfl, h⟩
      · exact nomatch hpart.symm.trans h
      · rfl
      · exact takeOutcome_discarded h
      · exact takeHeard_discarded h

end Sys2Proof.Machine
end


section
/-! Reports taken and handled (R6 to R12, R31 to R35, R113): the record that an OUTCOME REPORT and a HEARD REPORT leave, what
the notice of a rise leaves, and the obligations about them. -/

namespace Sys2Proof.Machine

/-! ### The silence deadline (R12) -/

theorem computeDeadline_eq {t : Tuning} {l : Link} {now : Time} (hstate : l.state.mayHoldDeadline = true)
    (hheard : l.lastHeard = some now) : l.computeDeadline t =
      { l with deadline := some (now + BitVec.ofNat 32 (l.interval.getD (t.get 6) * t.get 5)) } := by
  rw [Link.computeDeadline, if_pos hstate, hheard]
  rfl

/-! ### An OUTCOME REPORT (R31 to R33) -/

/-- The record that a validated OUTCOME REPORT leaves, in one. -/
theorem takeOutcome_eq {l : Link} (hstate : l.state.mayHoldDeadline = true) (s : State) (q : Rate) (attempts acked : Byte) :
    l.takeOutcome s.tuning s.now q (clampAttempts attempts.toNat) (flagOf acked) = Link.evaluate s.tuning { l with
      lastHeard := if acked ≠ 0 then some s.now else l.lastHeard
      deadline := if acked ≠ 0 then some (s.now + BitVec.ofNat 32 ((l.interval.getD (s.param 6)) * s.param 5))
        else l.deadline
      est := { l.est with
        delivery := put l.est.delivery q (moveToward (l.est.delivery.get q)
          (if acked ≠ 0 then 1024 / max 1 (min attempts.toNat 8) else 0) (s.param 0)) } } := by
  unfold Link.takeOutcome
  refine congrArg (Link.evaluate s.tuning) ?_
  by_cases hacked : acked = 0
  · rw [hacked]
    rfl
  · have hflag : flagOf acked = true := by simpa [flagOf] using hacked
    simp only [hflag, if_pos hacked, if_true]
    exact computeDeadline_eq (l := { l.sampleDelivery s.tuning q (deliverySample (clampAttempts attempts.toNat) true) with
      lastHeard := some s.now }) hstate rfl

/-- Settles O44: the record is `takeOutcome_eq`, and an evaluation keeps the estimates and moves only between Up and
Degraded. -/
theorem outcomeReportMovesOneEstimate : Obligations.OutcomeReportMovesOneEstimate := by
  intro s p link peer rate attempts acked rest i l q hpart hqueue hid hl hradio hpeer hstate hrate
  have hhold : l.state.mayHoldDeadline = true := by rcases hstate with h | h | h <;> rw [h] <;> rfl
  refine ⟨_, ?_, takeOutcome_eq hhold s q attempts acked, fun r hr => ?_, fun h => ?_, fun h => ?_⟩
  · rw [exec_reportTake hqueue hpart]
    refine congrArg _ ?_
    show State.takeOutcome _ p link peer rate attempts acked = _
    have hasked : (s.reportTaken p rest).askedLink p link = some (i, l) := askedLink_eq hid hl hradio hstate
    simp only [State.takeOutcome, idOf_eq_some hrate, hasked, if_pos hpeer]
    rfl
  · rw [takeOutcome_eq hhold, evaluate_delivery, get_put_ne _ _ hr]
  · exact (takeOutcome_keepsStanding _ _ _ _ _ l).eq_of_unusable (by rw [h]; rfl) |>.trans h
  · refine isUsable_iff.1 ((takeOutcome_keepsStanding _ _ _ _ _ l).isUsable.trans (isUsable_iff.2 ?_))
    exact hstate.resolve_left h

/-! ### The record while a HEARD REPORT passes through steps 1 to 3 of R6 -/

/-- The record after steps 1 to 3 of R6: the last heard time, and for a beacon its measurement and sector follow. -/
def Link.afterBeacon (t : Tuning) (now : Time) (h : Sector) (b : Bool) (l : Link) : Link :=
  if b then (({ l with lastHeard := some now } : Link).measureBeacon now).followBeacon t h
  else { l with lastHeard := some now }

theorem hear_eq (t : Tuning) (now : Time) (x : Nat) (h : Sector) (b : Bool) (l : Link) :
    l.hear t now x h b = ((l.afterBeacon t now h b).sampleSnr t (x * 4)).evaluate t := rfl

/-- What sector follow leaves alone (R15, R16). -/
theorem followBeacon_frame (t : Tuning) (h : Sector) (l : Link) : ∃ st sector follow agree events est,
    l.followBeacon t h = { l with
      state := st, sector := sector, followSector := follow, agree := agree, events := events, est := est } := by
  unfold Link.followBeacon
  split
  · exact ⟨_, _, _, _, _, _, rfl⟩
  · split
    · exact ⟨_, _, _, _, _, _, rfl⟩
    · generalize (if l.followSector = some h then l.agree + 1 else 1) = n
      dsimp only
      split
      · exact ⟨_, _, _, _, _, _, evaluate_frame t _⟩
      · exact ⟨_, _, _, _, _, _, rfl⟩

/-- What a HEARD REPORT leaves alone in steps 1 to 3 of R6. -/
theorem afterBeacon_keeps (t : Tuning) (now : Time) (h : Sector) (b : Bool) (l : Link) :
    (l.afterBeacon t now h b).heard = l.heard ∧ (l.afterBeacon t now h b).mode = l.mode ∧
      (l.afterBeacon t now h b).pinned = l.pinned := by
  cases b
  · exact ⟨rfl, rfl, rfl⟩
  · obtain ⟨gs, gc, iv, hmeasured, -⟩ := measureBeacon_cases now { l with lastHeard := some now }
    obtain ⟨st, sector, follow, agree, events, est, hfollowed⟩ :=
      followBeacon_frame t h (({ l with lastHeard := some now } : Link).measureBeacon now)
    rw [Link.afterBeacon, if_pos rfl, hfollowed, hmeasured]
    exact ⟨rfl, rfl, rfl⟩

theorem afterBeacon_lastBeacon (t : Tuning) (now : Time) (h : Sector) (l : Link) :
    (l.afterBeacon t now h true).lastBeacon = some now := by
  obtain ⟨gs, gc, iv, hmeasured, -⟩ := measureBeacon_cases now { l with lastHeard := some now }
  obtain ⟨st, sector, follow, agree, events, est, hfollowed⟩ :=
    followBeacon_frame t h (({ l with lastHeard := some now } : Link).measureBeacon now)
  rw [Link.afterBeacon, if_pos rfl, hfollowed, hmeasured]

/-- A beacon that is not the third agreeing one in Follow mode moves no sector (R15, R16). -/
theorem followBeacon_unmoved {t : Tuning} {h : Sector} {l : Link}
    (hm : l.mode = .fixed ∨ l.followSector ≠ some h ∨ l.agree < 2) :
    (l.followBeacon t h).sector = l.sector ∧ (l.followBeacon t h).est = l.est ∧
      (l.followBeacon t h).events = l.events := by
  obtain ⟨hfixed, hfollow⟩ := followBeacon_followed t h l
  cases hmode : l.mode with
  | fixed =>
    rw [hfixed hmode]
    exact ⟨rfl, rfl, rfl⟩
  | follow =>
    obtain ⟨hsame, hother⟩ := hfollow hmode
    by_cases hs : h = l.sector
    · rw [hsame hs]
      exact ⟨rfl, rfl, rfl⟩
    · obtain ⟨hnew, hagreeing⟩ := hother hs
      by_cases hf : l.followSector = some h
      · have hfew : l.agree < 2 := (hm.resolve_left (by rw [hmode]; decide)).resolve_left fun h => h hf
        rw [(hagreeing hf).1 hfew]
        exact ⟨rfl, rfl, rfl⟩
      · rw [hnew hf]
        exact ⟨rfl, rfl, rfl⟩

theorem afterBeacon_unmoved {t : Tuning} {now : Time} {h : Sector} {b : Bool} {l : Link}
    (hm : b = false ∨ l.mode = .fixed ∨ l.followSector ≠ some h ∨ l.agree < 2) :
    (l.afterBeacon t now h b).sector = l.sector ∧ (l.afterBeacon t now h b).est = l.est ∧
      (l.afterBeacon t now h b).events = l.events := by
  cases b
  · exact ⟨rfl, rfl, rfl⟩
  · obtain ⟨gs, gc, iv, hmeasured, -⟩ := measureBeacon_cases now { l with lastHeard := some now }
    rw [Link.afterBeacon, if_pos rfl, hmeasured]
    exact followBeacon_unmoved (l := { l with
      lastHeard := some now, lastBeacon := some now, gapSum := gs, gapCount := gc, interval := iv })
      (hm.resolve_left (nomatch ·))

/-! ### The record once it is heard (R6, R8, R9) -/

theorem hear_heard (t : Tuning) (now : Time) (x : Nat) (h : Sector) (b : Bool) (l : Link) :
    (l.hear t now x h b).heard = l.heard := by
  rw [hear_eq, evaluate_heard]
  exact (afterBeacon_keeps t now h b l).1

/-- The heard count of a Probation or Down link after one more HEARD REPORT (R8, R9). -/
def Link.heardNext (l : Link) (n : Nat) : Prop :=
  (l.state = .probation ∧ n = min (l.heard + 1) 8) ∨ (l.state = .down ∧ n = 1)

theorem Link.heardNext.unusable {l : Link} {n : Nat} (h : l.heardNext n) : l.state.isUsable = false := by
  rcases h with ⟨h, -⟩ | ⟨h, -⟩ <;> rw [h] <;> rfl

theorem countHearing_of_next {t : Tuning} {l : Link} {n : Nat} (h : l.heardNext n) : l.countHearing t =
    if t.get 7 ≤ n then { l with state := .up, heard := n, events := { l.events with cameUp := true } }
    else { l with state := .probation, heard := n } := by
  unfold Link.countHearing
  rcases h with ⟨hstate, rfl⟩ | ⟨hstate, rfl⟩
  · rw [hstate]
    show Link.climb _ _ = _
    unfold Link.climb
    rw [← hstate]
    rfl
  · rw [hstate]
    rfl

/-- Steps 1 to 4 of R6 leave a Probation or Down link's standing and heard count. -/
theorem Link.heardNext.hear {l : Link} {n : Nat} (hn : l.heardNext n) (t : Tuning) (now : Time) (x : Nat) (h : Sector)
    (b : Bool) : (l.hear t now x h b).heardNext n := by
  have hstate := (hear_keepsStanding t now x h b l).eq_of_unusable hn.unusable
  unfold Link.heardNext
  rw [hstate, hear_heard]
  exact hn

/-- The record of a Probation or Down link that stays below the probation heard count (R8, R9, R12). -/
theorem afterHeard_below {s : State} {l : Link} {n : Nat} (hn : l.heardNext n) (hbelow : n < s.param 7) (x : Nat)
    (h : Sector) (b : Bool) : l.afterHeard s.tuning s.now x h b = Link.computeDeadline s.tuning
      { l.hear s.tuning s.now x h b with state := .probation, heard := n } := by
  have hbelow : ¬ s.tuning.get 7 ≤ n := Nat.not_le.2 hbelow
  have hcount := countHearing_of_next (t := s.tuning) (hn.hear s.tuning s.now x h b)
  rw [if_neg hbelow] at hcount
  have hrises : l.rises s.tuning s.now x h b = false := by
    rw [Link.rises, hcount]
    exact Bool.and_false _
  simp only [Link.afterHeard, hrises, hcount]
  rfl

/-- The record of a Probation or Down link that comes Up (R8, R9, R12). -/
theorem afterHeard_risen {s : State} {l : Link} {n : Nat} (hn : l.heardNext n) (hreached : s.param 7 ≤ n) (x : Nat)
    (h : Sector) (b : Bool) : l.afterHeard s.tuning s.now x h b =
      (Link.evaluate s.tuning { l.hear s.tuning s.now x h b with
        state := .up, heard := n
        events := { (l.hear s.tuning s.now x h b).events with cameUp := true } }).computeDeadline s.tuning := by
  have hreached : s.tuning.get 7 ≤ n := hreached
  have hheard := hn.hear s.tuning s.now x h b
  have hcount := countHearing_of_next (t := s.tuning) hheard
  rw [if_pos hreached] at hcount
  have hrises : l.rises s.tuning s.now x h b = true := by
    rw [Link.rises, hcount, hheard.unusable]
    rfl
  simp only [Link.afterHeard, hrises, hcount]
  rfl

/-- The deadline of a Probation or Down link that is heard, counted from now (R12). -/
theorem Link.heardNext.deadline {l : Link} {n : Nat} (hn : l.heardNext n) (s : State) (x : Nat) (h : Sector) (b : Bool) :
    (l.afterHeard s.tuning s.now x h b).deadline = some (s.now + BitVec.ofNat 32
      (((l.hear s.tuning s.now x h b).interval.getD (s.param 6)) * s.param 5)) := by
  have hheard := hear_lastHeard s.tuning s.now x h b l
  by_cases hbelow : n < s.param 7
  · rw [afterHeard_below hn hbelow]
    exact congrArg Link.deadline (computeDeadline_eq
      (l := { l.hear s.tuning s.now x h b with state := .probation, heard := n }) rfl hheard)
  · rw [afterHeard_risen hn (Nat.not_lt.1 hbelow)]
    refine (congrArg Link.deadline (computeDeadline_eq (now := s.now) ?_ ?_)).trans ?_
    · rw [evaluate_mayHoldDeadline]
      rfl
    · rw [evaluate_lastHeard]
      exact hheard
    · rw [evaluate_interval]
      rfl

/-- The record of an Up or Degraded link that is heard (R6, R12). -/
theorem afterHeard_of_usable {l : Link} (hu : l.state.isUsable = true) (t : Tuning) (now : Time) (x : Nat) (h : Sector)
    (b : Bool) : l.afterHeard t now x h b = (l.hear t now x h b).computeDeadline t := by
  have hheard : (l.hear t now x h b).state.isUsable = true := (hear_keepsStanding t now x h b l).isUsable.trans hu
  have hrises : l.rises t now x h b = false := by
    rw [Link.rises, hheard]
    rfl
  simp only [Link.afterHeard, hrises, countHearing_of_usable hheard]
  rfl

theorem mayHoldDeadline_of_isUsable {st : LinkState} (h : st.isUsable = true) : st.mayHoldDeadline = true := by
  rcases isUsable_iff.1 h with rfl | rfl <;> rfl

/-! ### A HEARD REPORT taken (R6, R113, R115) -/

/-- The take of a validated HEARD REPORT, in one. -/
theorem exec_heardTaken {s : State} {p : Radio} {peer : Addr} {snr sector beacon : Byte} {rest : List Report} {i : LinkId}
    {l : Link} {h : Sector} (hpart : s.part = .operational)
    (hqueue : (s.port p).reports = .heard peer snr sector beacon :: rest) (hsector : sector.toNat = h.val)
    (hl : s.link i = some l) (hradio : l.radio = p) (hpeer : l.peer = peer) (hr : l.state ≠ .retiring)
    (honly : ∀ j l', s.link j = some l' → l'.radio = p → l'.peer = peer → j = i) :
    exec (.reportTake p) s = .next ((s.reportTaken p rest).moveLink i l
      (some (l.afterHeard s.tuning s.now (min snr.toNat 63) h (beacon != 0)))) := by
  rw [exec_reportTake hqueue hpart]
  refine congrArg _ ?_
  show State.takeHeard _ p peer snr sector beacon = _
  have hfind : (s.reportTaken p rest).findLink p peer = some i := findLink_eq hl hradio hpeer honly
  have hl' : (s.reportTaken p rest).link i = some l := hl
  simp only [State.takeHeard, idOf_eq_some hsector, hfind, hl', if_neg hr]
  exact handleHeard_eq hl' _ _ _

/-- Settles O46: the record keeps its standing, so no notice is sent, and its fields are those of `afterBeacon` with the SNR
average moved. -/
theorem heardBeaconMeasuresAndFollows : Obligations.HeardBeaconMeasuresAndFollows := by
  intro s p peer snr sector beacon rest i l h hpart hqueue hsector hl hradio hpeer hstate honly
  have hu : l.state.isUsable = true := isUsable_iff.2 hstate
  have hr : l.state ≠ .retiring := by rcases hstate with h | h <;> rw [h] <;> decide
  have hstands := hear_keepsStanding s.tuning s.now (min snr.toNat 63) h (beacon != 0) l
  have hheard := hear_lastHeard s.tuning s.now (min snr.toNat 63) h (beacon != 0) l
  have hafter := afterHeard_of_usable hu s.tuning s.now (min snr.toNat 63) h (beacon != 0)
  have hmu := hstands.isUsable.trans hu
  have hdeadline := computeDeadline_eq (t := s.tuning) (mayHoldDeadline_of_isUsable hmu) hheard
  have hsame : usableRecord (some (l.afterHeard s.tuning s.now (min snr.toNat 63) h (beacon != 0))) = l.state.isUsable := by
    rw [hafter]
    exact hstands.isUsable
  obtain ⟨hcount, hmode, hpinned⟩ := afterBeacon_keeps s.tuning s.now h (beacon != 0) l
  refine ⟨_, _, ?_, hear_steps s.tuning s.now (min snr.toNat 63) h (beacon != 0) l, hafter.trans hdeadline, ?_⟩
  · rw [exec_heardTaken hpart hqueue hsector hl hradio hpeer hr honly, moveLink_of_same hsame]
    rfl
  rw [hafter]
  refine ⟨isUsable_iff.1 hmu, hear_heard .., hheard, ?_, ?_, hear_refs .., hstands.radio, hstands.peer, fun hb => ?_,
    fun hb => ?_, fun hunmoved => ?_⟩
  · show (l.hear _ _ _ _ _).mode = _
    rw [hear_eq, evaluate_mode]
    exact hmode
  · show (l.hear _ _ _ _ _).pinned = _
    rw [hear_eq, evaluate_pinned]
    exact hpinned
  · have hnone : (beacon != 0) = false := by simp [hb]
    rw [hnone]
    show (l.hear _ _ _ _ _).lastBeacon = _ ∧ (l.hear _ _ _ _ _).gapSum = _ ∧ (l.hear _ _ _ _ _).gapCount = _ ∧
      (l.hear _ _ _ _ _).interval = _ ∧ (l.hear _ _ _ _ _).followSector = _ ∧ (l.hear _ _ _ _ _).agree = _
    rw [hear_eq, evaluate_lastBeacon, evaluate_gapSum, evaluate_gapCount, evaluate_interval, evaluate_followSector,
      evaluate_agree]
    exact ⟨rfl, rfl, rfl, rfl, rfl, rfl⟩
  · have hbeacon : (beacon != 0) = true := by simpa using hb
    rw [hbeacon]
    show (l.hear _ _ _ _ _).lastBeacon = _
    rw [hear_eq, evaluate_lastBeacon]
    exact afterBeacon_lastBeacon s.tuning s.now h l
  · obtain ⟨hsame, hest, hevents⟩ := afterBeacon_unmoved (t := s.tuning) (now := s.now) (b := beacon != 0) (l := l)
      (hunmoved.imp_left fun hb => by simp [hb])
    show (l.hear _ _ _ _ _).sector = _ ∧ (l.hear _ _ _ _ _).est.delivery = _ ∧ (l.hear _ _ _ _ _).est.probe = _ ∧
      (l.hear _ _ _ _ _).est.snr = _ ∧ (l.hear _ _ _ _ _).events.sectorMoved = _
    rw [hear_eq, sampleSnr_snr, (evaluate_keeps _ _).2, evaluate_sector, evaluate_delivery, evaluate_probe, evaluate_snr]
    rw [hest, hevents]
    exact ⟨hsame, rfl, rfl, rfl, rfl⟩

/-! ### The notice of a rise (R19, R89) -/

/-- What immediate selection leaves is read off any state alike to it. -/
theorem State.selectedIn.of_alike {u v t : State} {d : DestId} (h : v.selectedIn t d) (hv : v.alikeFor u d) :
    u.selectedIn t d := by
  obtain ⟨hdest, hcands⟩ := selectNow_congr hv
  obtain ⟨-, ⟨hd, -⟩, -⟩ := hv
  have hchain : u.chainOf d = v.chainOf d := by simp [State.chainOf, hd]
  refine ⟨⟨h.1.1.trans hdest.1.symm, h.1.2.trans hdest.2.symm⟩, fun c hc => ?_⟩
  rw [hchain] at hc
  exact (h.2 c hc).trans (hcands c hc).symm

/-- A port is nothing that a notice of a rise reads. -/
theorem gainedReselected_of_setPort {s t : State} {p : Radio} {x : Port} {i : LinkId} {y : Option Link}
    (h : (s.setPort p x).gainedReselected i ((s.setPort p x).setLink i y) t) : s.gainedReselected i (s.setLink i y) t :=
  fun d => ⟨fun hd => ((h d).1 hd).of_alike ⟨rfl, ⟨rfl, rfl⟩, fun _ _ => ⟨sameButCost_rfl _, rfl, rfl⟩⟩, (h d).2⟩

/-- A full evaluation commutes with the evaluation and the deadline of a link that came Up (R8). -/
theorem updateLink_evaluateDest {v : State} {t : Tuning} (ht : v.tuning = t) (i : LinkId) (d : DestId) :
    (v.evaluateDest d).updateLink i (fun l => (l.evaluate t).computeDeadline t) =
      (v.updateLink i (fun l => (l.evaluate t).computeDeadline t)).evaluateDest d := by
  have hlink : (v.evaluateDest d).link i = v.link i := State.pathsOnly_link (evaluateDest_reselects v d).pathsOnly i
  unfold State.updateLink
  rw [hlink]
  cases hl : v.link i with
  | none => rfl
  | some l => exact (evaluateDest_setLink hl (by rw [ht]; exact evaluate_alike t l) d).symm

/-- A full evaluation and what follows a link's coming Up commute (R8, R91). -/
theorem finishRise_evaluateDest (u : State) (i : LinkId) (d : DestId) :
    (u.evaluateDest d).finishRise i = (u.finishRise i).evaluateDest d := by
  have hsweep : (u.evaluateDest d).usableGained i = (u.usableGained i).evaluateDest d :=
    (evaluateDest_gained_comm (List.finRange 128) u i d).symm
  have htuning : (u.evaluateDest d).tuning = u.tuning := State.pathsOnly_tuning (evaluateDest_reselects u d).pathsOnly
  have hgained : (u.usableGained i).tuning = u.tuning := State.pathsOnly_tuning (usableGained_spec u i).1
  unfold State.finishRise
  rw [hsweep, htuning]
  exact updateLink_evaluateDest hgained i d

/-- A path result reads the destination, path costs, and the radio and peer of links. -/
theorem pathResult_congr {s t : State} {d : DestId} (hdest : t.dest d = s.dest d)
    (hcands : ∀ c, sameButCost (s.cand c) (t.cand c)) (hcost : t.candCost = s.candCost)
    (hlinks : ∀ i, (t.link i).map (fun l => (l.radio, l.peer)) = (s.link i).map fun l => (l.radio, l.peer)) :
    t.pathResult d = s.pathResult d := by
  unfold State.pathResult
  rw [hdest, hcost]
  cases s.dest d with
  | none => rfl
  | some r =>
    cases ha : r.active with
    | none => simp only [ha]
    | some a =>
      rcases sameButCost_iff.1 (hcands a) with ⟨hs, ht⟩ | ⟨k, k', hs, ht, -, hlink, -⟩
      · simp only [ha, hs, ht]
      · have hl := hlinks k.link
        simp only [ha, hs, ht, hlink]
        cases hls : s.link k.link <;> cases hlt : t.link k.link <;> simp [hls, hlt] at hl
        · rfl
        · simp [hl]

/-- A destination just evaluated is left as it is by a notice of a rise (R84, R89). -/
theorem usableGained_evaluateDest_dest (u : State) (i : LinkId) (d : DestId) :
    ((u.evaluateDest d).usableGained i).dest d = (u.evaluateDest d).dest d := by
  cases hw : (u.evaluateDest d).waitsOn i d with
  | false => exact ((usableGained_spec _ i).2.2.2 d hw).1
  | true =>
    have hsame : (u.evaluateDest d).selectNow d = u.evaluateDest d := by
      refine evaluateDest_selectNow_same u d fun r hr => ?_
      obtain ⟨r', hr', hunreachable⟩ := waitsOn_unreachable hw
      cases hr.symm.trans hr'
      exact hunreachable
    have hswept : (u.evaluateDest d).selectedIn ((u.evaluateDest d).usableGained i) d :=
      foldl_selected (p := fun s d => s.waitsOn i d) _ _ (waitsOn_reselects i) (List.nodup_finRange _)
        (List.mem_finRange d) hw
    rw [hswept.1.1, hsame]

/-- The path result of a destination just evaluated is the same once a rise has been finished (R91). -/
theorem pathResult_finishRise (u : State) (i : LinkId) (d : DestId) :
    ((u.evaluateDest d).finishRise i).pathResult d = (u.evaluateDest d).pathResult d := by
  have hdest := usableGained_evaluateDest_dest u i d
  generalize u.evaluateDest d = w at hdest ⊢
  obtain ⟨hpaths, ⟨-, hcands⟩, -, -⟩ := usableGained_spec w i
  have hcost : (w.usableGained i).candCost = w.candCost := funext fun c =>
    candCost_congr (hcands c) (State.pathsOnly_link hpaths) (State.pathsOnly_tuning hpaths)
  have htuning : (w.usableGained i).tuning = w.tuning := State.pathsOnly_tuning hpaths
  have hlinks := State.pathsOnly_link hpaths
  unfold State.finishRise
  generalize w.usableGained i = v at *
  refine pathResult_congr (by rw [updateLink_dest, hdest]) (fun c => by rw [updateLink_cand]; exact hcands c) ?_
    fun j => ?_
  · rw [← hcost]
    unfold State.updateLink
    cases hl : v.link i with
    | none => rfl
    | some l => exact (candCost_setLink hl (by rw [htuning]; exact evaluate_alike w.tuning l)).1
  · rw [updateLink_link, ← hlinks j]
    split
    · next hj =>
      rw [hj]
      cases v.link i <;> simp [Link.computeDeadline]
    · rfl

/-- Settles O45: the record by `afterHeard_below` and `afterHeard_risen`, the notice by `usableGained_leaves`, and the two
orders of R91 by `finishRise_evaluateDest`. -/
theorem heardReportCountsTowardUp : Obligations.HeardReportCountsTowardUp := by
  refine ⟨fun u i d => ⟨finishRise_evaluateDest u i d, ?_⟩, ?_⟩
  · rw [← finishRise_evaluateDest]
    exact pathResult_finishRise u i d
  intro s p peer snr sector beacon rest i l h n hpart hqueue hsector hl hradio hpeer hn honly
  have hn : l.heardNext n := hn
  have hr : l.state ≠ .retiring := by rcases hn with ⟨h, -⟩ | ⟨h, -⟩ <;> rw [h] <;> decide
  have hexec := exec_heardTaken hpart hqueue hsector hl hradio hpeer hr honly
  have hwritten := moveLink_linkWritten (s.reportTaken p rest) i l
    (some (l.afterHeard s.tuning s.now (min snr.toNat 63) h (beacon != 0)))
  have hnotusable := hn.unusable
  obtain ⟨htables, hlink, hreselected, -⟩ := hwritten
  refine ⟨_, _, _, hexec, by rw [hlink, if_pos rfl],
    hear_steps s.tuning s.now (min snr.toNat 63) h (beacon != 0) l, ?_, fun hbelow => ?_, fun hreached => ?_,
    fun j hj => by rw [hlink, if_neg hj]; rfl, htables, hreselected⟩
  · exact hn.deadline s (min snr.toNat 63) h (beacon != 0)
  · have hafter := afterHeard_below hn hbelow (min snr.toNat 63) h (beacon != 0)
    refine ⟨?_, ?_⟩
    · rw [hafter]
      rfl
    · refine (moveLink_of_same ?_ _ _).trans rfl
      rw [hafter, hnotusable]
      rfl
  · have hafter := afterHeard_risen hn hreached (min snr.toNat 63) h (beacon != 0)
    have husable : (l.afterHeard s.tuning s.now (min snr.toNat 63) h (beacon != 0)).state.isUsable = true := by
      rw [hafter]
      exact (evaluate_isUsable _ _).trans rfl
    have hgained : (s.reportTaken p rest).moveLink i l
        (some (l.afterHeard s.tuning s.now (min snr.toNat 63) h (beacon != 0))) =
        ((s.reportTaken p rest).setLink i
          (some (l.afterHeard s.tuning s.now (min snr.toNat 63) h (beacon != 0)))).usableGained i := by
      rw [State.moveLink, hnotusable, usableRecord_some, husable]
      rfl
    refine ⟨?_, isUsable_iff.1 husable, hgained, ?_, ?_⟩
    · rw [hafter]
      rfl
    · rw [hgained, hafter]
      exact (finishRise_setLink (s.reportTaken p rest) i _).symm
    · rw [hgained]
      exact gainedReselected_of_setPort (usableGained_leaves (s.reportTaken p rest) i _)

end Sys2Proof.Machine
end


section
/-! The Forwarding Port (R95 to R101) and the results of an evaluation (R86, R98), and the obligations about them. -/

namespace Sys2Proof.Machine

/-! ### The result of an evaluation (R86, R98) -/

/-- The choice of a full evaluation is a usable member, or there is none. -/
theorem evaluatedActive_spec {s : State} {r : Dest} (hactive : ∀ a, r.active = some a → a ∈ r.chain) :
    (s.evaluatedActive r = none ∧ ∀ c ∈ r.chain, s.candUsable c = false) ∨
      ∃ a, s.evaluatedActive r = some a ∧ a ∈ r.chain ∧ s.candUsable a = true := by
  have hcheapest : (cheapest s.candCost (r.chain.filter s.candUsable) = none ∧ ∀ c ∈ r.chain, s.candUsable c = false) ∨
      ∃ a, cheapest s.candCost (r.chain.filter s.candUsable) = some a ∧ a ∈ r.chain ∧ s.candUsable a = true := by
    cases h : cheapest s.candCost (r.chain.filter s.candUsable) with
    | none => exact .inl ⟨rfl, cheapest_filter_eq_none h⟩
    | some a => exact .inr ⟨a, rfl, List.mem_filter.1 (cheapest_mem h)⟩
  unfold State.evaluatedActive
  dsimp only
  split
  · next hempty =>
    have hnil : r.chain = [] := List.isEmpty_iff.1 hempty
    rw [hnil] at hactive ⊢
    cases ha : r.active with
    | none => exact .inl ⟨rfl, fun _ h => (nomatch h)⟩
    | some a => exact absurd (hactive a ha) List.not_mem_nil
  · cases ha : r.active with
    | none => exact hcheapest
    | some a =>
      dsimp only
      by_cases hu : s.candUsable a = true
      · rw [if_pos hu]
        cases hb : s.challenger r a with
        | none => exact .inr ⟨a, rfl, hactive a ha, hu⟩
        | some b =>
          dsimp only
          split
          · obtain ⟨hmem, hb⟩ := List.mem_filter.1 (cheapest_mem hb)
            exact .inr ⟨b, rfl, hmem, (Bool.and_eq_true _ _ ▸ hb).1⟩
          · exact .inr ⟨a, rfl, hactive a ha, hu⟩
      · rw [if_neg hu]
        exact hcheapest

/-- A usable candidate is in use and names a link in use. -/
theorem records_of_candUsable {s : State} {c : CandId} (h : s.candUsable c = true) :
    ∃ k l, s.cand c = some k ∧ s.link k.link = some l := by
  unfold State.candUsable at h
  cases hk : s.cand c with
  | none => simp [hk] at h
  | some k =>
    cases hl : s.link k.link with
    | none => simp [hk, hl] at h
    | some l => exact ⟨k, l, rfl, hl⟩

/-- The result that an evaluation of a destination forms, read off the state before it. -/
theorem pathResult_evaluateDest {s : State} {d : DestId} {r : Dest} (hr : s.dest d = some r) :
    (s.evaluatedActive r = none → (s.evaluateDest d).pathResult d = .noPath) ∧
      ∀ a k l, s.evaluatedActive r = some a → s.cand a = some k → s.link k.link = some l →
        (s.evaluateDest d).pathResult d = .ok k.link l.radio l.peer (s.candCost a) := by
  have hreselects := evaluateDest_reselects s d
  have hlink := State.pathsOnly_link hreselects.pathsOnly
  have hdest : (s.evaluateDest d).dest d = some (r.withActive s.now (s.evaluatedActive r)) := by
    rw [evaluateDest_eq s d r hr, setActive_dest, if_pos rfl, refreshCosts_dest, hr,
      State.pathsOnly_now (refreshCosts_pathsOnly _ _)]
    rfl
  refine ⟨fun ha => ?_, fun a k l ha hk hl => ?_⟩
  · rw [State.pathResult, hdest]
    simp only [Dest.withActive_active, ha]
  · rcases sameButCost_iff.1 (hreselects.same a) with ⟨hnone, -⟩ | ⟨k₀, k', hk₀, hk', -, hlinks, -⟩
    · exact nomatch hk.symm.trans hnone
    · cases hk.symm.trans hk₀
      rw [State.pathResult, hdest]
      simp only [Dest.withActive_active, ha, hk', hlinks, hlink, hl, hreselects.costs.1]

/-- Settles O40: the choice of an evaluation is a usable member, whose link the result names. -/
theorem okAnswersNameUsableNextHops : Obligations.OkAnswersNameUsableNextHops := by
  intro s d r hr hsound
  obtain ⟨-, -, -, -, hactive⟩ := hsound
  obtain ⟨hnopath, hok⟩ := pathResult_evaluateDest hr
  rcases evaluatedActive_spec (s := s) fun a ha => (hactive a ha).1 with ⟨hnone, hunusable⟩ | ⟨a, ha, hmem, hu⟩
  · rw [hnopath hnone]
    exact ⟨fun _ _ _ _ h => (nomatch h), fun _ => hunusable, fun _ => rfl⟩
  · obtain ⟨k, l, hk, hl⟩ := records_of_candUsable hu
    obtain ⟨hstate, -, hcost⟩ := (candUsable_iff hk hl).1 hu
    rw [hok a k l ha hk hl]
    refine ⟨fun i radio hop cost h => ?_, fun h => (nomatch h), fun h => ?_⟩
    · cases h
      exact ⟨a, k, l, hmem, hk, rfl, hl, rfl, rfl, hstate, hu, rfl, hcost⟩
    · exact absurd ((h a hmem).symm.trans hu) (by decide)

/-! ### The head of the query queue resolved (R97, R98, R100) -/

theorem findDest_unknown {s : State} {a : Addr} (h : (∀ d r, s.dest d = some r → r.address ≠ a) ∨ a.getLsbD 40 = true) :
    s.findDest a = none := by
  unfold State.findDest
  split
  · rfl
  · next hg =>
    refine find?_nowhere fun d => ?_
    unfold State.destMatches
    cases hr : s.dest d with
    | none => rfl
    | some r => exact beq_eq_false_iff_ne.2 ((h.resolve_right hg) d r hr)

theorem findDest_eq_some {s : State} {a : Addr} {d : DestId} (h : s.findDest a = some d) :
    ∃ r, s.dest d = some r ∧ r.address = a := by
  unfold State.findDest at h
  split at h
  · cases h
  · have hd := List.find?_some h
    unfold State.destMatches at hd
    split at hd
    · next r hr => exact ⟨r, hr, by simpa using hd⟩
    · cases hd

theorem resolveQuery_configuring {s : State} {w : Query} (hpart : s.part = .configuring) :
    s.resolveQuery w = (s, ⟨w.tag, .notReady⟩) := by
  simp only [State.resolveQuery, hpart]

theorem resolveQuery_unknown {s : State} {w : Query} (hpart : s.part = .operational)
    (h : (∀ d r, s.dest d = some r → r.address ≠ w.dest) ∨ w.dest.getLsbD 40 = true) :
    s.resolveQuery w = (s, ⟨w.tag, .unknown⟩) := by
  simp only [State.resolveQuery, hpart, findDest_unknown h]

theorem resolveQuery_found {s : State} {w : Query} (hpart : s.part = .operational) {d : DestId}
    (h : s.findDest w.dest = some d) : s.resolveQuery w = (s.evaluateDest d, ⟨w.tag, (s.evaluateDest d).pathResult d⟩) := by
  simp only [State.resolveQuery, hpart, h]

section
variable {s : State} {w : Query} {ws : List Query}

theorem resolveHead_configuring (hw : w.answer = none) (hpart : s.part = .configuring) :
    ({ s with queries := w :: ws } : State).resolveHead =
      { s with queries := { w with answer := some ⟨w.tag, .notReady⟩ } :: ws } := by
  rw [resolveHead_waiting _ w ws rfl hw, resolveQuery_configuring (s := { s with queries := w :: ws }) hpart]

theorem resolveHead_unknown (hw : w.answer = none) (hpart : s.part = .operational)
    (h : (∀ d r, s.dest d = some r → r.address ≠ w.dest) ∨ w.dest.getLsbD 40 = true) :
    ({ s with queries := w :: ws } : State).resolveHead =
      { s with queries := { w with answer := some ⟨w.tag, .unknown⟩ } :: ws } := by
  rw [resolveHead_waiting _ w ws rfl hw, resolveQuery_unknown (s := { s with queries := w :: ws }) hpart h]

theorem resolveHead_found (hw : w.answer = none) (hpart : s.part = .operational) {d : DestId}
    (h : s.findDest w.dest = some d) {t : State} (ht : t = ({ s with queries := w :: ws } : State).evaluateDest d) :
    ({ s with queries := w :: ws } : State).resolveHead =
      { t with queries := { w with answer := some ⟨w.tag, t.pathResult d⟩ } :: ws } := by
  rw [resolveHead_waiting _ w ws rfl hw, resolveQuery_found (s := { s with queries := w :: ws }) hpart h, ht]

/-- Whatever the head's query finds, its own destination alone is reselected, and it is answered with its own tag. -/
theorem resolveHead_leaves (hq : s.queries = w :: ws) (hw : w.answer = none) : ∃ ans u,
    s.resolveHead = { u with queries := { w with answer := some ans } :: ws } ∧ ans.tag = w.tag ∧ s.pathsOnly u ∧
      s.pathsReselected u ∧ ∀ d r, s.dest d = some r → r.address ≠ w.dest → u.dest d = some r := by
  obtain ⟨htag, hstate⟩ := resolveQuery_spec s w
  refine ⟨_, _, resolveHead_waiting s w ws hq hw, htag, ?_⟩
  rcases hstate with h | ⟨e, he, -, h⟩ <;> rw [h]
  · exact ⟨rfl, s.pathsReselected_rfl, fun _ _ hr _ => hr⟩
  · have hreselects := evaluateDest_reselects s e
    refine ⟨hreselects.pathsOnly, hreselects.pathsReselected, fun d r hr haddress => ?_⟩
    have hne : d ≠ e := by
      rintro rfl
      obtain ⟨r', hr', haddress'⟩ := findDest_eq_some he
      cases hr.symm.trans hr'
      exact haddress haddress'
    rw [hreselects.dest_ne hne, hr]

end

/-! ### PATH QUERY and PATH ANSWER (R95, R97, R101) -/

theorem exec_pathQuery (s : State) (tag : Byte) (a : Addr) : exec (.pathQuery tag a) s =
    .next (if s.queryReady then
      if s.queries.isEmpty then ({ s with queries := s.queries ++ [⟨tag, a, none⟩] } : State).resolveHead
      else { s with queries := s.queries ++ [⟨tag, a, none⟩] }
    else s) := by
  show execPathQuery tag a s = _
  unfold execPathQuery
  split <;> rfl

theorem exec_pathQuery_empty {s : State} {tag : Byte} {a : Addr} (hready : s.queryReady = true) (hempty : s.queries = []) :
    exec (.pathQuery tag a) s = .next ({ s with queries := [⟨tag, a, none⟩] } : State).resolveHead := by
  rw [exec_pathQuery, if_pos hready, hempty]
  rfl

/-- Settles O38: into an empty queue the query is resolved at once by the rules for the head. -/
theorem pathQueryIntake : Obligations.PathQueryIntake := by
  refine fun s tag a => ⟨fun hready => ?_, fun hready hsome => ?_, fun hready hempty => ⟨fun hpart => ?_,
    fun hpart hunknown => ?_, fun hpart hg d r hr haddress honly t ht => ?_⟩⟩
  · rw [exec_pathQuery, hready]
    rfl
  · rw [exec_pathQuery, if_pos hready, if_neg (by simpa using hsome)]
  · rw [exec_pathQuery_empty hready hempty, resolveHead_configuring rfl hpart]
  · rw [exec_pathQuery_empty hready hempty, resolveHead_unknown rfl hpart hunknown]
  · have hfind : s.findDest a = some d := findDest_eq hg hr haddress honly
    rw [exec_pathQuery_empty hready hempty, resolveHead_found (w := ⟨tag, a, none⟩) rfl hpart hfind ht]

theorem exec_pathAnswer {s : State} {q : Query} {ans : PathAnswer} {rest : List Query} (hq : s.queries = q :: rest)
    (hans : q.answer = some ans) : exec .pathAnswer s = .next ({ s with queries := rest } : State).resolveHead := by
  show execPathAnswer s = _
  simp only [execPathAnswer, hq, hans]

/-- Settles O39: with the head's entry gone, the next one is resolved by the rules for the head. -/
theorem pathAnswerAdvancesTheQueue : Obligations.PathAnswerAdvancesTheQueue := by
  intro s q ans rest hq hans
  rw [exec_pathAnswer hq hans]
  refine ⟨fun hrest => ?_, fun w ws hrest hw => ⟨fun hpart => ?_, fun hpart hunknown => ?_,
    fun hpart hg d r hr haddress honly t ht => ?_, ?_⟩⟩ <;> rw [hrest]
  · rw [resolveHead_nil _ rfl]
  · rw [resolveHead_configuring hw hpart]
  · rw [resolveHead_unknown hw hpart hunknown]
  · rw [resolveHead_found hw hpart (findDest_eq hg hr haddress honly) ht]
  · obtain ⟨ans', u, heq, htag, hpaths, hreselected, hothers⟩ :=
      resolveHead_leaves (s := { s with queries := w :: ws }) rfl hw
    refine ⟨_, ans', rfl, by rw [heq], htag, ?_, ?_, ?_⟩ <;> rw [heq]
    · exact congrArg (fun u : State => { u with queries := { w with answer := some ans' } :: ws }) hpaths
    · exact hreselected
    · exact hothers

end Sys2Proof.Machine
end


section
/-! Configuration commands: SET PARAMETER and GET PARAMETER (R166, R167), LOAD RATE PROFILE (R30), GO OPERATIONAL (R165), and
the obligations about them. -/

namespace Sys2Proof.Machine

/-! ### A command carried out by its rule -/

section
variable {code : Byte} {args : List Byte} {rule : List Byte → State → Reply} {s : State}

/-- A command of the right length that its rule refuses. -/
theorem carryOut_refused {e : Status} (h : s.hand = some ⟨code, args⟩) (hl : lengthFits code args = true)
    (hrule : rule args s = s.refuse e) : carryOut code rule s = .next (s.giveAnswer ⟨e, []⟩) := by
  rw [carryOut_eq h hl, hrule]
  rfl

/-- A command of the right length that its rule carries out. -/
theorem carryOut_done {t : State} {rs : List Byte} (h : s.hand = some ⟨code, args⟩) (hl : lengthFits code args = true)
    (hrule : rule args s = t.ok rs) : carryOut code rule s = .next (t.giveAnswer ⟨.ok, rs⟩) := by
  rw [carryOut_eq h hl, hrule]
  rfl

end

/-! ### Parameters (R166, R167) -/

theorem clampParam_depth {p : ParamNo} (hp : p.val ≤ 1) (x : Nat) :
    clampParam p x = if x ≤ 1 then 1 else if x ≤ 3 then 2 else if x ≤ 7 then 4 else 8 := by
  have hdepth : p = Param.deliveryDepth ∨ p = Param.snrDepth := by
    rcases Nat.le_one_iff_eq_zero_or_eq_one.1 hp with h | h
    · exact .inl (Fin.ext h)
    · exact .inr (Fin.ext h)
  rw [clampParam, if_pos hdepth, clampDepth]
  split_ifs <;> omega

theorem clampParam_range {p : ParamNo} (hp : 2 ≤ p.val) (x : Nat) : clampParam p x =
    if x < Param.lowest.get p then Param.lowest.get p else if Param.highest.get p < x then Param.highest.get p else x := by
  have hdepth : ¬ (p = Param.deliveryDepth ∨ p = Param.snrDepth) := by
    rintro (rfl | rfl) <;> exact absurd hp (by decide)
  have hbounds : Param.lowest.get p ≤ Param.highest.get p := by
    clear hp hdepth
    revert p
    decide
  rw [clampParam, if_neg hdepth]
  split_ifs <;> omega

theorem clampParam_le (p : ParamNo) (x : Nat) : clampParam p x ≤ 64000 := by
  have hhighest : Param.highest.get p ≤ 64000 := by
    revert p
    decide
  exact (clampParam_allowed p x).2.1.trans hhighest

theorem crossesThresholds_iff {s : State} {p : ParamNo} {v : Nat} :
    crossesThresholds s p v = true ↔ (p = 8 ∧ v ≤ s.param 9) ∨ (p = 9 ∧ s.param 8 ≤ v) := by
  rw [crossesThresholds, Bool.or_eq_true, Bool.and_eq_true, Bool.and_eq_true, beq_iff_eq, beq_iff_eq, decide_eq_true_iff,
    decide_eq_true_iff]
  rfl

theorem setParameter_eq {number : Byte} {p : ParamNo} (hp : number.toNat = p.val) (hi lo : Byte) (s : State) :
    setParameter [number, hi, lo] s = if crossesThresholds s p (clampParam p (word16 hi lo)) then s.refuse .badValue
      else ({ s with params := put s.params p (clampParam p (word16 hi lo)) } : State).ok
        (bytesOf 2 (clampParam p (word16 hi lo))) := by
  simp only [setParameter, idOf_eq_some hp]

/-- Settles O6: the value is clamped into its range, and the guard of R167 is `crossesThresholds_iff`. -/
theorem setParameterClampsAndWrites : Obligations.SetParameterClampsAndWrites := by
  refine ⟨rfl, rfl, fun s number hi lo hhand => ⟨fun hout => ?_, fun p x v hp hx hdepth hrange => ?_⟩,
    fun s number hhand => ⟨fun hout => ?_, fun p hp hle => ?_⟩⟩
  · refine carryOut_refused (code := Code.setParameter) (rule := setParameter) hhand rfl ?_
    simp only [setParameter, idOf_eq_none (n := 22) hout]
  · have hx : x = word16 hi lo := hx
    have hv : v = clampParam p (word16 hi lo) := by
      rw [← hx]
      rcases Nat.lt_or_ge p.val 2 with h | h
      · rw [clampParam_depth (Nat.le_of_lt_succ h), hdepth (Nat.le_of_lt_succ h)]
      · rw [clampParam_range h, hrange h]
    have hrule := setParameter_eq hp hi lo s
    rw [← hv] at hrule
    rw [← crossesThresholds_iff]
    refine ⟨fun hcross => ?_, fun hcross => ⟨{ s with params := put s.params p v }, bytesOf 2 v, ?_, length_bytesOf 2 v,
      valueOf_bytesOf ?_, ?_, fun q hq => ?_, rfl⟩⟩
    · rw [if_pos hcross] at hrule
      exact carryOut_refused (code := Code.setParameter) (rule := setParameter) hhand rfl hrule
    · rw [if_neg hcross] at hrule
      exact carryOut_done (code := Code.setParameter) (rule := setParameter) hhand rfl hrule
    · have := clampParam_le p (word16 hi lo)
      omega
    · rw [param_put, if_pos rfl]
    · rw [param_put, if_neg hq]
  · refine carryOut_refused (code := Code.getParameter) (rule := getParameter) hhand rfl ?_
    simp only [getParameter, idOf_eq_none (n := 22) hout]
  · refine ⟨bytesOf 2 (s.param p), ?_, length_bytesOf 2 _, valueOf_bytesOf (Nat.lt_succ_of_le hle)⟩
    refine carryOut_done (code := Code.getParameter) (rule := getParameter) hhand rfl ?_
    simp only [getParameter, idOf_eq_some hp]

/-! ### The rate profile and the part state (R30, R165) -/

theorem length_profileEntries (args : List Byte) : (profileEntries args).length = args.length / 3 := by
  fun_induction profileEntries args with
  | case1 hi lo m rest ih =>
    rw [List.length_cons, ih]
    simp only [List.length_cons]
    omega
  | case2 args hshort =>
    have hlen : args.length < 3 := by
      match args with
      | [] | [_] | [_, _] => simp
      | hi :: lo :: m :: rest => exact absurd rfl (hshort hi lo m rest)
    rw [Nat.div_eq_of_lt hlen]
    rfl

/-- The entry of each rate stands in its three bytes (R171). -/
theorem getElem?_profileEntries {args : List Byte} {n : Nat} (h : n < args.length / 3) : (profileEntries args)[n]? =
    some ⟨(args.getD (3 * n) 0).toNat * 256 + (args.getD (3 * n + 1) 0).toNat, (args.getD (3 * n + 2) 0).toNat⟩ := by
  fun_induction profileEntries args generalizing n with
  | case1 hi lo m rest ih =>
    cases n with
    | zero => rfl
    | succ n =>
      have hn : n < rest.length / 3 := by
        simp only [List.length_cons] at h
        omega
      rw [List.getElem?_cons_succ, ih hn]
      rfl
  | case2 args hshort =>
    match args with
    | [] | [_] | [_, _] => simp at h
    | hi :: lo :: m :: rest => exact absurd rfl (hshort hi lo m rest)

theorem profileOf_ofFn (p : Vector RateEntry 12) : profileOf (List.ofFn p.get) = some p := by
  rw [profileOf, dif_pos List.length_ofFn]
  refine congrArg some (Vector.ext fun n hn => ?_)
  show (List.ofFn p.get).toArray[n]'(by simpa using hn) = p[n]
  rw [List.getElem_toArray, List.getElem_ofFn]
  rfl

/-- The profile that 36 argument bytes carry. -/
theorem profileOf_profileEntries {args : List Byte} {p : Vector RateEntry 12} (hlen : args.length = 36)
    (hp : ∀ r : Rate, (p.get r).airtime = (args.getD (3 * r.val) 0).toNat * 256 + (args.getD (3 * r.val + 1) 0).toNat ∧
      (p.get r).minSnr = (args.getD (3 * r.val + 2) 0).toNat) : profileOf (profileEntries args) = some p := by
  have hentries : profileEntries args = List.ofFn p.get := by
    refine List.ext_getElem? fun n => ?_
    rw [List.getElem?_ofFn]
    split
    · next hn =>
      obtain ⟨hairtime, hsnr⟩ := hp ⟨n, hn⟩
      rw [getElem?_profileEntries (by rw [hlen]; exact hn), ← hairtime, ← hsnr]
    · next hn =>
      rw [List.getElem?_eq_none]
      rw [length_profileEntries, hlen]
      omega
  rw [hentries, profileOf_ofFn]

/-- Settles O7: R30's check on the entries is `profileInRange_iff`. -/
theorem configuringCommandsActOnlyInConfiguring : Obligations.ConfiguringCommandsActOnlyInConfiguring := by
  refine ⟨fun s args p hhand hlen hp => ?_, fun s hhand => ⟨fun hpart => ?_, fun hpart => ?_⟩⟩
  · have hfits : lengthFits Code.loadRateProfile args = true := by
      show (some 36 == some args.length) = true
      rw [hlen]
      rfl
    have hprofile := profileOf_profileEntries hlen hp
    rw [profileInRange_iff s hprofile]
    refine ⟨fun hpart => ?_, fun hpart hvalid => ?_, fun hpart hinvalid => ?_⟩
    · exact carryOut_refused (code := Code.loadRateProfile) (rule := loadRateProfile) hhand hfits (if_pos hpart)
    · refine carryOut_done (code := Code.loadRateProfile) (rule := loadRateProfile) hhand hfits ?_
      rw [loadRateProfile, if_neg (by rw [hpart]; decide), hprofile]
      exact if_pos hvalid
    · refine carryOut_refused (code := Code.loadRateProfile) (rule := loadRateProfile) hhand hfits ?_
      rw [loadRateProfile, if_neg (by rw [hpart]; decide), hprofile]
      exact if_neg hinvalid
  · refine carryOut_done (code := Code.goOperational) (rule := goOperational) hhand rfl ?_
    rw [goOperational, hpart]
  · refine carryOut_refused (code := Code.goOperational) (rule := goOperational) hhand rfl ?_
    rw [goOperational, hpart]

end Sys2Proof.Machine
end


section
/-! The Links group of the command set but READ LINK (R3, R4, R17, R21, R22, R40, R157), the expiry of silence deadlines (R13,
R170), and the obligations about them. -/

namespace Sys2Proof.Machine

/-! ### ADD LINK (R3, R4) -/

theorem addLink_eq {radio sector : Byte} {r : Radio} {h : Sector} (hr : radio.toNat = r.val) (hh : sector.toNat = h.val)
    (m : SectorMode) (p0 p1 p2 p3 p4 p5 : Byte) (s : State) (hg : p0.getLsbD 0 = false) :
    addLink [radio, p0, p1, p2, p3, p4, p5, sector, m.code] s =
      if (s.port r).present = false then s.refuse .noRadio
      else if (s.findLink r (addrOf p0 p1 p2 p3 p4 p5)).isSome then s.refuse .duplicate
      else s.vacantLink.elim (s.refuse .tableFull) fun i =>
        (s.setLink i (some (Link.fresh r (addrOf p0 p1 p2 p3 p4 p5) h m))).ok [byteOf i] := by
  simp only [addLink, idOf_eq_some hr, idOf_eq_some hh, sectorModeOf_code, isGroup_addrOf, hg, Bool.not_eq_true',
    Bool.false_eq_true, if_false]
  cases s.vacantLink <;> rfl

theorem addLink_badValue {radio sector mode p0 : Byte}
    (h : 2 < radio.toNat ∨ 7 < sector.toNat ∨ 1 < mode.toNat ∨ p0.getLsbD 0 = true) (p1 p2 p3 p4 p5 : Byte) (s : State) :
    addLink [radio, p0, p1, p2, p3, p4, p5, sector, mode] s = s.refuse .badValue := by
  simp only [addLink]
  split
  · next r h' m hradio hsector hmode =>
    have hgroup : p0.getLsbD 0 = true := by
      rcases h with h | h | h | h
      · exact nomatch (idOf_eq_none (n := 3) h).symm.trans hradio
      · exact nomatch (idOf_eq_none (n := 8) h).symm.trans hsector
      · exact nomatch (sectorModeOf_eq_none h).symm.trans hmode
      · exact h
    rw [if_pos (by rw [isGroup_addrOf, hgroup])]
  · rfl

theorem findLink_isSome {s : State} {r : Radio} {peer : Addr} :
    (s.findLink r peer).isSome = true ↔ ∃ j l, s.link j = some l ∧ l.radio = r ∧ l.peer = peer := by
  refine ⟨fun h => ?_, fun ⟨j, l, hl, hradio, hpeer⟩ => ?_⟩
  · obtain ⟨j, hj⟩ := Option.isSome_iff_exists.1 h
    exact ⟨j, findLink_eq_some hj⟩
  · by_contra hnone
    exact findLink_eq_none (Option.not_isSome_iff_eq_none.1 hnone) hl hradio hpeer

theorem vacantLink_lowest {s : State} {i : LinkId} (hi : s.link i = none) (hlow : ∀ j < i, s.link j ≠ none) :
    s.vacantLink = some i :=
  find?_lowest (by rw [hi]; rfl) fun j hj => Option.isNone_eq_false_iff.2 (Option.isSome_iff_ne_none.2 (hlow j hj))

theorem vacantLink_full {s : State} (h : ∀ j, s.link j ≠ none) : s.vacantLink = none :=
  find?_nowhere fun j => Option.isNone_eq_false_iff.2 (Option.isSome_iff_ne_none.2 (h j))

/-- Settles O10: R3's checks in the order of `addLink_eq`, and R4's record is `Link.fresh`. -/
theorem addLinkTakesTheLowestVacantId : Obligations.AddLinkTakesTheLowestVacantId := by
  intro s radio p0 p1 p2 p3 p4 p5 sector mode peer hhand hpeer
  refine ⟨fun hbad => carryOut_refused (code := Code.addLink) (rule := addLink) hhand rfl (addLink_badValue hbad ..),
    fun r h m hradio hsector hmode hg => ?_⟩
  have hpeer : peer = addrOf p0 p1 p2 p3 p4 p5 := hpeer
  have hrule := addLink_eq hradio hsector m p0 p1 p2 p3 p4 p5 s hg
  rw [← hmode, ← hpeer] at hrule
  refine ⟨fun habsent => ?_, fun hpresent hsome => ?_, fun hpresent hnone => ?_⟩
  · rw [if_pos habsent] at hrule
    exact carryOut_refused (code := Code.addLink) (rule := addLink) hhand rfl hrule
  · rw [if_neg (by rw [hpresent]; decide), if_pos (findLink_isSome.2 hsome)] at hrule
    exact carryOut_refused (code := Code.addLink) (rule := addLink) hhand rfl hrule
  · have hfree : ¬ (s.findLink r peer).isSome = true := fun h => by
      obtain ⟨j, l, hl, hmatch⟩ := findLink_isSome.1 h
      exact hnone j l hl hmatch
    rw [if_neg (by rw [hpresent]; decide), if_neg hfree] at hrule
    refine ⟨fun hfull => ?_, fun i hi hlow => ?_⟩
    · rw [vacantLink_full hfull] at hrule
      exact carryOut_refused (code := Code.addLink) (rule := addLink) hhand rfl hrule
    · rw [vacantLink_lowest hi hlow] at hrule
      exact carryOut_done (code := Code.addLink) (rule := addLink) hhand rfl hrule

/-! ### UPDATE LINK (R17, R40, R157) -/

/-- The record after UPDATE LINK's sector write, made when bit 0 of the mask names it. -/
def Link.maskedSector (t : Tuning) (mask : Byte) (sector : Option Sector) (l : Link) : Link :=
  match mask.getLsbD 0, sector with
  | true, some h => l.writeSector t h
  | _, _ => l

/-- The record after UPDATE LINK's sector mode write, made when bit 1 of the mask names it. -/
def Link.maskedMode (mask : Byte) (mode : Option SectorMode) (l : Link) : Link :=
  match mask.getLsbD 1, mode with
  | true, some m => l.writeMode m
  | _, _ => l

/-- The record after UPDATE LINK's pinned rate write, made when bit 2 of the mask names it. -/
def Link.maskedPin (t : Tuning) (mask : Byte) (pin : Option Rate) (l : Link) : Link :=
  if mask.getLsbD 2 then l.writePin t pin else l

theorem writeMasked_eq (t : Tuning) (mask : Byte) (sector : Option Sector) (mode : Option SectorMode) (pin : Option Rate)
    (l : Link) : l.writeMasked t mask sector mode pin =
      ((l.maskedSector t mask sector).maskedMode mask mode).maskedPin t mask pin := rfl

theorem writeMasked_sectorMoved (t : Tuning) (mask : Byte) (sector : Option Sector) (mode : Option SectorMode)
    (pin : Option Rate) (l : Link) :
    (l.writeMasked t mask sector mode pin).events.sectorMoved = l.events.sectorMoved := by
  refine writeMasked_keeps (P := fun m => m.events.sectorMoved = l.events.sectorMoved) (fun h m hm => ?_)
    (fun mode m hm => ?_) (fun pin m hm => ?_) mask sector mode pin rfl
  · unfold Link.writeSector
    split
    · exact hm
    · exact (evaluate_keeps t _).2.trans hm
  · unfold Link.writeMode
    split <;> exact hm
  · unfold Link.writePin
    split
    · exact hm
    · exact (evaluate_keeps t _).2.trans hm

theorem pinOf_eq {pp pr : Byte} {pin : Option Rate} (hnone : pp = 0 → pin = none)
    (hsome : pp ≠ 0 → ∃ r : Rate, pin = some r ∧ r.val = min pr.toNat 11) : pinOf pp pr = pin := by
  by_cases hpp : pp = 0
  · rw [hnone hpp, hpp]
    rfl
  · obtain ⟨r, rfl, hr⟩ := hsome hpp
    rw [pinOf, if_pos (by simpa [flagOf] using hpp)]
    exact congrArg some (Fin.ext hr.symm)

theorem updateLink_badValue {id mask sector mode : Byte} (h : 31 < id.toNat ∨ (mask.getLsbD 0 = true ∧ 7 < sector.toNat) ∨
    (mask.getLsbD 1 = true ∧ 1 < mode.toNat)) (pp pr : Byte) (s : State) :
    updateLink [id, mask, sector, mode, pp, pr] s = s.refuse .badValue := by
  simp only [updateLink]
  split
  · rfl
  · next i hid =>
    rcases h with h | ⟨hmask, h⟩ | ⟨hmask, h⟩
    · exact nomatch (idOf_eq_none (n := 32) h).symm.trans hid
    · exact if_pos (by rw [hmask, idOf_eq_none (n := 8) h]; rfl)
    · split
      · rfl
      · exact if_pos (by rw [hmask, sectorModeOf_eq_none h]; rfl)

/-- A byte up to 7 is a sector. -/
theorem exists_sector {b : Byte} (h : b.toNat ≤ 7) : ∃ x : Sector, b.toNat = x.val := ⟨⟨b.toNat, by omega⟩, rfl⟩

/-- A byte up to 1 is the code of a sector mode. -/
theorem exists_sectorMode {b : Byte} (h : b.toNat ≤ 1) : ∃ m : SectorMode, b = m.code := by
  rcases Nat.le_one_iff_eq_zero_or_eq_one.1 h with h | h
  · exact ⟨.fixed, BitVec.eq_of_toNat_eq h⟩
  · exact ⟨.follow, BitVec.eq_of_toNat_eq h⟩

theorem updateLink_eq {id : Byte} {i : LinkId} (hid : id.toNat = i.val) {mask sector mode : Byte}
    (hsector : mask.getLsbD 0 = true → sector.toNat ≤ 7) (hmode : mask.getLsbD 1 = true → mode.toNat ≤ 1)
    (pp pr : Byte) (s : State) : updateLink [id, mask, sector, mode, pp, pr] s =
      (s.link i).elim (s.refuse .noRecord) fun l => if l.state = .retiring then s.refuse .noRecord
        else (s.setLink i (some (l.writeMasked s.tuning mask (idOf 8 sector) (sectorModeOf mode) (pinOf pp pr)))).ok [] := by
  have hsectorOk : ¬ (mask.getLsbD 0 && (idOf 8 sector).isNone) = true := by
    rw [Bool.and_eq_true]
    rintro ⟨hmask, hnone⟩
    obtain ⟨x, hx⟩ := exists_sector (hsector hmask)
    rw [idOf_eq_some hx] at hnone
    cases hnone
  have hmodeOk : ¬ (mask.getLsbD 1 && (sectorModeOf mode).isNone) = true := by
    rw [Bool.and_eq_true]
    rintro ⟨hmask, hnone⟩
    obtain ⟨m, rfl⟩ := exists_sectorMode (hmode hmask)
    rw [sectorModeOf_code] at hnone
    cases hnone
  simp only [updateLink, idOf_eq_some hid, if_neg hsectorOk, if_neg hmodeOk]
  cases s.link i <;> rfl

/-- Settles O11: the three writes one after another, each made when its bit of the mask names it. -/
theorem updateLinkWritesInOrder : Obligations.UpdateLinkWritesInOrder := by
  intro s id mask sector mode pp pr hhand
  refine ⟨fun hbad => carryOut_refused (code := Code.updateLink) (rule := updateLink) hhand rfl
    (updateLink_badValue hbad pp pr s), fun i hid hsector hmode => ?_⟩
  have hrule := updateLink_eq hid hsector hmode pp pr s
  refine ⟨fun hl => ?_, fun l hl => ⟨fun hr => ?_, fun hr => ?_⟩⟩ <;> rw [hl] at hrule
  · exact carryOut_refused (code := Code.updateLink) (rule := updateLink) hhand rfl hrule
  · exact carryOut_refused (code := Code.updateLink) (rule := updateLink) hhand rfl (hrule.trans (if_pos hr))
  · have hstands := writeMasked_keepsStanding s.tuning mask (idOf 8 sector) (sectorModeOf mode) (pinOf pp pr) l
    refine ⟨l.maskedSector s.tuning mask (idOf 8 sector),
      (l.maskedSector s.tuning mask (idOf 8 sector)).maskedMode mask (sectorModeOf mode),
      l.writeMasked s.tuning mask (idOf 8 sector) (sectorModeOf mode) (pinOf pp pr),
      carryOut_done (code := Code.updateLink) (rule := updateLink) hhand rfl (hrule.trans (if_neg hr)),
      fun hmask => ?_, fun hmask h hh => ?_, fun hmask => ?_, fun hmask m hm => ?_, fun hmask => ?_,
      fun hmask pin hnone hsome => ?_, fun hstate => ?_, fun hstate => ?_, writeMasked_sectorMoved ..⟩
    · unfold Link.maskedSector
      rw [hmask]
    · unfold Link.maskedSector
      rw [hmask, idOf_eq_some hh]
      rfl
    · unfold Link.maskedMode
      rw [hmask]
    · unfold Link.maskedMode
      rw [hmask, hm, sectorModeOf_code]
      rfl
    · rw [writeMasked_eq, Link.maskedPin, hmask]
      rfl
    · rw [writeMasked_eq, Link.maskedPin, if_pos hmask, pinOf_eq hnone hsome]
      rfl
    · exact hstands.eq_of_unusable (by rcases hstate with h | h <;> rw [h] <;> rfl)
    · exact isUsable_iff.1 (hstands.isUsable.trans (isUsable_iff.2 hstate))

/-! ### A link lost: what a record written without usability leaves (R18, R88) -/

/-- A record that is not usable, written with the notice of the loss. -/
theorem moveLink_lost {x : Option Link} (hx : usableRecord x = false) (s : State) (i : LinkId) (l : Link) :
    (s.moveLink i l x).link i = x ∧ (∀ j, j ≠ i → (s.moveLink i l x).link j = s.link j) ∧
      s.tablesOnly (s.moveLink i l x) ∧ s.pathsReselected (s.moveLink i l x) ∧
      (l.state.isUsable = false → s.moveLink i l x = s.setLink i x) ∧
      (l.state.isUsable = true → s.moveLink i l x = (s.setLink i x).usableLost i ∧
        s.lostReselected i (s.setLink i x) (s.moveLink i l x)) := by
  obtain ⟨htables, hlink, hreselected, -⟩ := moveLink_linkWritten s i l x
  have hmove := moveLink_of_unusable hx s i l
  refine ⟨by rw [hlink, if_pos rfl], fun j hj => by rw [hlink, if_neg hj], htables, hreselected, fun hu => ?_, fun hu => ?_⟩
  · rw [hmove, hu]
    rfl
  · rw [hu] at hmove
    rw [hmove]
    refine ⟨rfl, usableLost_leaves s i x fun l' hl' => ?_⟩
    rw [hl'] at hx
    exact hx

/-! ### RETIRE LINK (R21, R22) -/

/-- The record that RETIRE LINK without cascade leaves: Vacant when no candidate names it, Retiring otherwise. -/
def Link.retired (l : Link) : Option Link := if l.refs = 0 then none else some l.retire

theorem usableRecord_retired (l : Link) : usableRecord l.retired = false := by
  unfold Link.retired
  split <;> rfl

theorem retireAlone_eq {s : State} {i : LinkId} {l : Link} (hl : s.link i = some l) (hr : l.state ≠ .retiring) :
    s.retireAlone i = s.moveLink i l l.retired := by
  rw [moveLink_of_unusable (usableRecord_retired l)]
  unfold State.retireAlone Link.retired
  simp only [hl, if_neg hr]
  by_cases hrefs : l.refs = 0
  · rw [if_pos hrefs, if_pos hrefs]
    rfl
  · rw [if_neg hrefs, if_neg hrefs]

theorem retireLink_eq {id : Byte} {i : LinkId} (hid : id.toNat = i.val) {s : State} {l : Link} (hl : s.link i = some l)
    (cascade : Byte) : retireLink [id, cascade] s =
      if flagOf cascade then (s.retireCascade i).ok [(s.retireCascade i).linkCode i]
      else (s.retireAlone i).ok [(s.retireAlone i).linkCode i] := by
  have hsome : ¬ (s.link i).isNone = true := by
    rw [hl]
    exact Bool.false_ne_true
  simp only [retireLink, idOf_eq_some hid, if_neg hsome]
  split <;> rfl

/-- Settles O12: the record `Link.retired` written with the notice of the loss. -/
theorem retireLinkWithoutCascade : Obligations.RetireLinkWithoutCascade := by
  intro s id cascade hhand
  refine ⟨fun hbad => ?_, fun i hid => ⟨fun hl => ?_, fun l hl hcascade => ?_⟩⟩
  · refine carryOut_refused (code := Code.retireLink) (rule := retireLink) hhand rfl ?_
    simp only [retireLink, idOf_eq_none (n := 32) hbad]
  · refine carryOut_refused (code := Code.retireLink) (rule := retireLink) hhand rfl ?_
    simp only [retireLink, idOf_eq_some hid, hl, Option.isNone_none, if_true]
  · have hrule := retireLink_eq hid hl cascade
    rw [hcascade, if_neg (by decide), ← hcascade] at hrule
    have hexec := carryOut_done (code := Code.retireLink) (rule := retireLink) hhand rfl hrule
    refine ⟨fun hr => ?_, fun hr => ?_⟩
    · have hsame : s.retireAlone i = s := by simp only [State.retireAlone, hl, if_pos hr]
      have hcode : s.linkCode i = 5 := by
        rw [State.linkCode, hl]
        exact congrArg LinkState.code hr
      rwa [hsame, hcode] at hexec
    · obtain ⟨hlink, hothers, htables, hreselected, hquiet, hlost⟩ := moveLink_lost (usableRecord_retired l) s i l
      rw [retireAlone_eq hl hr, State.linkCode, hlink] at hexec
      refine ⟨_, hexec.trans ?_, hlink, hothers, htables, hreselected, fun hup hdegraded => ?_, fun hstate => ?_⟩
      · unfold Link.retired
        split <;> rfl
      · rw [hlink]
        refine hquiet (Bool.eq_false_iff.2 fun h => ?_)
        exact (isUsable_iff.1 h).elim hup hdegraded
      · rw [hlink]
        exact hlost (isUsable_iff.2 hstate)

/-- Settles O13: the cascade's outcome is `retireCascade_leaves`. -/
theorem retireLinkWithCascade : Obligations.RetireLinkWithCascade := by
  intro s id cascade i l hhand hcascade hid hl hsound
  have hleaves := retireCascade_leaves hl hsound
  have hrule := retireLink_eq hid hl cascade
  rw [if_pos (by simpa [flagOf] using hcascade), State.linkCode, hleaves.1] at hrule
  exact ⟨s.retireCascade i, carryOut_done (code := Code.retireLink) (rule := retireLink) hhand rfl hrule, hleaves,
    (retireCascade_spec s i l hl).1⟩

/-! ### The expiry of a silence deadline (R13, R170) -/

theorem expireLink_eq {s : State} {i : LinkId} {l : Link} (hl : s.link i = some l) (hpart : s.part = .operational)
    (hd : l.deadline = some s.now) : s.expireLink i = s.moveLink i l (some l.expire) := by
  rw [expireLink_of_due hl hpart hd, moveLink_of_unusable (x := some l.expire) rfl]

/-- An expiry of one link leaves every other as it was, and so whether it is due. -/
theorem expireLink_dueAt_ne {s : State} {i j : LinkId} (h : j ≠ i) (hdue : ¬ s.dueAt s.now j) :
    ¬ (s.expireLink i).dueAt (s.expireLink i).now j := by
  rcases expireLink_cases s i with ⟨-, he⟩ | ⟨l, -, -, -, ⟨htables, hlink, -⟩, -⟩
  · rw [he]
    exact hdue
  · have hpart : (s.expireLink i).part = s.part := by rw [htables]
    unfold State.dueAt at hdue ⊢
    rw [State.tablesOnly_now htables, hpart, hlink, if_neg h]
    exact hdue

/-- Where one link alone of a run is due, the run does what its expiry does. -/
theorem expireDue_alone {s : State} {i : LinkId} {is : List LinkId} (hmem : i ∈ is) (hnodup : is.Nodup)
    (halone : ∀ j ∈ is, j ≠ i → ¬ s.dueAt s.now j) : s.expireDue is = s.expireLink i := by
  induction is with
  | nil => cases hmem
  | cons j is ih =>
    obtain ⟨hj, hnodup⟩ := List.nodup_cons.1 hnodup
    rw [expireDue_cons]
    by_cases hji : j = i
    · subst hji
      refine expireDue_of_not_due fun k hk => expireLink_dueAt_ne ?_ (halone k (List.mem_cons_of_mem _ hk) ?_) <;>
        exact fun h => hj (h ▸ hk)
    · rw [expireLink_of_not_due (halone j (List.mem_cons_self ..) hji)]
      exact ih ((List.mem_cons.1 hmem).resolve_left (Ne.symm hji)) hnodup
        fun k hk hki => halone k (List.mem_cons_of_mem _ hk) hki

/-- Settles O16: the expiry of one link is a record written Down with the notice of the loss; those of a tick are
`millisecondTick_spec`. -/
theorem silenceDeadlineExpiryTakesTheLinkDown : Obligations.SilenceDeadlineExpiryTakesTheLinkDown := by
  refine ⟨fun s i l hpart hl hd => ?_, fun s i hdue => congrArg _ (expireLink_of_not_due hdue), fun s hp => ?_⟩
  · obtain ⟨hlink, hothers, htables, hreselected, hquiet, hlost⟩ := moveLink_lost (x := some l.expire) rfl s i l
    refine ⟨_, congrArg Host.Outcome.next (expireLink_eq hl hpart hd), hlink, hothers, htables, hreselected,
      fun hstate => ?_, fun hstate => ?_⟩
    · rw [hlink]
      exact hquiet (by rw [hstate]; rfl)
    · rw [hlink]
      exact hlost (isUsable_iff.2 hstate)
  · obtain ⟨t, ht, htables, hreselected, -, hlink⟩ := millisecondTick_spec hp
    have hrun : ({ s with now := s.now + 1 } : State).expireDue s.expiresNow = t := by
      have h := (millisecondTick_running hp).symm.trans ht
      cases h
      rfl
    refine ⟨t, ht, htables, hreselected, fun i hi => ?_, fun i l hi hl => ⟨?_, fun hstate d => ?_⟩, fun i hi halone => ?_⟩
    · rw [hlink]
      split
      · next hrise =>
        cases hl : s.link i with
        | none => rfl
        | some l =>
          have hnotdue : ¬ l.due (s.now + 1) = true := fun h => hi ⟨⟨hrise.1, l, hl, due_eq_true.1 h⟩, hrise.2⟩
          rw [Option.map_some, Link.expired, if_neg hnotdue]
      · rfl
    · obtain ⟨⟨hpart, l', hl', hd⟩, hlater⟩ := hi
      cases hl.symm.trans hl'
      rw [hlink, if_pos ⟨hpart, hlater⟩, hl, Option.map_some, Link.expired, if_pos (due_eq_true.2 hd)]
      rfl
    · have hoff : t.offLink i := by
        rw [← hrun]
        refine expireDue_offLink (.inr ⟨mem_expiresNow.2 hi.2, hi.1, fun l' hl' => ?_⟩)
        cases hl.symm.trans hl'
        exact isUsable_iff.2 hstate
      exact hoff.2 d
    · rw [← hrun, expireDue_alone (mem_expiresNow.2 hi.2) ((List.nodup_finRange 32).filter _) fun j hj hji hdue =>
        halone j hji ⟨hdue, mem_expiresNow.1 hj⟩]
      rfl

end Sys2Proof.Machine
end


section
/-! The read commands: where each field stands in an answer's results (R172), READ LINK, READ DESTINATION, READ CANDIDATE, READ
LINK EVENTS, the ports' two commands (R2, R53, R56, R117, R118, R140), and the obligations about them. -/

namespace Sys2Proof.Machine

/-! ### Results as a run of fields -/

@[simp] theorem length_optionBytes (k : Nat) (o : Option Nat) : (optionBytes k o).length = k + 1 := by
  cases o <;> simp [optionBytes]

/-- Of a run of fields, what stands before a field, the field, and what stands behind it. -/
theorem flatten_split {fields : List (List Byte)} {widths : List Nat} (hw : fields.map List.length = widths) {n : Nat}
    {ys : List Byte} (hn : fields[n]? = some ys) :
    ∃ xs zs, fields.flatten = xs ++ (ys ++ zs) ∧ xs.length = (widths.take n).sum := by
  obtain ⟨hlt, rfl⟩ := List.getElem?_eq_some_iff.1 hn
  refine ⟨(fields.take n).flatten, (fields.drop (n + 1)).flatten, ?_, ?_⟩
  · rw [← List.flatten_cons, ← List.drop_eq_getElem_cons hlt, ← List.flatten_append, List.take_append_drop]
  · rw [List.length_flatten, List.map_take, hw]

section
variable {fields : List (List Byte)} {widths : List Nat} {n : Nat}

/-- A field of a run is read back at the sum of the widths before it. -/
theorem fieldAt_flatten (hw : fields.map List.length = widths) {ys : List Byte} (hn : fields[n]? = some ys) :
    fieldAt fields.flatten (widths.take n).sum ys.length = valueOf ys := by
  obtain ⟨xs, zs, hsplit, hlen⟩ := flatten_split hw hn
  rw [fieldAt, hsplit, ← hlen, List.drop_left, List.take_left]

/-- A field of one byte. -/
theorem getD_flatten (hw : fields.map List.length = widths) {b : Byte} (hn : fields[n]? = some [b]) :
    fields.flatten.getD (widths.take n).sum 0 = b := by
  obtain ⟨xs, zs, hsplit, hlen⟩ := flatten_split hw hn
  rw [hsplit, ← hlen]
  simp

/-- An optional field: its presence byte, and its value bytes behind it. -/
theorem optionAt_flatten (hw : fields.map List.length = widths) {k : Nat} {o : Option Nat}
    (hn : fields[n]? = some (optionBytes k o)) (ho : ∀ v, o = some v → v < 256 ^ k) :
    optionAt fields.flatten (widths.take n).sum k o := by
  obtain ⟨xs, zs, hsplit, hlen⟩ := flatten_split hw hn
  have hread (b : Byte) (v : Nat) (hv : v < 256 ^ k) (h : optionBytes k o = b :: bytesOf k v) :
      fieldAt fields.flatten (widths.take n).sum 1 = b.toNat ∧
        fieldAt fields.flatten ((widths.take n).sum + 1) k = v := by
    have hwhole : fields.flatten = xs ++ ([b] ++ (bytesOf k v ++ zs)) := by
      rw [hsplit, h]
      simp
    refine ⟨?_, ?_⟩
    · rw [fieldAt, hwhole, ← hlen, List.drop_left]
      simp [valueOf]
    · have hassoc : fields.flatten = (xs ++ [b]) ++ (bytesOf k v ++ zs) := by
        rw [hwhole, List.append_assoc]
      have hpos : (widths.take n).sum + 1 = (xs ++ [b]).length := by simp [hlen]
      rw [fieldAt, hassoc, hpos, List.drop_left]
      rw [List.take_left' (length_bytesOf k v), valueOf_bytesOf hv]
  cases o with
  | none => exact hread 0 0 (Nat.pos_of_ne_zero (by positivity)) rfl
  | some v => exact hread 1 v (ho v rfl) rfl

end

theorem valueOf_byteOf {v : Nat} (h : v < 256) : valueOf [byteOf v] = v := by
  simp [valueOf, byteOf, Nat.mod_eq_of_lt h]

theorem valueOf_bitOf (b : Bool) : valueOf [bitOf b] = if b then 1 else 0 := by
  cases b <;> rfl

theorem valueOf_addrBytes (a : Addr) : valueOf (addrBytes a) = a.toNat :=
  valueOf_bytesOf (a.isLt.trans_eq (by norm_num))

/-- An optional index fits one byte. -/
theorem index_lt {n : Nat} {o : Option (Fin n)} (hn : n ≤ 256) (v : Nat) (h : o.map Fin.val = some v) : v < 256 ^ 1 := by
  obtain ⟨i, -, rfl⟩ := Option.map_eq_some_iff.1 h
  have := i.isLt
  omega

/-- An optional time fits four bytes. -/
theorem time_lt {o : Option Time} (v : Nat) (h : o.map BitVec.toNat = some v) : v < 256 ^ 4 := by
  obtain ⟨x, -, rfl⟩ := Option.map_eq_some_iff.1 h
  exact x.isLt.trans_eq (by norm_num)

/-! ### READ LINK (R2) -/

/-- The fields of a link record in the order of R172, the delivery estimates one by one. -/
def Link.fields (t : Tuning) (l : Link) : List (List Byte) :=
  [[l.state.code], [byteOf l.radio], addrBytes l.peer, [byteOf l.sector], [l.mode.code],
    optionBytes 1 (l.followSector.map Fin.val), [byteOf l.agree], optionBytes 1 (l.pinned.map Fin.val), [byteOf l.heard],
    optionBytes 4 (l.lastHeard.map BitVec.toNat), optionBytes 4 (l.lastBeacon.map BitVec.toNat), bytesOf 2 l.gapSum,
    [byteOf l.gapCount], optionBytes 2 l.interval, optionBytes 4 (l.deadline.map BitVec.toNat), [byteOf l.refs],
    [l.events.byte]] ++
  ((List.finRange 12).map (fun r => bytesOf 2 (l.est.delivery.get r)) ++
    [optionBytes 1 l.est.snr, [byteOf l.est.probe], [bitOf l.est.oneWay], [byteOf (l.ceiling t)],
      [byteOf (l.chosenRate t)], bytesOf 2 (l.cost t)])

/-- The widths of these fields. -/
def Link.widths : List Nat :=
  [1, 1, 6, 1, 1, 2, 1, 2, 1, 5, 5, 2, 1, 3, 5, 1, 1, 2, 2, 2, 2, 2, 2, 2, 2, 2, 2, 2, 2, 2, 1, 1, 1, 1, 2]

theorem Link.bytes_eq (t : Tuning) (l : Link) : l.bytes t = (l.fields t).flatten := by
  simp [Link.bytes, Link.fields, List.flatMap, List.append_assoc]

theorem Link.fields_widths (t : Tuning) (l : Link) : (l.fields t).map List.length = Link.widths := by
  simp [Link.fields, Link.widths, addrBytes, List.map_map, Function.comp_def]

theorem Link.delivery_field (t : Tuning) (l : Link) (r : Rate) :
    (l.fields t)[17 + r.val]? = some (bytesOf 2 (l.est.delivery.get r)) := by
  have hr := r.isLt
  rw [Link.fields, List.getElem?_append_right (by simp), List.getElem?_append_left (by simp)]
  simp

theorem Link.delivery_place (r : Rate) : (Link.widths.take (17 + r.val)).sum = 39 + 2 * r.val := by
  revert r
  decide

theorem linkBytes_none {s : State} {i : LinkId} (hl : s.link i = none) : s.linkBytes i = [0] := by
  simp only [State.linkBytes, hl]

theorem linkBytes_some {s : State} {i : LinkId} {l : Link} (hl : s.link i = some l) :
    s.linkBytes i = (l.fields s.tuning).flatten := by
  simp only [State.linkBytes, hl, Link.bytes_eq]

theorem readLink_eq {id : Byte} {i : LinkId} (hid : id.toNat = i.val) (s : State) :
    readLink [id] s = s.ok (s.linkBytes i) := by
  simp only [readLink, idOf_eq_some hid]

/-- Settles O14: each field of `Link.fields` at the sum of the widths before it. -/
theorem readLinkShowsTheRecord : Obligations.ReadLinkShowsTheRecord := by
  refine ⟨rfl, rfl, fun s id hhand => ⟨fun hbad => ?_, fun i hid => ?_⟩⟩
  · refine carryOut_refused (code := Code.readLink) (rule := readLink) hhand rfl ?_
    simp only [readLink, idOf_eq_none (n := 32) hbad]
  have hexec := carryOut_done (code := Code.readLink) (rule := readLink) hhand rfl (readLink_eq hid s)
  refine ⟨fun hl => ?_, fun l hl => ⟨(l.fields s.tuning).flatten, ?_, ?_, ?_⟩⟩
  · rwa [linkBytes_none hl] at hexec
  · rwa [linkBytes_some hl] at hexec
  · rw [List.length_flatten, Link.fields_widths]
    rfl
  have hw := l.fields_widths s.tuning
  exact ⟨getD_flatten hw (n := 0) rfl,
    (fieldAt_flatten hw (n := 1) rfl).trans (valueOf_byteOf (by omega)),
    (fieldAt_flatten hw (n := 2) rfl).trans (valueOf_addrBytes l.peer),
    (fieldAt_flatten hw (n := 3) rfl).trans (valueOf_byteOf (by omega)),
    getD_flatten hw (n := 4) rfl,
    optionAt_flatten hw (n := 5) rfl (index_lt (by omega)),
    fun h => (fieldAt_flatten hw (n := 6) rfl).trans (valueOf_byteOf h),
    optionAt_flatten hw (n := 7) rfl (index_lt (by omega)),
    fun h => (fieldAt_flatten hw (n := 8) rfl).trans (valueOf_byteOf h),
    optionAt_flatten hw (n := 9) rfl time_lt,
    optionAt_flatten hw (n := 10) rfl time_lt,
    fun h => (fieldAt_flatten hw (n := 11) rfl).trans (valueOf_bytesOf h),
    fun h => (fieldAt_flatten hw (n := 12) rfl).trans (valueOf_byteOf h),
    fun h => optionAt_flatten hw (n := 13) rfl h,
    optionAt_flatten hw (n := 14) rfl time_lt,
    fun h => (fieldAt_flatten hw (n := 15) rfl).trans (valueOf_byteOf h),
    getD_flatten hw (n := 16) rfl,
    fun r h => Link.delivery_place r ▸ (fieldAt_flatten hw (l.delivery_field s.tuning r)).trans (valueOf_bytesOf h),
    fun h => optionAt_flatten hw (n := 29) rfl h,
    fun h => (fieldAt_flatten hw (n := 30) rfl).trans (valueOf_byteOf h),
    (fieldAt_flatten hw (n := 31) rfl).trans (valueOf_bitOf _),
    (fieldAt_flatten hw (n := 32) rfl).trans (valueOf_byteOf (by omega)),
    (fieldAt_flatten hw (n := 33) rfl).trans (valueOf_byteOf (by omega)),
    fun h => (fieldAt_flatten hw (n := 34) rfl).trans (valueOf_bytesOf h)⟩

/-! ### READ DESTINATION and READ CANDIDATE (R53, R56) -/

theorem length_chainSlots (chain : List CandId) : (chainSlots chain).length = 4 := by
  simp [chainSlots, Config.chainCapacity]

/-- A slot of a destination's record holds the member of the chain that stands there, or 0. -/
theorem getElem?_chainSlots (chain : List CandId) {n : Nat} (hn : n < 4) :
    (chainSlots chain)[n]? = some (byteOf ((chain.map Fin.val).getD n 0)) := by
  have hslot : (chain.map (fun c : CandId => byteOf c.val) ++ List.replicate 4 0)[n]? =
      some (byteOf ((chain.map Fin.val).getD n 0)) := by
    rcases Nat.lt_or_ge n chain.length with h | h
    · rw [List.getElem?_append_left (by simpa using h)]
      simp [h]
    · rw [List.getElem?_append_right (by simpa using h), List.getElem?_replicate, if_pos (by simp; omega),
        List.getD_eq_default _ _ (by simpa using h)]
      rfl
  exact (List.getElem?_take_of_lt hn).trans hslot

/-- The fields of a destination record in the order of R172, the chain's slots one by one. -/
def Dest.fields (r : Dest) : List (List Byte) :=
  [[r.state.code], addrBytes r.address, [byteOf r.chain.length]] ++ ((chainSlots r.chain).map (fun b => [b]) ++
    [optionBytes 1 (r.active.map Fin.val), optionBytes 4 (r.lastSwitch.map BitVec.toNat), bytesOf 2 r.switchCount])

/-- The widths of these fields. -/
def Dest.widths : List Nat := [1, 6, 1, 1, 1, 1, 1, 2, 5, 2]

theorem Dest.bytes_eq (r : Dest) : r.bytes = r.fields.flatten := by
  have hslots (bs : List Byte) : (bs.map (fun b => [b])).flatten = bs := by
    rw [← List.flatMap_def, List.flatMap_singleton']
  simp [Dest.bytes, Dest.fields, hslots]

theorem Dest.fields_widths (r : Dest) : r.fields.map List.length = Dest.widths := by
  have hslots : (chainSlots r.chain).map (fun _ => 1) = [1, 1, 1, 1] := by
    rw [List.map_const', length_chainSlots]
    rfl
  simp [Dest.fields, Dest.widths, addrBytes, Function.comp_def, hslots]

theorem Dest.slot_field (r : Dest) {n : Nat} (hn : n < 4) :
    r.fields[3 + n]? = some [byteOf ((r.chain.map Fin.val).getD n 0)] := by
  rw [Dest.fields, List.getElem?_append_right (by simp), List.getElem?_append_left (by simp [length_chainSlots, hn])]
  simp [getElem?_chainSlots r.chain hn]

theorem Dest.slot_place {n : Nat} (hn : n < 4) : (Dest.widths.take (3 + n)).sum = 8 + n := by
  revert n
  decide

theorem Dest.tail_field (r : Dest) (n : Nat) : r.fields[7 + n]? = [optionBytes 1 (r.active.map Fin.val),
    optionBytes 4 (r.lastSwitch.map BitVec.toNat), bytesOf 2 r.switchCount][n]? := by
  rw [Dest.fields, List.getElem?_append_right (by simp; omega), List.getElem?_append_right (by simp [length_chainSlots]; omega)]
  simp [length_chainSlots]
  congr 1
  omega

theorem chain_getD_lt (chain : List CandId) (n : Nat) : (chain.map Fin.val).getD n 0 < 256 := by
  rcases Nat.lt_or_ge n chain.length with h | h
  · simp [h]
  · rw [List.getD_eq_default _ _ (by simpa using h)]
    decide

/-- The fields of a candidate record in use, in the order of R172. -/
def State.candFields (s : State) (c : CandId) (k : Cand) : List (List Byte) :=
  [[1], [byteOf k.dest], [byteOf k.link], bytesOf 2 k.remainder, bytesOf 2 k.lastCost,
    [byteOf (s.positionOf c k.dest)], [bitOf (s.isActive c k.dest)]]

/-- The widths of these fields. -/
def Cand.widths : List Nat := [1, 1, 1, 2, 2, 1, 1]

theorem State.candFields_widths (s : State) (c : CandId) (k : Cand) :
    (s.candFields c k).map List.length = Cand.widths := by
  simp [State.candFields, Cand.widths]

theorem candBytes_none {s : State} {c : CandId} (hc : s.cand c = none) : s.candBytes c = [0] := by
  simp only [State.candBytes, hc]

theorem candBytes_some {s : State} {c : CandId} {k : Cand} (hk : s.cand c = some k) :
    s.candBytes c = (s.candFields c k).flatten := by
  simp [State.candBytes, hk, State.candFields]

theorem destBytes_none {s : State} {d : DestId} (hd : s.dest d = none) : s.destBytes d = [0] := by
  simp only [State.destBytes, hd]

theorem destBytes_some {s : State} {d : DestId} {r : Dest} (hr : s.dest d = some r) : s.destBytes d = r.fields.flatten := by
  simp only [State.destBytes, hr, Dest.bytes_eq]

theorem readDestination_eq {index : Byte} {d : DestId} (hd : index.toNat = d.val) (s : State) :
    readDestination [index] s = s.ok (s.destBytes d) := by
  simp only [readDestination, idOf_eq_some hd]

theorem readCandidate_eq {id : Byte} {c : CandId} (hc : id.toNat = c.val) (s : State) :
    readCandidate [id] s = s.ok (s.candBytes c) := by
  have hcand : candOf id = c := Fin.ext hc
  rw [readCandidate, hcand]

theorem positionOf_eq {s : State} {c : CandId} {d : DestId} {r : Dest} (hr : s.dest d = some r) {xs ys : List CandId}
    (hchain : r.chain = xs ++ c :: ys) (hc : c ∉ xs) : s.positionOf c d = xs.length + 1 := by
  simp [State.positionOf, State.chainOf, hr, hchain, List.idxOf_append_of_notMem hc]

theorem isActive_eq {s : State} {c : CandId} {d : DestId} {r : Dest} (hr : s.dest d = some r) :
    s.isActive c d = decide (r.active = some c) := by
  simp only [State.isActive, hr]
  exact (Bool.beq_eq_decide_eq _ _)

/-- Settles O15: each field at the sum of the widths before it. -/
theorem readDestinationAndCandidateShowTheRecord : Obligations.ReadDestinationAndCandidateShowTheRecord := by
  refine ⟨rfl, fun s index hhand => ⟨fun hbad => ?_, fun d hd => ?_⟩, fun s id c hhand hc => ?_⟩
  · refine carryOut_refused (code := Code.readDestination) (rule := readDestination) hhand rfl ?_
    simp only [readDestination, idOf_eq_none (n := 128) hbad]
  · have hexec := carryOut_done (code := Code.readDestination) (rule := readDestination) hhand rfl (readDestination_eq hd s)
    refine ⟨fun hvacant => ?_, fun r hr => ?_⟩
    · rwa [destBytes_none hvacant] at hexec
    rw [destBytes_some hr] at hexec
    have hw := r.fields_widths
    refine ⟨_, hexec, ?_, getD_flatten hw (n := 0) rfl, (fieldAt_flatten hw (n := 1) rfl).trans (valueOf_addrBytes r.address),
      fun hlen => ⟨(fieldAt_flatten hw (n := 2) rfl).trans (valueOf_byteOf (by omega)), fun n hn => ?_⟩,
      optionAt_flatten hw (r.tail_field 0) (index_lt (by omega)), optionAt_flatten hw (r.tail_field 1) time_lt,
      fun h => (fieldAt_flatten hw (r.tail_field 2)).trans (valueOf_bytesOf h)⟩
    · rw [List.length_flatten, hw]
      rfl
    · rw [← Dest.slot_place hn]
      exact (fieldAt_flatten hw (r.slot_field hn)).trans (valueOf_byteOf (chain_getD_lt r.chain n))
  · have hexec := carryOut_done (code := Code.readCandidate) (rule := readCandidate) hhand rfl (readCandidate_eq hc s)
    refine ⟨fun hfree => ?_, fun k r hk hr => ?_⟩
    · rwa [candBytes_none hfree] at hexec
    rw [candBytes_some hk] at hexec
    have hw := s.candFields_widths c k
    refine ⟨_, hexec, ?_, fieldAt_flatten hw (n := 0) rfl, (fieldAt_flatten hw (n := 1) rfl).trans (valueOf_byteOf (by omega)),
      (fieldAt_flatten hw (n := 2) rfl).trans (valueOf_byteOf (by omega)),
      fun h => (fieldAt_flatten hw (n := 3) rfl).trans (valueOf_bytesOf h),
      fun h => (fieldAt_flatten hw (n := 4) rfl).trans (valueOf_bytesOf h), fun xs ys hchain hmem hlen => ?_, ?_⟩
    · rw [List.length_flatten, hw]
      rfl
    · refine (fieldAt_flatten hw (n := 5) rfl).trans ?_
      rw [positionOf_eq hr hchain hmem, valueOf_byteOf (by omega)]
    · refine (fieldAt_flatten hw (n := 6) rfl).trans ?_
      rw [valueOf_bitOf, isActive_eq hr]
      simp

/-! ### READ LINK EVENTS (R140) -/

/-- The byte of a pending set, bit by bit (R171). -/
theorem eventByte_bits : ∀ up degraded recovered down oneWay moved : Bool,
    (EventSet.byte ⟨up, degraded, recovered, down, oneWay, moved⟩).getLsbD 0 = up ∧
      (EventSet.byte ⟨up, degraded, recovered, down, oneWay, moved⟩).getLsbD 1 = degraded ∧
      (EventSet.byte ⟨up, degraded, recovered, down, oneWay, moved⟩).getLsbD 2 = recovered ∧
      (EventSet.byte ⟨up, degraded, recovered, down, oneWay, moved⟩).getLsbD 3 = down ∧
      (EventSet.byte ⟨up, degraded, recovered, down, oneWay, moved⟩).getLsbD 4 = oneWay ∧
      (EventSet.byte ⟨up, degraded, recovered, down, oneWay, moved⟩).getLsbD 5 = moved ∧
      (EventSet.byte ⟨up, degraded, recovered, down, oneWay, moved⟩).getLsbD 6 = false ∧
      (EventSet.byte ⟨up, degraded, recovered, down, oneWay, moved⟩).getLsbD 7 = false := by
  decide

/-- Settles O26: the set read bit by bit, and emptied. -/
theorem readLinkEventsEmptiesTheSet : Obligations.ReadLinkEventsEmptiesTheSet := by
  intro s id hhand
  refine ⟨fun hbad => ?_, fun i hid => ⟨fun hl => ?_, fun l hl => ⟨l.events.byte, ?_, eventByte_bits ..⟩⟩⟩
  · refine carryOut_refused (code := Code.readLinkEvents) (rule := readLinkEvents) hhand rfl ?_
    simp only [readLinkEvents, idOf_eq_none (n := 32) hbad]
  · refine carryOut_refused (code := Code.readLinkEvents) (rule := readLinkEvents) hhand rfl ?_
    simp only [readLinkEvents, idOf_eq_some hid, hl]
  · refine carryOut_done (code := Code.readLinkEvents) (rule := readLinkEvents) hhand rfl ?_
    simp only [readLinkEvents, idOf_eq_some hid, hl]

/-! ### READ PORT STATUS and FLUSH REPORTS (R117, R118) -/

/-- Settles O28: the flag is cleared, or the port flushed, and the port's figures answered as they stood. -/
theorem portStatusAndFlush : Obligations.PortStatusAndFlush := by
  refine ⟨fun s port hhand => ⟨fun hbad => ?_, fun p hp => ⟨bytesOf 2 (s.port p).dropped, ?_, length_bytesOf 2 _,
    fun h => valueOf_bytesOf (Nat.lt_succ_of_le h)⟩⟩, fun s port hhand => ⟨fun hbad => ?_, fun p hp => ⟨fun habsent => ?_,
    fun hpresent => ?_⟩⟩⟩
  · refine carryOut_refused (code := Code.readPortStatus) (rule := readPortStatus) hhand rfl ?_
    simp only [readPortStatus, idOf_eq_none (n := 3) hbad]
  · refine carryOut_done (code := Code.readPortStatus) (rule := readPortStatus) hhand rfl ?_
    simp only [readPortStatus, idOf_eq_some hp]
    rfl
  · refine carryOut_refused (code := Code.flushReports) (rule := flushReports) hhand rfl ?_
    simp only [flushReports, idOf_eq_none (n := 3) hbad]
  · refine carryOut_refused (code := Code.flushReports) (rule := flushReports) hhand rfl ?_
    simp only [flushReports, idOf_eq_some hp, habsent]
    rfl
  · refine carryOut_done (code := Code.flushReports) (rule := flushReports) hhand rfl ?_
    simp only [flushReports, idOf_eq_some hp, if_pos hpresent]
    rfl

end Sys2Proof.Machine
end


section
/-! The cursor (R158 to R160), READ SUMMARY and NEXT EVENT LINK (R141, R146), and the obligations about them. -/

namespace Sys2Proof.Machine

/-! ### The cursor (R158 to R160) -/

theorem recordBytes_links {s : State} {i : LinkId} : s.recordBytes .links i.val = s.linkBytes i := by
  simp only [State.recordBytes, dif_pos i.isLt]

theorem recordBytes_dests {s : State} {d : DestId} : s.recordBytes .destinations d.val = s.destBytes d := by
  simp only [State.recordBytes, dif_pos d.isLt]

theorem recordBytes_cands {s : State} {c : CandId} : s.recordBytes .candidates c.val = s.candBytes c := by
  simp only [State.recordBytes, dif_pos c.isLt]

/-- A record in use stands below the end position. -/
theorem lt_size_of_inUse {s : State} {t : CursorTable} {k : Nat} (h : s.inUse t k = true) : k < t.size := by
  by_contra hk
  cases t <;> simp only [CursorTable.size] at hk <;> simp [State.inUse, hk] at h

theorem nextInUse_eq_some {s : State} {t : CursorTable} {start k : Nat} (hk : start ≤ k) (huse : s.inUse t k = true)
    (hfirst : ∀ j, start ≤ j → j < k → s.inUse t j = false) : s.nextInUse t start = some k := by
  refine List.find?_range_eq_some.2 ⟨by simp [hk, huse], List.mem_range.2 (lt_size_of_inUse huse), fun j hj => ?_⟩
  by_cases hstart : start ≤ j
  · simp [hfirst j hstart hj]
  · simp [hstart]

theorem nextInUse_eq_none {s : State} {t : CursorTable} {start : Nat} (h : ∀ k, start ≤ k → s.inUse t k = false) :
    s.nextInUse t start = none := by
  refine List.find?_range_eq_none.2 fun j _ => ?_
  by_cases hstart : start ≤ j
  · simp [h j hstart]
  · simp [hstart]

theorem autoAdvanceOf_eq {b : Byte} (h : b.toNat ≤ 1) : autoAdvanceOf b = some (b == 1) := by
  rcases Nat.le_one_iff_eq_zero_or_eq_one.1 h with h | h
  · have hb : b = 0 := BitVec.eq_of_toNat_eq h
    rw [hb]
    rfl
  · have hb : b = 1 := BitVec.eq_of_toNat_eq h
    rw [hb]
    rfl

theorem autoAdvanceOf_eq_none {b : Byte} (h : 1 < b.toNat) : autoAdvanceOf b = none := by
  unfold autoAdvanceOf
  rw [if_neg (by rintro rfl; simp at h), if_neg (by rintro rfl; simp at h)]

theorem setCursor_eq {t : CursorTable} {index auto : Byte} (hindex : index.toNat < t.size) (hauto : auto.toNat ≤ 1)
    (s : State) : setCursor [t.code, index, auto] s =
      ({ s with cursor := { table := t, index := index.toNat, autoAdvance := auto == 1 } } : State).ok [] := by
  simp only [setCursor, cursorTableOf_code, autoAdvanceOf_eq hauto, if_pos hindex]

theorem setCursor_badValue {table index auto : Byte} (h : 2 < table.toNat ∨ 1 < auto.toNat ∨
    (table = 0 ∧ 31 < index.toNat) ∨ (table = 1 ∧ 127 < index.toNat)) (s : State) :
    setCursor [table, index, auto] s = s.refuse .badValue := by
  simp only [setCursor]
  split
  · next t a htable hauto =>
    refine if_neg ?_
    rcases h with h | h | ⟨rfl, h⟩ | ⟨rfl, h⟩
    · exact nomatch (cursorTableOf_eq_none h).symm.trans htable
    · exact nomatch (autoAdvanceOf_eq_none h).symm.trans hauto
    · cases htable
      exact Nat.not_lt.2 h
    · cases htable
      exact Nat.not_lt.2 h
  · rfl

theorem readAtCursor_next {s : State} {k : Nat} (hauto : s.cursor.autoAdvance = true)
    (hnext : s.nextInUse s.cursor.table s.cursor.index = some k) (args : List Byte) : readAtCursor args s =
      ({ s with cursor := { s.cursor with index := k + 1 } } : State).ok (s.cursorRecord s.cursor.table k) := by
  simp only [readAtCursor, hauto, if_true, hnext]

theorem readAtCursor_end {s : State} (hauto : s.cursor.autoAdvance = true)
    (hnext : s.nextInUse s.cursor.table s.cursor.index = none) (args : List Byte) : readAtCursor args s =
      ({ s with cursor := { s.cursor with index := s.cursor.table.size } } : State).ok (endMarker s.cursor.table) := by
  simp only [readAtCursor, hauto, if_true, hnext]

theorem readAtCursor_still {s : State} (hauto : s.cursor.autoAdvance = false)
    (hindex : s.cursor.index < s.cursor.table.size) (args : List Byte) :
    readAtCursor args s = s.ok (s.cursorRecord s.cursor.table s.cursor.index) := by
  simp only [readAtCursor, hauto, Bool.false_eq_true, if_false, if_pos hindex]

/-- Settles O23: the walk is a search from the cursor's index, and a record's form is that of its read command. -/
theorem cursorWalksTheTables : Obligations.CursorWalksTheTables := by
  refine ⟨rfl, fun s k => ⟨fun hk hhand => ?_, fun hk hhand => ?_, fun hhand => ?_, fun h table => ?_⟩,
    fun s table index auto hhand => ⟨fun t ht hindex hauto => ?_, fun hbad => ?_⟩,
    fun s hhand => ⟨fun hauto => ⟨fun k hk huse hfirst => ?_, fun hnone => ?_⟩, fun hauto hindex => ?_⟩⟩
  · refine carryOut_done (code := Code.readLink) (rule := readLink) hhand rfl ?_
    rw [readLink_eq (i := ⟨k.toNat, hk⟩) rfl, ← recordBytes_links]
  · refine carryOut_done (code := Code.readDestination) (rule := readDestination) hhand rfl ?_
    rw [readDestination_eq (d := ⟨k.toNat, hk⟩) rfl, ← recordBytes_dests]
  · refine carryOut_done (code := Code.readCandidate) (rule := readCandidate) hhand rfl ?_
    rw [readCandidate_eq (id := k) (c := ⟨k.toNat, k.isLt⟩) rfl, ← recordBytes_cands]
  · cases table <;> rfl
  · have hsize : index.toNat < t.size := by cases t <;> exact hindex
    refine carryOut_done (code := Code.setCursor) (rule := setCursor) hhand rfl ?_
    rw [ht, setCursor_eq hsize hauto]
  · exact carryOut_refused (code := Code.setCursor) (rule := setCursor) hhand rfl (setCursor_badValue hbad s)
  · exact carryOut_done (code := Code.readAtCursor) (rule := readAtCursor) hhand rfl
      (readAtCursor_next hauto (nextInUse_eq_some hk huse hfirst) [])
  · exact carryOut_done (code := Code.readAtCursor) (rule := readAtCursor) hhand rfl
      (readAtCursor_end hauto (nextInUse_eq_none hnone) [])
  · exact carryOut_done (code := Code.readAtCursor) (rule := readAtCursor) hhand rfl (readAtCursor_still hauto hindex [])

/-! ### The first cause (R141, R146) -/

theorem eventLink_eq_some {s : State} {i : LinkId} (hi : s.hasEnabledEvent i = true)
    (hlow : ∀ j < i, s.hasEnabledEvent j = false) : s.eventLink = some i := find?_lowest hi hlow

theorem eventLink_eq_none {s : State} (h : ∀ i, s.hasEnabledEvent i = false) : s.eventLink = none := find?_nowhere h

/-- The job notice is an enabled and pending cause. -/
def State.jobCause (s : State) : Bool := s.enabled Param.enableJobNotice && s.jobNoticePending

/-- The changed-destination set is an enabled and pending cause. -/
def State.changesCause (s : State) : Bool := s.enabled Param.enableChanges && !s.changedList.isEmpty

theorem firstCause_job {s : State} (h : s.jobCause = true) : s.firstCause = .jobNotice := if_pos h

theorem firstCause_overflow {s : State} {p : Radio} (hjob : s.jobCause = false)
    (henabled : s.enabled Param.enableOverflow = true) (hp : s.overflowPort = some p) : s.firstCause = .overflow p := by
  show (if s.jobCause = true then _ else _) = _
  rw [if_neg (Bool.eq_false_iff.1 hjob), henabled, hp]

theorem firstCause_rest {s : State} (hjob : s.jobCause = false)
    (hoverflow : s.enabled Param.enableOverflow = false ∨ s.overflowPort = none) :
    s.firstCause = s.eventLink.elim (if s.changesCause then .changes else .none) .linkEvents := by
  show (if s.jobCause = true then _ else _) = _
  rw [if_neg (Bool.eq_false_iff.1 hjob)]
  rcases hoverflow with h | h <;> rw [h]
  · cases s.eventLink <;> rfl
  · cases s.enabled Param.enableOverflow <;> cases s.eventLink <;> rfl

/-- While the part runs the line is asserted exactly when there is a first cause (R145, R146). -/
theorem notice_eq_false_iff {s : State} (hp : s.power = .running) : s.notice = false ↔ s.firstCause = .none := by
  have hnotice : s.notice = (s.eventLink.isSome || s.changesCause || s.jobCause ||
      (s.enabled Param.enableOverflow && s.overflowPort.isSome)) := by
    rw [State.notice, hp, State.eventLink, State.overflowPort, List.isSome_find?, List.isSome_find?]
    rfl
  rw [hnotice]
  cases hjob : s.jobCause with
  | true => simp [firstCause_job hjob]
  | false =>
    cases henabled : s.enabled Param.enableOverflow with
    | false =>
      rw [firstCause_rest hjob (.inl henabled)]
      cases s.eventLink <;> cases s.changesCause <;> simp
    | true =>
      cases hport : s.overflowPort with
      | some p => simp [firstCause_overflow hjob henabled hport]
      | none =>
        rw [firstCause_rest hjob (.inr hport)]
        cases s.eventLink <;> cases s.changesCause <;> simp

theorem causeCode_eq_zero {c : Cause} : c.code = 0 ↔ c = .none := by
  cases c <;> simp [Cause.code]

/-! ### READ SUMMARY and NEXT EVENT LINK (R141, R146) -/

/-- The overflow byte of the summary, bit by bit (R172). -/
theorem overflowBits_getLsbD {s : State} (n : Nat) :
    s.overflowBits.getLsbD n = true ↔ ∃ p : Radio, p.val = n ∧ (s.port p).overflow = true := by
  have hbits : ∀ a b c : Bool, ∀ i : Fin 8, (byteOf (a.toNat + 2 * b.toNat + 4 * c.toNat)).getLsbD i =
      ((i.val == 0 && a) || (i.val == 1 && b) || (i.val == 2 && c)) := by decide
  rcases Nat.lt_or_ge n 8 with hn | hn
  · rw [State.overflowBits, hbits _ _ _ ⟨n, hn⟩]
    simp only [Bool.or_eq_true, Bool.and_eq_true, beq_iff_eq, or_assoc]
    constructor
    · rintro (⟨hp, h⟩ | ⟨hp, h⟩ | ⟨hp, h⟩)
      exacts [⟨0, hp.symm, h⟩, ⟨1, hp.symm, h⟩, ⟨2, hp.symm, h⟩]
    · rintro ⟨p, rfl, h⟩
      fin_cases p
      exacts [.inl ⟨rfl, h⟩, .inr (.inl ⟨rfl, h⟩), .inr (.inr ⟨rfl, h⟩)]
  · rw [BitVec.getLsbD_of_ge _ _ hn]
    refine ⟨fun h => (nomatch h), ?_⟩
    rintro ⟨p, rfl, -⟩
    omega

theorem bitOf_cases (b : Bool) : (bitOf b = 1 ∧ b = true) ∨ (bitOf b = 0 ∧ b = false) := by
  cases b
  · exact .inr ⟨rfl, rfl⟩
  · exact .inl ⟨rfl, rfl⟩

theorem jobCause_iff (s : State) : bitOf s.jobNoticePending = 1 ∧ s.param 20 ≠ 0 ↔ s.jobCause = true := by
  rw [State.jobCause, Bool.and_eq_true, enabled_iff, and_comm]
  refine and_congr_right fun _ => ?_
  rcases bitOf_cases s.jobNoticePending with ⟨hb, h⟩ | ⟨hb, h⟩ <;> rw [hb, h]
  · exact ⟨fun _ => rfl, fun _ => rfl⟩
  · exact ⟨fun h => (nomatch h), fun h => (nomatch h)⟩

theorem changesByte_toNat (s : State) : (byteOf s.changedList.length).toNat = s.changedList.length :=
  Nat.mod_eq_of_lt (Nat.lt_of_le_of_lt ((List.length_filter_le _ _).trans_eq List.length_finRange) (by decide))

theorem changesCause_iff (s : State) : s.changesCause = true ↔ s.param 19 ≠ 0 ∧ byteOf s.changedList.length ≠ 0 := by
  have hempty : byteOf s.changedList.length = 0 ↔ s.changedList = [] := by
    rw [← List.length_eq_zero_iff, BitVec.toNat_eq, changesByte_toNat]
    rfl
  rw [State.changesCause, Bool.and_eq_true, enabled_iff, Bool.not_eq_true', List.isEmpty_eq_false_iff]
  exact and_congr_right fun _ => not_congr hempty.symm

/-- The two link bytes of an answer name the lowest link with an enabled event. -/
theorem eventLink_bytes {s : State} {link : List Byte} (h : (link = [0, 0] ∧ ∀ i, s.hasEnabledEvent i = false) ∨
    ∃ i, link = [1, BitVec.ofNat 8 i.val] ∧ s.hasEnabledEvent i = true ∧ ∀ j < i, s.hasEnabledEvent j = false) :
    (link = [0, 0] ∧ s.eventLink = none) ∨ ∃ i : LinkId, link = [1, byteOf i.val] ∧ s.eventLink = some i := by
  rcases h with ⟨hlink, hnone⟩ | ⟨i, hlink, hi, hlow⟩
  · exact .inl ⟨hlink, eventLink_eq_none hnone⟩
  · exact .inr ⟨i, hlink, eventLink_eq_some hi hlow⟩

theorem optionBytes_eventLink {s : State} {link : List Byte} (h : (link = [0, 0] ∧ s.eventLink = none) ∨
    ∃ i : LinkId, link = [1, byteOf i.val] ∧ s.eventLink = some i) : optionBytes 1 (s.eventLink.map Fin.val) = link := by
  rcases h with ⟨hlink, heq⟩ | ⟨i, hlink, heq⟩ <;> rw [hlink, heq]
  · rfl
  · simp [optionBytes, bytesOf, byteOf]

/-- Settles O25: the summary's bytes are read off the causes, and the first cause by the three rules in their order. -/
theorem summaryNamesTheFirstCause : Obligations.SummaryNamesTheFirstCause := by
  intro s link hlink
  have hlink := eventLink_bytes hlink
  have hbytes := optionBytes_eventLink hlink
  refine ⟨fun hhand => ?_, fun hhand => ?_⟩
  · exact (exec_nextEventLink s).trans (carryOut_done hhand rfl (congrArg s.ok hbytes))
  · have hjobBit := jobCause_iff s
    refine ⟨bitOf s.jobNoticePending, s.overflowBits, byteOf s.changedList.length, s.firstCause.code, s.firstCause.member,
      ?_, ?_, overflowBits_getLsbD, changesByte_toNat s, fun hp => ?_, fun hjob => ?_, fun hjob => ⟨fun p hen hp hlow => ?_,
      fun hno => ⟨fun b hb => ?_, fun hzero => ?_⟩⟩⟩
    · refine (exec_readSummary s).trans (carryOut_done hhand rfl (congrArg s.ok ?_))
      rw [State.summaryBytes, hbytes]
      rfl
    · rcases bitOf_cases s.jobNoticePending with ⟨hb, h⟩ | ⟨hb, h⟩
      · exact .inl ⟨hb, jobNoticePending_iff.1 h⟩
      · exact .inr ⟨hb, fun n hn => Bool.eq_false_iff.1 h (jobNoticePending_iff.2 ⟨n, hn⟩)⟩
    · rw [notice_eq_false_iff hp, causeCode_eq_zero]
    · rw [firstCause_job (hjobBit.1 hjob)]
      exact ⟨rfl, rfl⟩
    · have hnojob : s.jobCause = false := Bool.eq_false_iff.2 fun h => hjob (hjobBit.2 h)
      rw [firstCause_overflow hnojob (enabled_iff.2 hen) (find?_lowest hp hlow)]
      exact ⟨rfl, rfl⟩
    all_goals
      have hnojob : s.jobCause = false := Bool.eq_false_iff.2 fun h => hjob (hjobBit.2 h)
      have hnone : s.enabled Param.enableOverflow = false ∨ s.overflowPort = none :=
        hno.imp (fun h => Bool.eq_false_iff.2 fun h' => enabled_iff.1 h' h) fun h => find?_nowhere h
      rw [firstCause_rest hnojob hnone]
    · rcases hlink with ⟨hl, -⟩ | ⟨i, hl, heq⟩
      · exact nomatch hl.symm.trans hb
      · rw [heq]
        cases hl.symm.trans hb
        exact ⟨rfl, rfl⟩
    · rcases hlink with ⟨-, heq⟩ | ⟨i, hl, -⟩
      · rw [heq, if_congr (changesCause_iff s).symm rfl rfl]
        cases s.changesCause <;> exact ⟨rfl, rfl⟩
      · exact nomatch hl.symm.trans hzero

end Sys2Proof.Machine
end


section
/-! The Destinations group of the command set (R51, R52, R67), the visits of the Job Engine (R125 to R129), and the obligations
about them. -/

namespace Sys2Proof.Machine

/-! ### ADD DESTINATION and FIND DESTINATION (R51, R52) -/

theorem findDest_isSome {s : State} {a : Addr} (hg : isGroup a = false) :
    (s.findDest a).isSome = true ↔ ∃ d r, s.dest d = some r ∧ r.address = a := by
  refine ⟨fun h => ?_, fun ⟨d, r, hr, haddress⟩ => ?_⟩
  · obtain ⟨d, hd⟩ := Option.isSome_iff_exists.1 h
    exact ⟨d, findDest_eq_some hd⟩
  · by_contra hnone
    exact findDest_eq_none hg (Option.not_isSome_iff_eq_none.1 hnone) hr haddress

theorem vacantDest_lowest {s : State} {d : DestId} (hd : s.dest d = none) (hlow : ∀ e < d, s.dest e ≠ none) :
    s.vacantDest = some d :=
  find?_lowest (by rw [hd]; rfl) fun e he => Option.isNone_eq_false_iff.2 (Option.isSome_iff_ne_none.2 (hlow e he))

theorem vacantDest_full {s : State} (h : ∀ d, s.dest d ≠ none) : s.vacantDest = none :=
  find?_nowhere fun d => Option.isNone_eq_false_iff.2 (Option.isSome_iff_ne_none.2 (h d))

section
variable {a0 : Byte} (a1 a2 a3 a4 a5 : Byte) (s : State)

theorem addDestination_group (hg : a0.getLsbD 0 = true) :
    addDestination [a0, a1, a2, a3, a4, a5] s = s.refuse .badValue := by
  simp only [addDestination, isGroup_addrOf, hg, if_true]

theorem addDestination_eq (hg : a0.getLsbD 0 = false) : addDestination [a0, a1, a2, a3, a4, a5] s =
    if (s.findDest (addrOf a0 a1 a2 a3 a4 a5)).isSome then s.refuse .duplicate
    else s.vacantDest.elim (s.refuse .tableFull) fun d =>
      (s.setDest d (some (Dest.fresh (addrOf a0 a1 a2 a3 a4 a5)))).ok [byteOf d] := by
  simp only [addDestination, isGroup_addrOf, hg, Bool.false_eq_true, if_false]
  cases s.vacantDest <;> rfl

theorem findDestination_group (hg : a0.getLsbD 0 = true) :
    findDestination [a0, a1, a2, a3, a4, a5] s = s.refuse .badValue := by
  simp only [findDestination, isGroup_addrOf, hg, if_true]

theorem findDestination_eq (hg : a0.getLsbD 0 = false) : findDestination [a0, a1, a2, a3, a4, a5] s =
    (s.findDest (addrOf a0 a1 a2 a3 a4 a5)).elim (s.refuse .noRecord) fun d => s.ok [byteOf d, s.destCode d] := by
  simp only [findDestination, isGroup_addrOf, hg, Bool.false_eq_true, if_false]
  cases s.findDest (addrOf a0 a1 a2 a3 a4 a5) <;> rfl

end

theorem destCode_eq {s : State} {d : DestId} {r : Dest} (hr : s.dest d = some r) : s.destCode d = r.state.code := by
  simp only [State.destCode, hr]

/-- Settles O17: the checks in the order of `addDestination_eq`, and the search by address. -/
theorem destinationsAreAddedAndFoundByAddress : Obligations.DestinationsAreAddedAndFoundByAddress := by
  intro s a0 a1 a2 a3 a4 a5 a ha
  have ha : a = addrOf a0 a1 a2 a3 a4 a5 := ha
  have hgroup : isGroup a = a0.getLsbD 0 := by rw [ha, isGroup_addrOf]
  refine ⟨fun hhand => ⟨fun hg => ?_, fun hg hsome => ?_, fun hg hnone => ?_⟩,
    fun hhand => ⟨fun hg => ?_, fun hg hnone => ?_, fun hg d r hr haddress honly => ?_⟩⟩
  · exact carryOut_refused (code := Code.addDestination) (rule := addDestination) hhand rfl (addDestination_group _ _ _ _ _ s hg)
  · have hrule := addDestination_eq a1 a2 a3 a4 a5 s hg
    rw [← ha, if_pos ((findDest_isSome (hgroup.trans hg)).2 hsome)] at hrule
    exact carryOut_refused (code := Code.addDestination) (rule := addDestination) hhand rfl hrule
  · have hrule := addDestination_eq a1 a2 a3 a4 a5 s hg
    have hfree : s.findDest a = none := findDest_unknown (.inl hnone)
    rw [← ha, hfree, if_neg (by decide)] at hrule
    refine ⟨fun hfull => ?_, fun d hd hlow => ?_⟩
    · rw [vacantDest_full hfull] at hrule
      exact carryOut_refused (code := Code.addDestination) (rule := addDestination) hhand rfl hrule
    · rw [vacantDest_lowest hd hlow] at hrule
      exact carryOut_done (code := Code.addDestination) (rule := addDestination) hhand rfl hrule
  · exact carryOut_refused (code := Code.findDestination) (rule := findDestination) hhand rfl
      (findDestination_group _ _ _ _ _ s hg)
  · have hrule := findDestination_eq a1 a2 a3 a4 a5 s hg
    rw [← ha, findDest_unknown (.inl hnone)] at hrule
    exact carryOut_refused (code := Code.findDestination) (rule := findDestination) hhand rfl hrule
  · have hrule := findDestination_eq a1 a2 a3 a4 a5 s hg
    rw [← ha, findDest_eq (hgroup.trans hg) hr haddress honly, Option.elim_some, destCode_eq hr] at hrule
    exact carryOut_done (code := Code.findDestination) (rule := findDestination) hhand rfl hrule

/-! ### REMOVE DESTINATION (R67) -/

theorem candNames_iff {s : State} {i : LinkId} {c : CandId} :
    s.candNames i c = true ↔ ∃ k, s.cand c = some k ∧ k.link = i := by
  unfold State.candNames
  cases s.cand c <;> simp

/-- What the removal of a destination with a sound chain leaves (R67). -/
theorem removeDest_leaves {s : State} {d : DestId} {r : Dest} (hr : s.dest d = some r) (hsound : s.chainSound d r) :
    (s.removeDest d).dest d = none ∧ (s.removeDest d).changed.get d = false ∧
      (∀ c ∈ r.chain, (s.removeDest d).cand c = none) ∧ (∀ c, c ∉ r.chain → (s.removeDest d).cand c = s.cand c) ∧
      (∀ e, e ≠ d → (s.removeDest d).dest e = s.dest e) ∧
      (∀ e, e ≠ d → (s.removeDest d).changed.get e = s.changed.get e) ∧ s.referencesDropped r (s.removeDest d) ∧
      s.tablesOnly (s.removeDest d) := by
  obtain ⟨htables, hdest, hchanged, hcand, -, -, hchangedNe, hdestNe, hunnamed, hnamed⟩ := removeDest_spec s d r hr
  obtain ⟨-, -, hmembers, honlyLink, -⟩ := hsound
  refine ⟨hdest, hchanged, fun c hc => by rw [hcand, if_pos hc], fun c hc => by rw [hcand, if_neg hc],
    fun e he => hdestNe e he fun c hc k hk => ?_, hchangedNe, ⟨hunnamed, fun i l hsome hl => ?_⟩, htables⟩
  · obtain ⟨k', hk', hdestOf⟩ := hmembers c hc
    cases hk.symm.trans hk'
    rw [hdestOf]
    exact he.symm
  · obtain ⟨c, hc, hname⟩ := hsome
    have honly : ∀ e ∈ r.chain, s.candNames i e = true → e = c := fun e he hname' => by
      obtain ⟨k, hk, hki⟩ := candNames_iff.1 hname
      obtain ⟨k', hk', hki'⟩ := candNames_iff.1 hname'
      exact honlyLink e he c hc k' k hk' hk (hki'.trans hki.symm)
    rw [hnamed i c hc hname honly, hl]
    rfl

/-- Settles O18: the record's removal is `removeDest_leaves`. -/
theorem removeDestinationClearsItsRecord : Obligations.RemoveDestinationClearsItsRecord := by
  intro s index hhand
  refine ⟨fun hbad => ?_, fun d hd => ⟨fun hvacant => ?_, fun r hr hsound => ⟨s.removeDest d, ?_, removeDest_leaves hr hsound⟩⟩⟩
  · refine carryOut_refused (code := Code.removeDestination) (rule := removeDestination) hhand rfl ?_
    simp only [removeDestination, idOf_eq_none (n := 128) hbad]
  · refine carryOut_refused (code := Code.removeDestination) (rule := removeDestination) hhand rfl ?_
    simp only [removeDestination, idOf_eq_some hd, hvacant, Option.isNone_none, if_true]
  · refine carryOut_done (code := Code.removeDestination) (rule := removeDestination) hhand rfl ?_
    simp only [removeDestination, idOf_eq_some hd, hr, Option.isNone_some, Bool.false_eq_true, if_false]

/-! ### A visit of the Job Engine (R125) -/

/-- The walk moved on by one index, the last of them ending it with a DONE notice (R125). -/
theorem moveOn_eq {ctx : JobContext} {kind : JobKind} {size n : Nat} (hkind : ctx.selector.kind = kind)
    (hnext : ctx.next = n) (hn : n < size + 1) (s : State) (acted : Bool) : s.moveOn ctx (size + 1) acted = { s with
      job := if n = size then .noticePending ⟨kind, .done, ctx.visited + 1, ctx.actedOn + acted.toNat⟩
        else .running { ctx with
          next := ctx.next + 1, visited := ctx.visited + 1, actedOn := ctx.actedOn + acted.toNat } } := by
  have hlast : size + 1 ≤ ctx.next + 1 ↔ n = size := by omega
  rw [State.moveOn, if_congr hlast rfl rfl, ← hkind]
  rfl

/-- With its job put back, the state that moved on is the one it moved on from. -/
theorem moveOn_restored {s u : State} (hjob : u.job = s.job) (ctx : JobContext) (size : Nat) (acted : Bool) :
    ({ u.moveOn ctx size acted with job := s.job } : State) = u := by
  rw [← hjob]
  rfl

theorem State.tablesOnly_job {s t : State} (h : s.tablesOnly t) : t.job = s.job := by rw [h]

/-- Moving on touches the job alone. -/
theorem tablesOnly_moveOn {s u : State} (h : s.tablesOnly u) (ctx : JobContext) (size : Nat) (acted : Bool) :
    ({ s with job := (u.moveOn ctx size acted).job } : State).tablesOnly (u.moveOn ctx size acted) :=
  congrArg (fun v : State => ({ v with job := (u.moveOn ctx size acted).job } : State)) h

/-! ### The visits of the three kinds (R127 to R129) -/

section
variable {s : State} {ctx : JobContext} (hjob : s.job = .running ctx)
include hjob

theorem exec_retireLinksVisit {radios : BitVec 3} {states : BitVec 4} {i : LinkId}
    (hsel : ctx.selector = .retireLinks radios states) (hnext : ctx.next = i.val) :
    exec .retireLinksVisit s = .next (if (s.link i).any (Link.matchesRetire radios states) then
      (s.retireCascade i).moveOn ctx 32 true else s.moveOn ctx 32 false) := by
  show execRetireLinksVisit s = _
  have hlt : ctx.next < 32 := hnext ▸ i.isLt
  have hi : (⟨ctx.next, hlt⟩ : LinkId) = i := Fin.ext hnext
  simp only [execRetireLinksVisit, hjob, hsel, dif_pos hlt, hi]
  split <;> rfl

theorem exec_retuneRadioVisit {radio : Radio} {i : LinkId} (hsel : ctx.selector = .retuneRadio radio)
    (hnext : ctx.next = i.val) :
    exec .retuneRadioVisit s = .next (if (s.link i).any (Link.matchesRetune radio) then
      (s.retuneLink i).moveOn ctx 32 true else s.moveOn ctx 32 false) := by
  show execRetuneRadioVisit s = _
  have hlt : ctx.next < 32 := hnext ▸ i.isLt
  have hi : (⟨ctx.next, hlt⟩ : LinkId) = i := Fin.ext hnext
  simp only [execRetuneRadioVisit, hjob, hsel, dif_pos hlt, hi]
  split <;> rfl

theorem exec_pruneDestinationsVisit {states : BitVec 2} {d : DestId} (hsel : ctx.selector = .pruneDestinations states)
    (hnext : ctx.next = d.val) :
    exec .pruneDestinationsVisit s = .next (if (s.dest d).any (Dest.matchesPrune states) then
      (s.removeDest d).moveOn ctx 128 true else s.moveOn ctx 128 false) := by
  show execPruneDestinationsVisit s = _
  have hlt : ctx.next < 128 := hnext ▸ d.isLt
  have hd : (⟨ctx.next, hlt⟩ : DestId) = d := Fin.ext hnext
  simp only [execPruneDestinationsVisit, hjob, hsel, dif_pos hlt, hd]
  split <;> rfl

end

theorem matchesRetire_iff {radios : BitVec 3} {states : BitVec 4} {l : Link} : l.matchesRetire radios states = true ↔
    radios.getLsbD l.radio.val = true ∧
      ((l.state = .probation ∧ states.getLsbD 0 = true) ∨ (l.state = .up ∧ states.getLsbD 1 = true) ∨
        (l.state = .degraded ∧ states.getLsbD 2 = true) ∨ (l.state = .down ∧ states.getLsbD 3 = true)) := by
  rw [Link.matchesRetire, Bool.and_eq_true]
  refine and_congr_right fun _ => ?_
  cases l.state <;> simp [LinkState.maskBit]

theorem matchesRetune_iff {radio : Radio} {l : Link} :
    l.matchesRetune radio = true ↔ l.radio = radio ∧ l.state ≠ .retiring := by
  simp [Link.matchesRetune]

theorem matchesPrune_iff {states : BitVec 2} {r : Dest} : r.matchesPrune states = true ↔
    (r.state = .unresolved ∧ states.getLsbD 0 = true) ∨ (r.state = .unreachable ∧ states.getLsbD 1 = true) := by
  unfold Dest.matchesPrune
  cases r.state <;> simp

/-- A visit to a record in use that does not match, or to none. -/
theorem any_eq_false {α : Type} {o : Option α} {p : α → Bool} (h : ∀ x, o = some x → ¬ p x = true) : ¬ o.any p = true := by
  cases o with
  | none => exact Bool.false_ne_true
  | some x => exact h x rfl

/-- Settles O31: a matching link is retired as `retireCascade_leaves` says. -/
theorem retireLinksVisitActsAndMovesOn : Obligations.RetireLinksVisitActsAndMovesOn := by
  intro s ctx radios states i hjob hsel hnext
  have hkind : ctx.selector.kind = .retireLinks := by rw [hsel]; rfl
  have hvisit := exec_retireLinksVisit hjob hsel hnext
  refine ⟨fun l hl hradio hstate => ?_, fun hother => ?_⟩
  · rw [hl, Option.any_some, if_pos (matchesRetire_iff.2 ⟨hradio, hstate⟩)] at hvisit
    obtain ⟨htables, hlink, hfreed, hkept, -⟩ := retireCascade_spec s i l hl
    refine ⟨_, hvisit, (hlink i).trans (if_pos rfl), hfreed, hkept, fun j hj => (hlink j).trans (if_neg hj),
      fun hsound => retireCascade_leaves hl hsound, tablesOnly_moveOn htables ctx 32 true, ?_⟩
    rw [moveOn_eq hkind hnext i.isLt]
    rfl
  · rw [if_neg (any_eq_false fun l hl hm => ?_), moveOn_eq hkind hnext i.isLt] at hvisit
    · exact hvisit
    · obtain ⟨hradio, hstate⟩ := matchesRetire_iff.1 hm
      have hl := hother l hl
      rw [hradio] at hl
      rcases hstate with ⟨hs, hb⟩ | ⟨hs, hb⟩ | ⟨hs, hb⟩ | ⟨hs, hb⟩ <;> rw [hs, hb] at hl <;> simp at hl

/-- Settles O32: a matching link's record is written as R25 gives, with the notice of the loss. -/
theorem retuneRadioVisitResetsTheLink : Obligations.RetuneRadioVisitResetsTheLink := by
  intro s ctx radio i hjob hsel hnext
  have hkind : ctx.selector.kind = .retuneRadio := by rw [hsel]; rfl
  have hvisit := exec_retuneRadioVisit hjob hsel hnext
  refine ⟨fun l hl hradio hstate => ?_, fun hother => ?_⟩
  · rw [hl, Option.any_some, if_pos (matchesRetune_iff.2 ⟨hradio, hstate⟩), retuneLink_eq hl] at hvisit
    obtain ⟨hlink, hothers, htables, hreselected, hquiet, hlost⟩ := moveLink_lost (x := some l.retune) rfl s i l
    have hrestored := moveOn_restored (State.tablesOnly_job htables) ctx 32 true
    have hwritten : ((s.moveLink i l (some l.retune)).moveOn ctx 32 true).link i = some l.retune := hlink
    refine ⟨_, hvisit, hlink, hothers, tablesOnly_moveOn htables ctx 32 true, hreselected, fun hs => ?_, fun hs => ?_, ?_⟩
    · rw [hrestored, hwritten]
      exact hquiet (by rcases hs with hs | hs <;> rw [hs] <;> rfl)
    · rw [hrestored, hwritten]
      exact hlost (isUsable_iff.2 hs)
    · rw [moveOn_eq hkind hnext i.isLt]
      rfl
  · rw [if_neg (any_eq_false fun l hl hm => ?_), moveOn_eq hkind hnext i.isLt] at hvisit
    · exact hvisit
    · obtain ⟨hradio, hstate⟩ := matchesRetune_iff.1 hm
      exact (hother l hl).elim (· hradio) hstate

/-- Settles O33: a matching destination is removed as `removeDest_leaves` says. -/
theorem pruneDestinationsVisitRemovesTheDestination : Obligations.PruneDestinationsVisitRemovesTheDestination := by
  intro s ctx states d hjob hsel hnext
  have hkind : ctx.selector.kind = .pruneDestinations := by rw [hsel]; rfl
  have hvisit := exec_pruneDestinationsVisit hjob hsel hnext
  refine ⟨fun r hr hsound hstate => ?_, fun hother => ?_⟩
  · rw [hr, Option.any_some, if_pos (matchesPrune_iff.2 hstate)] at hvisit
    obtain ⟨hdest, hchanged, hfreed, hkept, hdestNe, hchangedNe, hdropped, htables⟩ := removeDest_leaves hr hsound
    refine ⟨_, hvisit, hdest, hchanged, hfreed, hkept, fun e he => ⟨hdestNe e he, hchangedNe e he⟩, hdropped,
      tablesOnly_moveOn htables ctx 128 true, ?_⟩
    rw [moveOn_eq hkind hnext d.isLt]
    rfl
  · rw [if_neg (any_eq_false fun r hr hm => ?_), moveOn_eq hkind hnext d.isLt] at hvisit
    · exact hvisit
    · have hr := hother r hr
      rcases matchesPrune_iff.1 hm with ⟨hs, hb⟩ | ⟨hs, hb⟩ <;> rw [hs, hb] at hr <;> simp at hr

end Sys2Proof.Machine
end


section
/-! The Candidates group of the command set (R59 to R66) and the obligations about it. -/

namespace Sys2Proof.Machine

/-! ### The chain-edit check (R60) -/

/-- With a usable active candidate the check selects nothing, and writes that candidate's path cost. -/
theorem chainEditCheck_kept {s : State} {d : DestId} {r : Dest} {a : CandId} (hr : s.dest d = some r)
    (ha : r.active = some a) (hmem : a ∈ r.chain) (hu : s.candUsable a = true) : s.chainEditCheck d = s.refreshCost a := by
  simp [State.chainEditCheck, hr, ha, hmem, hu]

/-- Without one it is immediate selection. -/
theorem chainEditCheck_selects {s : State} {d : DestId} {r : Dest} (hr : s.dest d = some r)
    (h : r.active = none ∨ ∃ a, r.active = some a ∧ (a ∉ r.chain ∨ s.candUsable a = false)) :
    s.chainEditCheck d = s.selectNow d := by
  rcases h with ha | ⟨a, ha, hmem | hu⟩
  · simp [State.chainEditCheck, hr, ha]
  · simp [State.chainEditCheck, hr, ha, hmem]
  · simp [State.chainEditCheck, hr, ha, hu]

/-- Whatever the check does, the destination keeps its address and its chain. -/
theorem State.reselects.dest_kept {u t : State} {d : DestId} {q : Dest} (h : u.reselects t d) (hq : u.dest d = some q) :
    ∃ r', t.dest d = some r' ∧ r'.chain = q.chain ∧ r'.address = q.address := by
  obtain ⟨-, a, hr', -⟩ := h.2.2.2.2 q hq
  exact ⟨_, hr', Dest.withActive_chain _ _ _, Dest.withActive_address _ _ _⟩

/-- A candidate outside the chain keeps its record, its last path cost too. -/
theorem State.reselects.cand_outside {u t : State} {d : DestId} {q : Dest} {e : CandId} (h : u.reselects t d)
    (hq : u.dest d = some q) (he : e ∉ q.chain) : t.cand e = u.cand e := (h.2.2.2.2 q hq).1 e he

/-- A candidate in use keeps its record but for the last path cost. -/
theorem sameButCost_some {k : Cand} {x : Option Cand} (h : sameButCost (some k) x) :
    ∃ k', x = some k' ∧ k' = { k with lastCost := k'.lastCost } := by
  cases x with
  | none => exact h.elim
  | some k' => exact ⟨k', rfl, h⟩

/-! ### Placements (R59, R171) -/

theorem placementOf_head (after : Byte) : placementOf 0 after = some .head := rfl
theorem placementOf_tail (after : Byte) : placementOf 1 after = some .tail := rfl
theorem placementOf_after (after : Byte) : placementOf 2 after = some (.after (candOf after)) := rfl

theorem placementOf_none {b : Byte} (h : 2 < b.toNat) (after : Byte) : placementOf b after = none := by
  unfold placementOf
  rw [if_neg (by rintro rfl; exact absurd h (by decide)), if_neg (by rintro rfl; exact absurd h (by decide)),
    if_neg (by rintro rfl; exact absurd h (by decide))]

theorem placement_values {b : Byte} (h : b.toNat ≤ 2) : b = 0 ∨ b = 1 ∨ b = 2 := by
  have hcases : b.toNat = 0 ∨ b.toNat = 1 ∨ b.toNat = 2 := by omega
  exact hcases.imp BitVec.eq_of_toNat_eq (Or.imp BitVec.eq_of_toNat_eq BitVec.eq_of_toNat_eq)

theorem placementOf_isSome {b : Byte} (h : b.toNat ≤ 2) (after : Byte) : ∃ p, placementOf b after = some p := by
  rcases placement_values h with rfl | rfl | rfl
  · exact ⟨_, placementOf_head after⟩
  · exact ⟨_, placementOf_tail after⟩
  · exact ⟨_, placementOf_after after⟩

theorem candOf_eq {b : Byte} {c : CandId} (h : b.toNat = c.val) : candOf b = c := Fin.ext h

theorem candOf_ne {b : Byte} {c : CandId} (h : b.toNat ≠ c.val) : candOf b ≠ c := fun he => h (congrArg Fin.val he)

theorem misses_after {a : CandId} {chain : List CandId} : (Placement.after a).misses chain = true ↔ a ∉ chain := by
  simp [Placement.misses]

theorem isAfter_after {a c : CandId} : (Placement.after a).isAfter c = true ↔ a = c := by
  simp [Placement.isAfter]

/-- What a position byte makes of a chain (R59): the candidate at its head, at its tail, or after a member of it. -/
def chainPlaced (position after : Byte) (c : CandId) (base chain : List CandId) : Prop :=
  (position = 0 ∧ chain = c :: base) ∨ (position = 1 ∧ chain = base ++ [c]) ∨
    (position = 2 ∧ ∃ xs ys a, a.val = after.toNat ∧ a ∉ xs ∧ base = xs ++ a :: ys ∧ chain = xs ++ a :: c :: ys)

theorem chainPlaced_placeIn {position after : Byte} {c : CandId} {base chain : List CandId}
    (h : chainPlaced position after c base chain) : ∃ p, placementOf position after = some p ∧
      chain = placeIn p c base ∧ (∀ whole, (∀ e ∈ base, e ∈ whole) → p.misses whole = false) := by
  rcases h with ⟨rfl, rfl⟩ | ⟨rfl, rfl⟩ | ⟨rfl, xs, ys, a, hafter, ha, rfl, rfl⟩
  · exact ⟨.head, rfl, rfl, fun _ _ => rfl⟩
  · exact ⟨.tail, rfl, rfl, fun _ _ => rfl⟩
  · refine ⟨.after a, ?_, (insertAfter_split ha).symm, fun whole hsub => ?_⟩
    · rw [placementOf_after, candOf_eq hafter.symm]
    · exact Bool.eq_false_iff.2 fun hm => misses_after.1 hm (hsub a (by simp))

/-! ### ADD CANDIDATE (R61) -/

theorem chainNames_iff {s : State} {chain : List CandId} {i : LinkId} :
    s.chainNames chain i = true ↔ ∃ m ∈ chain, ∃ k, s.cand m = some k ∧ k.link = i := by
  simp only [State.chainNames, List.any_eq_true, candNames_iff]

theorem freeCand_lowest {s : State} {c : CandId} (hc : s.cand c = none) (hlow : ∀ e < c, s.cand e ≠ none) :
    s.freeCand = some c :=
  find?_lowest (by rw [hc]; rfl) fun e he => Option.isNone_eq_false_iff.2 (Option.isSome_iff_ne_none.2 (hlow e he))

theorem freeCand_exhausted {s : State} (h : ∀ c, s.cand c ≠ none) : s.freeCand = none :=
  find?_nowhere fun c => Option.isNone_eq_false_iff.2 (Option.isSome_iff_ne_none.2 (h c))

section
variable {dest link hi lo placement after : Byte} {s : State}

theorem addCandidate_badValue
    (h : idOf 128 dest = none ∨ idOf 32 link = none ∨ placementOf placement after = none) :
    addCandidate [dest, link, hi, lo, placement, after] s = s.refuse .badValue := by
  unfold addCandidate
  dsimp only
  split
  · next d i p hd hi hp => simp [hd, hi, hp] at h
  · rfl

variable {d : DestId} {i : LinkId} {p : Placement} (hd : dest.toNat = d.val) (hi' : link.toNat = i.val)
  (hp : placementOf placement after = some p)
include hd hi' hp

theorem addCandidate_noRecord (h : s.dest d = none ∨ s.link i = none ∨ ∃ l, s.link i = some l ∧ l.state = .retiring) :
    addCandidate [dest, link, hi, lo, placement, after] s = s.refuse .noRecord := by
  simp only [addCandidate, idOf_eq_some hd, idOf_eq_some hi', hp]
  rcases h with hdest | hlink | ⟨l, hl, hretiring⟩
  · simp only [hdest]
  · cases s.dest d <;> simp only [hlink]
  · cases s.dest d <;> simp only [hl, if_pos hretiring]

/-- The checks of R61 on a destination and a link that can take a candidate, in their order. -/
theorem addCandidate_eq {r : Dest} {l : Link} (hr : s.dest d = some r) (hl : s.link i = some l)
    (hretiring : l.state ≠ .retiring) : addCandidate [dest, link, hi, lo, placement, after] s =
      if s.chainNames r.chain i then s.refuse .duplicate
      else if 4 ≤ r.chain.length then s.refuse .chainFull
      else if p.misses r.chain then s.refuse .noRecord
      else s.freeCand.elim (s.refuse .poolEmpty) fun c =>
        (s.enlist c d i (word16 hi lo) p).ok [byteOf c, (s.enlist c d i (word16 hi lo) p).destCode d] := by
  simp only [addCandidate, idOf_eq_some hd, idOf_eq_some hi', hp, hr, hl, if_neg hretiring]
  cases s.freeCand <;> rfl

end

/-- Settles O20: the checks stand in the order of `addCandidate_eq`. -/
theorem addCandidateRefusalsInOrder : Obligations.AddCandidateRefusalsInOrder := by
  intro s dest link hi lo placement after hhand
  have refused {e : Status} (hrule : addCandidate [dest, link, hi, lo, placement, after] s = s.refuse e) :
      exec .addCandidate s = .next (s.giveAnswer ⟨e, []⟩) :=
    carryOut_refused (code := Code.addCandidate) (rule := addCandidate) hhand rfl hrule
  refine ⟨fun h => refused (addCandidate_badValue ?_), fun d i hd hi' hplacement => ?_⟩
  · exact h.imp (fun h => idOf_eq_none (n := 128) h) (Or.imp (fun h => idOf_eq_none (n := 32) h)
      fun h => placementOf_none h after)
  obtain ⟨p, hp⟩ := placementOf_isSome hplacement after
  refine ⟨fun h => refused (addCandidate_noRecord hd hi' hp h), fun r l hr hl hretiring => ?_⟩
  have hrule := addCandidate_eq (hi := hi) (lo := lo) hd hi' hp hr hl hretiring
  refine ⟨fun hdup => ?_, fun hnew => ?_⟩
  · rw [if_pos (chainNames_iff.2 hdup)] at hrule
    exact refused hrule
  have hnames : ¬ s.chainNames r.chain i = true := fun h => by
    obtain ⟨m, hm, k, hk, hki⟩ := chainNames_iff.1 h
    exact hnew m hm k hk hki
  rw [if_neg hnames] at hrule
  refine ⟨fun hfull => ?_, fun hroom => ?_⟩
  · rw [if_pos hfull] at hrule
    exact refused hrule
  rw [if_neg (Nat.not_le.2 hroom)] at hrule
  refine ⟨fun ⟨htwo, hmiss⟩ => ?_, fun hafter hpool => ?_⟩
  · have hpa : p = .after (candOf after) := by
      rw [htwo, placementOf_after] at hp
      exact (Option.some.inj hp).symm
    rw [hpa, if_pos (misses_after.2 fun hm => hmiss (candOf after) hm rfl)] at hrule
    exact refused hrule
  · have hmisses : ¬ p.misses r.chain = true := by
      rcases placement_values hplacement with rfl | rfl | rfl
      · cases hp
        exact Bool.false_ne_true
      · cases hp
        exact Bool.false_ne_true
      · cases hp
        obtain ⟨a, ha, hval⟩ := hafter rfl
        rw [misses_after, candOf_eq hval.symm]
        exact not_not_intro ha
    rw [if_neg hmisses, freeCand_exhausted hpool] at hrule
    exact refused hrule

/-- The state of an accepted ADD CANDIDATE before its check, in the records it writes. -/
theorem enlisted_eq {s : State} {d : DestId} {i : LinkId} {r : Dest} {l : Link} (hr : s.dest d = some r)
    (hl : s.link i = some l) (c : CandId) (n : Nat) (p : Placement) :
    s.enlisted c d i n p = ((s.setCand c (some ⟨d, i, n, 65535⟩)).setDest d
      (some { r with chain := placeIn p c r.chain })).setLink i (some { l with refs := l.refs + 1 }) := by
  have hdest : (s.setCand c (some ⟨d, i, n, Config.saturated⟩)).dest d = some r := hr
  simp only [State.enlisted, State.updateDest, hdest, State.updateLink]
  have hlink : ((s.setCand c (some ⟨d, i, n, Config.saturated⟩)).setDest d
      (some { r with chain := placeIn p c r.chain })).link i = some l := hl
  simp only [hlink]
  rfl

/-- An added candidate changes no other candidate's usability. -/
theorem enlisted_candUsable {s : State} {d : DestId} {i : LinkId} {r : Dest} {l : Link} (hr : s.dest d = some r)
    (hl : s.link i = some l) {a c : CandId} (hac : a ≠ c) (n : Nat) (p : Placement) :
    (s.enlisted c d i n p).candUsable a = s.candUsable a := by
  rw [enlisted_eq hr hl]
  have hlink : ((s.setCand c (some ⟨d, i, n, 65535⟩)).setDest d
      (some { r with chain := placeIn p c r.chain })).link i = some l := hl
  refine (congrFun (candCost_setLink (y := { l with refs := l.refs + 1 }) hlink ⟨rfl, rfl⟩).2 a).trans ?_
  refine candUsable_congr ?_ (fun _ => rfl) rfl
  rw [cand_setDest, cand_setCand, if_neg hac]
  exact sameButCost_rfl _

theorem candUsable_free {s : State} {c : CandId} (hc : s.cand c = none) : s.candUsable c = false := by
  simp only [State.candUsable, hc]

/-- Settles O19: the edited state `enlisted`, and what the chain-edit check does to it. -/
theorem addCandidateJoinsTheChain : Obligations.AddCandidateJoinsTheChain := by
  intro s dest link hi lo placement after d i c r l chain hhand hd hi' hr hl hretiring hnew hroom hc hlow hplaced
  obtain ⟨p, hp, hchain, hmisses⟩ := chainPlaced_placeIn hplaced
  have hnames : ¬ s.chainNames r.chain i = true := fun h => by
    obtain ⟨m, hm, k, hk, hki⟩ := chainNames_iff.1 h
    exact hnew m hm k hk hki
  have hrule := addCandidate_eq (hi := hi) (lo := lo) hd hi' hp hr hl hretiring
  rw [if_neg hnames, if_neg (Nat.not_le.2 hroom), if_neg (Bool.eq_false_iff.1 (hmisses r.chain fun _ => id)),
    freeCand_lowest hc hlow, Option.elim_some, enlist_eq] at hrule
  have hedited := enlisted_eq hr hl c (word16 hi lo) p
  have hudest : (s.enlisted c d i (word16 hi lo) p).dest d = some { r with chain := chain } := by
    rw [enlisted_dest, if_pos rfl, hr, hchain]
    rfl
  have hucand := enlisted_cand s c d i (word16 hi lo) p
  have huchanged := enlisted_changed s c d i (word16 hi lo) p
  have hulink := enlisted_link s c d i (word16 hi lo) p
  have huothers : ∀ e, e ≠ d → (s.enlisted c d i (word16 hi lo) p).dest e = s.dest e := fun e he => by
    rw [enlisted_dest, if_neg he]
  have husable (a : CandId) (ha : a ≠ c) := enlisted_candUsable hr hl ha (word16 hi lo) p
  have htables := enlisted_tablesOnly s c d i (word16 hi lo) p
  rw [← hchain] at hedited
  generalize s.enlisted c d i (word16 hi lo) p = u at hrule hedited hudest hucand huchanged hulink huothers husable htables
  have hcheck := chainEditCheck_reselects u d
  obtain ⟨r', hr', hrchain, haddress⟩ := hcheck.dest_kept hudest
  obtain ⟨k', hk', hkeq⟩ := sameButCost_some ((hucand c).trans (if_pos rfl) ▸ hcheck.same c)
  have hmem (e : CandId) : e ∈ chain ↔ e = c ∨ e ∈ r.chain := by rw [hchain, mem_placeIn]
  have hkept (a : CandId) (hmemA : a ∈ r.chain) (ha : r.active = some a) (hu : s.candUsable a = true) :
      a ≠ c ∧ u.chainEditCheck d = u.refreshCost a := by
    have hac : a ≠ c := by
      rintro rfl
      exact nomatch hu.symm.trans (candUsable_free hc)
    exact ⟨hac, chainEditCheck_kept hudest ha ((hmem a).2 (.inr hmemA)) ((husable a hac).trans hu)⟩
  rw [destCode_eq hr'] at hrule
  refine ⟨u.chainEditCheck d, r', k', carryOut_done (code := Code.addCandidate) (rule := addCandidate) hhand rfl hrule, hr',
    hrchain, haddress, hk', by rw [hkeq], by rw [hkeq], by rw [hkeq]; rfl, fun a hmemA ha hu => ?_, fun v hv => ?_,
    fun e he => ?_, fun e he => ?_, fun e he => ?_, ?_, fun j hj => ?_, ?_⟩
  · obtain ⟨hac, hsame⟩ := hkept a hmemA ha hu
    rw [hsame, refreshCost_dest, hudest] at hr'
    rw [hsame, refreshCost_cand, if_neg hac.symm, hucand, if_pos rfl] at hk'
    rw [hsame, refreshCost_changed]
    exact ⟨(Option.some.inj hr').symm, congrArg Cand.lastCost (Option.some.inj hk').symm, huchanged⟩
  · have hv : v = u := hv.trans hedited.symm
    subst hv
    refine ⟨fun a hmemA ha hu => (hkept a hmemA ha hu).2, fun h => chainEditCheck_selects hudest (h.imp_right ?_)⟩
    rintro ⟨a, ha, hac, hout⟩
    refine ⟨a, ha, hout.imp (fun hnot hin => ?_) fun hunusable => (husable a hac).trans hunusable⟩
    exact ((hmem a).1 hin).elim hac hnot
  · have hsame := hcheck.same e
    rwa [hucand, if_neg he] at hsame
  · have hec : e ≠ c := fun h => he ((hmem e).2 (.inl h))
    rw [hcheck.cand_outside hudest he, hucand, if_neg hec]
  · rw [hcheck.dest_ne he, huothers e he, hcheck.changed_ne he, huchanged]
    exact ⟨rfl, rfl⟩
  · rw [State.pathsOnly_link hcheck.pathsOnly, hulink, if_pos rfl, hl]
    rfl
  · rw [State.pathsOnly_link hcheck.pathsOnly, hulink, if_neg hj]
  · exact State.tablesOnly_trans htables (State.pathsOnly_tablesOnly hcheck.pathsOnly)

/-! ### REMOVE CANDIDATE (R66) -/

/-- A candidate taken out of its chain, in the records this writes. -/
theorem detach_eq {s : State} {c : CandId} {k : Cand} {r : Dest} {l : Link} (hk : s.cand c = some k)
    (hr : s.dest k.dest = some r) (hl : s.link k.link = some l) :
    s.detach c = ((s.setDest k.dest (some { r with chain := r.chain.erase c })).setCand c none).setLink k.link l.dropped := by
  have hlink : ((s.setDest k.dest (some { r with chain := r.chain.erase c })).setCand c none).link k.link = some l := hl
  simp only [State.detach, hk, State.updateDest, hr, State.dropReference, hlink, Link.dropped]
  split <;> rfl

/-- The removal of one candidate leaves every other as usable as it was. -/
theorem candUsable_detach {s : State} {a c : CandId} (hac : a ≠ c) (hu : s.candUsable a = true) :
    (s.detach c).candUsable a = true := by
  obtain ⟨m, l, hm, hl⟩ := records_of_candUsable hu
  have hlink : ∃ n, (s.detach c).link m.link = some { l with refs := n } := by
    cases hk : s.cand c with
    | none =>
      rw [detach_free s c hk]
      exact ⟨l.refs, hl⟩
    | some k =>
      rw [detach_link s c k hk, hl]
      split
      · have hnot : ¬ (l.state = .retiring ∧ l.refs ≤ 1) := by
          rintro ⟨hretiring, -⟩
          have hstate := ((candUsable_iff hm hl).1 hu).1
          rw [hretiring] at hstate
          exact hstate.elim (nomatch ·) (nomatch ·)
        exact ⟨l.refs - 1, if_neg hnot⟩
      · exact ⟨l.refs, rfl⟩
  obtain ⟨n, hn⟩ := hlink
  have hcand : (s.detach c).cand a = some m := by rw [detach_cand, if_neg hac, hm]
  have htuning := State.tablesOnly_tuning (detach_tablesOnly s c)
  rw [← hu]
  simp only [State.candUsable, hcand, hm, hn, hl, htuning]
  rfl

/-- What follows a removal that empties the chain: the destination is left without an active candidate (R58). -/
theorem afterRemoval_emptied {s : State} {d : DestId} {r : Dest} (hr : s.dest d = some r) (hempty : r.chain = []) :
    s.afterRemoval d = s.setActive d none := by
  simp [State.afterRemoval, hr, hempty]

/-- What follows any other: the chain-edit check. -/
theorem afterRemoval_checked {s : State} {d : DestId} {r : Dest} (hr : s.dest d = some r) (hne : r.chain ≠ []) :
    s.afterRemoval d = s.chainEditCheck d := by
  simp [State.afterRemoval, hr, hne]

/-- Settles O22: the edited state `detach`, and what follows the removal. -/
theorem removeCandidateClosesTheChain : Obligations.RemoveCandidateClosesTheChain := by
  intro s id c hhand hid
  have hcand : candOf id = c := candOf_eq hid
  refine ⟨fun hfree => ?_, fun k r l hk hr hl => ?_⟩
  · refine carryOut_refused (code := Code.removeCandidate) (rule := removeCandidate) hhand rfl ?_
    simp only [removeCandidate, hcand, hfree]
  have hrule : removeCandidate [id] s = (s.removeCand c).ok [byteOf k.dest, (s.removeCand c).destCode k.dest] := by
    simp only [removeCandidate, hcand, hk]
  have hudest : (s.detach c).dest k.dest = some { r with chain := r.chain.erase c } := by
    rw [detach_dest s c k hk, if_pos rfl, hr]
    rfl
  have hlinks := removeCand_link s c k hk
  have htlink : (s.removeCand c).link k.link = l.dropped := by
    rw [hlinks, if_pos rfl, hl]
    rfl
  have hothers := removeCand_dest_ne s c k hk
  have htables := removeCand_tablesOnly s c
  have hcands := removeCand_cand s c
  have hedited := detach_eq hk hr hl
  have hreselects := afterRemoval_reselects (s.detach c) k.dest
  rw [← removeCand_eq s c k hk] at hreselects
  obtain ⟨r', hr', hrchain, haddress⟩ := hreselects.dest_kept hudest
  have hkept (a : CandId) (hmem : a ∈ r.chain.erase c) (ha : r.active = some a) (hu : (s.detach c).candUsable a = true) :
      s.removeCand c = (s.detach c).refreshCost a := by
    rw [removeCand_eq s c k hk, afterRemoval_checked hudest (List.ne_nil_of_mem hmem)]
    exact chainEditCheck_kept hudest ha hmem hu
  rw [destCode_eq hr'] at hrule
  refine ⟨s.removeCand c, r', carryOut_done (code := Code.removeCandidate) (rule := removeCandidate) hhand rfl hrule, ?_, hr',
    hrchain, haddress, fun u hu => ?_, fun a hmem ha hac hu => ?_, fun e he => ?_, hothers, htlink, fun j hj => ?_, htables⟩
  · exact (sameButCost_none_iff (hcands c)).2 (if_pos rfl)
  · rw [htlink, ← hedited] at hu
    subst hu
    refine ⟨fun hempty => ?_, fun hne hactive => ?_, fun a hmem ha hu => ?_⟩
    · have hset : s.removeCand c = (s.detach c).setActive k.dest none := by
        rw [removeCand_eq s c k hk, afterRemoval_emptied hudest hempty]
      rw [hset, setActive_dest, if_pos rfl, hudest, hempty] at hr'
      have hr' := (Option.some.inj hr').symm
      rw [State.tablesOnly_now (detach_tablesOnly s c)] at hr'
      refine ⟨hset, by rw [hr', Dest.withActive_active], fun hnone => ?_, fun hsome => ?_⟩
      · rw [hr', Dest.withActive, if_pos hnone]
      · refine ⟨by rw [hr', Dest.withActive, if_neg hsome], by rw [hr', Dest.withActive, if_neg hsome], ?_⟩
        rw [hset, setActive_changed, if_pos ⟨rfl, _, hudest, hsome⟩]
    · rw [removeCand_eq s c k hk, afterRemoval_checked hudest hne]
      exact chainEditCheck_selects hudest hactive
    · rw [hkept a hmem ha hu, refreshCost_changed, detach_changed]
      exact ⟨rfl, rfl⟩
  · rw [hkept a hmem ha (candUsable_detach hac hu), refreshCost_dest, hudest] at hr'
    exact (Option.some.inj hr').symm
  · have hsame := hcands e
    rwa [if_neg he] at hsame
  · rw [hlinks, if_neg hj]

/-! ### UPDATE CANDIDATE (R63 to R65) -/

theorem updateCandidate_eq {id mask hi lo position after : Byte} {c : CandId} (hid : id.toNat = c.val) (s : State) :
    updateCandidate [id, mask, hi, lo, position, after] s =
      if mask.getLsbD 1 && (placementOf position after).isNone then s.refuse .badValue
      else (s.cand c).elim (s.refuse .noRecord) fun k =>
        if mask.getLsbD 1 && (placementOf position after).any (·.isAfter c) then s.refuse .badValue
        else if mask.getLsbD 1 && (placementOf position after).any (·.misses (s.chainOf k.dest)) then s.refuse .noRecord
        else (s.rewriteCand c k.dest mask (word16 hi lo) (placementOf position after)).ok
          [(s.rewriteCand c k.dest mask (word16 hi lo) (placementOf position after)).destCode k.dest] := by
  simp only [updateCandidate, candOf_eq hid]
  cases s.cand c <;> rfl

/-- The destination's chain replaced, as a position write leaves it. -/
def State.rechain (s : State) (d : DestId) (r : Dest) (chain : List CandId) : State :=
  s.setDest d (some { r with chain := chain })

/-- Its own chain written over a destination changes nothing. -/
theorem rechain_self {s : State} {d : DestId} {r : Dest} (hr : s.dest d = some r) : s.rechain d r r.chain = s := by
  have hput : put s.dests d (some r) = s.dests := by
    rw [← hr]
    simp [put, State.dest, Vector.get]
  simp only [State.rechain, State.setDest, hput]

theorem moveCand_eq {s : State} {d : DestId} {r : Dest} (hr : s.dest d = some r) (c : CandId) (p : Placement) :
    s.moveCand c d p = s.rechain d r (placeIn p c (r.chain.erase c)) := by
  simp only [State.moveCand, State.updateDest, hr, State.rechain]

/-- A rewrite whose position byte, where its mask names one, makes `chain` of the destination's chain. -/
theorem rewriteCand_eq {s : State} {d : DestId} {r : Dest} {chain : List CandId} {c : CandId} {mask : Byte}
    {p : Option Placement} (hr : s.dest d = some r)
    (h : (mask.getLsbD 1 = false ∧ chain = r.chain) ∨
      (mask.getLsbD 1 = true ∧ ∃ q, p = some q ∧ chain = placeIn q c (r.chain.erase c))) (n : Nat) :
    s.rewriteCand c d mask n p =
      if mask.getLsbD 0 then (s.rechain d r chain).writeRemainder c d n else s.rechain d r chain := by
  rcases h with ⟨hmask, rfl⟩ | ⟨hmask, q, rfl, rfl⟩
  · rw [rechain_self hr]
    unfold State.rewriteCand
    rw [hmask]
  · rw [← moveCand_eq hr]
    unfold State.rewriteCand
    rw [hmask]

/-- A chain that holds a candidate, or the one before it, keeps the destination's state (R50). -/
theorem Dest.state_rechain {r : Dest} {chain : List CandId} (h : chain.isEmpty = r.chain.isEmpty) :
    ({ r with chain := chain } : Dest).state = r.state := by
  unfold Dest.state
  simp only [h]

/-- The chain that UPDATE CANDIDATE's mask and position bytes leave (R63, R65): the one before it, or the candidate taken
from its place and placed again. -/
def chainMoved (mask position after : Byte) (c : CandId) (whole chain : List CandId) : Prop :=
  (mask.getLsbD 1 = false ∧ chain = whole) ∨ (mask.getLsbD 1 = true ∧ c ∈ whole ∧
    ((position = 0 ∧ chain = c :: whole.erase c) ∨ (position = 1 ∧ chain = whole.erase c ++ [c]) ∨
      (position = 2 ∧ ∃ xs ys a, a.val = after.toNat ∧ a ≠ c ∧ a ∉ xs ∧ whole.erase c = xs ++ a :: ys ∧
        chain = xs ++ a :: c :: ys)))

theorem chainMoved_placeIn {mask position after : Byte} {c : CandId} {whole chain : List CandId}
    (h : chainMoved mask position after c whole chain) : (mask.getLsbD 1 = false ∧ chain = whole) ∨
      (mask.getLsbD 1 = true ∧ ∃ q, placementOf position after = some q ∧ chain = placeIn q c (whole.erase c) ∧
        c ∈ whole ∧ q.isAfter c = false ∧ q.misses whole = false) := by
  refine h.imp_right fun ⟨hmask, hc, hplaced⟩ => ⟨hmask, ?_⟩
  have hne : position = 2 → candOf after ≠ c := fun htwo => by
    rcases hplaced with ⟨rfl, -⟩ | ⟨rfl, -⟩ | ⟨-, -, -, a, hval, hac, -⟩
    · exact absurd htwo (by decide)
    · exact absurd htwo (by decide)
    · rwa [candOf_eq hval.symm]
  obtain ⟨q, hq, hchain, hmisses⟩ := chainPlaced_placeIn (position := position) (after := after) (c := c)
    (base := whole.erase c) (chain := chain)
    (hplaced.imp_right (Or.imp_right fun ⟨h2, xs, ys, a, hval, _, ha⟩ => ⟨h2, xs, ys, a, hval, ha⟩))
  refine ⟨q, hq, hchain, hc, ?_, hmisses whole fun e => List.mem_of_mem_erase⟩
  rcases hplaced with ⟨rfl, -⟩ | ⟨rfl, -⟩ | ⟨rfl, -⟩ <;> cases hq
  · rfl
  · rfl
  · exact Bool.eq_false_iff.2 fun h => hne rfl (isAfter_after.1 h)

/-- A move within a chain keeps its members. -/
theorem chainMoved_mem {mask position after : Byte} {c : CandId} {whole chain : List CandId}
    (h : chainMoved mask position after c whole chain) (e : CandId) : e ∈ chain ↔ e ∈ whole := by
  rcases chainMoved_placeIn h with ⟨-, rfl⟩ | ⟨-, q, -, rfl, hc, -⟩
  · rfl
  · rw [mem_placeIn]
    by_cases hec : e = c
    · simp only [hec, hc, true_or]
    · rw [List.mem_erase_of_ne hec, or_iff_right hec]

theorem chainMoved_isEmpty {mask position after : Byte} {c : CandId} {whole chain : List CandId}
    (h : chainMoved mask position after c whole chain) : chain.isEmpty = whole.isEmpty := by
  rw [Bool.eq_iff_iff, List.isEmpty_iff, List.isEmpty_iff, List.eq_nil_iff_forall_not_mem, List.eq_nil_iff_forall_not_mem]
  exact forall_congr' fun e => not_congr (chainMoved_mem h e)

/-- An accepted UPDATE CANDIDATE leaves the chain that its bytes make, and reprices where its mask says so. -/
theorem updateCandidate_moved {id mask hi lo position after : Byte} {c : CandId} (hid : id.toNat = c.val) {s : State}
    {k : Cand} {r : Dest} (hk : s.cand c = some k) (hr : s.dest k.dest = some r) {chain : List CandId}
    (h : chainMoved mask position after c r.chain chain) :
    updateCandidate [id, mask, hi, lo, position, after] s =
      if mask.getLsbD 0 then ((s.rechain k.dest r chain).writeRemainder c k.dest (word16 hi lo)).ok
        [((s.rechain k.dest r chain).writeRemainder c k.dest (word16 hi lo)).destCode k.dest]
      else (s.rechain k.dest r chain).ok [(s.rechain k.dest r chain).destCode k.dest] := by
  have hwhole : s.chainOf k.dest = r.chain := by simp only [State.chainOf, hr]
  have hspec := chainMoved_placeIn h
  rw [updateCandidate_eq hid, hk, Option.elim_some, hwhole, rewriteCand_eq (chain := chain) hr
    (hspec.imp_right fun ⟨hmask, q, hq, hchain, _⟩ => ⟨hmask, q, hq, hchain⟩)]
  rcases hspec with ⟨hmask, -⟩ | ⟨-, q, hq, -, -, hafter, hmisses⟩
  · simp only [hmask, Bool.false_and, Bool.false_eq_true, if_false]
    split <;> rfl
  · simp only [hq, Option.isNone_some, Option.any_some, hafter, hmisses, Bool.and_false, Bool.false_eq_true, if_false]
    split <;> rfl

/-- The state of an UPDATE CANDIDATE that writes the remainder cost, before its chain-edit check. -/
def State.repriced (s : State) (c : CandId) (k : Cand) (r : Dest) (chain : List CandId) (n : Nat) : State :=
  (s.rechain k.dest r chain).setCand c (some { k with remainder := n })

theorem repriced_spec {s : State} {c : CandId} {k : Cand} {n : Nat} (hk : s.cand c = some k) (r : Dest)
    (chain : List CandId) :
    (s.rechain k.dest r chain).writeRemainder c k.dest n = (s.repriced c k r chain n).chainEditCheck k.dest ∧
      (s.repriced c k r chain n).dest k.dest = some { r with chain := chain } ∧
      (∀ e, (s.repriced c k r chain n).cand e = if e = c then some { k with remainder := n } else s.cand e) ∧
      (∀ e, e ≠ k.dest → (s.repriced c k r chain n).dest e = s.dest e) ∧ s.pathsOnly (s.repriced c k r chain n) ∧
      (s.repriced c k r chain n).changed = s.changed := by
  refine ⟨?_, ?_, fun e => ?_, fun e he => ?_, rfl, rfl⟩
  · have hcand : (s.rechain k.dest r chain).cand c = some k := hk
    simp only [State.writeRemainder, State.updateCand, hcand, State.repriced]
  · rw [State.repriced, dest_setCand, State.rechain, dest_setDest, if_pos rfl]
  · rw [State.repriced, cand_setCand, State.rechain, cand_setDest]
  · rw [State.repriced, dest_setCand, State.rechain, dest_setDest, if_neg he]

/-- Settles O21: the checks of `updateCandidate_eq`, the move of `updateCandidate_moved`, and the chain-edit check of the
remainder write. -/
theorem updateCandidateMovesOrReprices : Obligations.UpdateCandidateMovesOrReprices := by
  intro s id mask hi lo position after c hhand hid
  have refused {e : Status} (hrule : updateCandidate [id, mask, hi, lo, position, after] s = s.refuse e) :
      exec .updateCandidate s = .next (s.giveAnswer ⟨e, []⟩) :=
    carryOut_refused (code := Code.updateCandidate) (rule := updateCandidate) hhand rfl hrule
  have done {t : State} {rs : List Byte} (hrule : updateCandidate [id, mask, hi, lo, position, after] s = t.ok rs) :
      exec .updateCandidate s = .next (t.giveAnswer ⟨.ok, rs⟩) :=
    carryOut_done (code := Code.updateCandidate) (rule := updateCandidate) hhand rfl hrule
  have hrule := updateCandidate_eq (mask := mask) (hi := hi) (lo := lo) (position := position) (after := after) hid s
  refine ⟨fun hmask hbad => refused ?_, fun hvalue hfree => refused ?_, fun k r hk hr => ?_⟩
  · rw [hrule, placementOf_none hbad, hmask]
    rfl
  · have hknown : ¬ (mask.getLsbD 1 && (placementOf position after).isNone) = true := fun h => by
      obtain ⟨hmask, hnone⟩ := Bool.and_eq_true_iff.1 h
      obtain ⟨p, hp⟩ := placementOf_isSome (hvalue hmask) after
      rw [hp] at hnone
      cases hnone
    rw [hrule, if_neg hknown, hfree]
    rfl
  have hwhole : s.chainOf k.dest = r.chain := by simp only [State.chainOf, hr]
  refine ⟨fun hmask htwo hself => refused ?_, fun hmask htwo hother hout => refused ?_, fun hkeep hstay => done ?_,
    fun chain hchain => ?_⟩
  · have hafter : (Placement.after (candOf after)).isAfter c = true := isAfter_after.2 (candOf_eq hself)
    rw [hrule, hmask, htwo, placementOf_after, hk]
    simp only [Option.isNone_some, Option.elim_some, Option.any_some, hafter,
      Bool.and_false, Bool.and_true, Bool.false_eq_true, if_false, if_true]
  · have hafter : (Placement.after (candOf after)).isAfter c = false :=
      Bool.eq_false_iff.2 fun h => candOf_ne hother (isAfter_after.1 h)
    have hmisses : (Placement.after (candOf after)).misses r.chain = true := misses_after.2 fun hm => hout _ hm rfl
    rw [hrule, hmask, htwo, placementOf_after, hk]
    simp only [Option.isNone_some, Option.elim_some, Option.any_some, hafter,
      hwhole, hmisses, Bool.and_false, Bool.and_true, Bool.false_eq_true, if_false, if_true]
  · rw [updateCandidate_moved hid hk hr (.inl ⟨hstay, rfl⟩), rechain_self hr, hkeep, destCode_eq hr]
    rfl
  have hmoved : chainMoved mask position after c r.chain chain := hchain
  have hruleMoved := updateCandidate_moved (hi := hi) (lo := lo) hid hk hr hmoved
  have hdest : (s.rechain k.dest r chain).dest k.dest = some { r with chain := chain } := by
    rw [State.rechain, dest_setDest, if_pos rfl]
  refine ⟨fun hkeep _ => done ?_, fun hreprice => ?_⟩
  · rw [hruleMoved, hkeep, destCode_eq hdest, Dest.state_rechain (chainMoved_isEmpty hmoved)]
    rfl
  rw [if_pos hreprice] at hruleMoved
  obtain ⟨hwrite, hudest, hucand, huothers, hupaths, huchanged⟩ := repriced_spec (n := word16 hi lo) hk r chain
  rw [hwrite] at hruleMoved
  have hu : s.repriced c k r chain (word16 hi lo) = (s.setDest k.dest (some { r with chain := chain })).setCand c
      (some { k with remainder := hi.toNat * 256 + lo.toNat }) := rfl
  generalize s.repriced c k r chain (word16 hi lo) = u at hruleMoved hudest hucand huothers hupaths huchanged hu
  have hcheck := chainEditCheck_reselects u k.dest
  obtain ⟨r', hr', hrchain, haddress⟩ := hcheck.dest_kept hudest
  obtain ⟨k', hk', hkeq⟩ := sameButCost_some ((hucand c).trans (if_pos rfl) ▸ hcheck.same c)
  rw [destCode_eq hr'] at hruleMoved
  refine ⟨u.chainEditCheck k.dest, r', k', done hruleMoved, hr', hrchain, haddress, hk', hkeq, fun v hv => ?_, fun e he => ?_,
    fun e he => ?_, State.pathsOnly_trans hupaths hcheck.pathsOnly⟩
  · have hv : v = u := hv.trans hu.symm
    subst hv
    refine ⟨fun a hmem ha hu => ?_, fun h => chainEditCheck_selects hudest (h.imp_right ?_)⟩
    · have hkept := chainEditCheck_kept hudest ha ((chainMoved_mem hmoved a).2 hmem) hu
      rw [hkept, refreshCost_dest, hudest] at hr'
      rw [hkept, refreshCost_changed]
      exact ⟨(Option.some.inj hr').symm, rfl, huchanged⟩
    · rintro ⟨a, ha, hout⟩
      exact ⟨a, ha, hout.imp_left fun hnot hin => hnot ((chainMoved_mem hmoved a).1 hin)⟩
  · have hsame := hcheck.same e
    rwa [hucand, if_neg he] at hsame
  · rw [hcheck.dest_ne he, huothers e he, hcheck.changed_ne he, huchanged]
    exact ⟨rfl, rfl⟩

end Sys2Proof.Machine
end
